-- ==== Sys2Proof/Word.lean ====
section
/-! DEFINITION. The words of CANSEQ: bus words, bytes and interrupt numbers (spec R6 `XLEN`, R7, R90). -/

namespace Sys2Proof

/-- A register, bus word or table slot: `XLEN = 32` bits (R6). Arithmetic wraps (R7). -/
abbrev Word := BitVec 32

/-- A byte of payload or of table RAM (R11, R61). -/
abbrev Byte := BitVec 8

/-- An interrupt number: the `idx` byte of a command word (R90). -/
abbrev Irq := BitVec 8

end Sys2Proof
end

