-- ==== Sys2Proof/Config.lean ====
section
/-! DEFINITION. The parameters of R6 and R48 (a record, so that a claim can be made for every value), their
suggested defaults, and the one source of free values. -/

namespace Sys2Proof

/-- `SOLVER_FALLBACK` (R6, R143): what the solver returns when no candidate matches. -/
inductive Fallback where
  | nearest
  | zero
  deriving DecidableEq, Repr

/-- `TX_ORDER` (R6, R237): which pending mailbox the controller attempts next. -/
inductive TxOrder where
  | requestOrder
  | anyOrder
  deriving DecidableEq, Repr

/-- The named parameters of R6 and the callback tokens of R48. `State` holds one record of them, which no
step changes: every value of a parameter is a different machine (log 2). -/
structure Params where
  /-- `N_VEC`: slots of the vector table. -/
  nVec : Nat
  irqRx0 : Irq
  irqRx1 : Irq
  prioRx : Byte
  canBase : Word
  nvicBase : Word
  vtorAddr : Word
  vtBase : Word
  flashVt : Word
  fifoDepth : Nat
  solverFallback : Fallback
  txOrder : TxOrder
  cbDefault : Word
  cbRx0 : Word
  cbRx1 : Word
  /-- `ExtAction` (R124): the command words an external callback issues before it returns, by token; a token
  not listed returns at once and changes nothing (log 22). -/
  extAction : List (Word × List Word)
  deriving DecidableEq, Repr

/-- The defaults of R6, with the conventions of 95_test_vectors.md where R6 suggests no value (log 3). -/
def Params.default : Params where
  nVec := 128
  irqRx0 := 20#8
  irqRx1 := 21#8
  prioRx := 0x50#8
  canBase := 0x40006400#32
  nvicBase := 0xE000E100#32
  vtorAddr := 0xE000ED08#32
  vtBase := 0x20000000#32
  flashVt := 0x08000000#32
  fifoDepth := 3
  solverFallback := .nearest
  txOrder := .requestOrder
  cbDefault := 0#32
  cbRx0 := 1#32
  cbRx1 := 2#32
  extAction := []

/-- The least power of two, from `p` on, that is not below `n`; `fuel` doublings at most. -/
def powerFrom : Nat → Nat → Nat → Nat
  | 0, p, _ => p
  | fuel + 1, p, n => if n ≤ p then p else powerFrom fuel (2 * p) n

/-- The constraints R6, R48 and D34 put on the parameters, and those that follow from the widths of the fields
they fill (`idx` has 8 bits, `FMP` has 2; log 2, log 31). -/
def Params.wf (p : Params) : Bool :=
  decide (p.irqRx0 ≠ p.irqRx1) && decide (p.irqRx0.toNat < p.nVec) && decide (p.irqRx1.toNat < p.nVec)
    && decide (p.nVec ≤ 256)
    && decide (p.vtBase.toNat % (4 * powerFrom 8 1 p.nVec) = 0) && decide (p.vtBase.toNat % 4 = 0)
    && decide (p.vtBase.toNat + 4 * p.nVec ≤ 2 ^ 32)
    && decide (p.flashVt ≠ p.vtBase)
    && decide (p.canBase.toNat % 4 = 0) && decide (p.nvicBase.toNat % 4 = 0) && decide (p.vtorAddr.toNat % 4 = 0)
    && decide (1 ≤ p.fifoDepth) && decide (p.fifoDepth ≤ 3)
    && decide (p.cbDefault ≠ p.cbRx0) && decide (p.cbDefault ≠ p.cbRx1) && decide (p.cbRx0 ≠ p.cbRx1)

/-- A free value: what the `n`-th read of an unspecified bit finds there (R64, R320, U1, U2; log 6).
It has no body: no proof can see it. -/
opaque Config.freeWord : Nat → Word

end Sys2Proof
end

