-- ==== Sys2Proof/Syntax.lean ====
section
/-! DEFINITION. The operations of CANSEQ: one constructor per row of spec/opcode_table.json (R93, R94, R95). -/

namespace Sys2Proof

/-- The operations. `idx` operands are the raw byte of the command word: the ranges of R97 are checked when the
operation is started, after the context (R260). -/
inductive Instr where
  -- command words (R93)
  | vtRelocate
  | vtInstall (k : Irq)
  | vtDispatch (k : Irq)
  | btSolve
  | mbSend (n : Byte)
  | mbUpdate (n : Byte)
  | mbAbort (n : Byte)
  | esUpdate
  | esLabel (c : Byte)
  | canInit
  | canStart
  | canSend
  | canRxisr (f : Byte)
  | canGeterr
  | canGetmb (n : Byte)
  -- sequencer steps (R94)
  | stepReset
  | stepExitsleep
  | stepEnterconfig
  | stepOptions
  | stepTiming
  | stepFilter
  | stepLeaveconfig
  | stepEnableirq
  -- callback bodies (R95)
  | cbDefault
  | cbRx0
  | cbRx1
  deriving DecidableEq, Repr

end Sys2Proof
end

