-- ==== Sys2Proof/WellFormed.lean ====
section
/-! DEFINITION. Which operations are well formed: the operand ranges of R97 (those that stand in the command
word; the ranges of `ARG_LEN` and `ARG_ID` are about latches, see Machine/Operands.lean). -/

namespace Sys2Proof

/-- R97: interrupt numbers `0 .. N_VEC-1`, mailboxes `0 .. 2`, FIFOs `0 .. 1`, error codes `0 .. 7`. -/
def Instr.wellFormed (p : Params) : Instr → Bool
  | .vtInstall k | .vtDispatch k => decide (k.toNat < p.nVec)
  | .mbSend n | .mbUpdate n | .mbAbort n | .canGetmb n => decide (n.toNat ≤ 2)
  | .canRxisr f => decide (f.toNat ≤ 1)
  | .esLabel c => decide (c.toNat ≤ 7)
  | .vtRelocate | .btSolve | .esUpdate | .canInit | .canStart | .canSend | .canGeterr
  | .stepReset | .stepExitsleep | .stepEnterconfig | .stepOptions | .stepTiming | .stepFilter
  | .stepLeaveconfig | .stepEnableirq | .cbDefault | .cbRx0 | .cbRx1 => true

end Sys2Proof
end

