-- ==== Sys2Proof/Decode.lean ====
section
/-! DEFINITION. The three decoders of R91 (command words, sequencer codes, callback tokens), total on any bits,
and the encoder written from the same tables (R90, R93, R94, R95). -/

namespace Sys2Proof

/-- Why a command word is illegal (R96). -/
inductive DecodeError where
  /-- `op` is not one of the fifteen values of R93. -/
  | unknownOp
  /-- Bits 31:16 are not 0. -/
  | zeroField
  /-- A `C0` operation with `idx != 0`. -/
  | strayIdx
  deriving DecidableEq, Repr

/-- `op = w[7:0]` (R90). -/
def opField (w : Word) : Byte := w.extractLsb' 0 8
/-- `idx = w[15:8]` (R90). -/
def idxField (w : Word) : Byte := w.extractLsb' 8 8
/-- `zero = w[31:16]` (R90). -/
def zeroField (w : Word) : BitVec 16 := w.extractLsb' 16 16

/-- A `C0` operation takes no operand: `idx` must be 0 (R91, R96). -/
def c0 (idx : Byte) (i : Instr) : Except DecodeError Instr :=
  if idx = 0#8 then .ok i else .error .strayIdx

/-- The operation map R93 on `op` and `idx`. -/
def decodeOp (op idx : Byte) : Except DecodeError Instr :=
  if op = 0x01#8 then c0 idx .vtRelocate
  else if op = 0x02#8 then .ok (.vtInstall idx)
  else if op = 0x03#8 then .ok (.vtDispatch idx)
  else if op = 0x10#8 then c0 idx .btSolve
  else if op = 0x20#8 then .ok (.mbSend idx)
  else if op = 0x21#8 then .ok (.mbUpdate idx)
  else if op = 0x22#8 then .ok (.mbAbort idx)
  else if op = 0x30#8 then c0 idx .esUpdate
  else if op = 0x31#8 then .ok (.esLabel idx)
  else if op = 0x40#8 then c0 idx .canInit
  else if op = 0x47#8 then c0 idx .canStart
  else if op = 0x50#8 then c0 idx .canSend
  else if op = 0x51#8 then .ok (.canRxisr idx)
  else if op = 0x52#8 then c0 idx .canGeterr
  else if op = 0x53#8 then .ok (.canGetmb idx)
  else .error .unknownOp

/-- Decoding a command word (R90, R93, R96). -/
def decodeCommand (w : Word) : Except DecodeError Instr :=
  if zeroField w = 0#16 then decodeOp (opField w) (idxField w) else .error .zeroField

/-- Decoding a sequencer code (R94): codes 0 and 9 name no step, 10 to 15 are reserved. -/
def decodeSeq (c : BitVec 4) : Option Instr :=
  if c = 1#4 then some .stepReset
  else if c = 2#4 then some .stepExitsleep
  else if c = 3#4 then some .stepEnterconfig
  else if c = 4#4 then some .stepOptions
  else if c = 5#4 then some .stepTiming
  else if c = 6#4 then some .stepFilter
  else if c = 7#4 then some .stepLeaveconfig
  else if c = 8#4 then some .stepEnableirq
  else none

/-- Decoding a callback token (R95): any other token is external (R124). -/
def decodeToken (p : Params) (t : Word) : Option Instr :=
  if t = p.cbDefault then some .cbDefault
  else if t = p.cbRx0 then some .cbRx0
  else if t = p.cbRx1 then some .cbRx1
  else none

/-- The encoding of an operation, in one of the three spaces of R91. -/
inductive Encoded where
  | command (w : Word)
  | seq (c : BitVec 4)
  | token (t : Word)
  deriving DecidableEq, Repr

/-- A command word from its fields (R90): `zero ++ idx ++ op`. -/
def commandWord (op idx : Byte) : Word := 0#16 ++ idx ++ op

/-- The encoder (R93, R94, R95). -/
def encode (p : Params) : Instr → Encoded
  | .vtRelocate => .command (commandWord 0x01#8 0#8)
  | .vtInstall k => .command (commandWord 0x02#8 k)
  | .vtDispatch k => .command (commandWord 0x03#8 k)
  | .btSolve => .command (commandWord 0x10#8 0#8)
  | .mbSend n => .command (commandWord 0x20#8 n)
  | .mbUpdate n => .command (commandWord 0x21#8 n)
  | .mbAbort n => .command (commandWord 0x22#8 n)
  | .esUpdate => .command (commandWord 0x30#8 0#8)
  | .esLabel c => .command (commandWord 0x31#8 c)
  | .canInit => .command (commandWord 0x40#8 0#8)
  | .canStart => .command (commandWord 0x47#8 0#8)
  | .canSend => .command (commandWord 0x50#8 0#8)
  | .canRxisr f => .command (commandWord 0x51#8 f)
  | .canGeterr => .command (commandWord 0x52#8 0#8)
  | .canGetmb n => .command (commandWord 0x53#8 n)
  | .stepReset => .seq 1#4
  | .stepExitsleep => .seq 2#4
  | .stepEnterconfig => .seq 3#4
  | .stepOptions => .seq 4#4
  | .stepTiming => .seq 5#4
  | .stepFilter => .seq 6#4
  | .stepLeaveconfig => .seq 7#4
  | .stepEnableirq => .seq 8#4
  | .cbDefault => .token p.cbDefault
  | .cbRx0 => .token p.cbRx0
  | .cbRx1 => .token p.cbRx1

/-- The decoder over all three spaces; `none` is a refusal (an illegal word, a code of no step, an external
token). -/
def decode (p : Params) : Encoded → Option Instr
  | .command w => (decodeCommand w).toOption
  | .seq c => decodeSeq c
  | .token t => decodeToken p t

/-- The host's view of the decoder (log 26): a row of fewer than 32 bits is a sequencer code; a 32-bit row is
read as a command word, and as a callback token (under the default parameters) if no command has that word. -/
def decodeTableWord (nbits w : Nat) : Option Instr :=
  if nbits < 32 then
    if w < 16 then decodeSeq (BitVec.ofNat 4 w) else none
  else if w < 2 ^ 32 then
    match decodeCommand (BitVec.ofNat 32 w) with
    | .ok i => some i
    | .error _ => decodeToken Params.default (BitVec.ofNat 32 w)
  else none

end Sys2Proof
end

