-- ==== Sys2Proof/Machine/State.lean ====
section
/-! DEFINITION. The state of CANSEQ (R10 to R54), what can stop a run (R260), and the state after power-on
reset. Plain data throughout. -/

namespace Sys2Proof.Machine

/-! ## Indices and small records -/

/-- A transmit mailbox (R6 `N_MB = 3`). -/
inductive MbIdx where
  | mb0 | mb1 | mb2
  deriving DecidableEq, Repr

/-- A receive FIFO (R6 `N_FIFO = 2`). -/
inductive FifoIdx where
  | f0 | f1
  deriving DecidableEq, Repr

/-- One thing for each mailbox. -/
structure PerMb (α : Type) where
  mb0 : α
  mb1 : α
  mb2 : α
  deriving DecidableEq, Repr

/-- One thing for each receive FIFO. -/
structure PerFifo (α : Type) where
  f0 : α
  f1 : α
  deriving DecidableEq, Repr

/-- Four payload bytes, one half of a payload (R61). -/
structure Quad where
  b0 : Byte
  b1 : Byte
  b2 : Byte
  b3 : Byte
  deriving DecidableEq, Repr

/-- The "fixed 8-byte array" of a Frame: bytes 0-3 and 4-7 (R9, R11). -/
structure Payload where
  lo : Quad
  hi : Quad
  deriving DecidableEq, Repr

/-- A received Frame (R17). -/
structure Frame where
  id : BitVec 29
  len : BitVec 4
  data : Payload
  deriving DecidableEq, Repr

/-- The operand latches (R11). -/
structure Args where
  id : Word
  len : BitVec 4
  data : Payload
  cb : Word
  clk : Word
  rate : Word
  deriving DecidableEq, Repr

/-- A BitTiming (R14). -/
structure BitTiming where
  prescaler : Word
  ts1 : Word
  ts2 : Word
  deriving DecidableEq, Repr

/-- A mailbox mirror (R15). -/
structure Mirror where
  requested : Bool
  requestComplete : Bool
  transmitOk : Bool
  arbitrationLost : Bool
  transmitError : Bool
  deriving DecidableEq, Repr

/-- An ErrorStatistic (R16). -/
structure ErrStat where
  recCount : Byte
  tecCount : Byte
  lec : BitVec 3
  busOff : Bool
  errorPassive : Bool
  errorWarning : Bool
  deriving DecidableEq, Repr

/-- The result latches (R12). -/
structure Results where
  ok : Bool
  label : BitVec 4
  mb : BitVec 5
  es : ErrStat
  deriving DecidableEq, Repr

/-- `OnReceive(f, frame)` (R18). -/
structure RxEvent where
  fifo : FifoIdx
  frame : Frame
  deriving DecidableEq, Repr

/-- The records of the diagnostic channel (R19). -/
inductive Diag where
  | unhandledInterrupt (k : Irq)
  | timingInexact (clock target prescaler : Word)
  deriving DecidableEq, Repr

/-- The execution context (R21). -/
inductive Ctx where
  | thread
  | interrupt (k : Irq)
  deriving DecidableEq, Repr

/-! ## The bus -/

/-- The registers of R23, by name. `slot k` is the vector table slot `VT[k]`; `iser k` and `ipr k` name the word
that holds line `k`. -/
inductive Reg where
  | mcr | msr | tsr | ier | esr | btr
  | rfr (f : FifoIdx)
  | tir (n : MbIdx) | tdtr (n : MbIdx) | tdlr (n : MbIdx) | tdhr (n : MbIdx)
  | rir (f : FifoIdx) | rdtr (f : FifoIdx) | rdlr (f : FifoIdx) | rdhr (f : FifoIdx)
  | fmr | fm1r | fs1r | ffa1r | fa1r | f0r1 | f0r2
  | iser (k : Irq) | ipr (k : Irq)
  | vtor
  | slot (k : Nat)
  deriving DecidableEq, Repr

/-- A word on the bus: its bits are those of `known`, but at the bits of the mask `opn`, which the spec leaves
unspecified, those of the free value `draw` (R64, U1, U2; log 6). -/
structure BusWord where
  known : Word
  opn : Word
  draw : Word
  deriving DecidableEq, Repr

/-- A stored register some of whose bits may be unspecified: those of the mask `unk` (R54, log 5). -/
structure UReg where
  val : Word
  unk : Word
  deriving DecidableEq, Repr

/-- The direction of a bus step. -/
inductive Dir where
  | read
  | write
  deriving DecidableEq, Repr

/-- One bus step (R66): `R addr -> v` or `W addr <- v`. -/
structure BusEvent where
  dir : Dir
  addr : Word
  word : BusWord
  deriving DecidableEq, Repr

/-! ## The controller -/

/-- The four registers of a transmit mailbox (R32 to R34). -/
structure MbRegs where
  tir : UReg
  tdtr : UReg
  tdlr : UReg
  tdhr : UReg
  deriving DecidableEq, Repr

/-- A received message as CANHW queues it (R51): identifier word, length code, payload words. -/
structure RxMsg where
  idword : Word
  dlc : BitVec 4
  lo : Word
  hi : Word
  deriving DecidableEq, Repr

/-- A receive FIFO: its queue, oldest first (R51), and the flags `FULL` and `FOVR` (R28). `FMP` is the length. -/
structure Fifo where
  queue : List RxMsg
  full : Bool
  fovr : Bool
  deriving DecidableEq, Repr

/-- The CAN register file (R25 to R43) and CANHW's hidden state (R50, R51, R238, R245). -/
structure Can where
  mcr : Word
  msr : Word
  tsr : Word
  ier : Word
  esr : Word
  btr : Word
  mbx : PerMb MbRegs
  fifo : PerFifo Fifo
  fmr : UReg
  fm1r : UReg
  fs1r : UReg
  ffa1r : UReg
  fa1r : UReg
  f0r1 : UReg
  f0r2 : UReg
  /-- `TXORDER`: mailboxes with a pending request, oldest first (R50). -/
  txOrder : List MbIdx
  /-- The mailbox whose transmission attempt is in progress (R238, R239; log 13). -/
  onAir : Option MbIdx
  /-- Bus-off: software has requested and left init mode (R245; log 16). -/
  recovering : Bool
  deriving DecidableEq, Repr

/-- The interrupt-controller registers (R44, R45): eight words of enables, sixty-four words of priorities. -/
structure Nvic where
  iser : Vector Word 8
  ipr : Vector Word 64
  deriving DecidableEq, Repr

/-- The table RAM as bytes, addresses strictly rising; an unlisted byte has no value yet (log 10). -/
abbrev Memory := List Host.Cell

/-! ## The engine's micro-step -/

/-- Who issues an operation (R92). `external` is an external callback (R124). -/
inductive Issuer where
  | host | engine | trampoline | callback | external
  deriving DecidableEq, Repr

/-- A word in the command port (R90). -/
structure PortWord where
  issuer : Issuer
  word : Word
  deriving DecidableEq, Repr

/-- What one bus step of an operation does (R8, R66). `v` is the operation's local: the word read last. -/
inductive BusOp where
  /-- `v <- RegRead(r)` -/
  | rd (r : Reg)
  /-- `RegWrite(r, w)` -/
  | wr (r : Reg) (w : Word)
  /-- `RegWrite(r, v | m)` -/
  | wrOr (r : Reg) (m : Word)
  /-- `RegWrite(r, v & ~m)` -/
  | wrAndNot (r : Reg) (m : Word)
  /-- the write of `SetPrio` (R188) -/
  | wrPrio (k : Irq) (p : Byte)
  /-- one iteration of `wait until RegRead(r)[b] = val` -/
  | wait (r : Reg) (b : Nat) (val : Bool)
  /-- the first write of `MB.SEND`, which a busy mailbox makes a fault (U6) -/
  | load (n : MbIdx) (w : Word)
  /-- the read of `TSR` in `MB.UPDATE`, after `TIR[n]` has been read -/
  | flags (n : MbIdx)
  /-- the read of `ESR` in `ES.UPDATE` -/
  | esr
  /-- the query of mailbox `n` in `CAN.SEND`, with the mailboxes still to be queried after it -/
  | query (n : MbIdx) (later : List MbIdx)
  | rxId (f : FifoIdx)
  | rxLen (f : FifoIdx)
  | rxLo (f : FifoIdx)
  | rxHi (f : FifoIdx)
  /-- the read of the slot in `VT.DISPATCH` -/
  | vector (k : Irq)
  deriving DecidableEq, Repr

/-- What an operation does inside the engine, without a bus step (R66). -/
inductive Quiet where
  | setSeq (c : BitVec 4)
  | initDone
  | resOk (b : Bool)
  | resMb (n : MbIdx)
  | resEs
  | deliver (f : FifoIdx)
  deriving DecidableEq, Repr

/-- A micro-operation. -/
inductive Op where
  | bus (b : BusOp)
  | quiet (q : Quiet)
  /-- a callback writes a command word to the port -/
  | issue (by_ : Issuer) (w : Word)
  /-- the callback returns (R270) -/
  | ret
  deriving DecidableEq, Repr

/-- The micro-step of a context: what is left of its operation, and the local `v` (R21). -/
structure Task where
  ops : List Op
  v : BusWord
  deriving DecidableEq, Repr

/-! ## The environment's inputs -/

/-- What the host does next (R10 (4), R11, R90). -/
inductive HostAct where
  | loadId (w : Word)
  | loadLen (l : BitVec 4)
  | loadData (d : Payload)
  | loadCb (w : Word)
  | loadClk (w : Word)
  | loadRate (w : Word)
  | issue (w : Word)
  deriving DecidableEq, Repr

/-- Error counters as the bus leaves them (R245). -/
structure Counters where
  tecCount : Nat
  recCount : Nat
  deriving DecidableEq, Repr

/-- One word for each filter register (R38 to R43). -/
structure FilterRegs where
  fmr : Word
  fm1r : Word
  fs1r : Word
  ffa1r : Word
  fa1r : Word
  f0r1 : Word
  f0r2 : Word
  deriving DecidableEq, Repr

/-- What a controller reset does to the filter registers, which the spec leaves open (R54, U1, U27; log 18). After
`unknown v` every bit is unspecified to a read, and CANHW itself goes by the environment's words `v`. -/
inductive FilterReset where
  | kept
  | cleared
  | unknown (v : FilterRegs)
  deriving DecidableEq, Repr

/-- The moves of CANHW (47_peripheral_agent.md). -/
inductive HwMove where
  /-- R231 -/
  | resetDone (fr : FilterReset)
  /-- R232 -/
  | wake
  | sleep
  /-- R233 -/
  | initEnter
  | initLeave
  /-- R237, R238; an attempt ends before anything else can happen on the bus (log 13) -/
  | txStart (n : MbIdx)
  | txSuccess (c : Counters)
  | txArbLost
  | txError (code : BitVec 3) (c : Counters)
  /-- R239 -/
  | abortDone (n : MbIdx)
  /-- R241: a frame is received; `bank` is the active filter bank that passes it -/
  | receive (bank : BitVec 5) (m : RxMsg) (c : Counters)
  /-- R245: a bus error outside a transmission of our own -/
  | busError (code : BitVec 3) (c : Counters)
  /-- R245: recovery from bus-off -/
  | busOffRecovered (c : Counters)
  deriving DecidableEq, Repr

/-- A move of the schedule (R66, R320): which agent acts next, and how. -/
inductive Move where
  /-- the engine takes its next bus step, or fetches its next operation -/
  | engine
  /-- the trampoline takes a pending interrupt, if there is one it may take (R266) -/
  | trampoline
  /-- CANHW moves -/
  | hw (m : HwMove)
  /-- another driver's line is asserted or released (R266) -/
  | line (k : Irq) (up : Bool)
  /-- another driver sets the priority of its line and enables it at the core (R180, R265, R266; log 39) -/
  | enableLine (k : Irq) (p : Byte)
  /-- the answer of the clock collaborator changes (R13) -/
  | clock (hz : Word)
  /-- power-on reset (R300) -/
  | powerOn
  deriving DecidableEq, Repr

/-! ## The state -/

/-- The state. Each field's rule is in INVENTORY.md's list. -/
@[ext]
structure State where
  cfg : Params
  args : Args
  clkHz : Word
  fClk : Word
  res : Results
  bt : BitTiming
  mb : PerMb Mirror
  es : ErrStat
  frameRx : Frame
  rxlog : List RxEvent
  diag : List Diag
  seq : BitVec 4
  initRun : Bool
  ctx : Ctx
  savedCtx : Ctx
  halted : Bool
  can : Can
  nvic : Nvic
  vtor : Word
  mem : Memory
  thread : Task
  isr : Task
  token : Option Word
  port : Option PortWord
  issuer : Issuer
  host : List HostAct
  sched : List Move
  lines : List Irq
  draws : Nat
  trace : List BusEvent
  deriving DecidableEq, Repr

/-! ## What stops a run -/

/-- Which operand is out of its range (R97). -/
inductive Operand where
  | interruptNumber | mailbox | fifoIndex | length | identifier
  deriving DecidableEq, Repr

/-- The outcomes of R260 that end a run, and U6. All are safe: the run stops, no state is claimed after it. -/
inductive Fault where
  /-- `IllegalCommand(word)`: raised by the fetch of a command word that does not decode (R96). Safe. -/
  | illegalCommand (w : Word)
  /-- `BadOperand(which)`: raised by the operand check of an operation, before any bus step (R97). Safe. -/
  | badOperand (which : Operand)
  /-- `RangeFault(code)`: raised by `ES.LABEL` with a code above 7 (R172). Safe. -/
  | rangeFault (c : Byte)
  /-- `ContextFault(op)`: raised by the context check (R92, R274). Safe. -/
  | contextFault (op : Instr)
  /-- `NotLive(k)`: raised by `VT.DISPATCH` while `VTOR != VT_BASE` (R122). Safe. -/
  | notLive (k : Irq)
  /-- `MB.SEND` finds its mailbox busy at its first write (R150 corner (c), U6). Safe. -/
  | busyMailbox (n : MbIdx)
  deriving DecidableEq, Repr

/-- Refusals: only an instruction without a meaning. -/
inductive Refusal where
  /-- Raised by `exec` for an instruction that has no meaning yet. Safe. -/
  | notModelled (mnemonic : String)
  deriving DecidableEq, Repr

/-! ## Reset -/

/-- A bus word all of whose bits are given. -/
def BusWord.lit (w : Word) : BusWord := ⟨w, 0#32, 0#32⟩

/-- No operation runs (R54). -/
def Task.idle : Task := ⟨[], BusWord.lit 0#32⟩

/-- A register none of whose bits is specified to a read; only CANHW may go by the word `w` in it (log 18). -/
def UReg.hidden (w : Word) : UReg := ⟨w, 0xFFFFFFFF#32⟩

/-- A register none of whose bits is specified (R54; the stored 0 is never read, log 5). -/
def UReg.unknown : UReg := UReg.hidden 0#32

/-- A register that reset sets to `w`. -/
def UReg.lit (w : Word) : UReg := ⟨w, 0#32⟩

/-- A mailbox after reset: `TXRQ = 0`, all else unspecified (R54). -/
def MbRegs.reset : MbRegs :=
  ⟨⟨0#32, 0xFFFFFFFE#32⟩, UReg.unknown, UReg.unknown, UReg.unknown⟩

/-- An empty FIFO (R54). -/
def Fifo.empty : Fifo := ⟨[], false, false⟩

/-- The controller after power-on reset (R25 to R43, R54). -/
def Can.reset : Can where
  mcr := 0x00010002#32
  msr := 0x00000C02#32
  tsr := 0x1C000000#32
  ier := 0#32
  esr := 0#32
  btr := 0x01230000#32
  mbx := ⟨MbRegs.reset, MbRegs.reset, MbRegs.reset⟩
  fifo := ⟨Fifo.empty, Fifo.empty⟩
  fmr := ⟨1#32, 0xFFFFFFFE#32⟩
  fm1r := UReg.lit 0#32
  fs1r := UReg.lit 0#32
  ffa1r := UReg.lit 0#32
  fa1r := UReg.lit 0#32
  f0r1 := UReg.unknown
  f0r2 := UReg.unknown
  txOrder := []
  onAir := none
  recovering := false

/-- `EN = 0`, `PRIO = 0` (R44, R45, R54). -/
def Nvic.reset : Nvic := ⟨Vector.replicate 8 0#32, Vector.replicate 64 0#32⟩

/-- A payload of zeros. -/
def Payload.zero : Payload := ⟨⟨0#8, 0#8, 0#8, 0#8⟩, ⟨0#8, 0#8, 0#8, 0#8⟩⟩

/-- An ErrorStatistic of zeros (log 4). -/
def ErrStat.zero : ErrStat := ⟨0#8, 0#8, 0#3, false, false, false⟩

/-- A mirror with every flag false (log 4). -/
def Mirror.clear : Mirror := ⟨false, false, false, false, false⟩

/-- Power-on reset (R54, R300) of the machine with parameters `p`. -/
def State.resetWith (p : Params) : State where
  cfg := p
  args := ⟨0#32, 0#4, Payload.zero, 0#32, 0#32, 0#32⟩
  clkHz := 0#32
  fClk := 0#32
  res := ⟨false, 0#4, 0#5, ErrStat.zero⟩
  bt := ⟨0#32, 0#32, 0#32⟩
  mb := ⟨Mirror.clear, Mirror.clear, Mirror.clear⟩
  es := ErrStat.zero
  frameRx := ⟨0#29, 0#4, Payload.zero⟩
  rxlog := []
  diag := []
  seq := 0#4
  initRun := false
  ctx := .thread
  savedCtx := .thread
  halted := false
  can := Can.reset
  nvic := Nvic.reset
  vtor := p.flashVt
  mem := []
  thread := Task.idle
  isr := Task.idle
  token := none
  port := none
  issuer := .host
  host := []
  sched := []
  lines := []
  draws := 0
  trace := []

/-- The machine right after power-on reset, with the default parameters. -/
def State.reset : State := State.resetWith Params.default

end Sys2Proof.Machine
end

