-- ==== Sys2Proof/Machine/Operands.lean ====
section
/-! DEFINITION. Operands: the indices of R97, bus words (R64), and the register images of R98 to R102. -/

namespace Sys2Proof.Machine

/-! ## Indices -/

/-- The mailbox an `idx` byte names (R97: `0 .. 2`). -/
def mbOfIdx (n : Byte) : Option MbIdx :=
  if n = 0#8 then some .mb0 else if n = 1#8 then some .mb1 else if n = 2#8 then some .mb2 else none

/-- The FIFO an `idx` byte names (R97: `0 .. 1`). -/
def fifoOfIdx (f : Byte) : Option FifoIdx :=
  if f = 0#8 then some .f0 else if f = 1#8 then some .f1 else none

/-- The number of a mailbox. -/
def MbIdx.toNat : MbIdx → Nat
  | .mb0 => 0
  | .mb1 => 1
  | .mb2 => 2

/-- The number of a FIFO. -/
def FifoIdx.toNat : FifoIdx → Nat
  | .f0 => 0
  | .f1 => 1

/-- The entry of mailbox `n`. -/
def PerMb.get {α : Type} (n : MbIdx) (t : PerMb α) : α :=
  match n with
  | .mb0 => t.mb0
  | .mb1 => t.mb1
  | .mb2 => t.mb2

/-- Replacing the entry of mailbox `n`. -/
def PerMb.set {α : Type} (n : MbIdx) (x : α) (t : PerMb α) : PerMb α :=
  match n with
  | .mb0 => { t with mb0 := x }
  | .mb1 => { t with mb1 := x }
  | .mb2 => { t with mb2 := x }

/-- The entry of FIFO `f`. -/
def PerFifo.get {α : Type} (f : FifoIdx) (t : PerFifo α) : α :=
  match f with
  | .f0 => t.f0
  | .f1 => t.f1

/-- Replacing the entry of FIFO `f`. -/
def PerFifo.set {α : Type} (f : FifoIdx) (x : α) (t : PerFifo α) : PerFifo α :=
  match f with
  | .f0 => { t with f0 := x }
  | .f1 => { t with f1 := x }

/-! ## Bus words -/

/-- The part of a bus word under the mask `m`: given bits only, where `m` meets no unspecified bit. -/
def BusWord.on (v : BusWord) (m : Word) : Word :=
  if v.opn &&& m = 0#32 then v.known &&& m
  else ((v.known &&& ~~~v.opn) ||| (v.draw &&& v.opn)) &&& m

/-- The whole word. -/
def BusWord.word (v : BusWord) : Word := v.on 0xFFFFFFFF#32

/-- Bit `b`. -/
def BusWord.bit (v : BusWord) (b : Nat) : Bool := (v.on (1#32 <<< b)).getLsbD b

/-- `v | m` (R8). -/
def BusWord.orMask (v : BusWord) (m : Word) : BusWord := ⟨v.known ||| m, v.opn &&& ~~~m, v.draw⟩

/-- `v & ~m` (R8). -/
def BusWord.andNotMask (v : BusWord) (m : Word) : BusWord := ⟨v.known &&& ~~~m, v.opn &&& ~~~m, v.draw⟩

/-- Byte `i` of a bus word. -/
def BusWord.byte (v : BusWord) (i : Nat) : Byte := (v.on (0xFF#32 <<< (8 * i))).extractLsb' (8 * i) 8

/-! ## Register images -/

/-- `IdWord(id)` (R98): standard iff `id <= 0x7FF`. -/
def idWord (id : Word) : Word :=
  if id ≤ 0x7FF#32 then id <<< 21 else (id <<< 3) ||| 0b100#32

/-- `IdOf(w)` (R99): `w[31:3]` if `w[2] = 1`, else `w[31:21]`. -/
def idOf (w : Word) : BitVec 29 :=
  if w.getLsbD 2 then w.extractLsb' 3 29 else (w.extractLsb' 21 11).setWidth 29

/-- The bits of an identifier word that `IdOf` looks at: `w[1]` and `w[0]` are ignored (R99). -/
def idUsed : Word := 0xFFFFFFFC#32

/-- `DlcWord(len)` (R100). -/
def dlcWord (len : BitVec 4) : Word := len.setWidth 32

/-- `LenOf(w) = min(w[3:0], 8)` (R100). -/
def lenOf (w : Word) : BitVec 4 :=
  if w.extractLsb' 0 4 ≤ 8#4 then w.extractLsb' 0 4 else 8#4

/-- Four payload bytes as a word, byte `i` at bits `8i+7:8i` (R61, R101). -/
def quadWord (q : Quad) : Word := q.b3 ++ q.b2 ++ q.b1 ++ q.b0

/-- `LoWord(d)` (R101). -/
def loWord (d : Payload) : Word := quadWord d.lo

/-- `HiWord(d)` (R101). -/
def hiWord (d : Payload) : Word := quadWord d.hi

/-- `BytesLo(w)`, `BytesHi(w)` (R101). -/
def bytesOf (w : Word) : Quad :=
  ⟨w.extractLsb' 0 8, w.extractLsb' 8 8, w.extractLsb' 16 8, w.extractLsb' 24 8⟩

/-- The same of a bus word, byte by byte. -/
def bytesOfBus (v : BusWord) : Quad := ⟨v.byte 0, v.byte 1, v.byte 2, v.byte 3⟩

/-- Resynchronisation jump width, quanta (R6). -/
def sjw : Word := 1#32

/-- `BtrWord(bt)` (R102): every field is the value minus one, truncated to its width. -/
def btrWord (bt : BitTiming) : Word :=
  ((bt.prescaler - 1#32) &&& 0x3FF#32)
    ||| (((bt.ts1 - 1#32) &&& 0xF#32) <<< 16)
    ||| (((bt.ts2 - 1#32) &&& 0x7#32) <<< 20)
    ||| (((sjw - 1#32) &&& 0x3#32) <<< 24)

end Sys2Proof.Machine
end

