-- ==== Sys2Proof/Machine/Flags.lean ====
section
/-! DEFINITION. Flags: the bits of the status registers (R25 to R31), the mirror flags and error fields
(R103, R104), and the masks of the sequences (R105). -/

namespace Sys2Proof.Machine

/-! ## Masks (R105) -/

def mInrq : Word := 0x00000001#32
def mSleep : Word := 0x00000002#32
def mOptions : Word := 0x000000FC#32
def mReset : Word := 0x00008000#32
def mFmpie : Word := 0x00000012#32
def mFinit : Word := 0x00000001#32
def mBank0 : Word := 0x00000001#32
def mRfom : Word := 0x00000020#32
def mTxrq : Word := 0x00000001#32

/-! ## Bit positions -/

/-- `MCR` (R25). -/
def bitInrq : Nat := 0
def bitSleep : Nat := 1
def bitTxpid : Nat := 2
def bitRflm : Nat := 3
def bitNart : Nat := 4
def bitAwum : Nat := 5
def bitAbom : Nat := 6
def bitReset : Nat := 15

/-- `MSR` (R26). -/
def bitInak : Nat := 0
def bitSlak : Nat := 1

/-- `TSR` (R27), for mailbox `n`: `s = 8n`. -/
def bitRqcp (n : MbIdx) : Nat := 8 * n.toNat
def bitTxok (n : MbIdx) : Nat := 8 * n.toNat + 1
def bitAlst (n : MbIdx) : Nat := 8 * n.toNat + 2
def bitTerr (n : MbIdx) : Nat := 8 * n.toNat + 3
def bitAbrq (n : MbIdx) : Nat := 8 * n.toNat + 7
def bitTme (n : MbIdx) : Nat := 26 + n.toNat

/-- `IER` (R29): `FMPIE0` is bit 1, `FMPIE1` bit 4. -/
def bitFmpie : FifoIdx → Nat
  | .f0 => 1
  | .f1 => 4

/-- `ESR` (R30). -/
def bitEwgf : Nat := 0
def bitEpvf : Nat := 1
def bitBoff : Nat := 2

/-- The word with only bit `b` set. -/
def oneBit (b : Nat) : Word := 1#32 <<< b

/-- Bit `b` of a word (R7). -/
def bitOf (w : Word) (b : Nat) : Bool := w.getLsbD b

/-- Setting the bits of `m`. -/
def setBits (w m : Word) : Word := w ||| m

/-- Clearing the bits of `m`. -/
def clearBits (w m : Word) : Word := w &&& ~~~m

/-- Replacing the bits of `m` by those of `x`. -/
def mergeBits (w m x : Word) : Word := (w &&& ~~~m) ||| (x &&& m)

/-! ## Mirror flags (R103) -/

/-- `MbFlags(n, tir, tsr)`. -/
def mbFlags (n : MbIdx) (tir tsr : Word) : Mirror where
  requested := bitOf tir 0
  requestComplete := bitOf tsr (bitRqcp n)
  transmitOk := bitOf tsr (bitTxok n)
  arbitrationLost := bitOf tsr (bitAlst n)
  transmitError := bitOf tsr (bitTerr n)

/-- `Free(n, tsr) = tsr[26 + n]`. -/
def free (n : MbIdx) (tsr : Word) : Bool := bitOf tsr (bitTme n)

/-- `AbortBit(n) = 1 << (8n + 7)`. -/
def abortBit (n : MbIdx) : Word := oneBit (bitAbrq n)

/-- A mirror as `RES_MB`: `requested` in bit 0 .. `transmit_error` in bit 4 (R12, R218). -/
def Mirror.bits (m : Mirror) : BitVec 5 :=
  BitVec.ofBool m.transmitError ++ BitVec.ofBool m.arbitrationLost ++ BitVec.ofBool m.transmitOk
    ++ BitVec.ofBool m.requestComplete ++ BitVec.ofBool m.requested

/-! ## Error fields (R104) -/

/-- `EsFields(e)`. -/
def esFields (e : Word) : ErrStat where
  recCount := e.extractLsb' 24 8
  tecCount := e.extractLsb' 16 8
  lec := e.extractLsb' 4 3
  busOff := bitOf e bitBoff
  errorPassive := bitOf e bitEpvf
  errorWarning := bitOf e bitEwgf

/-- The label of an error code (R172). -/
def errorLabel (c : BitVec 4) : String :=
  if c = 0#4 then "No Error"
  else if c = 1#4 then "Stuff Error"
  else if c = 2#4 then "Form Error"
  else if c = 3#4 then "Ack Error"
  else if c = 4#4 then "Bit1 Error"
  else if c = 5#4 then "Bit0 Error"
  else if c = 6#4 then "CRC Error"
  else "Software Error"

/-! ## Which bits of a register a read finds specified (R24 to R37)

The others are reserved, or are hardware bits that no rule reads (`MSR` but for `INAK` and `SLAK`, `CODE` and
`LOW0..2` of `TSR`, `FMI` and `TIME` of `RDTR`): a read finds free values there (U2, U17; log 7). -/

def seenMcr : Word := 0x000180FF#32
def seenMsr : Word := 0x00000003#32
def seenTsr : Word := 0x1C8F8F8F#32
def seenRfr : Word := 0x0000003B#32
def seenIer : Word := 0x00038F7F#32
def seenEsr : Word := 0xFFFF0077#32
def seenBtr : Word := 0xC37F03FF#32
def seenTdtr : Word := 0xFFFF010F#32
def seenRir : Word := 0xFFFFFFFE#32
def seenRdtr : Word := 0x0000000F#32

/-- The `rw` bits of a register a write stores (R24): `MCR` without `RESET`. -/
def rwMcr : Word := 0x000100FF#32
def rwTir : Word := 0xFFFFFFFE#32
/-- `LEC` of `ESR` (R30). -/
def rwEsr : Word := 0x00000070#32
/-- The `rc_w1` bits of `MSR` and `TSR` (R26, R27). -/
def rcMsr : Word := 0x0000001C#32
def rcTsr : Word := 0x000F0F0F#32

end Sys2Proof.Machine
end

