-- ==== Sys2Proof/Machine/Ops.lean ====
section
/-! DEFINITION. The shared operations: table RAM, the register map and bus accesses (R23, R24, R60 to R65), the
side effects of writes (R234, R236, R239, R242), the engine's tasks (R21), the context check (R92, R274), taking
an interrupt and returning from it (R266 to R270). -/

namespace Sys2Proof.Machine

/-! ## Table RAM -/

/-- The canonical form: addresses strictly rising (an unlisted byte has no value, so no entry is redundant). -/
abbrev Memory.wf (m : Memory) : Prop := m.Pairwise (fun a b => a.1 < b.1)

/-- The byte at address `a`, if one has been written. -/
def Memory.byteAt : Memory → Nat → Option Byte
  | [], _ => none
  | c :: r, a => if c.1 = a then some c.2 else Memory.byteAt r a

/-- Writing the byte at address `a`. -/
def Memory.putByte : Memory → Nat → Byte → Memory
  | [], a, b => [(a, b)]
  | c :: r, a, b =>
    if a < c.1 then (a, b) :: c :: r
    else if a = c.1 then (a, b) :: r
    else c :: Memory.putByte r a b

/-- Writing the word at address `a`, least significant byte first (log 9). -/
def Memory.putWord (m : Memory) (a : Nat) (w : Word) : Memory :=
  (((m.putByte a (w.extractLsb' 0 8)).putByte (a + 1) (w.extractLsb' 8 8)).putByte (a + 2)
    (w.extractLsb' 16 8)).putByte (a + 3) (w.extractLsb' 24 8)

/-- A byte's contribution to a word read from memory: its value, or nothing. -/
def knownByte (b : Option Byte) : Byte := b.getD 0#8

/-- The unspecified bits of a byte read from memory: all of one that has not been written (log 10). -/
def openByte (b : Option Byte) : Byte := if b.isSome then 0#8 else 0xFF#8

/-- Reading the word at address `a`. -/
def Memory.readWord (m : Memory) (a : Nat) (draw : Word) : BusWord where
  known := knownByte (m.byteAt (a + 3)) ++ knownByte (m.byteAt (a + 2)) ++ knownByte (m.byteAt (a + 1))
    ++ knownByte (m.byteAt a)
  opn := openByte (m.byteAt (a + 3)) ++ openByte (m.byteAt (a + 2)) ++ openByte (m.byteAt (a + 1))
    ++ openByte (m.byteAt a)
  draw := draw

/-- The address of slot `k`: `VT_BASE + 4*k` (R47). -/
def slotAddr (p : Params) (k : Nat) : Word := p.vtBase + BitVec.ofNat 32 (4 * k)

/-! ## The interrupt-controller registers -/

/-- Line `32*w + b` is bit `b` of `ISER[w]` (R44). -/
def enWord (k : Irq) : Fin 8 := ⟨k.toNat / 32, by have := k.isLt; omega⟩

/-- The word of `IPR` that holds line `k` (R45). -/
def prioWord (k : Irq) : Fin 64 := ⟨k.toNat / 4, by have := k.isLt; omega⟩

/-- The word of enables that holds line `k`. -/
def Nvic.enOf (n : Nvic) (k : Irq) : Word := n.iser[enWord k]

/-- The word of priorities that holds line `k`. -/
def Nvic.prioOf (n : Nvic) (k : Irq) : Word := n.ipr[prioWord k]

/-- Replacing the word of enables that holds line `k`. -/
def Nvic.setEn (n : Nvic) (k : Irq) (w : Word) : Nvic := { n with iser := n.iser.set (enWord k) w }

/-- Replacing the word of priorities that holds line `k`. -/
def Nvic.setPrio (n : Nvic) (k : Irq) (w : Word) : Nvic := { n with ipr := n.ipr.set (prioWord k) w }

/-- `EN[k]` (R44). -/
def State.en (s : State) (k : Irq) : Bool := bitOf (s.nvic.enOf k) (k.toNat % 32)

/-- `PRIO[k]` (R45). -/
def State.prio (s : State) (k : Irq) : Byte := (s.nvic.prioOf k).extractLsb' (8 * (k.toNat % 4)) 8

/-- `Live` (R46). -/
def State.live (s : State) : Bool := decide (s.vtor = s.cfg.vtBase)

/-! ## The register map -/

/-- The offset of a mailbox's or a FIFO's group of registers (R23, R49). -/
def groupOffset (base : Nat) (i : Nat) : Word := BitVec.ofNat 32 (base + 0x10 * i)

/-- The address of a register (R23). -/
def Reg.addr (p : Params) : Reg → Word
  | .mcr => p.canBase
  | .msr => p.canBase + 0x004#32
  | .tsr => p.canBase + 0x008#32
  | .rfr .f0 => p.canBase + 0x00C#32
  | .rfr .f1 => p.canBase + 0x010#32
  | .ier => p.canBase + 0x014#32
  | .esr => p.canBase + 0x018#32
  | .btr => p.canBase + 0x01C#32
  | .tir n => p.canBase + groupOffset 0x180 n.toNat
  | .tdtr n => p.canBase + groupOffset 0x184 n.toNat
  | .tdlr n => p.canBase + groupOffset 0x188 n.toNat
  | .tdhr n => p.canBase + groupOffset 0x18C n.toNat
  | .rir f => p.canBase + groupOffset 0x1B0 f.toNat
  | .rdtr f => p.canBase + groupOffset 0x1B4 f.toNat
  | .rdlr f => p.canBase + groupOffset 0x1B8 f.toNat
  | .rdhr f => p.canBase + groupOffset 0x1BC f.toNat
  | .fmr => p.canBase + 0x200#32
  | .fm1r => p.canBase + 0x204#32
  | .fs1r => p.canBase + 0x20C#32
  | .ffa1r => p.canBase + 0x214#32
  | .fa1r => p.canBase + 0x21C#32
  | .f0r1 => p.canBase + 0x240#32
  | .f0r2 => p.canBase + 0x244#32
  | .iser k => p.nvicBase + BitVec.ofNat 32 (4 * (k.toNat / 32))
  | .ipr k => p.nvicBase + 0x300#32 + BitVec.ofNat 32 (4 * (k.toNat / 4))
  | .vtor => p.vtorAddr
  | .slot k => slotAddr p k

/-! ## Views of the receive FIFOs (R28, R35 to R37, R51) -/

/-- `RFfR`: `FMP` is the length of the queue; `RFOM` reads 0, since a release is done at the write (R242). -/
def Fifo.rfr (q : Fifo) : Word :=
  (BitVec.ofNat 2 q.queue.length).setWidth 32 ||| (if q.full then oneBit 3 else 0#32)
    ||| (if q.fovr then oneBit 4 else 0#32)

/-- The bytes `from .. from+3` of a payload at or beyond length `len`, as a mask: they hold unspecified values
(R37, R241, U1). -/
def beyond (len : BitVec 4) (first : Nat) : Word :=
  if first + 4 ≤ (lenOf (dlcWord len)).toNat then 0#32
  else 0xFFFFFFFF#32 <<< (8 * ((lenOf (dlcWord len)).toNat - first))

/-- What a FIFO's output register shows: the head of the queue, or unspecified values (R35 to R37). -/
def Fifo.output (q : Fifo) (f : RxMsg → Word) (hidden : RxMsg → Word) (draw : Word) : BusWord :=
  match q.queue with
  | [] => ⟨0#32, 0xFFFFFFFF#32, draw⟩
  | m :: _ => ⟨f m, hidden m, draw⟩

/-! ## Reading a register (R64: no side effect) -/

/-- A register read under the mask of the bits a read finds specified. -/
def shown (w seen draw : Word) : BusWord := ⟨w, ~~~seen, draw⟩

/-- A stored register with unspecified bits, read under the mask of its implemented bits. -/
def UReg.shown (r : UReg) (seen draw : Word) : BusWord := ⟨r.val, r.unk ||| ~~~seen, draw⟩

/-- The value register `r` shows, with `draw` at its unspecified bits. -/
def State.view (s : State) (draw : Word) : Reg → BusWord
  | .mcr => shown s.can.mcr seenMcr draw
  | .msr => shown s.can.msr seenMsr draw
  | .tsr => shown s.can.tsr seenTsr draw
  | .rfr f => shown (s.can.fifo.get f).rfr seenRfr draw
  | .ier => shown s.can.ier seenIer draw
  | .esr => shown s.can.esr seenEsr draw
  | .btr => shown s.can.btr seenBtr draw
  | .tir n => (s.can.mbx.get n).tir.shown 0xFFFFFFFF#32 draw
  | .tdtr n => (s.can.mbx.get n).tdtr.shown seenTdtr draw
  | .tdlr n => (s.can.mbx.get n).tdlr.shown 0xFFFFFFFF#32 draw
  | .tdhr n => (s.can.mbx.get n).tdhr.shown 0xFFFFFFFF#32 draw
  | .rir f => (s.can.fifo.get f).output (·.idword) (fun _ => ~~~seenRir) draw
  | .rdtr f => (s.can.fifo.get f).output (fun m => dlcWord m.dlc) (fun _ => ~~~seenRdtr) draw
  | .rdlr f => (s.can.fifo.get f).output (·.lo) (fun m => beyond m.dlc 0) draw
  | .rdhr f => (s.can.fifo.get f).output (·.hi) (fun m => beyond m.dlc 4) draw
  | .fmr => s.can.fmr.shown 0xFFFFFFFF#32 draw
  | .fm1r => s.can.fm1r.shown 0xFFFFFFFF#32 draw
  | .fs1r => s.can.fs1r.shown 0xFFFFFFFF#32 draw
  | .ffa1r => s.can.ffa1r.shown 0xFFFFFFFF#32 draw
  | .fa1r => s.can.fa1r.shown 0xFFFFFFFF#32 draw
  | .f0r1 => s.can.f0r1.shown 0xFFFFFFFF#32 draw
  | .f0r2 => s.can.f0r2.shown 0xFFFFFFFF#32 draw
  | .iser k => shown (s.nvic.enOf k) 0xFFFFFFFF#32 draw
  | .ipr k => shown (s.nvic.prioOf k) 0xFFFFFFFF#32 draw
  | .vtor => shown s.vtor 0xFFFFFFFF#32 draw
  | .slot k => s.mem.readWord (slotAddr s.cfg k).toNat draw

/-- `RegRead(r)` (R8): the word read. -/
def State.regRead (s : State) (r : Reg) : BusWord := s.view (Config.freeWord s.draws) r

/-- The state after `RegRead(r)`: the bus step is recorded and the next read draws afresh. -/
def State.afterRead (s : State) (r : Reg) : State :=
  { s with draws := s.draws + 1, trace := s.trace ++ [⟨.read, r.addr s.cfg, s.regRead r⟩] }

/-! ## Writing a register (R24, R65) -/

/-- Storing the bits of the mask `m`; they become specified. -/
def UReg.store (r : UReg) (m : Word) (v : BusWord) : UReg :=
  ⟨clearBits r.val m ||| v.on m, clearBits r.unk m⟩

/-- Is mailbox `n` empty (`TMEn = 1`, R27)? -/
def Can.empty (c : Can) (n : MbIdx) : Bool := free n c.tsr

/-- Changing the registers of mailbox `n`. -/
def Can.setMbx (c : Can) (n : MbIdx) (r : MbRegs) : Can := { c with mbx := c.mbx.set n r }

/-- The flags of `TSR` a new transmit request clears, with `TMEn` (R236). -/
def requestClears (n : MbIdx) : Word :=
  oneBit (bitTme n) ||| oneBit (bitRqcp n) ||| oneBit (bitTxok n) ||| oneBit (bitAlst n) ||| oneBit (bitTerr n)

/-- The transmit request of mailbox `n` (R236): `TXRQ <- 1`, `TMEn <- 0`, its four flags cleared, `n` appended to
`TXORDER`. -/
def Can.requestTx (c : Can) (n : MbIdx) : Can :=
  let r := c.mbx.get n
  { c with
    mbx := c.mbx.set n { r with tir := { r.tir with val := setBits r.tir.val mTxrq } }
    tsr := clearBits c.tsr (requestClears n)
    txOrder := c.txOrder ++ [n] }

/-- A write of `TIR[n]` (R32, R234, R236): bits 31:1 are stored only while the mailbox is empty; a 1 in `TXRQ`
requests transmission unless it is already 1. -/
def Can.writeTir (c : Can) (n : MbIdx) (v : BusWord) : Can :=
  if c.empty n then
    let c' := c.setMbx n { c.mbx.get n with tir := (c.mbx.get n).tir.store rwTir v }
    if v.bit 0 && !bitOf (c.mbx.get n).tir.val 0 then c'.requestTx n else c'
  else c

/-- A write of `TDTR[n]`, `TDLR[n]` or `TDHR[n]`, honoured only while the mailbox is empty (R234). -/
def Can.writeContent (c : Can) (n : MbIdx) (f : MbRegs → MbRegs) : Can :=
  if c.empty n then c.setMbx n (f (c.mbx.get n)) else c

/-- The abort request of mailbox `n` (R239): not stored if the mailbox is empty. -/
def abortBits (tsr : Word) (v : BusWord) (n : MbIdx) : Word :=
  if v.bit (bitAbrq n) && !free n tsr then abortBit n else 0#32

/-- A write of `TSR` (R27, R239): 1s clear the `rc_w1` flags, 1s in `ABRQn` request aborts. -/
def Can.writeTsr (c : Can) (v : BusWord) : Can :=
  { c with tsr :=
      setBits (clearBits c.tsr (v.on rcTsr)) (abortBits c.tsr v .mb0 ||| abortBits c.tsr v .mb1 ||| abortBits c.tsr v .mb2) }

/-- The release of FIFO `f` (R242): the head leaves, `FULL <- 0`; on an empty FIFO nothing happens. -/
def Fifo.release (q : Fifo) : Fifo :=
  match q.queue with
  | [] => q
  | _ :: r => { q with queue := r, full := false }

/-- A write of `RFfR` (R28, R242): 1s clear `FULL` and `FOVR`, a 1 in `RFOM` releases the output mailbox. -/
def Fifo.writeRfr (q : Fifo) (v : BusWord) : Fifo :=
  let q' : Fifo := { q with full := q.full && !v.bit 3, fovr := q.fovr && !v.bit 4 }
  if v.bit 5 then q'.release else q'

/-- `MSR.INAK`: the controller is in init mode (R26). -/
def Can.inInit (c : Can) : Bool := bitOf c.msr bitInak

/-- `FMR.FINIT` as CANHW finds it (R38; where it is unspecified, what the environment put there, log 18). -/
def Can.finit (c : Can) : Bool := bitOf c.fmr.val 0

/-- Is filter bank 0 active (R42), as CANHW finds it (log 18)? -/
def Can.bank0Active (c : Can) : Bool := bitOf c.fa1r.val 0

/-- A write of a CAN register (R24 to R43, R234). -/
def Can.write (c : Can) (v : BusWord) : Reg → Can
  | .mcr => { c with mcr := mergeBits c.mcr rwMcr (v.on rwMcr) ||| v.on mReset }
  | .msr => { c with msr := clearBits c.msr (v.on rcMsr) }
  | .tsr => c.writeTsr v
  | .rfr f => { c with fifo := c.fifo.set f ((c.fifo.get f).writeRfr v) }
  | .ier => { c with ier := mergeBits c.ier seenIer (v.on seenIer) }
  | .esr => { c with esr := mergeBits c.esr rwEsr (v.on rwEsr) }
  | .btr => if c.inInit then { c with btr := mergeBits c.btr seenBtr (v.on seenBtr) } else c
  | .tir n => c.writeTir n v
  | .tdtr n => c.writeContent n (fun r => { r with tdtr := r.tdtr.store seenTdtr v })
  | .tdlr n => c.writeContent n (fun r => { r with tdlr := r.tdlr.store 0xFFFFFFFF#32 v })
  | .tdhr n => c.writeContent n (fun r => { r with tdhr := r.tdhr.store 0xFFFFFFFF#32 v })
  | .fmr => { c with fmr := c.fmr.store 0xFFFFFFFF#32 v }
  | .fm1r => if c.finit then { c with fm1r := c.fm1r.store 0xFFFFFFFF#32 v } else c
  | .fs1r => if c.finit then { c with fs1r := c.fs1r.store 0xFFFFFFFF#32 v } else c
  | .ffa1r => if c.finit then { c with ffa1r := c.ffa1r.store 0xFFFFFFFF#32 v } else c
  | .fa1r => { c with fa1r := c.fa1r.store 0xFFFFFFFF#32 v }
  | .f0r1 => if c.finit || !c.bank0Active then { c with f0r1 := c.f0r1.store 0xFFFFFFFF#32 v } else c
  | .f0r2 => if c.finit || !c.bank0Active then { c with f0r2 := c.f0r2.store 0xFFFFFFFF#32 v } else c
  | .rir _ | .rdtr _ | .rdlr _ | .rdhr _ => c
  | .iser _ | .ipr _ | .vtor | .slot _ => c

/-- The effect of `RegWrite(r, v)` on the registers and the table RAM, each a store of its own that is reached by the
register's name, so that parameters that make two addresses equal alias nothing (log 37). -/
def State.put (s : State) (r : Reg) (v : BusWord) : State :=
  match r with
  | .iser k => { s with nvic := s.nvic.setEn k (setBits (s.nvic.enOf k) v.word) }
  | .ipr k => { s with nvic := s.nvic.setPrio k v.word }
  | .vtor => { s with vtor := v.word }
  | .slot k => { s with mem := s.mem.putWord (slotAddr s.cfg k).toNat v.word }
  | r => { s with can := s.can.write v r }

/-- `RegWrite(r, v)` (R8): the effect, and the bus step recorded. -/
def State.regWrite (s : State) (r : Reg) (v : BusWord) : State :=
  { s.put r v with trace := s.trace ++ [⟨.write, r.addr s.cfg, v⟩] }

/-- The word of priorities that holds line `k`, with `PRIO[k] = p` (R188's `SetPrio`, R45). -/
def Nvic.withPrio (n : Nvic) (k : Irq) (p : Byte) : Word :=
  mergeBits (n.prioOf k) (0xFF#32 <<< (8 * (k.toNat % 4))) (p.setWidth 32 <<< (8 * (k.toNat % 4)))

/-- Another driver sets the priority of its line `k` and enables it at the core (R180 corner (c), R265, R266; log 39);
nothing for the block's own two lines, and nothing while the machine is halted (R262). -/
def enableLine (k : Irq) (p : Byte) (s : State) : State :=
  if s.halted || decide (k = s.cfg.irqRx0) || decide (k = s.cfg.irqRx1) then s
  else (s.put (.ipr k) (BusWord.lit (s.nvic.withPrio k p))).put (.iser k) (BusWord.lit (oneBit (k.toNat % 32)))

/-! ## Tasks (R21) -/

/-- The micro-step of the current context. -/
def State.task (s : State) : Task :=
  match s.ctx with
  | .thread => s.thread
  | .interrupt _ => s.isr

/-- Replacing it. -/
def State.setTask (s : State) (t : Task) : State :=
  match s.ctx with
  | .thread => { s with thread := t }
  | .interrupt _ => { s with isr := t }

/-- Replacing what is left of the operation, keeping its local. -/
def State.setOps (s : State) (ops : List Op) : State := s.setTask { s.task with ops := ops }

/-- Replacing the local. -/
def State.setLocal (s : State) (v : BusWord) : State := s.setTask { s.task with v := v }

/-- The return of a callback (R270): `CTX` goes back to the remembered context. -/
def leaveInterrupt (s : State) : State := { s with ctx := s.savedCtx }

/-- Engine-internal actions (R66: no bus step). -/
def runQuiet (q : Quiet) (s : State) : State :=
  match q with
  | .setSeq c => { s with seq := c }
  | .initDone => { s with seq := 9#4, initRun := false }
  | .resOk b => { s with res := { s.res with ok := b } }
  | .resMb n => { s with res := { s.res with mb := (s.mb.get n).bits } }
  | .resEs => { s with res := { s.res with es := s.es } }
  | .deliver f => { s with rxlog := s.rxlog ++ [⟨f, s.frameRx⟩] }

/-- The engine goes on with `ops`: the internal actions at their head happen at once, up to the next bus step,
the next command of a callback, or the end. -/
def proceed : List Op → State → State
  | [], s => s.setOps []
  | .quiet q :: r, s => proceed r (runQuiet q s)
  | .ret :: r, s => leaveInterrupt (s.setOps r)
  | .bus b :: r, s => s.setOps (.bus b :: r)
  | .issue i w :: r, s => s.setOps (.issue i w :: r)

/-- Starting an operation with the micro-operations `ops`; what was left of the caller comes after them. -/
def startOp (ops : List Op) (s : State) : State := proceed (ops ++ s.task.ops) s

/-! ## Taking an interrupt -/

/-- Entry (R267): the context is remembered, `CTX <- Interrupt(k)`, the interrupted operation keeps its micro-step,
and the first bus step will read the slot. -/
def enterInterrupt (k : Irq) (s : State) : State :=
  { s with savedCtx := s.ctx, ctx := .interrupt k, isr := ⟨[.bus (.vector k)], BusWord.lit 0#32⟩ }

/-- Line `IRQ_RXf` is asserted (R52, R243). -/
def State.rxLine (s : State) (f : FifoIdx) : Bool :=
  bitOf s.can.ier (bitFmpie f) && !(s.can.fifo.get f).queue.isEmpty

/-- The asserted lines: the block's own two, which CANHW alone drives (R52, R243, R247), and those of other drivers
(R266). -/
def State.asserted (s : State) : List Irq :=
  (if s.rxLine .f0 then [s.cfg.irqRx0] else []) ++ (if s.rxLine .f1 then [s.cfg.irqRx1] else [])
    ++ s.lines.filter (fun k => decide (k ≠ s.cfg.irqRx0) && decide (k ≠ s.cfg.irqRx1))

/-- Is `a` more urgent than `b` (R268): smaller priority value, then smaller number? -/
def State.moreUrgent (s : State) (a b : Irq) : Bool :=
  decide (s.prio a < s.prio b) || (decide (s.prio a = s.prio b) && decide (a < b))

/-- The most urgent of a list of lines. -/
def State.mostUrgent (s : State) : List Irq → Option Irq
  | [] => none
  | k :: r =>
    match s.mostUrgent r with
    | none => some k
    | some j => if s.moreUrgent j k then some j else some k

/-- The lines that are asserted and enabled (R265, R266). -/
def State.pending (s : State) : List Irq :=
  s.asserted.filter (fun k => s.en k && decide (k.toNat < s.cfg.nVec))

/-- The interrupt the trampoline may take now (R266, R268): `HALTED = 0`, `CTX = Thread`, the port free. -/
def State.takeable (s : State) : Option Irq :=
  if s.halted || decide (s.ctx ≠ .thread) || s.port.isSome then none else s.mostUrgent s.pending

/-- The trampoline acts (R266): it issues `VT.DISPATCH k`. -/
def trampolineAct (s : State) : State :=
  match s.takeable with
  | none => s
  | some k => { s with port := some ⟨.trampoline, commandWord 0x03#8 k⟩ }

/-! ## The checks before an operation (R260: context, then operands, then the body) -/

/-- Which contexts an operation is admitted in (R274). -/
inductive Admit where
  | threadOnly
  | anyContext
  | trampolineOnly
  | callbackOnly
  deriving DecidableEq, Repr

/-- The context check (R92, R274). -/
def Admit.holds (a : Admit) (s : State) : Bool :=
  match a with
  | .threadOnly => decide (s.ctx = .thread)
  | .anyContext => true
  | .trampolineOnly => decide (s.issuer = .trampoline) && decide (s.ctx = .thread)
  | .callbackOnly => decide (s.issuer = .callback) && decide (s.ctx ≠ .thread)

/-- `body` if the operation `i` is admitted in the current context, else `ContextFault(i)`. -/
def inContext (a : Admit) (i : Instr) (s : State) (body : Host.Outcome State Fault Refusal) :
    Host.Outcome State Fault Refusal :=
  if a.holds s then body else .fault (.contextFault i)

/-- `body` of the mailbox the operand names, else `BadOperand(mailbox)` (R97). -/
def withMailbox (n : Byte) (body : MbIdx → Host.Outcome State Fault Refusal) :
    Host.Outcome State Fault Refusal :=
  match mbOfIdx n with
  | some m => body m
  | none => .fault (.badOperand .mailbox)

/-- `body` of the FIFO the operand names, else `BadOperand(fifoIndex)` (R97). -/
def withFifo (f : Byte) (body : FifoIdx → Host.Outcome State Fault Refusal) :
    Host.Outcome State Fault Refusal :=
  match fifoOfIdx f with
  | some m => body m
  | none => .fault (.badOperand .fifoIndex)

/-- `body` if the interrupt number is in range, else `BadOperand(interruptNumber)` (R97). -/
def withIrq (k : Irq) (s : State) (body : Host.Outcome State Fault Refusal) :
    Host.Outcome State Fault Refusal :=
  if k.toNat < s.cfg.nVec then body else .fault (.badOperand .interruptNumber)

/-- `body` if the Frame operand is legal, else `BadOperand(length)` or `BadOperand(identifier)` (R97). -/
def withFrame (s : State) (body : Host.Outcome State Fault Refusal) : Host.Outcome State Fault Refusal :=
  if 8#4 < s.args.len then .fault (.badOperand .length)
  else if 0x1FFFFFFF#32 < s.args.id then .fault (.badOperand .identifier)
  else body

end Sys2Proof.Machine
end

