-- ==== Sys2Proof/Machine/Solver.lean ====
section
/-! DEFINITION. The bit-timing solver (R141 to R145). -/

namespace Sys2Proof.Machine

/-- `PRESC_BOUND` (R6). -/
def prescBound : Nat := 1023

/-- `QUANTA` (R6). -/
def quanta : Nat := 5

/-- The rate of candidate `p`: `(clock div p) div QUANTA` (R141). -/
def rateOf (clock p : Nat) : Nat := clock / p / quanta

/-- `abs(r - target)` on mathematical integers (R141, R142). -/
def dist (a b : Nat) : Nat := (a - b) + (b - a)

/-- The running best `(p, d)` (R141): replaced only by a strictly smaller distance. -/
def better (best : Option (Nat × Nat)) (p d : Nat) : Option (Nat × Nat) :=
  match best with
  | none => some (p, d)
  | some b => if d < b.2 then some (p, d) else best

/-- The scan of R141 over the candidates `p, p+1, ..., p+n-1`: the first match, or the best so far. -/
def scan (clock target : Nat) : Nat → Nat → Option (Nat × Nat) → Nat × Bool
  | 0, _, best => ((best.map Prod.fst).getD 0, false)
  | n + 1, p, best =>
    if rateOf clock p = target then (p, true)
    else scan clock target n (p + 1) (better best p (dist (rateOf clock p) target))

/-- `Solve(clock, target)` (R141), with what `SOLVER_FALLBACK` says when nothing matches (R143). -/
def solve (fb : Fallback) (clock target : Word) : BitTiming × Bool :=
  let r := scan clock.toNat target.toNat prescBound 1 none
  let p := if r.2 then r.1 else match fb with
    | .nearest => r.1
    | .zero => 0
  (⟨BitVec.ofNat 32 p, 3#32, 1#32⟩, r.2)

/-- `BT.SOLVE` (R140): `BT` is written, and an inexact result leaves one record. -/
def solveInto (clock rate : Word) (s : State) : State :=
  let r := solve s.cfg.solverFallback clock rate
  { s with
    bt := r.1
    diag := if r.2 then s.diag else s.diag ++ [.timingInexact clock rate r.1.prescaler] }

end Sys2Proof.Machine
end

