-- ==== Sys2Proof/Machine/Engine.lean ====
section
/-! DEFINITION. The engine: the bus-step programs of the operations (the pseudocode of 40 to 45) and what one
bus step does. -/

namespace Sys2Proof.Machine

/-! ## Programs -/

/-- `VT.RELOCATE` (R120): every slot in ascending order, then `VTOR`. -/
def relocateOps (p : Params) : List Op :=
  (List.range p.nVec).map (fun k => .bus (.wr (.slot k) p.cbDefault)) ++ [.bus (.wr .vtor p.vtBase)]

/-- `VT.INSTALL k, cb` (R121). -/
def installOps (k : Irq) (cb : Word) : List Op := [.bus (.wr (.slot k.toNat) cb)]

/-- `MB.UPDATE n` (R152). -/
def updateOps (n : MbIdx) : List Op := [.bus (.rd (.tir n)), .bus (.flags n)]

/-- `MB.SEND n, frame` (R150): identifier, length, low word, high word, then the request bit, then the update. -/
def sendOps (n : MbIdx) (a : Args) : List Op :=
  [.bus (.load n (idWord a.id)), .bus (.wr (.tdtr n) (dlcWord a.len)), .bus (.wr (.tdlr n) (loWord a.data)),
    .bus (.wr (.tdhr n) (hiWord a.data)), .bus (.rd (.tir n)), .bus (.wrOr (.tir n) mTxrq)] ++ updateOps n

/-- `MB.ABORT n` (R154): a pure write of the abort bit, then the wait. -/
def abortOps (n : MbIdx) : List Op :=
  [.bus (.wr .tsr (abortBit n)), .bus (.wait .tsr (bitAbrq n) false)]

/-- `ES.UPDATE` (R170). -/
def esUpdateOps : List Op := [.bus .esr]

/-- `CAN.SEND frame` (R210): the queries of mailboxes 0, 1, 2. -/
def canSendOps : List Op := [.bus (.query .mb0 [.mb1, .mb2])]

/-- `CAN.RXISR f` (R214): the reads, the Handler call, the release. The read of the high word is put in when the
length is known. -/
def rxOps (f : FifoIdx) : List Op :=
  [.bus (.rxId f), .bus (.rxLen f), .bus (.rxLo f), .quiet (.deliver f), .bus (.wr (.rfr f) mRfom)]

/-- A read-modify-write that sets the bits of `m` (D14). -/
def rmwSet (r : Reg) (m : Word) : List Op := [.bus (.rd r), .bus (.wrOr r m)]

/-- A read-modify-write that clears the bits of `m` (D14). -/
def rmwClear (r : Reg) (m : Word) : List Op := [.bus (.rd r), .bus (.wrAndNot r m)]

/-- Step 1 (R181). -/
def resetOps : List Op := rmwSet .mcr mReset ++ [.bus (.wait .mcr bitReset false)]

/-- Step 2 (R182). -/
def exitSleepOps : List Op := rmwClear .mcr mSleep ++ [.bus (.wait .msr bitSlak false)]

/-- Step 3 (R183). -/
def enterConfigOps : List Op := rmwSet .mcr mInrq ++ [.bus (.wait .msr bitInak true)]

/-- Step 4 (R184). -/
def optionsOps : List Op := rmwClear .mcr mOptions

/-- Step 5's bus step (R185). -/
def timingOps (bt : BitTiming) : List Op := [.bus (.wr .btr (btrWord bt))]

/-- Step 6 (R186). -/
def filterOps : List Op :=
  rmwSet .fmr mFinit ++ rmwSet .fs1r mBank0 ++ rmwClear .fm1r mBank0
    ++ [.bus (.wr .f0r1 0#32), .bus (.wr .f0r2 0#32)]
    ++ rmwClear .ffa1r mBank0 ++ rmwSet .fa1r mBank0 ++ rmwClear .fmr mFinit

/-- Step 7 and `CAN.START` (R187, R190). -/
def leaveConfigOps : List Op := rmwClear .mcr mInrq ++ [.bus (.wait .msr bitInak false)]

/-- `SetPrio(k, p)` (R188). -/
def setPrioOps (k : Irq) (p : Byte) : List Op := [.bus (.rd (.ipr k)), .bus (.wrPrio k p)]

/-- The enable of line `k` at the core (R188). -/
def enableOps (k : Irq) : List Op := [.bus (.wr (.iser k) (oneBit (k.toNat % 32)))]

/-- Step 8 (R188): peripheral enables, priorities, core enables, installs. -/
def enableIrqOps (p : Params) : List Op :=
  rmwSet .ier mFmpie ++ setPrioOps p.irqRx0 p.prioRx ++ setPrioOps p.irqRx1 p.prioRx
    ++ enableOps p.irqRx0 ++ enableOps p.irqRx1
    ++ installOps p.irqRx0 p.cbRx0 ++ installOps p.irqRx1 p.cbRx1

/-! ## One bus step -/

/-- A read that only fills the local, then `rest`. -/
def readStep (r : Reg) (rest : List Op) (s : State) : State :=
  proceed rest ((s.afterRead r).setLocal (s.regRead r))

/-- A write, then `rest`. -/
def writeStep (r : Reg) (v : BusWord) (rest : List Op) (s : State) : State := proceed rest (s.regWrite r v)

/-- One iteration of a wait (R8, R310): the loop goes on until the bit reads `val`. -/
def waitStep (r : Reg) (b : Nat) (val : Bool) (rest : List Op) (s : State) : State :=
  if (s.regRead r).bit b = val then readStep r rest s
  else ((s.afterRead r).setLocal (s.regRead r)).setOps (.bus (.wait r b val) :: rest)

/-- One query of `CAN.SEND` (R210): load the mailbox if it is free, else query the next, else fail. -/
def queryStep (n : MbIdx) (later : List MbIdx) (rest : List Op) (s : State) : State :=
  if free n ((s.regRead .tsr).on seenTsr) then
    readStep .tsr (sendOps n s.args ++ .quiet (.resOk true) :: rest) s
  else match later with
    | [] => readStep .tsr (.quiet (.resOk false) :: rest) s
    | m :: l => readStep .tsr (.bus (.query m l) :: rest) s

/-- The low payload word (R214): bytes 4..7 are read only if the length is above 4, and are 0 otherwise. -/
def rxLoStep (f : FifoIdx) (rest : List Op) (s : State) : State :=
  let s1 : State := { s with frameRx := { s.frameRx with data :=
    { s.frameRx.data with lo := bytesOfBus (s.regRead (.rdlr f)) } } }
  if 4#4 < s.frameRx.len then
    proceed (.bus (.rxHi f) :: rest) ((s1.afterRead (.rdlr f)).setLocal (s.regRead (.rdlr f)))
  else
    proceed rest (({ s1 with frameRx := { s1.frameRx with data :=
      { s1.frameRx.data with hi := Payload.zero.hi } } }.afterRead (.rdlr f)).setLocal (s.regRead (.rdlr f)))

/-- One bus step of an operation. -/
def busStep (b : BusOp) (rest : List Op) (s : State) : Host.Outcome State Fault Refusal :=
  match b with
  | .rd r => .next (readStep r rest s)
  | .wr r w => .next (writeStep r (BusWord.lit w) rest s)
  | .wrOr r m => .next (writeStep r (s.task.v.orMask m) rest s)
  | .wrAndNot r m => .next (writeStep r (s.task.v.andNotMask m) rest s)
  | .wrPrio k p =>
    .next (writeStep (.ipr k) ((s.task.v.andNotMask (0xFF#32 <<< (8 * (k.toNat % 4)))).orMask
      (p.setWidth 32 <<< (8 * (k.toNat % 4)))) rest s)
  | .wait r b val => .next (waitStep r b val rest s)
  | .load n w =>
    if s.can.empty n then .next (writeStep (.tir n) (BusWord.lit w) rest s) else .fault (.busyMailbox n)
  | .flags n =>
    .next (readStep .tsr rest
      { s with mb := s.mb.set n (mbFlags n (s.task.v.on mTxrq) ((s.regRead .tsr).on seenTsr)) })
  | .esr => .next (readStep .esr rest { s with es := esFields ((s.regRead .esr).on seenEsr) })
  | .query n later => .next (queryStep n later rest s)
  | .rxId f =>
    .next (readStep (.rir f) rest
      { s with frameRx := { s.frameRx with id := idOf ((s.regRead (.rir f)).on idUsed) } })
  | .rxLen f =>
    .next (readStep (.rdtr f) rest
      { s with frameRx := { s.frameRx with len := lenOf ((s.regRead (.rdtr f)).on seenRdtr) } })
  | .rxLo f => .next (rxLoStep f rest s)
  | .rxHi f =>
    .next (readStep (.rdhr f) rest
      { s with frameRx := { s.frameRx with data :=
        { s.frameRx.data with hi := bytesOfBus (s.regRead (.rdhr f)) } } })
  | .vector k =>
    .next { (readStep (.slot k.toNat) rest s) with token := some (s.regRead (.slot k.toNat)).word }

/-- One micro-operation at the head of a task. -/
def opStep (op : Op) (rest : List Op) (s : State) : Host.Outcome State Fault Refusal :=
  match op with
  | .bus b => busStep b rest s
  | .issue i w => .next { s.setOps rest with port := some ⟨i, w⟩ }
  | .quiet q => .next (proceed (.quiet q :: rest) s)
  | .ret => .next (proceed (.ret :: rest) s)

end Sys2Proof.Machine
end

