-- ==== Sys2Proof/Machine/ErrorStatistic.lean ====
section
/-! DEFINITION. The Error Statistic operations (R170 to R174). -/

namespace Sys2Proof.Machine

/-- `ES.UPDATE` (R170). -/
def execEsUpdate (s : State) : Host.Outcome State Fault Refusal :=
  inContext .anyContext .esUpdate s (.next (startOp esUpdateOps s))

/-- `ES.LABEL c` (R172): no bus step; the label of code `c` is `errorLabel`. -/
def execEsLabel (c : Byte) (s : State) : Host.Outcome State Fault Refusal :=
  inContext .anyContext (.esLabel c) s
    (if 7#8 < c then .fault (.rangeFault c)
     else .next (startOp [] { s with res := { s.res with label := c.setWidth 4 } }))

end Sys2Proof.Machine
end

