-- ==== Sys2Proof/Machine/Init.lean ====
section
/-! DEFINITION. The controller's initialisation: `CAN.INIT`, its eight steps, `CAN.START` (R180 to R192). -/

namespace Sys2Proof.Machine

/-- `CAN.INIT rate` (R180): the sequencer starts at step 1; each step is then fetched from `SEQ` (log 24). -/
def execCanInit (s : State) : Host.Outcome State Fault Refusal :=
  inContext .threadOnly .canInit s (.next { s with seq := 1#4, initRun := true })

/-- A step whose code is `c` (R180): `SEQ <- c` first, its bus steps, and at its end `SEQ` names the next (R20). -/
def startStep (c : BitVec 4) (ops : List Op) (s : State) : State :=
  startOp (ops ++ [.quiet (.setSeq (c + 1#4))]) { s with seq := c }

/-- `STEP.RESET` (R181). -/
def execStepReset (s : State) : Host.Outcome State Fault Refusal := .next (startStep 1#4 resetOps s)

/-- `STEP.EXITSLEEP` (R182). -/
def execStepExitsleep (s : State) : Host.Outcome State Fault Refusal := .next (startStep 2#4 exitSleepOps s)

/-- `STEP.ENTERCONFIG` (R183). -/
def execStepEnterconfig (s : State) : Host.Outcome State Fault Refusal := .next (startStep 3#4 enterConfigOps s)

/-- `STEP.OPTIONS` (R184). -/
def execStepOptions (s : State) : Host.Outcome State Fault Refusal := .next (startStep 4#4 optionsOps s)

/-- Step 5 up to its bus step (R185): the clock is sampled once, `BT` is solved. -/
def timingSolved (s : State) : State := solveInto s.clkHz s.args.rate { s with fClk := s.clkHz }

/-- `STEP.TIMING` (R185). `BtrWord(BT)` is fixed at the step's start, from the `BT` just solved: an interrupt may fall before
the write of `BTR`, and a `BT.SOLVE` of its callback changes `BT` but not the word (log 40). -/
def execStepTiming (s : State) : Host.Outcome State Fault Refusal :=
  .next (startStep 5#4 (timingOps (timingSolved s).bt) (timingSolved s))

/-- `STEP.FILTER` (R186). -/
def execStepFilter (s : State) : Host.Outcome State Fault Refusal := .next (startStep 6#4 filterOps s)

/-- `STEP.LEAVECONFIG` (R187). -/
def execStepLeaveconfig (s : State) : Host.Outcome State Fault Refusal := .next (startStep 7#4 leaveConfigOps s)

/-- `STEP.ENABLEIRQ` (R188): after it the composite sets `SEQ` to 9 (R180). -/
def execStepEnableirq (s : State) : Host.Outcome State Fault Refusal :=
  .next (startOp (enableIrqOps s.cfg ++ [.quiet .initDone]) { s with seq := 8#4 })

/-- `CAN.START` (R190): the register sequence of step 7, `SEQ` unchanged. -/
def execCanStart (s : State) : Host.Outcome State Fault Refusal :=
  inContext .threadOnly .canStart s (.next (startOp leaveConfigOps s))

end Sys2Proof.Machine
end

