-- ==== Sys2Proof/Machine/Mailbox.lean ====
section
/-! DEFINITION. The Mailbox operations (R150 to R157). -/

namespace Sys2Proof.Machine

/-- `MB.SEND n, frame` (R150). -/
def execMbSend (n : Byte) (s : State) : Host.Outcome State Fault Refusal :=
  inContext .threadOnly (.mbSend n) s
    (withMailbox n fun m => withFrame s (.next (startOp (sendOps m s.args) s)))

/-- `MB.UPDATE n` (R152). -/
def execMbUpdate (n : Byte) (s : State) : Host.Outcome State Fault Refusal :=
  inContext .anyContext (.mbUpdate n) s (withMailbox n fun m => .next (startOp (updateOps m) s))

/-- `MB.ABORT n` (R154). -/
def execMbAbort (n : Byte) (s : State) : Host.Outcome State Fault Refusal :=
  inContext .threadOnly (.mbAbort n) s (withMailbox n fun m => .next (startOp (abortOps m) s))

end Sys2Proof.Machine
end

