-- ==== Sys2Proof/Machine/Runtime.lean ====
section
/-! DEFINITION. The controller's run-time operations (R210 to R220). -/

namespace Sys2Proof.Machine

/-- `CAN.SEND frame` (R210). -/
def execCanSend (s : State) : Host.Outcome State Fault Refusal :=
  inContext .threadOnly .canSend s (withFrame s (.next (startOp canSendOps s)))

/-- `CAN.RXISR f` (R214): issued by a callback body only. -/
def execCanRxisr (f : Byte) (s : State) : Host.Outcome State Fault Refusal :=
  inContext .callbackOnly (.canRxisr f) s (withFifo f fun g => .next (startOp (rxOps g) s))

/-- `CAN.GETERR` (R217). -/
def execCanGeterr (s : State) : Host.Outcome State Fault Refusal :=
  inContext .anyContext .canGeterr s (.next (startOp (esUpdateOps ++ [.quiet .resEs]) s))

/-- `CAN.GETMB n` (R218). -/
def execCanGetmb (n : Byte) (s : State) : Host.Outcome State Fault Refusal :=
  inContext .anyContext (.canGetmb n) s
    (withMailbox n fun m => .next (startOp (updateOps m ++ [.quiet (.resMb m)]) s))

end Sys2Proof.Machine
end

