-- ==== Sys2Proof/Machine/Timing.lean ====
section
/-! DEFINITION. The Bit-Timing Solver as an operation (R140). -/

namespace Sys2Proof.Machine

/-- `BT.SOLVE clock, rate` (R140): no bus step. -/
def execBtSolve (s : State) : Host.Outcome State Fault Refusal :=
  inContext .anyContext .btSolve s (.next (startOp [] (solveInto s.args.clk s.args.rate s)))

end Sys2Proof.Machine
end

