-- ==== Sys2Proof/Machine/VectorTable.lean ====
section
/-! DEFINITION. The Vector Table operations and the callback bodies (R120 to R128). -/

namespace Sys2Proof.Machine

/-- `VT.RELOCATE` (R120). -/
def execVtRelocate (s : State) : Host.Outcome State Fault Refusal :=
  inContext .threadOnly .vtRelocate s (.next (startOp (relocateOps s.cfg) s))

/-- `VT.INSTALL k, cb` (R121). -/
def execVtInstall (k : Irq) (s : State) : Host.Outcome State Fault Refusal :=
  inContext .threadOnly (.vtInstall k) s (withIrq k s (.next (startOp (installOps k s.args.cb) s)))

/-- `VT.DISPATCH k` (R122): issued by the trampoline only; the table must be live. -/
def execVtDispatch (k : Irq) (s : State) : Host.Outcome State Fault Refusal :=
  inContext .trampolineOnly (.vtDispatch k) s
    (withIrq k s (if s.live then .next (enterInterrupt k s) else .fault (.notLive k)))

/-- `CB.DEFAULT` (R126): the record, the halt. It never returns: the halted state is the end of the run (R262;
log 20). It learns `k` from `CTX`, so it has no meaning in thread context. -/
def execCbDefault (s : State) : Host.Outcome State Fault Refusal :=
  match s.ctx with
  | .interrupt k => .next { s with diag := s.diag ++ [.unhandledInterrupt k], halted := true }
  | .thread => .fault (.contextFault .cbDefault)

/-- A callback body that issues one command and returns (R127, R128, R92). -/
def callbackBody (i : Instr) (w : Word) (s : State) : Host.Outcome State Fault Refusal :=
  match s.ctx with
  | .interrupt _ => .next (startOp [.issue .callback w, .ret] s)
  | .thread => .fault (.contextFault i)

/-- `CB.RX0` (R127): `CAN.RXISR 0`, then return. -/
def execCbRx0 (s : State) : Host.Outcome State Fault Refusal :=
  callbackBody .cbRx0 (commandWord 0x51#8 0#8) s

/-- `CB.RX1` (R128): `CAN.RXISR 1`, then return. -/
def execCbRx1 (s : State) : Host.Outcome State Fault Refusal :=
  callbackBody .cbRx1 (commandWord 0x51#8 1#8) s

end Sys2Proof.Machine
end

