-- ==== Sys2Proof/Machine/Dispatch.lean ====
section
/-! DEFINITION. One arm per operation, each a call of its meaning. -/

namespace Sys2Proof.Machine

def exec (i : Instr) (s : State) : Host.Outcome State Fault Refusal :=
  match i with
  | .vtRelocate => Sys2Proof.Machine.execVtRelocate s
  | .vtInstall k => Sys2Proof.Machine.execVtInstall k s
  | .vtDispatch k => Sys2Proof.Machine.execVtDispatch k s
  | .btSolve => Sys2Proof.Machine.execBtSolve s
  | .mbSend n => Sys2Proof.Machine.execMbSend n s
  | .mbUpdate n => Sys2Proof.Machine.execMbUpdate n s
  | .mbAbort n => Sys2Proof.Machine.execMbAbort n s
  | .esUpdate => Sys2Proof.Machine.execEsUpdate s
  | .esLabel c => Sys2Proof.Machine.execEsLabel c s
  | .canInit => Sys2Proof.Machine.execCanInit s
  | .canStart => Sys2Proof.Machine.execCanStart s
  | .canSend => Sys2Proof.Machine.execCanSend s
  | .canRxisr f => Sys2Proof.Machine.execCanRxisr f s
  | .canGeterr => Sys2Proof.Machine.execCanGeterr s
  | .canGetmb n => Sys2Proof.Machine.execCanGetmb n s
  | .stepReset => Sys2Proof.Machine.execStepReset s
  | .stepExitsleep => Sys2Proof.Machine.execStepExitsleep s
  | .stepEnterconfig => Sys2Proof.Machine.execStepEnterconfig s
  | .stepOptions => Sys2Proof.Machine.execStepOptions s
  | .stepTiming => Sys2Proof.Machine.execStepTiming s
  | .stepFilter => Sys2Proof.Machine.execStepFilter s
  | .stepLeaveconfig => Sys2Proof.Machine.execStepLeaveconfig s
  | .stepEnableirq => Sys2Proof.Machine.execStepEnableirq s
  | .cbDefault => Sys2Proof.Machine.execCbDefault s
  | .cbRx0 => Sys2Proof.Machine.execCbRx0 s
  | .cbRx1 => Sys2Proof.Machine.execCbRx1 s

end Sys2Proof.Machine
end

