-- ==== Sys2Proof/Machine/Peripheral.lean ====
section
/-! DEFINITION. CANHW, the controller behind the registers: the reference behaviour of 47_peripheral_agent.md
(R231 to R245; log 11). A move that is not enabled changes nothing. -/

namespace Sys2Proof.Machine

/-- `MSR.SLAK` (R26). -/
def Can.asleep (c : Can) : Bool := bitOf c.msr bitSlak

/-- `ESR.BOFF` (R30). -/
def Can.busOff (c : Can) : Bool := bitOf c.esr bitBoff

/-- Normal mode and not bus-off: the controller takes part in bus traffic (R238, R241, R245). -/
def Can.onBus (c : Can) : Bool := !c.inInit && !c.asleep && !c.busOff

/-- The filter registers after a controller reset (R54, U27): the environment says which of the three, and what CANHW
finds in the unknown ones (log 18). -/
def Can.resetFilters (fr : FilterReset) (c : Can) : Can :=
  match fr with
  | .kept => c
  | .cleared =>
    { c with fmr := Can.reset.fmr, fm1r := Can.reset.fm1r, fs1r := Can.reset.fs1r, ffa1r := Can.reset.ffa1r
             fa1r := Can.reset.fa1r, f0r1 := Can.reset.f0r1, f0r2 := Can.reset.f0r2 }
  | .unknown v =>
    { c with fmr := .hidden v.fmr, fm1r := .hidden v.fm1r, fs1r := .hidden v.fs1r, ffa1r := .hidden v.ffa1r
             fa1r := .hidden v.fa1r, f0r1 := .hidden v.f0r1, f0r2 := .hidden v.f0r2 }

/-- The register file after a controller reset, the filter registers as they were (R231, R54). -/
def Can.resetCore (c : Can) : Can :=
  { c with
    mcr := Can.reset.mcr, msr := Can.reset.msr, tsr := Can.reset.tsr, ier := Can.reset.ier
    esr := Can.reset.esr, btr := Can.reset.btr, mbx := Can.reset.mbx, fifo := Can.reset.fifo
    txOrder := [], onAir := none, recovering := false }

/-- Controller reset (R231), enabled when `MCR.RESET = 1`. -/
def Can.resetDone (fr : FilterReset) (c : Can) : Can :=
  if bitOf c.mcr bitReset then (c.resetCore).resetFilters fr else c

/-- Leaving sleep (R232; on bus activity with `AWUM = 1`, R25, log 15). -/
def Can.wake (c : Can) : Can :=
  if c.asleep && (!bitOf c.mcr bitSleep || bitOf c.mcr bitAwum) then
    { c with msr := clearBits c.msr (oneBit bitSlak) }
  else c

/-- Entering sleep (R232). -/
def Can.sleep (c : Can) : Can :=
  if bitOf c.mcr bitSleep && !bitOf c.mcr bitInrq && !c.asleep && c.onAir.isNone then
    { c with msr := setBits c.msr (oneBit bitSlak) }
  else c

/-- Entering init mode (R233). -/
def Can.initEnter (c : Can) : Can :=
  if bitOf c.mcr bitInrq && !c.inInit && c.onAir.isNone then
    { c with msr := setBits c.msr (oneBit bitInak) }
  else c

/-- Leaving init mode (R233); in bus-off this begins the recovery (R245, log 16). -/
def Can.initLeave (c : Can) : Can :=
  if !bitOf c.mcr bitInrq && c.inInit then
    { c with msr := clearBits c.msr (oneBit bitInak), recovering := c.recovering || c.busOff }
  else c

/-- `ESR` with code `lec`, counters `n` and bus-off flag `boff` (R245): the flags follow the counters. -/
def esrWord (lec : BitVec 3) (n : Counters) (boff : Bool) : Word :=
  BitVec.ofNat 8 n.recCount ++ BitVec.ofNat 8 n.tecCount ++ 0#9 ++ lec ++ 0#1 ++ BitVec.ofBool boff
    ++ BitVec.ofBool (decide (128 ≤ n.tecCount) || decide (128 ≤ n.recCount))
    ++ BitVec.ofBool (decide (96 ≤ n.tecCount) || decide (96 ≤ n.recCount))

/-- The error state after an event with code `lec`: bus-off when `TEC` has passed 255, and it stays (R245). -/
def Can.setErrors (lec : BitVec 3) (n : Counters) (c : Can) : Can :=
  { c with esr := esrWord lec n (c.busOff || decide (255 < n.tecCount)) }

/-- Is `code` one of the codes CANHW writes at an error (R30, R245)? -/
def errorCode (code : BitVec 3) : Bool := decide (code ≠ 0#3) && decide (code ≠ 7#3)

/-- The mailbox CANHW may attempt next (R237): the oldest request under `RequestOrder`; any pending one under
`Open`, and where software has set `TXPID` (log 14). -/
def Can.mayAttempt (o : TxOrder) (n : MbIdx) (c : Can) : Bool :=
  match o with
  | .anyOrder => decide (n ∈ c.txOrder)
  | .requestOrder => if bitOf c.mcr bitTxpid then decide (n ∈ c.txOrder) else decide (c.txOrder.head? = some n)

/-- An attempt begins (R238). -/
def Can.txStart (o : TxOrder) (n : MbIdx) (c : Can) : Can :=
  if c.onBus && c.onAir.isNone && c.mayAttempt o n then { c with onAir := some n } else c

/-- Mailbox `n` becomes empty (R238, R239): `TXRQ <- 0`, `TMEn <- 1`, `RQCPn <- 1`, `TXOKn <- ok`, `ABRQn <- 0`,
`n` leaves `TXORDER`. -/
def Can.finishTx (n : MbIdx) (ok : Bool) (c : Can) : Can :=
  let r := c.mbx.get n
  { c with
    mbx := c.mbx.set n { r with tir := { r.tir with val := clearBits r.tir.val mTxrq } }
    tsr := setBits (clearBits c.tsr (abortBit n ||| oneBit (bitTxok n)))
      (oneBit (bitTme n) ||| oneBit (bitRqcp n) ||| (if ok then oneBit (bitTxok n) else 0#32))
    txOrder := c.txOrder.filter (fun m => decide (m ≠ n)) }

/-- An attempt of mailbox `n` has ended without success, `flag` set (R238): it stays pending, unless an abort is
pending for it (R239) or retransmission is disabled (`NART = 1`, R25; log 14). -/
def Can.attemptFailed (n : MbIdx) (flag : Word) (c : Can) : Can :=
  let c1 : Can := { c with tsr := setBits c.tsr flag, onAir := none }
  if bitOf c.tsr (bitAbrq n) || bitOf c.mcr bitNart then c1.finishTx n false else c1

/-- The end of the attempt in progress (R238): enabled in normal mode and not in bus-off. -/
def Can.endAttempt (f : MbIdx → Can) (c : Can) : Can :=
  match c.onAir with
  | some n => if c.onBus then f n else c
  | none => c

/-- Success (R238). -/
def Can.txSuccess (k : Counters) (c : Can) : Can :=
  c.endAttempt fun n => Can.setErrors 0#3 k (Can.finishTx n true { c with onAir := none })

/-- Arbitration lost (R238). -/
def Can.txArbLost (c : Can) : Can := c.endAttempt fun n => c.attemptFailed n (oneBit (bitAlst n))

/-- A bus error during the frame (R238). -/
def Can.txError (code : BitVec 3) (k : Counters) (c : Can) : Can :=
  c.endAttempt fun n => if errorCode code then (c.attemptFailed n (oneBit (bitTerr n))).setErrors code k else c

/-- Abort done (R239): the mailbox is pending, its abort is requested, and it is not being sent. -/
def Can.abortDone (n : MbIdx) (c : Can) : Can :=
  if bitOf c.tsr (bitAbrq n) && decide (n ∈ c.txOrder) && decide (c.onAir ≠ some n) then c.finishTx n false else c

/-- Does active bank `b` pass the frame (R42, R43)? Bank 0 in 32-bit mask mode compares under its mask; what any
other filter, or one that is unspecified, compares is not in the spec, so the environment decides (log 12, log 18). -/
def Can.bankPasses (b : BitVec 5) (idword : Word) (c : Can) : Bool :=
  bitOf c.fa1r.val b.toNat &&
    (if b = 0#5 && bitOf c.fs1r.val 0 && !bitOf c.fm1r.val 0 && decide (c.f0r1.unk ||| c.f0r2.unk = 0#32) then
      decide (idword &&& c.f0r2.val &&& rwTir = c.f0r1.val &&& c.f0r2.val &&& rwTir)
    else true)

/-- Overwriting the newest of the stored messages, the head being untouched (R241, R230 (f)): with one place only, the
newest is the head and stays (log 38). -/
def overwriteNewest (m : RxMsg) : List RxMsg → List RxMsg
  | [] => []
  | [h] => [h]
  | h :: j :: r => h :: ((j :: r).dropLast ++ [m])

/-- Storing a received frame (R241): appended while there is room; on a full FIFO `FOVR <- 1` and, with
`RFLM = 0`, it overwrites the newest stored one, never the head (log 38). -/
def Fifo.accept (depth : Nat) (rflm : Bool) (m : RxMsg) (q : Fifo) : Fifo :=
  if q.queue.length < depth then
    { q with queue := q.queue ++ [m], full := q.full || decide (q.queue.length + 1 = depth) }
  else if rflm then { q with fovr := true }
  else { q with queue := overwriteNewest m q.queue, fovr := true }

/-- The FIFO that bank `b` feeds (R41); where the bit is unspecified, what the environment put there (log 18). -/
def Can.bankFifo (b : BitVec 5) (c : Can) : FifoIdx := if bitOf c.ffa1r.val b.toNat then .f1 else .f0

/-- Reception (R241, R245); a frame from another node comes when no attempt of our own is in progress (log 13). -/
def Can.receive (depth : Nat) (b : BitVec 5) (m : RxMsg) (k : Counters) (c : Can) : Can :=
  if c.onBus && c.onAir.isNone && !c.finit && c.bankPasses b m.idword then
    let f := c.bankFifo b
    let q := (c.fifo.get f).accept depth (bitOf c.mcr bitRflm) m
    Can.setErrors 0#3 k { c with fifo := c.fifo.set f q }
  else c

/-- A bus error outside a transmission of our own (R245; log 13). -/
def Can.busError (code : BitVec 3) (k : Counters) (c : Can) : Can :=
  if c.onBus && c.onAir.isNone && errorCode code then c.setErrors code k else c

/-- Recovery from bus-off (R245): by itself with `ABOM = 1`, else after software has left init mode again. -/
def Can.busOffRecovered (k : Counters) (c : Can) : Can :=
  if c.busOff && !c.inInit && (bitOf c.mcr bitAbom || c.recovering) && decide (k.tecCount ≤ 255) then
    { c with esr := esrWord (c.esr.extractLsb' 4 3) k false, recovering := false }
  else c

/-- A move of CANHW on the register file. -/
def Can.move (p : Params) (m : HwMove) (c : Can) : Can :=
  match m with
  | .resetDone fr => c.resetDone fr
  | .wake => c.wake
  | .sleep => c.sleep
  | .initEnter => c.initEnter
  | .initLeave => c.initLeave
  | .txStart n => c.txStart p.txOrder n
  | .txSuccess k => c.txSuccess k
  | .txArbLost => c.txArbLost
  | .txError code k => c.txError code k
  | .abortDone n => c.abortDone n
  | .receive b msg k => c.receive p.fifoDepth b msg k
  | .busError code k => c.busError code k
  | .busOffRecovered k => c.busOffRecovered k

/-- A move of CANHW: it changes the register file and CANHW's hidden state only (R247). -/
def hwMove (m : HwMove) (s : State) : State := { s with can := s.can.move s.cfg m }

end Sys2Proof.Machine
end

