-- ==== Sys2Proof/Machine/Fetch.lean ====
section
/-! DEFINITION. Which agent acts next, and what the engine fetches (R66, R90 to R95, R124, R266, R320). -/

namespace Sys2Proof.Machine

/-- What a step comes to: running an operation, or an outcome of its own. -/
inductive Fetch where
  | run (i : Instr) (s : State)
  | out (o : Host.Outcome State Fault Refusal)
  deriving Repr

/-- Taking the word in the command port (R90, R96). -/
def takePort (pw : PortWord) (s : State) : Fetch :=
  match decodeCommand pw.word with
  | .ok i => .run i { s with port := none, issuer := pw.issuer }
  | .error _ => .out (.fault (.illegalCommand pw.word))

/-- The commands an external callback issues (R124; log 22). -/
def extCommands (p : Params) (t : Word) : List Word :=
  ((p.extAction.find? (fun e => decide (e.1 = t))).map Prod.snd).getD []

/-- An external callback: its commands, then its return (R124; log 22). -/
def invokeExternal (t : Word) (s : State) : State :=
  startOp ((extCommands s.cfg t).map (fun w => .issue .external w) ++ [.ret]) s

/-- `invoke cb` (R124): the body the token names. -/
def invokeToken (t : Word) (s : State) : Fetch :=
  match decodeToken s.cfg t with
  | some i => .run i { s with token := none, issuer := .trampoline }
  | none => .out (.next (invokeExternal t { s with token := none }))

/-- The next step of `CAN.INIT` (R180, R94). -/
def takeSeq (s : State) : Fetch :=
  match decodeSeq s.seq with
  | some i => .run i { s with issuer := .engine }
  | none => .out (.next { s with initRun := false })

/-- The host acts: an operand latch, or the command port (R11, R90). -/
def hostAct (a : HostAct) (s : State) : State :=
  match a with
  | .loadId w => { s with args := { s.args with id := w } }
  | .loadLen l => { s with args := { s.args with len := l } }
  | .loadData d => { s with args := { s.args with data := d } }
  | .loadCb w => { s with args := { s.args with cb := w } }
  | .loadClk w => { s with args := { s.args with clk := w } }
  | .loadRate w => { s with args := { s.args with rate := w } }
  | .issue w => { s with port := some ⟨.host, w⟩ }

/-- The engine is idle in thread context: the host's next action, if any (R10 (4)). -/
def hostStep (s : State) : State :=
  match s.host with
  | [] => s
  | a :: r => hostAct a { s with host := r }

/-- The engine in interrupt context: the token to invoke, else the callback's next micro-operation. -/
def fetchInterrupt (s : State) : Fetch :=
  match s.token with
  | some t => invokeToken t s
  | none =>
    match s.isr.ops with
    | op :: rest => .out (opStep op rest s)
    | [] => .out (.next (leaveInterrupt s))

/-- The engine in thread context: the running operation, else the next step of Init, else the host. -/
def fetchThread (s : State) : Fetch :=
  match s.thread.ops with
  | op :: rest => .out (opStep op rest s)
  | [] => if s.initRun then takeSeq s else .out (.next (hostStep s))

/-- The engine's move. While `HALTED = 1` it takes no step (R22, R262). -/
def fetchEngine (s : State) : Fetch :=
  if s.halted then .out (.next s)
  else
    match s.port with
    | some pw => takePort pw s
    | none =>
      match s.ctx with
      | .interrupt _ => fetchInterrupt s
      | .thread => fetchThread s

/-- Power-on reset (R300): the reset state with the same parameters; the environment's inputs go on (log 33). -/
def powerOn (s : State) : State :=
  { State.resetWith s.cfg with
    host := s.host, sched := s.sched, clkHz := s.clkHz, lines := s.lines, draws := s.draws }

/-- Asserting or releasing another driver's line (R266). -/
def setLine (k : Irq) (up : Bool) (s : State) : State :=
  { s with lines := (if up then [k] else []) ++ s.lines.filter (fun j => decide (j ≠ k)) }

/-- A move of the schedule. -/
def runMove (m : Move) (s : State) : Fetch :=
  match m with
  | .engine => fetchEngine s
  | .trampoline => .out (.next (trampolineAct s))
  | .hw h => .out (.next (hwMove h s))
  | .line k up => .out (.next (setLine k up s))
  | .enableLine k p => .out (.next (enableLine k p s))
  | .clock hz => .out (.next { s with clkHz := hz })
  | .powerOn => .out (.next (powerOn s))

/-- Which agent moves next (log 1): the one the schedule names; with nothing scheduled, the trampoline if it may
take an interrupt (R266: it is fair), else the engine. -/
def fetch (s : State) : Fetch :=
  match s.sched with
  | m :: r => runMove m { s with sched := r }
  | [] => if s.takeable.isSome then .out (.next (trampolineAct s)) else fetchEngine s

/-! ## Placing a word where the next step fetches it (log 25, log 26) -/

/-- Thread context, no operation running, the engine to move next. -/
def readyThread (s : State) : State :=
  { s with sched := .engine :: s.sched, halted := false, ctx := .thread, port := none, token := none
           initRun := false, thread := { s.thread with ops := [] } }

/-- Interrupt context, inside a callback that returns when its command has run. -/
def readyInterrupt (ops : List Op) (s : State) : State :=
  match s.ctx with
  | .interrupt _ =>
    { s with sched := .engine :: s.sched, halted := false, port := none, token := none
             isr := { s.isr with ops := ops } }
  | .thread =>
    { s with sched := .engine :: s.sched, halted := false, port := none, token := none
             ctx := .interrupt s.cfg.irqRx0, savedCtx := .thread, isr := { s.isr with ops := ops } }

/-- A command word in the port, from the issuer R92 allows it. -/
def placeCommand (i : Instr) (w : Word) (s : State) : State :=
  match i with
  | .canRxisr _ => { readyInterrupt [.ret] s with port := some ⟨.callback, w⟩ }
  | .vtDispatch _ => { readyThread s with port := some ⟨.trampoline, w⟩ }
  | _ => { readyThread s with port := some ⟨.host, w⟩ }

/-- A 32-bit word: a command, else a callback token, else an illegal command. -/
def placeWord32 (w : Word) (s : State) : State :=
  match decodeCommand w with
  | .ok i => placeCommand i w s
  | .error _ =>
    match decodeToken s.cfg w with
    | some _ => { readyInterrupt [] s with token := some w }
    | none => { readyThread s with port := some ⟨.host, w⟩ }

/-- A sequencer code (fewer than 32 bits), or a 32-bit word. -/
def placeWord (nbits w : Nat) (s : State) : State :=
  if nbits < 32 then { readyThread s with initRun := true, seq := BitVec.ofNat 4 w }
  else placeWord32 (BitVec.ofNat 32 w) s

end Sys2Proof.Machine
end

