-- ==== Sys2Proof/Machine/Step.lean ====
section
/-! DEFINITION. One step: one move of one agent (R66). -/

namespace Sys2Proof.Machine

/-- One step: what the next agent's move comes to; an operation that is fetched is started by `exec`. -/
def step (s : State) : Host.Outcome State Fault Refusal :=
  match fetch s with
  | .run i t => exec i t
  | .out o => o

/-- `s` with a row's word placed where the next step fetches it (log 25, log 26). -/
def State.withFetchWord (s : State) (nbits w : Nat) : State := placeWord nbits w s

end Sys2Proof.Machine
end

