-- ==== Sys2Proof/Safety.lean ====
section
/-! DEFINITION. The terms claims use: the bus events of a stretch of reads, runs, who moves in them, and the
invariants of the machine (R50, R51, R20, R262, R271, R62). -/

namespace Sys2Proof.Machine

/-! ## Events and runs -/

/-- The event of a read of `r`, when `i` reads have been made since `s` and `r` is as it was in `s` (R64). -/
def State.readEvent (s : State) (i : Nat) (r : Reg) : BusEvent :=
  ⟨.read, r.addr s.cfg, s.view (Config.freeWord (s.draws + i)) r⟩

/-- The event of a read of `r` that finds `v`. -/
def State.reads (s : State) (r : Reg) (v : BusWord) : BusEvent := ⟨.read, r.addr s.cfg, v⟩

/-- The event of a write of `v` to `r`. -/
def State.writes (s : State) (r : Reg) (v : BusWord) : BusEvent := ⟨.write, r.addr s.cfg, v⟩

/-- The event of a write of the word `w` to `r`. -/
def State.writeEvent (s : State) (r : Reg) (w : Word) : BusEvent := ⟨.write, r.addr s.cfg, BusWord.lit w⟩

/-- `n` steps of the machine, none of them a fault or a refusal, lead from `s` to `t`. -/
def Reaches : Nat → State → State → Prop
  | 0, s, t => s = t
  | n + 1, s, t =>
    match step s with
    | .next u => Reaches n u t
    | .fault _ => False
    | .refused _ => False

/-- The machine is not halted, no command word or token waits to be taken, and the moves to come are `ms`. -/
abbrev State.plays (s : State) (ms : List Move) : Prop :=
  s.halted = false ∧ s.port = none ∧ s.token = none ∧ s.sched = ms

/-- `n` moves of the engine, then `r`. -/
def engineMoves (n : Nat) (r : List Move) : List Move := List.replicate n .engine ++ r

/-! ## What the transmit and receive operations leave (R150, R210, R214, R236) -/

/-- A word all of whose bits are given, found by the `d`-th read. -/
def BusWord.given (w : Word) (d : Nat) : BusWord := ⟨w, 0#32, Config.freeWord d⟩

/-- The registers of a mailbox that holds the frame operand, its transmission requested (R98, R100, R101): the
reserved bits of `TDTR` stay as they were. -/
def MbRegs.loaded (r : MbRegs) (a : Args) : MbRegs where
  tir := ⟨idWord a.id ||| 1#32, 0#32⟩
  tdtr := ⟨(r.tdtr.val &&& ~~~seenTdtr) ||| dlcWord a.len, r.tdtr.unk &&& ~~~seenTdtr⟩
  tdlr := ⟨loWord a.data, 0#32⟩
  tdhr := ⟨hiWord a.data, 0#32⟩

/-- `TSR` after a transmit request of mailbox `n` (R236): `TMEn` and its four flags are 0. -/
def requestedTsr (n : MbIdx) (tsr : Word) : Word :=
  tsr &&& ~~~((1#32 <<< (26 + n.toNat)) ||| (0xF#32 <<< (8 * n.toNat)))

/-- The controller after the frame operand has been loaded into mailbox `n` and requested. -/
def Can.loaded (c : Can) (n : MbIdx) (a : Args) : Can :=
  { c with
    mbx := c.mbx.set n ((c.mbx.get n).loaded a)
    tsr := requestedTsr n c.tsr
    txOrder := c.txOrder ++ [n] }

/-- The eight bus steps of `MB.SEND n` (R150, R152), when `d` reads were made before. -/
def State.sendEvents (s : State) (n : MbIdx) (d : Nat) : List BusEvent :=
  [ s.writeEvent (.tir n) (idWord s.args.id), s.writeEvent (.tdtr n) (dlcWord s.args.len),
    s.writeEvent (.tdlr n) (loWord s.args.data), s.writeEvent (.tdhr n) (hiWord s.args.data),
    s.reads (.tir n) (.given (idWord s.args.id) d), s.writes (.tir n) (.given (idWord s.args.id ||| 1#32) d),
    s.reads (.tir n) (.given (idWord s.args.id ||| 1#32) (d + 1)),
    s.reads .tsr (shown (requestedTsr n s.can.tsr) seenTsr (Config.freeWord (d + 2))) ]

/-- The mirror of a mailbox that has just been requested. -/
def Mirror.pending : Mirror := ⟨true, false, false, false, false⟩

/-- Byte `i` of a payload. -/
def Payload.byte (d : Payload) (i : Nat) : Byte :=
  match i with
  | 0 => d.lo.b0
  | 1 => d.lo.b1
  | 2 => d.lo.b2
  | 3 => d.lo.b3
  | 4 => d.hi.b0
  | 5 => d.hi.b1
  | 6 => d.hi.b2
  | _ => d.hi.b3

/-- Byte `i` of a received message (R37). -/
def RxMsg.byte (m : RxMsg) (i : Nat) : Byte :=
  if i < 4 then m.lo.extractLsb' (8 * i) 8 else m.hi.extractLsb' (8 * (i - 4)) 8

/-- The first `n` reads of `r` a wait makes, `r` staying as it is in `s`, when `d` reads were made before. -/
def State.pollEvents (s : State) (r : Reg) (d n : Nat) : List BusEvent :=
  (List.range n).map fun i => s.reads r (s.view (Config.freeWord (d + i)) r)

/-- A register that step 6 changes at bit 0 only (R186): bit 0 is `b`, the given bits 31:1 are as they were, and no
bit is unspecified any more. -/
def UReg.onlyBit0 (old new : UReg) (b : Bool) : Prop :=
  new.unk = 0#32 ∧ bitOf new.val 0 = b ∧
    ∀ i, 1 ≤ i → i < 32 → bitOf old.unk i = false → bitOf new.val i = bitOf old.val i

/-- `ESR` with last error code `lec` and the counters `k` (R245, R174): the warning flag from 96, the passive flag from
128 of either counter, bus-off once `TEC` has passed 255. -/
def esrShows (e : Word) (lec : BitVec 3) (k : Counters) : Prop :=
  e.extractLsb' 4 3 = lec ∧ e.extractLsb' 16 8 = BitVec.ofNat 8 k.tecCount
    ∧ e.extractLsb' 24 8 = BitVec.ofNat 8 k.recCount
    ∧ (bitOf e 0 = true ↔ 96 ≤ k.tecCount ∨ 96 ≤ k.recCount)
    ∧ (bitOf e 1 = true ↔ 128 ≤ k.tecCount ∨ 128 ≤ k.recCount)
    ∧ (bitOf e 2 = true ↔ 255 < k.tecCount)

/-- Normal mode and not in bus-off, as R238 and R241 put it: `INAK`, `SLAK` and `BOFF` are 0. -/
abbrev Can.takesPart (c : Can) : Prop := bitOf c.msr 0 = false ∧ bitOf c.msr 1 = false ∧ bitOf c.esr 2 = false

/-! ## Invariants -/

/-- Mailbox `n` (R50): `TXRQ` is given, and `TXRQ = 1` iff `TMEn = 0` iff `n` is in `TXORDER`; an abort is requested of
a pending mailbox only (R239). -/
abbrev Can.mbOk (c : Can) (n : MbIdx) : Prop :=
  bitOf (c.mbx.get n).tir.unk 0 = false ∧ bitOf (c.mbx.get n).tir.val 0 = !c.empty n
    ∧ c.empty n = decide (n ∉ c.txOrder) ∧ (bitOf c.tsr (bitAbrq n) = true → c.empty n = false)

/-- The transmit side (R50, R238): each mailbox, no mailbox twice in `TXORDER`, and while one is being sent it is pending
and the controller is in normal mode and not in bus-off. -/
abbrev Can.mbxInv (c : Can) : Prop :=
  c.mbOk .mb0 ∧ c.mbOk .mb1 ∧ c.mbOk .mb2 ∧ c.txOrder.Nodup ∧ ∀ n ∈ c.onAir, n ∈ c.txOrder ∧ c.onBus = true

/-- A FIFO holds at most `depth` messages, and `FULL` only as many (R28, R51). -/
abbrev Fifo.ok (depth : Nat) (q : Fifo) : Prop :=
  q.queue.length ≤ depth ∧ (q.full = true → q.queue.length = depth)

/-- The receive side (R51). -/
abbrev State.fifoInv (s : State) : Prop :=
  1 ≤ s.cfg.fifoDepth ∧ s.can.fifo.f0.ok s.cfg.fifoDepth ∧ s.can.fifo.f1.ok s.cfg.fifoDepth

/-- An operation sets `SEQ` to a code of R20 only. -/
def Op.seqOk : Op → Bool
  | .quiet (.setSeq c) => decide (c ≤ 9#4)
  | _ => true

/-- `SEQ` values 10 to 15 are never taken (R20, R96). -/
abbrev State.seqInv (s : State) : Prop :=
  s.seq ≤ 9#4 ∧ s.thread.ops.all Op.seqOk = true ∧ s.isr.ops.all Op.seqOk = true

/-- The halt is the default handler's, in interrupt context, with its record (R126, R262); the context remembered at
an entry is thread context (R271). -/
abbrev State.ctxInv (s : State) : Prop :=
  s.savedCtx = .thread ∧
    (s.halted = true → match s.ctx with
      | .thread => False
      | .interrupt k => .unhandledInterrupt k ∈ s.diag)

/-- Every bus step so far was at an address that is a multiple of 4 (R62). -/
abbrev State.aligned (s : State) : Prop := ∀ e ∈ s.trace, e.addr.toNat % 4 = 0

end Sys2Proof.Machine
end

