-- ==== Sys2Proof/Certificates/Slice0/Obligations.lean ====
section
/-! DEFINITION. The statements for the provers. Each says, in its docstring, which rules of spec/ it formalises. An
operation is started by `exec` and its bus steps are the following steps of the machine, so a statement of an
operation's effect says what `exec` answers and which state the run from there reaches. `proceed s.task.ops` stands
for the way back to whatever the current context was doing (nothing, for a host command). -/

open Sys2Proof Sys2Proof.Machine

/-! ## Encodings -/

/-- R90, R93, R94, R95: decoding the encoding of an operation gives it back, with every operand byte; and what decodes
is the encoding of the operation it decodes to. -/
def Obligations.DecodeAndEncodeAgree : Prop :=
  (∀ (p : Params) (i : Instr), p.wf = true → decode p (encode p i) = some i)
    ∧ (∀ (p : Params) (e : Encoded) (i : Instr), decode p e = some i → encode p i = e)

/-- R96: the engine raises `IllegalCommand` for exactly the words with an operation code outside the map, with bits
31:16 not 0, or with `idx` not 0 on an operation of format `C0`. -/
def Obligations.IllegalCommandRefused : Prop :=
  ∀ (s : State) (by_ : Issuer) (w : Word) (r : List Move),
    s.halted = false → s.port = some ⟨by_, w⟩ → s.sched = .engine :: r →
    (step s = .fault (.illegalCommand w) ↔
      w.extractLsb' 16 16 ≠ 0#16
        ∨ w.extractLsb' 0 8 ∉ [0x01#8, 0x02#8, 0x03#8, 0x10#8, 0x20#8, 0x21#8, 0x22#8, 0x30#8, 0x31#8, 0x40#8,
            0x47#8, 0x50#8, 0x51#8, 0x52#8, 0x53#8]
        ∨ (w.extractLsb' 0 8 ∈ [0x01#8, 0x10#8, 0x30#8, 0x40#8, 0x47#8, 0x50#8, 0x52#8] ∧ w.extractLsb' 8 8 ≠ 0#8))

/-- R93, R94, R95: the rows' words, as the tables give them, decode to their operations (a sanity statement). -/
def Obligations.TableWordsDecode : Prop :=
  decodeCommand 0x00000001#32 = .ok .vtRelocate ∧ decodeCommand 0x00001402#32 = .ok (.vtInstall 20#8)
    ∧ decodeCommand 0x00000503#32 = .ok (.vtDispatch 5#8) ∧ decodeCommand 0x00000010#32 = .ok .btSolve
    ∧ decodeCommand 0x00000220#32 = .ok (.mbSend 2#8) ∧ decodeCommand 0x00000331#32 = .ok (.esLabel 3#8)
    ∧ decodeCommand 0x00000047#32 = .ok .canStart ∧ decodeCommand 0x00000151#32 = .ok (.canRxisr 1#8)
    ∧ decodeSeq 0b0001#4 = some .stepReset ∧ decodeSeq 0b1000#4 = some .stepEnableirq ∧ decodeSeq 0b1001#4 = none
    ∧ decodeToken Params.default 0x00000002#32 = some .cbRx1

/-- R98, R99: the identifier image has format bit 1 exactly for identifiers above 0x7FF, bits 1 and 0 are 0, and
the receive path's decoding gives the identifier back. -/
def Obligations.IdentifierRoundTrip : Prop :=
  ∀ id : Word, id ≤ 0x1FFFFFFF#32 →
    idOf (idWord id) = id.setWidth 29 ∧ (idWord id).getLsbD 2 = decide (0x7FF#32 < id)
      ∧ (idWord id).getLsbD 1 = false ∧ (idWord id).getLsbD 0 = false

/-- R100, R101: the length is clamped to 8 and round-trips; payload byte `i` of a half stands at bits `8i+7:8i`, and
the bytes round-trip. -/
def Obligations.PayloadRoundTrip : Prop :=
  (∀ w : Word, (lenOf w).toNat = min (w.extractLsb' 0 4).toNat 8)
    ∧ (∀ len : BitVec 4, len ≤ 8#4 → lenOf (dlcWord len) = len ∧ dlcWord len = len.setWidth 32)
    ∧ ∀ d : Payload,
        loWord d = d.lo.b0.setWidth 32 ||| d.lo.b1.setWidth 32 <<< 8 ||| d.lo.b2.setWidth 32 <<< 16
            ||| d.lo.b3.setWidth 32 <<< 24
        ∧ hiWord d = d.hi.b0.setWidth 32 ||| d.hi.b1.setWidth 32 <<< 8 ||| d.hi.b2.setWidth 32 <<< 16
            ||| d.hi.b3.setWidth 32 <<< 24
        ∧ bytesOf (loWord d) = d.lo ∧ bytesOf (hiWord d) = d.hi

/-! ## The Bit-Timing Solver -/

/-- R141: the first candidate from 1 upward, to the bound 1023, whose truncated quotient is the target wins, and the
result is exact, whatever the fallback; with no match in the bound, `Nearest` returns the candidate of least distance,
the smallest on ties, and `Zero` returns prescaler 0, and neither is exact. The segments are 3 and 1 always. -/
def Obligations.SolverTakesFirstMatch : Prop :=
  (∀ (fb : Fallback) (clock target : Word) (p : Nat), 1 ≤ p → p ≤ 1023 →
      clock.toNat / p / 5 = target.toNat →
      (∀ q, 1 ≤ q → q < p → clock.toNat / q / 5 ≠ target.toNat) →
      solve fb clock target = (⟨BitVec.ofNat 32 p, 3#32, 1#32⟩, true))
    ∧ ∀ (clock target : Word), (∀ q, 1 ≤ q → q ≤ 1023 → clock.toNat / q / 5 ≠ target.toNat) →
        (∃ p, 1 ≤ p ∧ p ≤ 1023
            ∧ (∀ q, 1 ≤ q → q ≤ 1023 →
                ((clock.toNat / p / 5 : Nat) - (target.toNat : Int)).natAbs
                  ≤ ((clock.toNat / q / 5 : Nat) - (target.toNat : Int)).natAbs)
            ∧ (∀ q, 1 ≤ q → q < p →
                ((clock.toNat / p / 5 : Nat) - (target.toNat : Int)).natAbs
                  < ((clock.toNat / q / 5 : Nat) - (target.toNat : Int)).natAbs)
            ∧ solve .nearest clock target = (⟨BitVec.ofNat 32 p, 3#32, 1#32⟩, false))
          ∧ solve .zero clock target = (⟨0#32, 3#32, 1#32⟩, false)

/-- R140: in any context, `BT.SOLVE` writes `BT`, emits one record exactly when the result is inexact, and changes
nothing else. -/
def Obligations.BtSolveWrites : Prop :=
  ∀ (s : State) (bt : BitTiming) (exact : Bool), solve s.cfg.solverFallback s.args.clk s.args.rate = (bt, exact) →
    exec .btSolve s = .next (proceed s.task.ops
      { s with bt := bt
               diag := s.diag ++ if exact then [] else [.timingInexact s.args.clk s.args.rate bt.prescaler] })

/-! ## The Vector Table -/

/-- R120, R68: `VT.RELOCATE` writes `CB_DEFAULT` to every slot in ascending order and then `VT_BASE` to `VTOR`; every
slot then reads `CB_DEFAULT`, the table is live, every byte outside the table and everything else is unchanged. -/
def Obligations.RelocateFillsTable : Prop :=
  ∀ (s : State) (r : List Move), s.cfg.wf = true → s.ctx = .thread → s.plays (engineMoves (s.cfg.nVec + 1) r) →
    ∃ t u : State, exec .vtRelocate s = .next t
      ∧ Reaches (s.cfg.nVec + 1) t (proceed s.task.ops u)
      ∧ u = { s with
              sched := r, vtor := s.cfg.vtBase, mem := u.mem
              trace := s.trace
                ++ (List.range s.cfg.nVec).map (fun k => s.writeEvent (.slot k) s.cfg.cbDefault)
                ++ [s.writeEvent .vtor s.cfg.vtBase] }
      ∧ u.live = true
      ∧ (∀ k, k < s.cfg.nVec → ∀ d, u.view (Config.freeWord d) (.slot k) = .given s.cfg.cbDefault d)
      ∧ ∀ a, ¬(s.cfg.vtBase.toNat ≤ a ∧ a < s.cfg.vtBase.toNat + 4 * s.cfg.nVec) → u.mem.byteAt a = s.mem.byteAt a

/-- R121: `VT.INSTALL k, cb` is one write of the token to slot `k`; the slot then reads the token, every byte outside
the slot and everything else is unchanged. -/
def Obligations.InstallWritesSlot : Prop :=
  ∀ (k : Irq) (s : State) (r : List Move), s.cfg.wf = true → s.ctx = .thread → k.toNat < s.cfg.nVec →
    s.plays (engineMoves 1 r) →
    ∃ t u : State, exec (.vtInstall k) s = .next t
      ∧ Reaches 1 t (proceed s.task.ops u)
      ∧ u = { s with sched := r, mem := u.mem, trace := s.trace ++ [s.writeEvent (.slot k.toNat) s.args.cb] }
      ∧ (∀ d, u.view (Config.freeWord d) (.slot k.toNat) = .given s.args.cb d)
      ∧ ∀ a, ¬((slotAddr s.cfg k.toNat).toNat ≤ a ∧ a < (slotAddr s.cfg k.toNat).toNat + 4) →
          u.mem.byteAt a = s.mem.byteAt a

/-- R122, R267, R46: on a live table `VT.DISPATCH k` remembers the context, makes it `Interrupt(k)` and reads the slot
once; nothing else changes, and the suspended operation keeps its micro-step and its local. While `VTOR` is not
`VT_BASE`, it ends in `NotLive(k)`. -/
def Obligations.DispatchReadsSlotOfLiveTable : Prop :=
  (∀ (k : Irq) (s : State) (r : List Move), s.ctx = .thread → s.issuer = .trampoline → k.toNat < s.cfg.nVec →
      s.vtor = s.cfg.vtBase → s.plays (engineMoves 1 r) →
      ∃ t u : State, exec (.vtDispatch k) s = .next t ∧ Reaches 1 t u
        ∧ u = { s with
                sched := r, ctx := .interrupt k, savedCtx := .thread
                isr := ⟨[], s.regRead (.slot k.toNat)⟩
                token := some (s.regRead (.slot k.toNat)).word
                draws := s.draws + 1, trace := s.trace ++ [s.readEvent 0 (.slot k.toNat)] })
    ∧ (∀ (k : Irq) (s : State), s.ctx = .thread → s.issuer = .trampoline → k.toNat < s.cfg.nVec → s.vtor ≠ s.cfg.vtBase →
        exec (.vtDispatch k) s = .fault (.notLive k))

/-- R129: after `VT.INSTALL k, cb` on a live table, the dispatch of `k` finds exactly `cb`, and the dispatch of another
number `j` finds what it found before. -/
def Obligations.InstalledCallbackIsDispatched : Prop :=
  ∀ (k j : Irq) (s t u v : State) (r : List Move), s.cfg.wf = true → s.ctx = .thread → k.toNat < s.cfg.nVec →
    j.toNat < s.cfg.nVec → s.task.ops = [] → s.vtor = s.cfg.vtBase → s.plays (engineMoves 2 r) →
    exec (.vtInstall k) s = .next t → Reaches 1 t u →
    exec (.vtDispatch j) { u with issuer := .trampoline } = .next v →
    ∃ x, Reaches 1 v x ∧ x.ctx = .interrupt j
      ∧ x.token = some (if j = k then s.args.cb else (s.regRead (.slot j.toNat)).word)

/-- R126, R262: in interrupt context `CB.DEFAULT` appends the record with the number being served and sets `HALTED`;
nothing else changes and no bus step is issued. While `HALTED` is 1 no step is a fault, the engine, the trampoline and
the host do nothing, whatever they were doing, CANHW and the environment go on, and only power-on reset ends it. (That the
halt is a next state and not a fault is log 20; that the environment's inputs go on is log 33.) -/
def Obligations.DefaultHandlerHaltsForGood : Prop :=
  (∀ (k : Irq) (s : State), s.ctx = .interrupt k →
      exec .cbDefault s = .next { s with diag := s.diag ++ [.unhandledInterrupt k], halted := true })
    ∧ ∀ s : State, s.halted = true →
        ∃ t, step s = .next t
          ∧ ((∀ r, s.sched ≠ .powerOn :: r) →
              t = { s with sched := s.sched.tail, can := t.can, lines := t.lines, clkHz := t.clkHz })
          ∧ (∀ m r, s.sched = .hw m :: r → t = { s with sched := r, can := s.can.move s.cfg m })
          ∧ ((∀ r, s.sched ≠ .powerOn :: r) → (∀ m r, s.sched ≠ .hw m :: r) → t.can = s.can)

/-- R127, R128: `CB.RX0` and `CB.RX1` run `CAN.RXISR 0` and `CAN.RXISR 1` as a callback and then return; what they
issue depends on the body only, not on the number being served. -/
def Obligations.ReceiveClosuresIssue : Prop :=
  ∀ (k : Irq) (f : FifoIdx) (s : State) (r : List Move), s.ctx = .interrupt k → s.plays (engineMoves 2 r) →
    ∃ t u : State, exec (match f with | .f0 => .cbRx0 | .f1 => .cbRx1) s = .next t ∧ Reaches 1 t u
      ∧ step u = exec (.canRxisr (match f with | .f0 => 0#8 | .f1 => 1#8))
          { s with sched := r, issuer := .callback, isr := ⟨.ret :: s.isr.ops, s.isr.v⟩ }

/-- R124: a token of no body of the block names an external callback; one that `ExtAction` lists no command for returns
at once and leaves everything but the context as it was. (The list form of `ExtAction`
is log 22.) -/
def Obligations.ExternalCallbackReturns : Prop :=
  ∀ (k : Irq) (w : Word) (s : State) (r : List Move), s.halted = false → s.port = none → s.ctx = .interrupt k →
    s.sched = .engine :: r → s.token = some w → w ≠ s.cfg.cbDefault → w ≠ s.cfg.cbRx0 → w ≠ s.cfg.cbRx1 →
    (∀ e ∈ s.cfg.extAction, e.1 ≠ w) →
    step s = .next { s with sched := r, token := none, ctx := s.savedCtx }

/-! ## Mailboxes -/

/-- R150, R98, R100, R101, R236, R68: on a free mailbox `MB.SEND` issues its eight bus steps in order; the mailbox then
holds the frame and is requested, `TMEn` and its flags are 0, it is last in `TXORDER`, the mirror says pending, and
everything else is unchanged. -/
def Obligations.MbSendLoadsAndRequests : Prop :=
  ∀ (n : Byte) (m : MbIdx) (s : State) (r : List Move), n.toNat = m.toNat → s.ctx = .thread → s.args.len ≤ 8#4 →
    s.args.id ≤ 0x1FFFFFFF#32 → s.can.mbOk m → bitOf s.can.tsr (26 + m.toNat) = true →
    s.plays (engineMoves 8 r) →
    ∃ t, exec (.mbSend n) s = .next t
      ∧ Reaches 8 t (proceed s.task.ops (
          { s with
            sched := r, can := s.can.loaded m s.args, mb := s.mb.set m .pending, draws := s.draws + 3
            trace := s.trace ++ s.sendEvents m s.draws }.setLocal
            (shown (requestedTsr m s.can.tsr) seenTsr (Config.freeWord (s.draws + 2)))))

/-- U6 (R150 corner (c)): the first write of `MB.SEND` on a busy mailbox is a fault of the run. (The fault
is log 21.) -/
def Obligations.MbSendBusyFaults : Prop :=
  ∀ (n : Byte) (m : MbIdx) (s : State) (r : List Move), n.toNat = m.toNat → s.ctx = .thread → s.args.len ≤ 8#4 →
    s.args.id ≤ 0x1FFFFFFF#32 → bitOf s.can.tsr (26 + m.toNat) = false → s.plays (engineMoves 1 r) →
    ∃ t, exec (.mbSend n) s = .next t ∧ step t = .fault (.busyMailbox m)

/-- R152, R103, R218: in any context `MB.UPDATE` reads `TIR[n]` and then `TSR`, with any moves of CANHW between the
two; the mirror is what the two reads found, the other mirrors and everything else are unchanged. `CAN.GETMB n` is
`MB.UPDATE n`, with any moves of CANHW between its two reads, and then `RES_MB` gets the mirror, `requested` in bit 0
to `transmit_error` in bit 4. -/
def Obligations.MailboxSnapshots : Prop :=
  (∀ (n : Byte) (m : MbIdx) (s : State) (hs : List HwMove) (r : List Move) (c : Can), n.toNat = m.toNat →
      bitOf (s.can.mbx.get m).tir.unk 0 = false →
      s.plays (.engine :: hs.map .hw ++ .engine :: r) → c = hs.foldl (fun c h => c.move s.cfg h) s.can →
      ∃ t, exec (.mbUpdate n) s = .next t
        ∧ Reaches (2 + hs.length) t (proceed s.task.ops (
            { s with
              sched := r, can := c, draws := s.draws + 2
              mb := s.mb.set m
                { requested := bitOf (s.can.mbx.get m).tir.val 0
                  requestComplete := bitOf c.tsr (8 * m.toNat)
                  transmitOk := bitOf c.tsr (8 * m.toNat + 1)
                  arbitrationLost := bitOf c.tsr (8 * m.toNat + 2)
                  transmitError := bitOf c.tsr (8 * m.toNat + 3) }
              trace := s.trace ++ [s.readEvent 0 (.tir m),
                s.reads .tsr (shown c.tsr seenTsr (Config.freeWord (s.draws + 1)))] }.setLocal
              (shown c.tsr seenTsr (Config.freeWord (s.draws + 1))))))
    ∧ (∀ (n : Byte) (m : MbIdx) (s : State) (hs : List HwMove) (r : List Move) (c : Can), n.toNat = m.toNat →
        bitOf (s.can.mbx.get m).tir.unk 0 = false →
        s.plays (.engine :: hs.map .hw ++ .engine :: r) → c = hs.foldl (fun c h => c.move s.cfg h) s.can →
        ∃ (t : State) (res : BitVec 5), exec (.canGetmb n) s = .next t
          ∧ Reaches (2 + hs.length) t (proceed s.task.ops (
              { s with
                sched := r, can := c, draws := s.draws + 2, res := { s.res with mb := res }
                mb := s.mb.set m
                  { requested := bitOf (s.can.mbx.get m).tir.val 0
                    requestComplete := bitOf c.tsr (8 * m.toNat)
                    transmitOk := bitOf c.tsr (8 * m.toNat + 1)
                    arbitrationLost := bitOf c.tsr (8 * m.toNat + 2)
                    transmitError := bitOf c.tsr (8 * m.toNat + 3) }
                trace := s.trace ++ [s.readEvent 0 (.tir m),
                  s.reads .tsr (shown c.tsr seenTsr (Config.freeWord (s.draws + 1)))] }.setLocal
                (shown c.tsr seenTsr (Config.freeWord (s.draws + 1)))))
          ∧ res.getLsbD 0 = bitOf (s.can.mbx.get m).tir.val 0 ∧ res.getLsbD 1 = bitOf c.tsr (8 * m.toNat)
          ∧ res.getLsbD 2 = bitOf c.tsr (8 * m.toNat + 1) ∧ res.getLsbD 3 = bitOf c.tsr (8 * m.toNat + 2)
          ∧ res.getLsbD 4 = bitOf c.tsr (8 * m.toNat + 3))

/-- R154, R239: `MB.ABORT n` on an empty mailbox writes `ABRQn`, which is not stored, and its wait ends at the first
read; nothing but the record of the two bus steps changes, no mirror is refreshed.
R154, R239, R310: on a pending mailbox that is not being sent, `MB.ABORT n` writes `ABRQn` alone, reads `TSR` any
number of times until CANHW has made its abort-done move, and ends at the first read after it: the mailbox is free,
`RQCPn` is 1, `TXOKn` and `ABRQn` are 0, it has left `TXORDER`, every other flag of `TSR` and everything else is
unchanged, the mirrors included. -/
def Obligations.MbAbortWaitsForHardware : Prop :=
  (∀ (n : Byte) (m : MbIdx) (s : State) (r : List Move), n.toNat = m.toNat → s.ctx = .thread →
      s.can.mbOk m → bitOf s.can.tsr (26 + m.toNat) = true → s.plays (engineMoves 2 r) →
      ∃ t, exec (.mbAbort n) s = .next t
        ∧ Reaches 2 t (proceed s.task.ops (
            { s with
              sched := r, draws := s.draws + 1
              trace := s.trace ++ [s.writeEvent .tsr (1#32 <<< (8 * m.toNat + 7)), s.readEvent 0 .tsr] }.setLocal
              (s.readEvent 0 .tsr).word)))
    ∧ (∀ (n : Byte) (m : MbIdx) (s : State) (k : Nat) (r : List Move) (b : State), n.toNat = m.toNat → s.ctx = .thread →
        bitOf s.can.tsr (26 + m.toNat) = false → m ∈ s.can.txOrder → s.can.onAir ≠ some m →
        s.plays (engineMoves (k + 1) (.hw (.abortDone m) :: .engine :: r)) →
        b = { s with can := { s.can with tsr := s.can.tsr ||| 1#32 <<< (8 * m.toNat + 7) } } →
        ∃ (t : State) (c : Can), exec (.mbAbort n) s = .next t
          ∧ c = { s.can with
                  mbx := s.can.mbx.set m { s.can.mbx.get m with tir :=
                    { (s.can.mbx.get m).tir with val := (s.can.mbx.get m).tir.val &&& ~~~1#32 } }
                  tsr := (s.can.tsr &&& ~~~(0b10000010#32 <<< (8 * m.toNat))) ||| 1#32 <<< (26 + m.toNat)
                    ||| 1#32 <<< (8 * m.toNat)
                  txOrder := s.can.txOrder.filter (fun j => decide (j ≠ m)) }
          ∧ Reaches (k + 3) t (proceed s.task.ops (
              { s with
                sched := r, can := c, draws := s.draws + (k + 1)
                trace := s.trace ++ [s.writeEvent .tsr (1#32 <<< (8 * m.toNat + 7))] ++ b.pollEvents .tsr s.draws k
                  ++ [s.reads .tsr (shown c.tsr seenTsr (Config.freeWord (s.draws + k)))] }.setLocal
                (shown c.tsr seenTsr (Config.freeWord (s.draws + k))))))

/-! ## The Error Statistic -/

/-- R170, R104, R217: in any context `ES.UPDATE` reads `ESR` once, and the six fields of `ES` are those bits of it;
`CAN.GETERR` is `ES.UPDATE`, and then `RES_ES` gets `ES`. Nothing else changes. -/
def Obligations.ErrorSnapshots : Prop :=
  (∀ (s : State) (r : List Move), s.plays (engineMoves 1 r) →
      ∃ t, exec .esUpdate s = .next t
        ∧ Reaches 1 t (proceed s.task.ops (
            { s with
              sched := r, draws := s.draws + 1, trace := s.trace ++ [s.readEvent 0 .esr]
              es :=
                { recCount := s.can.esr.extractLsb' 24 8
                  tecCount := s.can.esr.extractLsb' 16 8
                  lec := s.can.esr.extractLsb' 4 3
                  busOff := bitOf s.can.esr 2
                  errorPassive := bitOf s.can.esr 1
                  errorWarning := bitOf s.can.esr 0 } }.setLocal (s.readEvent 0 .esr).word)))
    ∧ (∀ (s : State) (r : List Move) (e : ErrStat), s.plays (engineMoves 1 r) →
        e = { recCount := s.can.esr.extractLsb' 24 8
              tecCount := s.can.esr.extractLsb' 16 8
              lec := s.can.esr.extractLsb' 4 3
              busOff := bitOf s.can.esr 2
              errorPassive := bitOf s.can.esr 1
              errorWarning := bitOf s.can.esr 0 } →
        ∃ t, exec .canGeterr s = .next t
          ∧ Reaches 1 t (proceed s.task.ops (
              { s with
                sched := r, draws := s.draws + 1, trace := s.trace ++ [s.readEvent 0 .esr]
                es := e, res := { s.res with es := e } }.setLocal (s.readEvent 0 .esr).word)))

/-- R172: in any context `ES.LABEL c` sets `RES_LABEL` for `c` up to 7 and issues no bus step; above 7 it raises
`RangeFault(c)`; the eight labels are those of the table. -/
def Obligations.LabelOfErrorCode : Prop :=
  (∀ (c : Byte) (s : State), c ≤ 7#8 →
      exec (.esLabel c) s = .next (proceed s.task.ops { s with res := { s.res with label := c.setWidth 4 } }))
    ∧ (∀ (c : Byte) (s : State), 7#8 < c → exec (.esLabel c) s = .fault (.rangeFault c))
    ∧ [0#4, 1#4, 2#4, 3#4, 4#4, 5#4, 6#4, 7#4].map errorLabel
        = ["No Error", "Stuff Error", "Form Error", "Ack Error", "Bit1 Error", "Bit0 Error", "CRC Error",
            "Software Error"]

/-! ## Initialisation -/

/-- R180: in thread context `CAN.INIT` starts the sequencer at step 1, from any `SEQ`. -/
def Obligations.InitStartsAtStepOne : Prop :=
  ∀ s : State, s.ctx = .thread → exec .canInit s = .next { s with seq := 1#4, initRun := true }

/-- R181, R231, R310: `STEP.RESET` sets `MCR.RESET` by a read-modify-write and reads `MCR` any number of times until
CANHW has made its reset move; the register file then holds its reset values (the filter registers as the move leaves
them), and everything outside it but `SEQ` is unchanged. (What a reset does to the filter registers
is the schedule's choice, log 18; the reference behaviour of CANHW is log 11.) -/
def Obligations.StepResetRuns : Prop :=
  ∀ (s : State) (k : Nat) (fr : FilterReset) (r : List Move) (b : State), s.ctx = .thread →
    s.plays (engineMoves (k + 2) (.hw (.resetDone fr) :: .engine :: r)) →
    b = { s with can := { s.can with mcr := s.can.mcr ||| 0x00008000#32 } } →
    ∃ (t : State) (c : Can), exec .stepReset s = .next t
      ∧ c = ({ Can.reset with
              fmr := s.can.fmr, fm1r := s.can.fm1r, fs1r := s.can.fs1r, ffa1r := s.can.ffa1r, fa1r := s.can.fa1r
              f0r1 := s.can.f0r1, f0r2 := s.can.f0r2 } : Can).resetFilters fr
      ∧ Reaches (k + 4) t (proceed s.task.ops (
          { s with
            sched := r, can := c, seq := 2#4, draws := s.draws + (k + 2)
            trace := s.trace
              ++ [s.readEvent 0 .mcr, s.writes .mcr ((s.readEvent 0 .mcr).word.orMask 0x00008000#32)]
              ++ b.pollEvents .mcr (s.draws + 1) k
              ++ [s.reads .mcr (shown 0x00010002#32 seenMcr (Config.freeWord (s.draws + (k + 1))))]
            }.setLocal (shown 0x00010002#32 seenMcr (Config.freeWord (s.draws + (k + 1))))))

/-- R182, R232, R310: `STEP.EXITSLEEP` on a sleeping controller clears `MCR.SLEEP` by a read-modify-write and reads
`MSR` any number of times until CANHW has cleared `SLAK`; every other bit and everything else but `SEQ` is unchanged. -/
def Obligations.StepExitSleepRuns : Prop :=
  ∀ (s : State) (k : Nat) (r : List Move) (b : State), s.ctx = .thread → bitOf s.can.msr 1 = true →
    s.plays (engineMoves (k + 2) (.hw .wake :: .engine :: r)) →
    b = { s with can := { s.can with mcr := s.can.mcr &&& ~~~0x00000002#32 } } →
    ∃ (t : State) (c : Can), exec .stepExitsleep s = .next t
      ∧ c = { s.can with mcr := s.can.mcr &&& ~~~0x00000002#32, msr := s.can.msr &&& ~~~0x00000002#32 }
      ∧ Reaches (k + 4) t (proceed s.task.ops (
          { s with
            sched := r, can := c, seq := 3#4, draws := s.draws + (k + 2)
            trace := s.trace
              ++ [s.readEvent 0 .mcr, s.writes .mcr ((s.readEvent 0 .mcr).word.andNotMask 0x00000002#32)]
              ++ b.pollEvents .msr (s.draws + 1) k
              ++ [s.reads .msr (shown c.msr seenMsr (Config.freeWord (s.draws + (k + 1))))]
            }.setLocal (shown c.msr seenMsr (Config.freeWord (s.draws + (k + 1))))))

/-- R183, R233, R310: `STEP.ENTERCONFIG` with no transmission in progress sets `MCR.INRQ` by a read-modify-write and
reads `MSR` any number of times until CANHW has set `INAK`; every other bit and everything else but `SEQ` is
unchanged. -/
def Obligations.StepEnterConfigRuns : Prop :=
  ∀ (s : State) (k : Nat) (r : List Move) (b : State), s.ctx = .thread → bitOf s.can.msr 0 = false →
    s.can.onAir = none → s.plays (engineMoves (k + 2) (.hw .initEnter :: .engine :: r)) →
    b = { s with can := { s.can with mcr := s.can.mcr ||| 0x00000001#32 } } →
    ∃ (t : State) (c : Can), exec .stepEnterconfig s = .next t
      ∧ c = { s.can with mcr := s.can.mcr ||| 0x00000001#32, msr := s.can.msr ||| 0x00000001#32 }
      ∧ Reaches (k + 4) t (proceed s.task.ops (
          { s with
            sched := r, can := c, seq := 4#4, draws := s.draws + (k + 2)
            trace := s.trace
              ++ [s.readEvent 0 .mcr, s.writes .mcr ((s.readEvent 0 .mcr).word.orMask 0x00000001#32)]
              ++ b.pollEvents .msr (s.draws + 1) k
              ++ [s.reads .msr (shown c.msr seenMsr (Config.freeWord (s.draws + (k + 1))))]
            }.setLocal (shown c.msr seenMsr (Config.freeWord (s.draws + (k + 1))))))

/-- R184, R105: `STEP.OPTIONS` clears `MCR` bits 7:2 by one read-modify-write; every other bit and everything else but
`SEQ` is unchanged. -/
def Obligations.StepOptionsRuns : Prop :=
  ∀ (s : State) (r : List Move), s.ctx = .thread → s.plays (engineMoves 2 r) →
    ∃ t, exec .stepOptions s = .next t
      ∧ Reaches 2 t (proceed s.task.ops (
          { s with
            sched := r, seq := 5#4, draws := s.draws + 1
            can := { s.can with mcr := s.can.mcr &&& ~~~0x000000FC#32 }
            trace := s.trace
              ++ [s.readEvent 0 .mcr, s.writes .mcr ((s.readEvent 0 .mcr).word.andNotMask 0x000000FC#32)]
            }.setLocal (s.readEvent 0 .mcr).word))

/-- R185, R102, R234: `STEP.TIMING` samples the clock, writes `BT`, emits a record if the result is inexact, and writes
`BTR` whole: the write counts in init mode only, and leaves the three fields minus one, the jump width 0, the loop-back
and silent bits 0. -/
def Obligations.StepTimingRuns : Prop :=
  ∀ (s : State) (r : List Move) (bt : BitTiming) (exact : Bool), s.ctx = .thread →
    solve s.cfg.solverFallback s.clkHz s.args.rate = (bt, exact) → s.plays (engineMoves 1 r) →
    ∃ (t : State) (w : Word), exec .stepTiming s = .next t
      ∧ w = ((bt.prescaler - 1#32) &&& 0x3FF#32) ||| ((bt.ts1 - 1#32) &&& 0xF#32) <<< 16
          ||| ((bt.ts2 - 1#32) &&& 0x7#32) <<< 20
      ∧ Reaches 1 t (proceed s.task.ops
          { s with
            sched := r, seq := 6#4, fClk := s.clkHz, bt := bt
            diag := s.diag ++ if exact then [] else [.timingInexact s.clkHz s.args.rate bt.prescaler]
            can := if bitOf s.can.msr 0 then { s.can with btr := (s.can.btr &&& ~~~seenBtr) ||| w } else s.can
            trace := s.trace ++ [s.writeEvent .btr w] })

/-- R186, R68, R234: `STEP.FILTER` takes fourteen bus steps; then bank 0 is one 32-bit filter in mask mode with
identifier 0 and mask 0, assigned to FIFO 0 and active, filter-config mode is left, the given bits of every other bank
are as they were, and everything else but `SEQ` is unchanged. (That bits 31:1 of `FMR` and all bank bits are stored as
written, and so read as given afterwards, is log 8.) -/
def Obligations.StepFilterRuns : Prop :=
  ∀ (s : State) (r : List Move), s.ctx = .thread → s.plays (engineMoves 14 r) →
    ∃ t u : State, exec .stepFilter s = .next t ∧ Reaches 14 t (proceed s.task.ops u)
      ∧ u = { s with
              sched := r, seq := 7#4, draws := s.draws + 6, thread := u.thread, trace := u.trace
              can := { s.can with
                fmr := u.can.fmr, fs1r := u.can.fs1r, fm1r := u.can.fm1r, ffa1r := u.can.ffa1r, fa1r := u.can.fa1r
                f0r1 := ⟨0#32, 0#32⟩, f0r2 := ⟨0#32, 0#32⟩ } }
      ∧ s.can.fmr.onlyBit0 u.can.fmr false ∧ s.can.fs1r.onlyBit0 u.can.fs1r true
      ∧ s.can.fm1r.onlyBit0 u.can.fm1r false ∧ s.can.ffa1r.onlyBit0 u.can.ffa1r false
      ∧ s.can.fa1r.onlyBit0 u.can.fa1r true
      ∧ ∃ evs, u.trace = s.trace ++ evs
          ∧ evs.map (fun e => (e.dir, e.addr)) =
              [(.read, Reg.fmr.addr s.cfg), (.write, Reg.fmr.addr s.cfg), (.read, Reg.fs1r.addr s.cfg),
                (.write, Reg.fs1r.addr s.cfg), (.read, Reg.fm1r.addr s.cfg), (.write, Reg.fm1r.addr s.cfg),
                (.write, Reg.f0r1.addr s.cfg), (.write, Reg.f0r2.addr s.cfg), (.read, Reg.ffa1r.addr s.cfg),
                (.write, Reg.ffa1r.addr s.cfg), (.read, Reg.fa1r.addr s.cfg), (.write, Reg.fa1r.addr s.cfg),
                (.read, Reg.fmr.addr s.cfg), (.write, Reg.fmr.addr s.cfg)]

/-- R187, R190, R233, R310: `STEP.LEAVECONFIG` and `CAN.START` in init mode clear `MCR.INRQ` by a read-modify-write and
read `MSR` any number of times until CANHW has cleared `INAK`; the step sets `SEQ` to 8 at its end, `CAN.START` leaves
it; every other bit and everything else is unchanged, but that in bus-off CANHW's recovery has begun. (That leaving init
mode in bus-off begins the recovery, a flag of CANHW, is log 16.) -/
def Obligations.LeaveConfigRuns : Prop :=
  ∀ (i : Instr) (s : State) (k : Nat) (r : List Move) (b : State), i = Instr.stepLeaveconfig ∨ i = Instr.canStart →
    s.ctx = .thread → bitOf s.can.msr 0 = true →
    s.plays (engineMoves (k + 2) (.hw .initLeave :: .engine :: r)) →
    b = { s with can := { s.can with mcr := s.can.mcr &&& ~~~0x00000001#32 } } →
    ∃ (t : State) (c : Can), exec i s = .next t
      ∧ c = { s.can with
              mcr := s.can.mcr &&& ~~~0x00000001#32, msr := s.can.msr &&& ~~~0x00000001#32
              recovering := s.can.recovering || bitOf s.can.esr 2 }
      ∧ Reaches (k + 4) t (proceed s.task.ops (
          { s with
            sched := r, can := c, seq := if i = Instr.canStart then s.seq else 8#4, draws := s.draws + (k + 2)
            trace := s.trace
              ++ [s.readEvent 0 .mcr, s.writes .mcr ((s.readEvent 0 .mcr).word.andNotMask 0x00000001#32)]
              ++ b.pollEvents .msr (s.draws + 1) k
              ++ [s.reads .msr (shown c.msr seenMsr (Config.freeWord (s.draws + (k + 1))))]
            }.setLocal (shown c.msr seenMsr (Config.freeWord (s.draws + (k + 1))))))

/-- R188, R44, R45, R180: `STEP.ENABLEIRQ` takes ten bus steps; then the two message-pending enables are set and every
other bit of `IER` is as it was, the two lines have priority `PRIO_RX` and are enabled and no other line's priority or
enable has changed, the two slots hold the closures, every byte outside the two slots is unchanged, `SEQ` is 9, `CAN.INIT`
has ended, and everything else is unchanged. The installs come last. -/
def Obligations.StepEnableIrqRuns : Prop :=
  ∀ (s : State) (r : List Move), s.cfg.wf = true → s.ctx = .thread → s.plays (engineMoves 10 r) →
    ∃ t u : State, exec .stepEnableirq s = .next t ∧ Reaches 10 t (proceed s.task.ops u)
      ∧ u = { s with
              sched := r, seq := 9#4, initRun := false, draws := s.draws + 3, thread := u.thread, trace := u.trace
              can := { s.can with ier := s.can.ier ||| 0x00000012#32 }
              nvic := u.nvic, mem := u.mem }
      ∧ (∀ k, u.prio k = if k = s.cfg.irqRx0 ∨ k = s.cfg.irqRx1 then s.cfg.prioRx else s.prio k)
      ∧ (∀ k, u.en k = (s.en k || decide (k = s.cfg.irqRx0) || decide (k = s.cfg.irqRx1)))
      ∧ (∀ d, u.view (Config.freeWord d) (.slot s.cfg.irqRx0.toNat) = .given s.cfg.cbRx0 d)
      ∧ (∀ d, u.view (Config.freeWord d) (.slot s.cfg.irqRx1.toNat) = .given s.cfg.cbRx1 d)
      ∧ (∀ a, ¬((slotAddr s.cfg s.cfg.irqRx0.toNat).toNat ≤ a ∧ a < (slotAddr s.cfg s.cfg.irqRx0.toNat).toNat + 4) →
          ¬((slotAddr s.cfg s.cfg.irqRx1.toNat).toNat ≤ a ∧ a < (slotAddr s.cfg s.cfg.irqRx1.toNat).toNat + 4) →
          u.mem.byteAt a = s.mem.byteAt a)
      ∧ ∃ evs, u.trace = s.trace ++ evs
          ∧ evs.map (fun e => (e.dir, e.addr)) =
              [(.read, Reg.ier.addr s.cfg), (.write, Reg.ier.addr s.cfg),
                (.read, (Reg.ipr s.cfg.irqRx0).addr s.cfg), (.write, (Reg.ipr s.cfg.irqRx0).addr s.cfg),
                (.read, (Reg.ipr s.cfg.irqRx1).addr s.cfg), (.write, (Reg.ipr s.cfg.irqRx1).addr s.cfg),
                (.write, (Reg.iser s.cfg.irqRx0).addr s.cfg), (.write, (Reg.iser s.cfg.irqRx1).addr s.cfg),
                (.write, slotAddr s.cfg s.cfg.irqRx0.toNat), (.write, slotAddr s.cfg s.cfg.irqRx1.toNat)]

/-- R182, R183, R187, R190: where the acknowledge already stands, the wait of step 2, of step 3, of step 7 and of
`CAN.START` ends at its first read, and only the requested `MCR` bit and `SEQ` change. -/
def Obligations.WaitsEndAtFirstRead : Prop :=
  ∀ (i : Instr) (m : Word) (c : BitVec 4) (s : State) (r : List Move), s.ctx = .thread → s.plays (engineMoves 3 r) →
    (i = Instr.stepExitsleep ∧ m = s.can.mcr &&& ~~~2#32 ∧ c = 3#4 ∧ bitOf s.can.msr 1 = false)
      ∨ (i = Instr.stepEnterconfig ∧ m = s.can.mcr ||| 1#32 ∧ c = 4#4 ∧ bitOf s.can.msr 0 = true)
      ∨ (i = Instr.stepLeaveconfig ∧ m = s.can.mcr &&& ~~~1#32 ∧ c = 8#4 ∧ bitOf s.can.msr 0 = false)
      ∨ (i = Instr.canStart ∧ m = s.can.mcr &&& ~~~1#32 ∧ c = s.seq ∧ bitOf s.can.msr 0 = false) →
    ∃ t u : State, exec i s = .next t ∧ Reaches 3 t (proceed s.task.ops u)
      ∧ u = { s with
              sched := r, seq := c, can := { s.can with mcr := m }, draws := s.draws + 2
              thread := u.thread, trace := u.trace }

/-- R310, R8: however often a wait reads its register without finding the bit, it reads again: the operation keeps its
place, no register changes, and no other access is made. -/
def Obligations.WaitsAreUnbounded : Prop :=
  ∀ (reg : Reg) (b : Nat) (val : Bool) (rest : List Op) (n : Nat) (s : State) (r : List Move),
    s.task.ops = .bus (.wait reg b val) :: rest → s.plays (engineMoves n r) →
    (∀ d, (s.view (Config.freeWord d) reg).bit b ≠ val) →
    ∃ v : BusWord, Reaches n s ({ s with
      sched := r, draws := s.draws + n, trace := s.trace ++ s.pollEvents reg s.draws n }.setLocal v)

/-! ## Run-time operations -/

/-- R210, R236, R107: `CAN.SEND` reads `TSR` once for each mailbox it queries, in the order 0, 1, 2, loads the first
free one as `MB.SEND` does, and sets `RES_OK`; exactly that mailbox becomes requested, and everything else is
unchanged.
R210, R220: with all three mailboxes busy `CAN.SEND` makes three reads of `TSR`, no write, and sets `RES_OK` to 0;
nothing else changes. -/
def Obligations.CanSendTakesFirstFreeMailbox : Prop :=
  (∀ (m : MbIdx) (s : State) (r : List Move), s.ctx = .thread → s.args.len ≤ 8#4 → s.args.id ≤ 0x1FFFFFFF#32 →
      s.can.mbOk m → bitOf s.can.tsr (26 + m.toNat) = true →
      (∀ j : MbIdx, j.toNat < m.toNat → bitOf s.can.tsr (26 + j.toNat) = false) →
      s.plays (engineMoves (m.toNat + 9) r) →
      ∃ t, exec .canSend s = .next t
        ∧ Reaches (m.toNat + 9) t (proceed s.task.ops (
            { s with
              sched := r, can := s.can.loaded m s.args, mb := s.mb.set m .pending, res := { s.res with ok := true }
              draws := s.draws + (m.toNat + 4)
              trace := s.trace ++ s.pollEvents .tsr s.draws (m.toNat + 1)
                ++ s.sendEvents m (s.draws + (m.toNat + 1)) }.setLocal
              (shown (requestedTsr m s.can.tsr) seenTsr (Config.freeWord (s.draws + (m.toNat + 3)))))))
    ∧ (∀ (s : State) (r : List Move), s.ctx = .thread → s.args.len ≤ 8#4 → s.args.id ≤ 0x1FFFFFFF#32 →
        (∀ j : MbIdx, bitOf s.can.tsr (26 + j.toNat) = false) → s.plays (engineMoves 3 r) →
        ∃ t, exec .canSend s = .next t
          ∧ Reaches 3 t (proceed s.task.ops (
              { s with
                sched := r, res := { s.res with ok := false }, draws := s.draws + 3
                trace := s.trace ++ [s.readEvent 0 .tsr, s.readEvent 1 .tsr, s.readEvent 2 .tsr] }.setLocal
                (s.readEvent 2 .tsr).word)))

/-- R214, R99, R100, R101, R242, R68: with a frame pending, `CAN.RXISR f` reads identifier, length, low word and, above
length 4, high word, calls the Handler once, and then writes the release bit, alone, once; the frame handed over has the
head's identifier, its length clamped to 8, its bytes below the length, and zeros for bytes that were not read; the head
leaves the queue, and everything else is unchanged. -/
def Obligations.RxIsrDeliversHead : Prop :=
  ∀ (f : Byte) (g : FifoIdx) (k : Irq) (m : RxMsg) (q : List RxMsg) (n : Nat) (s : State) (r : List Move),
    f.toNat = g.toNat → s.ctx = .interrupt k → s.issuer = .callback → (s.can.fifo.get g).queue = m :: q →
    n = (if 4#4 < m.dlc then 5 else 4) → s.plays (engineMoves n r) →
    ∃ t u : State, exec (.canRxisr f) s = .next t ∧ Reaches n t (proceed s.task.ops u)
      ∧ u = { s with
              sched := r, frameRx := u.frameRx, rxlog := s.rxlog ++ [⟨g, u.frameRx⟩], draws := s.draws + (n - 1)
              isr := u.isr
              can := { s.can with fifo := s.can.fifo.set g { s.can.fifo.get g with queue := q, full := false } }
              trace := s.trace ++ [s.readEvent 0 (.rir g), s.readEvent 1 (.rdtr g), s.readEvent 2 (.rdlr g)]
                ++ (if 4#4 < m.dlc then [s.readEvent 3 (.rdhr g)] else []) ++ [s.writeEvent (.rfr g) 0x00000020#32] }
      ∧ u.frameRx.id
          = (if m.idword.getLsbD 2 then m.idword.extractLsb' 3 29 else (m.idword.extractLsb' 21 11).setWidth 29)
      ∧ u.frameRx.len.toNat = min m.dlc.toNat 8
      ∧ (∀ i, i < u.frameRx.len.toNat → u.frameRx.data.byte i = m.byte i)
      ∧ (u.frameRx.len ≤ 4#4 → u.frameRx.data.hi = ⟨0#8, 0#8, 0#8, 0#8⟩)

/-- R214 corner (e), U7, R242: on an empty FIFO `CAN.RXISR f` runs all the same: four or five bus steps, one Handler
call with some frame, and a release without effect; everything else is unchanged. (The arbitrary values are draws, log 6.) -/
def Obligations.RxIsrOnEmptyFifo : Prop :=
  ∀ (f : Byte) (g : FifoIdx) (k : Irq) (s : State) (r : List Move), f.toNat = g.toNat → s.ctx = .interrupt k →
    s.issuer = .callback → (s.can.fifo.get g).queue = [] → s.plays (engineMoves 5 r) →
    ∃ (n : Nat) (t u : State), (n = 4 ∨ n = 5) ∧ exec (.canRxisr f) s = .next t
      ∧ Reaches n t (proceed s.task.ops u)
      ∧ u = { s with
              sched := engineMoves (5 - n) r, frameRx := u.frameRx, rxlog := s.rxlog ++ [⟨g, u.frameRx⟩]
              draws := s.draws + (n - 1), isr := u.isr, trace := u.trace }

/-! ## Refusals: context, operands, the live table -/

/-- R274: exactly which commands are refused for their context. Whatever its operands, a command ends in `ContextFault`
if it is of thread context and issued in interrupt context; if it is `VT.DISPATCH` and not issued by the trampoline, or
in interrupt context; if it is `CAN.RXISR` and in thread context, or not issued by a callback body; and in no other
case. -/
def Obligations.WrongContextRefused : Prop :=
  ∀ (w : Word) (i : Instr) (s : State), decodeCommand w = .ok i →
    (exec i s = .fault (.contextFault i) ↔
      match i with
      | .vtRelocate | .vtInstall _ | .mbSend _ | .mbAbort _ | .canInit | .canStart | .canSend => s.ctx ≠ .thread
      | .vtDispatch _ => s.ctx ≠ .thread ∨ s.issuer ≠ .trampoline
      | .canRxisr _ => s.ctx = .thread ∨ s.issuer ≠ .callback
      | _ => False)

/-- R97: in an admitted context an operand outside its range ends the operation in the outcome of the table, with no
state changed and no bus step; where more than one operand is outside, one of those is named. -/
def Obligations.BadOperandRefused : Prop :=
  (∀ (k : Irq) (s : State), s.ctx = .thread → s.cfg.nVec ≤ k.toNat →
      exec (.vtInstall k) s = .fault (.badOperand .interruptNumber)
        ∧ (s.issuer = .trampoline → exec (.vtDispatch k) s = .fault (.badOperand .interruptNumber)))
    ∧ (∀ (n : Byte) (s : State), 2 < n.toNat →
        exec (.mbUpdate n) s = .fault (.badOperand .mailbox) ∧ exec (.canGetmb n) s = .fault (.badOperand .mailbox)
          ∧ (s.ctx = .thread →
              exec (.mbAbort n) s = .fault (.badOperand .mailbox)
                ∧ (exec (.mbSend n) s = .fault (.badOperand .mailbox)
                    ∨ (8#4 < s.args.len ∧ exec (.mbSend n) s = .fault (.badOperand .length))
                    ∨ (0x1FFFFFFF#32 < s.args.id ∧ exec (.mbSend n) s = .fault (.badOperand .identifier)))))
    ∧ (∀ (f : Byte) (k : Irq) (s : State), 1 < f.toNat → s.ctx = .interrupt k → s.issuer = .callback →
        exec (.canRxisr f) s = .fault (.badOperand .fifoIndex))
    ∧ (∀ (c : Byte) (s : State), 7 < c.toNat → exec (.esLabel c) s = .fault (.rangeFault c))
    ∧ ∀ (i : Instr) (n : Byte) (s : State), s.ctx = .thread → n.toNat ≤ 2 → i = .canSend ∨ i = .mbSend n →
        (8#4 < s.args.len → s.args.id ≤ 0x1FFFFFFF#32 → exec i s = .fault (.badOperand .length))
          ∧ (s.args.len ≤ 8#4 → 0x1FFFFFFF#32 < s.args.id → exec i s = .fault (.badOperand .identifier))
          ∧ (8#4 < s.args.len → 0x1FFFFFFF#32 < s.args.id →
              exec i s = .fault (.badOperand .length) ∨ exec i s = .fault (.badOperand .identifier))

/-! ## The controller behind the registers -/

/-- R234, R313: what CANHW ignores. `BTR` outside init mode; the filter registers outside filter-config mode (bank 0's
own two also while it is inactive); the registers of a busy mailbox, a second request included (R236).
R24, R67, R71: a write that is honoured is what a later read of the register shows. (That all 32 bits of `FMR` and `FA1R`
read back is log 8; what CANHW finds in a `FINIT` or a bank bit that is unspecified is the environment's, log 18.) -/
def Obligations.RegisterWrites : Prop :=
  (∀ (c : Can) (v : BusWord) (n : MbIdx),
      (bitOf c.msr 0 = false → c.write v .btr = c)
        ∧ (bitOf c.fmr.val 0 = false → c.write v .fm1r = c ∧ c.write v .fs1r = c ∧ c.write v .ffa1r = c
            ∧ (bitOf c.fa1r.val 0 = true → c.write v .f0r1 = c ∧ c.write v .f0r2 = c))
        ∧ (bitOf c.tsr (26 + n.toNat) = false → c.write v (.tir n) = c ∧ c.write v (.tdtr n) = c
            ∧ c.write v (.tdlr n) = c ∧ c.write v (.tdhr n) = c))
    ∧ (∀ (s : State) (w : Word) (d : Nat) (k : Irq) (n : MbIdx), s.cfg.wf = true →
        ((s.regWrite .mcr (.lit w)).view (Config.freeWord d) .mcr).on rwMcr = w &&& rwMcr
          ∧ ((s.regWrite .ier (.lit w)).view (Config.freeWord d) .ier).on seenIer = w &&& seenIer
          ∧ (bitOf s.can.msr 0 = true →
              ((s.regWrite .btr (.lit w)).view (Config.freeWord d) .btr).on seenBtr = w &&& seenBtr)
          ∧ (bitOf s.can.tsr (26 + n.toNat) = true →
              (s.regWrite (.tdlr n) (.lit w)).view (Config.freeWord d) (.tdlr n) = .given w d
              ∧ (s.regWrite (.tdhr n) (.lit w)).view (Config.freeWord d) (.tdhr n) = .given w d)
          ∧ (s.regWrite .fmr (.lit w)).view (Config.freeWord d) .fmr = .given w d
          ∧ (s.regWrite .fa1r (.lit w)).view (Config.freeWord d) .fa1r = .given w d
          ∧ (s.regWrite (.ipr k) (.lit w)).view (Config.freeWord d) (.ipr k) = .given w d
          ∧ (s.regWrite (.iser k) (.lit w)).view (Config.freeWord d) (.iser k) = .given (s.nvic.enOf k ||| w) d
          ∧ (s.regWrite .vtor (.lit w)).view (Config.freeWord d) .vtor = .given w d
          ∧ (k.toNat < s.cfg.nVec →
              (s.regWrite (.slot k.toNat) (.lit w)).view (Config.freeWord d) (.slot k.toNat) = .given w d))

/-- R232, R233: entering and leaving sleep and init mode happen exactly when requested (leaving sleep also with
`AWUM`), entering either not during a transmission, and change the acknowledge bit and nothing else (leaving init mode
in bus-off also begins the recovery of R245). (The reference behaviour is log 11; `AWUM` is log 15, the recovery log 16.) -/
def Obligations.ModeAcknowledges : Prop :=
  ∀ (p : Params) (c : Can),
    c.move p .wake =
        (if bitOf c.msr 1 ∧ (bitOf c.mcr 1 = false ∨ bitOf c.mcr 5) then { c with msr := c.msr &&& ~~~2#32 } else c)
      ∧ c.move p .sleep =
          (if bitOf c.mcr 1 ∧ bitOf c.mcr 0 = false ∧ bitOf c.msr 1 = false ∧ c.onAir = none then
            { c with msr := c.msr ||| 2#32 } else c)
      ∧ c.move p .initEnter =
          (if bitOf c.mcr 0 ∧ bitOf c.msr 0 = false ∧ c.onAir = none then { c with msr := c.msr ||| 1#32 } else c)
      ∧ c.move p .initLeave =
          (if bitOf c.mcr 0 = false ∧ bitOf c.msr 0 then
            { c with msr := c.msr &&& ~~~1#32, recovering := c.recovering || bitOf c.esr 2 } else c)

/-- R237, R238: with nothing on the bus, an attempt of mailbox `n` begins exactly if the controller is in normal mode,
awake, not bus-off, and `n` is the oldest request (`RequestOrder`, with `TXPID = 0`), or any pending one (`Open`). (That an attempt has a
beginning is log 13; `TXPID = 1` is log 14.) -/
def Obligations.AttemptOrder : Prop :=
  ∀ (p : Params) (c : Can) (n : MbIdx), c.onAir = none →
    ((c.move p (.txStart n)).onAir = some n ↔
      bitOf c.msr 0 = false ∧ bitOf c.msr 1 = false ∧ bitOf c.esr 2 = false
        ∧ match p.txOrder with
          | .requestOrder => if bitOf c.mcr 2 then n ∈ c.txOrder else c.txOrder.head? = some n
          | .anyOrder => n ∈ c.txOrder)

/-- R238, R239, R25: how an attempt of mailbox `n` ends, in normal mode and not in bus-off. Success frees it with `RQCPn` and `TXOKn`; lost arbitration and
a bus error set `ALSTn` or `TERRn` and leave it pending for another attempt, unless its abort is requested or `NART` is
1: then it is freed with `RQCPn`, `TXOKn = 0`. Whenever it is freed, `TXRQ` and `ABRQn` are 0, `TMEn` is 1, and it has
left `TXORDER`. With no attempt in progress, outside normal mode and in bus-off, none of the three moves changes anything.
(`NART = 1` is log 14; an attempt's end is log 13.) -/
def Obligations.AttemptEnds : Prop :=
  (∀ (p : Params) (c : Can) (n : MbIdx) (k : Counters) (code : BitVec 3) (freed : Word → Can),
    c.onAir = some n → c.takesPart → 1#3 ≤ code → code ≤ 6#3 →
    (∀ x, freed x = { c with
      onAir := none
      mbx := c.mbx.set n { c.mbx.get n with tir :=
        { (c.mbx.get n).tir with val := (c.mbx.get n).tir.val &&& ~~~1#32 } }
      tsr := (c.tsr &&& ~~~(0b10000010#32 <<< (8 * n.toNat))) ||| x <<< (8 * n.toNat) ||| 1#32 <<< (26 + n.toNat)
      txOrder := c.txOrder.filter (fun j => decide (j ≠ n)) }) →
    c.move p (.txSuccess k) = { freed 0b0011#32 with esr := (c.move p (.txSuccess k)).esr }
      ∧ (c.move p (.txSuccess k)).esr.extractLsb' 4 3 = 0#3
      ∧ c.move p .txArbLost =
          (if bitOf c.tsr (8 * n.toNat + 7) || bitOf c.mcr 4 then freed 0b0101#32
            else { c with onAir := none, tsr := c.tsr ||| 0b0100#32 <<< (8 * n.toNat) })
      ∧ c.move p (.txError code k) =
          { (if bitOf c.tsr (8 * n.toNat + 7) || bitOf c.mcr 4 then freed 0b1001#32
              else { c with onAir := none, tsr := c.tsr ||| 0b1000#32 <<< (8 * n.toNat) }) with
            esr := (c.move p (.txError code k)).esr }
      ∧ (c.move p (.txError code k)).esr.extractLsb' 4 3 = code)
    ∧ ∀ (p : Params) (c : Can) (k : Counters) (code : BitVec 3), c.onAir = none ∨ ¬c.takesPart →
        c.move p (.txSuccess k) = c ∧ c.move p .txArbLost = c ∧ c.move p (.txError code k) = c

/-- R245, R174: what each event on the bus leaves in `ESR`, with the counters `k` after it. After a bus error, of our own
transmission or outside one, `LEC` is its code; after a frame sent or received without error it is 0; the counters and the
three flags follow `k`. Lost arbitration leaves `ESR`. A bus error outside a transmission changes nothing else. (The counters
come from the environment, log 17; a foreign frame or error comes when no attempt is in progress, log 13.) -/
def Obligations.ErrorStateFollowsCounters : Prop :=
  (∀ (p : Params) (c : Can) (k : Counters) (code : BitVec 3), c.takesPart → c.onAir = none → 1#3 ≤ code → code ≤ 6#3 →
      esrShows (c.move p (.busError code k)).esr code k
        ∧ c.move p (.busError code k) = { c with esr := (c.move p (.busError code k)).esr })
    ∧ (∀ (p : Params) (c : Can) (n : MbIdx) (k : Counters) (code : BitVec 3), c.takesPart → c.onAir = some n →
        1#3 ≤ code → code ≤ 6#3 →
        esrShows (c.move p (.txError code k)).esr code k ∧ esrShows (c.move p (.txSuccess k)).esr 0#3 k
          ∧ (c.move p .txArbLost).esr = c.esr)
    ∧ ∀ (p : Params) (c : Can) (b : BitVec 5) (m : RxMsg) (k : Counters), c.takesPart → c.onAir = none →
        bitOf c.fmr.val 0 = false → c.bankPasses b m.idword = true →
        esrShows (c.move p (.receive b m k)).esr 0#3 k

/-- R245: in bus-off nothing is sent and nothing received: no attempt begins or ends, no frame is queued, no error counted;
and no move but a controller reset and the recovery changes `ESR`.
R245: the recovery needs init mode left and, with `ABOM = 0`, that software has left it in bus-off; it clears `BOFF`, keeps
`LEC`, and the counters and the other flags are those the environment gives. Leaving init mode in bus-off is the only move
that begins a recovery. (The flag `recovering`, and the counters after a recovery, are log 16.) -/
def Obligations.BusOffEndsByRecoveryOnly : Prop :=
  (∀ (p : Params) (c : Can), bitOf c.esr 2 = true →
      (∀ (n : MbIdx) (b : BitVec 5) (m : RxMsg) (k : Counters) (code : BitVec 3),
          c.move p (.txStart n) = c ∧ c.move p (.txSuccess k) = c ∧ c.move p .txArbLost = c
            ∧ c.move p (.txError code k) = c ∧ c.move p (.receive b m k) = c ∧ c.move p (.busError code k) = c)
        ∧ ∀ m : HwMove, (∀ fr, m ≠ .resetDone fr) → (∀ k, m ≠ .busOffRecovered k) →
            (c.move p m).esr = c.esr ∧ (c.move p m).fifo = c.fifo)
    ∧ (∀ (p : Params) (c : Can) (k : Counters), ∃ e : Word,
        esrShows e (c.esr.extractLsb' 4 3) k
          ∧ c.move p (.busOffRecovered k) =
              (if bitOf c.esr 2 ∧ bitOf c.msr 0 = false ∧ (bitOf c.mcr 6 ∨ c.recovering) ∧ k.tecCount ≤ 255 then
                { c with esr := e, recovering := false } else c))
    ∧ ∀ (p : Params) (c : Can) (m : HwMove), c.recovering = false → (c.move p m).recovering = true →
        m = .initLeave ∧ bitOf c.esr 2 = true

/-- R43: an active bank 0 in 32-bit mask mode passes exactly the frames that agree with its identifier on the bits 31:1
under its mask.
R241: a frame that an active bank passes goes to the FIFO the bank is assigned to: behind the others while there is
room (`FULL` when that was the last place); at a full FIFO `FOVR` is set and, unless `RFLM` is 1, it takes the place of
the newest, but never of the head. The other FIFO, and everything else but the error state, is unchanged. A frame no bank
passes changes nothing. (Reception in one move, by a bank the environment names, when no attempt is in progress, is log 12
and log 13; what CANHW finds in a `FINIT` or a bank bit that is unspecified is the environment's, log 18; that a FIFO of
one place keeps its head is log 38.) -/
def Obligations.ReceptionFiltersAndQueues : Prop :=
  (∀ (c : Can) (w : Word), bitOf c.fa1r.val 0 = true → bitOf c.fs1r.val 0 = true → bitOf c.fm1r.val 0 = false →
      c.f0r1.unk = 0#32 → c.f0r2.unk = 0#32 →
      (c.bankPasses 0#5 w = true ↔
        ∀ i, 1 ≤ i → i < 32 → bitOf c.f0r2.val i = true → bitOf w i = bitOf c.f0r1.val i))
    ∧ (∀ (p : Params) (c : Can) (b : BitVec 5) (m : RxMsg) (k : Counters) (f : FifoIdx) (q : Fifo),
        c.takesPart → c.onAir = none → bitOf c.fmr.val 0 = false →
        f = (if bitOf c.ffa1r.val b.toNat then .f1 else .f0) → q = c.fifo.get f →
        (c.bankPasses b m.idword = true →
            c.move p (.receive b m k) = { c with
              esr := (c.move p (.receive b m k)).esr
              fifo := c.fifo.set f
                (if q.queue.length < p.fifoDepth then
                  { q with queue := q.queue ++ [m], full := q.full || decide (q.queue.length + 1 = p.fifoDepth) }
                else if bitOf c.mcr 3 then { q with fovr := true }
                else { q with
                  queue := if 2 ≤ q.queue.length then q.queue.dropLast ++ [m] else q.queue
                  fovr := true }) }
            ∧ (c.move p (.receive b m k)).esr.extractLsb' 4 3 = 0#3)
          ∧ (c.bankPasses b m.idword = false → c.move p (.receive b m k) = c))

/-- R230, R241, R214: while a FIFO holds a frame, no move of CANHW but a controller reset changes what its four output
registers show, at any depth and however full it is. (That a FIFO of one place keeps its head is log 38.) -/
def Obligations.PendingFrameStays : Prop :=
  ∀ (s : State) (m : HwMove) (r : List Move) (f : FifoIdx), s.sched = .hw m :: r → (∀ fr, m ≠ .resetDone fr) →
    (s.can.fifo.get f).queue ≠ [] →
    ∃ t, step s = .next t ∧ (t.can.fifo.get f).queue ≠ []
      ∧ ∀ (d : Word) (q : Reg), q ∈ [Reg.rir f, Reg.rdtr f, Reg.rdlr f, Reg.rdhr f] → t.view d q = s.view d q

/-- R243, R52, R51, R247: each of the block's two lines is asserted exactly while its peripheral enable is set and its
FIFO is not empty, whatever other drivers' lines do; `FMP` is the length of the queue. (That other drivers cannot drive
the block's lines is log 30.) -/
def Obligations.LinesFollowFifos : Prop :=
  ∀ s : State, s.cfg.irqRx0 ≠ s.cfg.irqRx1 →
    (s.cfg.irqRx0 ∈ s.asserted ↔ bitOf s.can.ier 1 = true ∧ s.can.fifo.f0.queue ≠ [])
      ∧ (s.cfg.irqRx1 ∈ s.asserted ↔ bitOf s.can.ier 4 = true ∧ s.can.fifo.f1.queue ≠ [])
      ∧ ∀ (f : FifoIdx) (d : Word), (s.can.fifo.get f).queue.length ≤ 3 →
          (((s.view d (.rfr f)).on 3#32).toNat = (s.can.fifo.get f).queue.length)

/-- R247, R24: a step in which CANHW moves changes the controller only; it changes no `rw` field except by a controller
reset, and never makes a free mailbox busy (R238). -/
def Obligations.CanhwKeepsSoftwareFields : Prop :=
  ∀ (s : State) (m : HwMove) (r : List Move), s.sched = .hw m :: r →
    ∃ u, step s = .next u ∧ u = { s with sched := r, can := u.can }
      ∧ ((∀ fr, m ≠ .resetDone fr) →
          u.can = { s.can with
            msr := u.can.msr, tsr := u.can.tsr, esr := u.can.esr, mbx := u.can.mbx, fifo := u.can.fifo
            txOrder := u.can.txOrder, onAir := u.can.onAir, recovering := u.can.recovering }
          ∧ ∀ n : MbIdx,
              u.can.mbx.get n = { s.can.mbx.get n with tir := (u.can.mbx.get n).tir }
                ∧ (u.can.mbx.get n).tir.unk = (s.can.mbx.get n).tir.unk
                ∧ (u.can.mbx.get n).tir.val &&& ~~~1#32 = (s.can.mbx.get n).tir.val &&& ~~~1#32)
      ∧ ∀ n : MbIdx, bitOf s.can.tsr (26 + n.toNat) = true → bitOf u.can.tsr (26 + n.toNat) = true

/-! ## Interrupts -/

/-- R266, R268, R264: an interrupt can be taken exactly when the machine is not halted, the context is thread, no word
waits in the port, and some line of the table is asserted and enabled; the one taken is such a line, none of them has
a smaller priority value, and none of equal value has a smaller number. When the trampoline is given the move, or
nothing is scheduled, the step then issues `VT.DISPATCH k` and changes nothing else. (The empty schedule is
log 1; that the port must be free is log 23; the order is log 28.) -/
def Obligations.TrampolineTakesMostUrgentLine : Prop :=
  (∀ s : State,
      (s.takeable.isSome = true ↔
        s.halted = false ∧ s.ctx = .thread ∧ s.port = none
          ∧ ∃ k ∈ s.asserted, s.en k = true ∧ k.toNat < s.cfg.nVec)
        ∧ ∀ k, s.takeable = some k →
            k ∈ s.asserted ∧ s.en k = true ∧ k.toNat < s.cfg.nVec
              ∧ ∀ j ∈ s.asserted, s.en j = true → j.toNat < s.cfg.nVec →
                  s.prio k < s.prio j ∨ s.prio k = s.prio j ∧ k ≤ j)
    ∧ (∀ (s : State) (k : Irq) (r : List Move), s.takeable = some k → s.sched = .trampoline :: r ∨ s.sched = [] ∧ r = [] →
        ∃ w : Word, step s = .next { s with sched := r, port := some ⟨.trampoline, w⟩ }
          ∧ decodeCommand w = .ok (.vtDispatch k))

/-- R180, R265, R266: another driver gives its line a priority and enables it at the core: that line's enable is set and
its priority is the one given, no other line's enable or priority changes, and nothing else does. Nothing at all changes
for the block's own two lines, and while the machine is halted. (That other drivers do so in a move of their own, and never
clear an enable, is log 39.) -/
def Obligations.OtherDriversEnableTheirLines : Prop :=
  ∀ (s : State) (k : Irq) (p : Byte) (r : List Move), s.sched = .enableLine k p :: r →
    ∃ t, step s = .next t ∧ t = { s with sched := r, nvic := t.nvic }
      ∧ (s.halted = false → k ≠ s.cfg.irqRx0 → k ≠ s.cfg.irqRx1 →
          ∀ j, t.en j = (s.en j || decide (j = k)) ∧ t.prio j = if j = k then p else s.prio j)
      ∧ (s.halted = true ∨ k = s.cfg.irqRx0 ∨ k = s.cfg.irqRx1 → t.nvic = s.nvic)

/-- R127, R214, R267, R270, R272: the whole service of a receive interrupt. From thread context, whatever operation is
suspended, the trampoline takes FIFO 0's line on a live table whose slot holds `CB_RX0`; the engine dispatches, invokes
the closure, runs `CAN.RXISR 0` and returns. The run ends in thread context with the suspended operation's micro-step and
local as they were; only FIFO 0, the log with one event, `FRAME_RX` and the interrupt side of the engine have changed. (Nesting is
left out, log 29.) -/
def Obligations.ReceiveInterruptService : Prop :=
  ∀ (s : State) (m : RxMsg) (q : List RxMsg) (n : Nat) (r : List Move),
    s.takeable = some s.cfg.irqRx0 → s.token = none → s.cfg.wf = true → s.vtor = s.cfg.vtBase →
    (∀ d, s.view (Config.freeWord d) (.slot s.cfg.irqRx0.toNat) = .given s.cfg.cbRx0 d) →
    s.can.fifo.f0.queue = m :: q → n = (if 4#4 < m.dlc then 10 else 9) → s.sched = .trampoline :: engineMoves n r →
    ∃ u : State, Reaches (n + 1) s u
      ∧ u = { s with
              sched := r, frameRx := u.frameRx, rxlog := s.rxlog ++ [⟨.f0, u.frameRx⟩], savedCtx := .thread
              isr := u.isr, issuer := .callback, draws := s.draws + (n - 5)
              can := { s.can with fifo := { s.can.fifo with f0 := { s.can.fifo.f0 with queue := q, full := false } } }
              trace := s.trace ++ [s.readEvent 0 (.slot s.cfg.irqRx0.toNat), s.readEvent 1 (.rir .f0),
                  s.readEvent 2 (.rdtr .f0), s.readEvent 3 (.rdlr .f0)]
                ++ (if 4#4 < m.dlc then [s.readEvent 4 (.rdhr .f0)] else [])
                ++ [s.writeEvent (.rfr .f0) 0x00000020#32] }
      ∧ u.frameRx.id
          = (if m.idword.getLsbD 2 then m.idword.extractLsb' 3 29 else (m.idword.extractLsb' 21 11).setWidth 29)
      ∧ u.frameRx.len.toNat = min m.dlc.toNat 8
      ∧ (∀ i, i < u.frameRx.len.toNat → u.frameRx.data.byte i = m.byte i)

/-! ## The whole machine -/

/-- R90, R91, R94, R95, R180: the three places the engine fetches from. A word in the port that decodes is run by `exec`,
with its issuer; with nothing running in thread context and `CAN.INIT` in progress, the step `SEQ` names is run; in
interrupt context a token that names a body is run; and where an operation is running, its next micro-operation is. (The port is log 23,
`SEQ` as a fetch pointer log 24.) -/
def Obligations.StepRunsDecodedOperation : Prop :=
  ∀ (s : State) (i : Instr) (r : List Move), s.halted = false → s.sched = .engine :: r →
    (∀ pw, s.port = some pw → decodeCommand pw.word = .ok i →
        step s = exec i { s with sched := r, port := none, issuer := pw.issuer })
      ∧ (s.port = none → s.ctx = .thread → s.thread.ops = [] → s.initRun = true → decodeSeq s.seq = some i →
          step s = exec i { s with sched := r, issuer := .engine })
      ∧ (∀ k w, s.port = none → s.ctx = .interrupt k → s.token = some w → decodeToken s.cfg w = some i →
          step s = exec i { s with sched := r, token := none, issuer := .trampoline })
      ∧ ∀ op rest, s.port = none → s.token = none → s.task.ops = op :: rest →
          step s = opStep op rest { s with sched := r }

/-- R300, R54, R25 to R31, R44 to R46: power-on reset leads, from any state, to the state right after reset with the
same parameters, the environment's inputs as they were; and the values the spec gives for that state. (That the
environment's inputs go on is log 33; the values of the reset state for which the spec gives none are log 4.) -/
def Obligations.PowerOnReset : Prop :=
  (∀ (s : State) (r : List Move), s.sched = .powerOn :: r →
      step s = .next { State.resetWith s.cfg with
        host := s.host, sched := r, clkHz := s.clkHz, lines := s.lines, draws := s.draws })
    ∧ (∀ (p : Params) (s : State), s = State.resetWith p → p.flashVt ≠ p.vtBase →
        s.seq = 0#4 ∧ s.ctx = .thread ∧ s.halted = false ∧ s.rxlog = [] ∧ s.diag = [] ∧ s.vtor = p.flashVt
          ∧ s.live = false ∧ s.thread.ops = [] ∧ (∀ k, s.en k = false) ∧ (∀ k, s.prio k = 0#8)
          ∧ s.can.mcr = 0x00010002#32 ∧ s.can.msr = 0x00000C02#32 ∧ s.can.tsr = 0x1C000000#32
          ∧ (∀ f, (s.can.fifo.get f).rfr = 0#32 ∧ (s.can.fifo.get f).queue = [])
          ∧ s.can.ier = 0#32 ∧ s.can.esr = 0#32 ∧ s.can.btr = 0x01230000#32
          ∧ (∀ n d, (s.view d (.tir n)).bit 0 = false) ∧ (∀ d, (s.view d .fmr).bit 0 = true)
          ∧ s.can.fm1r = ⟨0#32, 0#32⟩ ∧ s.can.fs1r = ⟨0#32, 0#32⟩ ∧ s.can.ffa1r = ⟨0#32, 0#32⟩
          ∧ s.can.fa1r = ⟨0#32, 0#32⟩ ∧ s.can.txOrder = []
          ∧ ∀ k d, (s.view d (.slot k)).word = d)

/-- R64, R66, R20 to R22: one step makes at most one bus step, and a step that reads changes no register, no table byte
and no hidden state of the controller. (The record of bus steps is the model's,
log 27.) -/
def Obligations.ReadsHaveNoSideEffect : Prop :=
  ∀ s t : State, step s = .next t → (∀ r, s.sched ≠ .powerOn :: r) →
    t.trace = s.trace
      ∨ ∃ e : BusEvent, t.trace = s.trace ++ [e]
          ∧ (e.dir = .read → t.can = s.can ∧ t.nvic = s.nvic ∧ t.vtor = s.vtor ∧ t.mem = s.mem)

/-- R11, R15, R18, R19, R157, R46, R44: but for power-on reset, no step changes the parameters, the operand latches
are written by the host's loads only, a mirror only by the second read of `MB.UPDATE` for it, the two logs only grow,
`VTOR` changes only by a recorded write of it, and a line's enable is never cleared. (That other drivers clear none is
log 39.) -/
def Obligations.StateHasItsWriters : Prop :=
  (∀ s t : State, step s = .next t → (∀ r, s.sched ≠ .powerOn :: r) →
      t.cfg = s.cfg
        ∧ (t.args ≠ s.args → ∃ a r, s.host = a :: r ∧ t.host = r ∧ ∀ w, a ≠ .issue w)
        ∧ (∀ n : MbIdx, t.mb.get n ≠ s.mb.get n → ∃ rest, s.task.ops = .bus (.flags n) :: rest)
        ∧ (∃ l, t.rxlog = s.rxlog ++ l) ∧ ∃ l, t.diag = s.diag ++ l)
    ∧ (∀ s t : State, step s = .next t → (∀ r, s.sched ≠ .powerOn :: r) →
        (t.vtor ≠ s.vtor → ∃ v, t.trace = s.trace ++ [s.writes .vtor v] ∧ t.vtor = v.word)
          ∧ ∀ k, s.en k = true → t.en k = true)

/-- R47, R60, R63: every step keeps the table RAM in its canonical form: each byte listed once, addresses strictly
rising. (The form is the model's, log 10.) -/
def Obligations.MemoryStaysCanonical : Prop :=
  ∀ s t : State, s.mem.wf → step s = .next t → t.mem.wf

/-- R50, R51, R28, R238, R239, R245: every step of every agent keeps the transmit side's invariant (`TXRQ = 1` iff
`TMEn = 0` iff `n` is in `TXORDER`, no mailbox twice, the one on the bus pending and the controller then in normal mode and
not in bus-off), and the receive side's (a FIFO never holds more
than `FIFO_DEPTH` messages, and `FULL` only as many). (That no foreign event comes between the beginning and the end of an
attempt is log 13.) -/
def Obligations.ControllerInvariantsKept : Prop :=
  (∀ s t : State, s.can.mbxInv → step s = .next t → t.can.mbxInv)
    ∧ (∀ s t : State, s.fifoInv → step s = .next t → t.fifoInv)

/-- R20, R96, R262, R271, R126: every step keeps that `SEQ` takes none of the reserved values 10 to 15; that a halt is
the default handler's, in interrupt context and with its record; and that interrupts do not nest. -/
def Obligations.EngineInvariantsKept : Prop :=
  (∀ s t : State, s.seqInv → step s = .next t → t.seqInv)
    ∧ (∀ s t : State, s.ctxInv → step s = .next t → t.ctxInv)

/-- R62: every access is at an address that is a multiple of 4. -/
def Obligations.AccessesStayAligned : Prop :=
  ∀ s t : State, s.cfg.wf = true → s.aligned → step s = .next t → t.aligned

/-- The invariants hold right after reset, for all parameters as R6 wants them. -/
def Obligations.InvariantsHoldAtReset : Prop :=
  ∀ p : Params, p.wf = true →
    (State.resetWith p).mem.wf ∧ (State.resetWith p).can.mbxInv ∧ (State.resetWith p).fifoInv
      ∧ (State.resetWith p).seqInv ∧ (State.resetWith p).ctxInv ∧ (State.resetWith p).aligned

/-- R192, R180 to R188, R231 to R233, R20: the whole of `CAN.INIT rate` from power-on reset, for every clock and rate, in a
run where CANHW answers each request before the next read and no frame arrives. (The parameters R6 leaves open are any;
that a controller reset keeps or clears the filter registers, as the schedule says, is log 18; the reset values of the
latches are log 4.) -/
def Obligations.InitFromReset : Prop :=
  ∀ (p : Params) (clk rate : Word) (fr : FilterReset) (r : List Move) (s : State) (bt : BitTiming) (exact : Bool),
    p.wf = true → (∀ v, fr ≠ .unknown v) → solve p.solverFallback clk rate = (bt, exact) →
    s = { State.resetWith p with
      clkHz := clk, host := [.loadRate rate, .issue 0x00000040#32]
      sched := engineMoves 6 (.hw (.resetDone fr) :: engineMoves 4 (.hw .wake :: engineMoves 4 (.hw .initEnter ::
        engineMoves 24 (.hw .initLeave :: engineMoves 12 r)))) } →
    ∃ u : State, Reaches 54 s u
      ∧ u.sched = r ∧ u.seq = 9#4 ∧ u.initRun = false ∧ u.ctx = .thread ∧ u.thread.ops = [] ∧ u.halted = false
      ∧ u.bt = bt ∧ u.fClk = clk
      ∧ u.diag = (if exact then [] else [.timingInexact clk rate bt.prescaler])
      ∧ u.can.mcr = 0x00010000#32 ∧ u.can.msr = 0x00000C00#32 ∧ u.can.tsr = 0x1C000000#32
      ∧ (∀ f, (u.can.fifo.get f).rfr = 0#32) ∧ u.can.ier = 0x00000012#32 ∧ u.can.btr = btrWord bt
      ∧ bitOf u.can.fmr.val 0 = false ∧ u.can.fs1r = ⟨1#32, 0#32⟩ ∧ u.can.fm1r = ⟨0#32, 0#32⟩
      ∧ u.can.ffa1r = ⟨0#32, 0#32⟩ ∧ u.can.fa1r = ⟨1#32, 0#32⟩ ∧ u.can.f0r1 = ⟨0#32, 0#32⟩
      ∧ u.can.f0r2 = ⟨0#32, 0#32⟩
      ∧ u.en p.irqRx0 = true ∧ u.en p.irqRx1 = true ∧ u.prio p.irqRx0 = p.prioRx ∧ u.prio p.irqRx1 = p.prioRx
      ∧ (∀ d, u.view (Config.freeWord d) (.slot p.irqRx0.toNat) = .given p.cbRx0 d)
      ∧ (∀ d, u.view (Config.freeWord d) (.slot p.irqRx1.toNat) = .given p.cbRx1 d)
      ∧ (∀ k, k ≠ p.irqRx0.toNat → k ≠ p.irqRx1.toNat → k < p.nVec → ∀ d, (u.view d (.slot k)) = s.view d (.slot k))
      ∧ u.vtor = s.vtor ∧ u.mb = s.mb ∧ u.es = s.es ∧ u.rxlog = s.rxlog ∧ u.res = s.res
      ∧ u.trace.length = 39
end

