-- ==== Sys2Proof/Laws/State.lean ====
section
/-! SUPPORT. One lemma per field per update of the state: a later proof need not unfold a record update. -/

namespace Sys2Proof.Machine

/-! ## The micro-step of the current context -/

theorem State.setTask_eq_thread {s : State} (h : s.ctx = .thread) (t : Task) : s.setTask t = { s with thread := t } := by
  simp [State.setTask, h]

theorem State.setTask_eq_isr {s : State} {k : Irq} (h : s.ctx = .interrupt k) (t : Task) :
    s.setTask t = { s with isr := t } := by
  simp [State.setTask, h]

theorem State.task_eq_thread {s : State} (h : s.ctx = .thread) : s.task = s.thread := by
  simp [State.task, h]

theorem State.task_eq_isr {s : State} {k : Irq} (h : s.ctx = .interrupt k) : s.task = s.isr := by
  simp [State.task, h]

@[simp] theorem State.setTask_cfg (s : State) (t : Task) : (s.setTask t).cfg = s.cfg := by
  unfold State.setTask; split <;> rfl

@[simp] theorem State.setTask_args (s : State) (t : Task) : (s.setTask t).args = s.args := by
  unfold State.setTask; split <;> rfl

@[simp] theorem State.setTask_clkHz (s : State) (t : Task) : (s.setTask t).clkHz = s.clkHz := by
  unfold State.setTask; split <;> rfl

@[simp] theorem State.setTask_fClk (s : State) (t : Task) : (s.setTask t).fClk = s.fClk := by
  unfold State.setTask; split <;> rfl

@[simp] theorem State.setTask_res (s : State) (t : Task) : (s.setTask t).res = s.res := by
  unfold State.setTask; split <;> rfl

@[simp] theorem State.setTask_bt (s : State) (t : Task) : (s.setTask t).bt = s.bt := by
  unfold State.setTask; split <;> rfl

@[simp] theorem State.setTask_mb (s : State) (t : Task) : (s.setTask t).mb = s.mb := by
  unfold State.setTask; split <;> rfl

@[simp] theorem State.setTask_es (s : State) (t : Task) : (s.setTask t).es = s.es := by
  unfold State.setTask; split <;> rfl

@[simp] theorem State.setTask_frameRx (s : State) (t : Task) : (s.setTask t).frameRx = s.frameRx := by
  unfold State.setTask; split <;> rfl

@[simp] theorem State.setTask_rxlog (s : State) (t : Task) : (s.setTask t).rxlog = s.rxlog := by
  unfold State.setTask; split <;> rfl

@[simp] theorem State.setTask_diag (s : State) (t : Task) : (s.setTask t).diag = s.diag := by
  unfold State.setTask; split <;> rfl

@[simp] theorem State.setTask_seq (s : State) (t : Task) : (s.setTask t).seq = s.seq := by
  unfold State.setTask; split <;> rfl

@[simp] theorem State.setTask_initRun (s : State) (t : Task) : (s.setTask t).initRun = s.initRun := by
  unfold State.setTask; split <;> rfl

@[simp] theorem State.setTask_ctx (s : State) (t : Task) : (s.setTask t).ctx = s.ctx := by
  unfold State.setTask; split <;> rfl

@[simp] theorem State.setTask_savedCtx (s : State) (t : Task) : (s.setTask t).savedCtx = s.savedCtx := by
  unfold State.setTask; split <;> rfl

@[simp] theorem State.setTask_halted (s : State) (t : Task) : (s.setTask t).halted = s.halted := by
  unfold State.setTask; split <;> rfl

@[simp] theorem State.setTask_can (s : State) (t : Task) : (s.setTask t).can = s.can := by
  unfold State.setTask; split <;> rfl

@[simp] theorem State.setTask_nvic (s : State) (t : Task) : (s.setTask t).nvic = s.nvic := by
  unfold State.setTask; split <;> rfl

@[simp] theorem State.setTask_vtor (s : State) (t : Task) : (s.setTask t).vtor = s.vtor := by
  unfold State.setTask; split <;> rfl

@[simp] theorem State.setTask_mem (s : State) (t : Task) : (s.setTask t).mem = s.mem := by
  unfold State.setTask; split <;> rfl

@[simp] theorem State.setTask_token (s : State) (t : Task) : (s.setTask t).token = s.token := by
  unfold State.setTask; split <;> rfl

@[simp] theorem State.setTask_port (s : State) (t : Task) : (s.setTask t).port = s.port := by
  unfold State.setTask; split <;> rfl

@[simp] theorem State.setTask_issuer (s : State) (t : Task) : (s.setTask t).issuer = s.issuer := by
  unfold State.setTask; split <;> rfl

@[simp] theorem State.setTask_host (s : State) (t : Task) : (s.setTask t).host = s.host := by
  unfold State.setTask; split <;> rfl

@[simp] theorem State.setTask_sched (s : State) (t : Task) : (s.setTask t).sched = s.sched := by
  unfold State.setTask; split <;> rfl

@[simp] theorem State.setTask_lines (s : State) (t : Task) : (s.setTask t).lines = s.lines := by
  unfold State.setTask; split <;> rfl

@[simp] theorem State.setTask_draws (s : State) (t : Task) : (s.setTask t).draws = s.draws := by
  unfold State.setTask; split <;> rfl

@[simp] theorem State.setTask_trace (s : State) (t : Task) : (s.setTask t).trace = s.trace := by
  unfold State.setTask; split <;> rfl

@[simp] theorem State.setTask_task (s : State) (t : Task) : (s.setTask t).task = t := by
  cases h : s.ctx <;> simp [State.task, State.setTask, h]

@[simp] theorem State.setTask_setTask (s : State) (t u : Task) : (s.setTask t).setTask u = s.setTask u := by
  cases h : s.ctx <;> simp [State.setTask, h]

@[simp] theorem State.setTask_same (s : State) : s.setTask s.task = s := by
  unfold State.setTask State.task
  split <;> rfl

@[simp] theorem State.setOps_task (s : State) (o : List Op) : (s.setOps o).task = ⟨o, s.task.v⟩ := by
  simp [State.setOps]

@[simp] theorem State.setLocal_task (s : State) (v : BusWord) : (s.setLocal v).task = ⟨s.task.ops, v⟩ := by
  simp [State.setLocal]

@[simp] theorem State.setOps_setOps (s : State) (a b : List Op) : (s.setOps a).setOps b = s.setOps b := by
  simp [State.setOps]

@[simp] theorem State.setLocal_setLocal (s : State) (a b : BusWord) : (s.setLocal a).setLocal b = s.setLocal b := by
  simp [State.setLocal]

theorem State.setLocal_setOps (s : State) (o : List Op) (v : BusWord) :
    (s.setOps o).setLocal v = (s.setLocal v).setOps o := by
  simp [State.setLocal, State.setOps]

theorem State.setTask_thread (s : State) (t : Task) :
    (s.setTask t).thread = if s.ctx = .thread then t else s.thread := by
  cases h : s.ctx <;> simp [State.setTask, h]

theorem State.setTask_isr (s : State) (t : Task) :
    (s.setTask t).isr = if s.ctx = .thread then s.isr else t := by
  cases h : s.ctx <;> simp [State.setTask, h]

@[simp] theorem State.setOps_thread (s : State) (o : List Op) :
    (s.setOps o).thread = if s.ctx = .thread then ⟨o, s.thread.v⟩ else s.thread := by
  cases h : s.ctx <;> simp [State.setOps, State.setTask, State.task, h]

@[simp] theorem State.setOps_isr (s : State) (o : List Op) :
    (s.setOps o).isr = if s.ctx = .thread then s.isr else ⟨o, s.isr.v⟩ := by
  cases h : s.ctx <;> simp [State.setOps, State.setTask, State.task, h]

@[simp] theorem State.setLocal_thread (s : State) (v : BusWord) :
    (s.setLocal v).thread = if s.ctx = .thread then ⟨s.thread.ops, v⟩ else s.thread := by
  cases h : s.ctx <;> simp [State.setLocal, State.setTask, State.task, h]

@[simp] theorem State.setLocal_isr (s : State) (v : BusWord) :
    (s.setLocal v).isr = if s.ctx = .thread then s.isr else ⟨s.isr.ops, v⟩ := by
  cases h : s.ctx <;> simp [State.setLocal, State.setTask, State.task, h]

@[simp] theorem State.setOps_cfg (s : State) (o : List Op) : (s.setOps o).cfg = s.cfg := by simp [State.setOps]

@[simp] theorem State.setOps_args (s : State) (o : List Op) : (s.setOps o).args = s.args := by simp [State.setOps]

@[simp] theorem State.setOps_clkHz (s : State) (o : List Op) : (s.setOps o).clkHz = s.clkHz := by simp [State.setOps]

@[simp] theorem State.setOps_fClk (s : State) (o : List Op) : (s.setOps o).fClk = s.fClk := by simp [State.setOps]

@[simp] theorem State.setOps_res (s : State) (o : List Op) : (s.setOps o).res = s.res := by simp [State.setOps]

@[simp] theorem State.setOps_bt (s : State) (o : List Op) : (s.setOps o).bt = s.bt := by simp [State.setOps]

@[simp] theorem State.setOps_mb (s : State) (o : List Op) : (s.setOps o).mb = s.mb := by simp [State.setOps]

@[simp] theorem State.setOps_es (s : State) (o : List Op) : (s.setOps o).es = s.es := by simp [State.setOps]

@[simp] theorem State.setOps_frameRx (s : State) (o : List Op) : (s.setOps o).frameRx = s.frameRx := by simp [State.setOps]

@[simp] theorem State.setOps_rxlog (s : State) (o : List Op) : (s.setOps o).rxlog = s.rxlog := by simp [State.setOps]

@[simp] theorem State.setOps_diag (s : State) (o : List Op) : (s.setOps o).diag = s.diag := by simp [State.setOps]

@[simp] theorem State.setOps_seq (s : State) (o : List Op) : (s.setOps o).seq = s.seq := by simp [State.setOps]

@[simp] theorem State.setOps_initRun (s : State) (o : List Op) : (s.setOps o).initRun = s.initRun := by simp [State.setOps]

@[simp] theorem State.setOps_ctx (s : State) (o : List Op) : (s.setOps o).ctx = s.ctx := by simp [State.setOps]

@[simp] theorem State.setOps_savedCtx (s : State) (o : List Op) : (s.setOps o).savedCtx = s.savedCtx := by simp [State.setOps]

@[simp] theorem State.setOps_halted (s : State) (o : List Op) : (s.setOps o).halted = s.halted := by simp [State.setOps]

@[simp] theorem State.setOps_can (s : State) (o : List Op) : (s.setOps o).can = s.can := by simp [State.setOps]

@[simp] theorem State.setOps_nvic (s : State) (o : List Op) : (s.setOps o).nvic = s.nvic := by simp [State.setOps]

@[simp] theorem State.setOps_vtor (s : State) (o : List Op) : (s.setOps o).vtor = s.vtor := by simp [State.setOps]

@[simp] theorem State.setOps_mem (s : State) (o : List Op) : (s.setOps o).mem = s.mem := by simp [State.setOps]

@[simp] theorem State.setOps_token (s : State) (o : List Op) : (s.setOps o).token = s.token := by simp [State.setOps]

@[simp] theorem State.setOps_port (s : State) (o : List Op) : (s.setOps o).port = s.port := by simp [State.setOps]

@[simp] theorem State.setOps_issuer (s : State) (o : List Op) : (s.setOps o).issuer = s.issuer := by simp [State.setOps]

@[simp] theorem State.setOps_host (s : State) (o : List Op) : (s.setOps o).host = s.host := by simp [State.setOps]

@[simp] theorem State.setOps_sched (s : State) (o : List Op) : (s.setOps o).sched = s.sched := by simp [State.setOps]

@[simp] theorem State.setOps_lines (s : State) (o : List Op) : (s.setOps o).lines = s.lines := by simp [State.setOps]

@[simp] theorem State.setOps_draws (s : State) (o : List Op) : (s.setOps o).draws = s.draws := by simp [State.setOps]

@[simp] theorem State.setOps_trace (s : State) (o : List Op) : (s.setOps o).trace = s.trace := by simp [State.setOps]

@[simp] theorem State.setLocal_cfg (s : State) (v : BusWord) : (s.setLocal v).cfg = s.cfg := by simp [State.setLocal]

@[simp] theorem State.setLocal_args (s : State) (v : BusWord) : (s.setLocal v).args = s.args := by simp [State.setLocal]

@[simp] theorem State.setLocal_clkHz (s : State) (v : BusWord) : (s.setLocal v).clkHz = s.clkHz := by simp [State.setLocal]

@[simp] theorem State.setLocal_fClk (s : State) (v : BusWord) : (s.setLocal v).fClk = s.fClk := by simp [State.setLocal]

@[simp] theorem State.setLocal_res (s : State) (v : BusWord) : (s.setLocal v).res = s.res := by simp [State.setLocal]

@[simp] theorem State.setLocal_bt (s : State) (v : BusWord) : (s.setLocal v).bt = s.bt := by simp [State.setLocal]

@[simp] theorem State.setLocal_mb (s : State) (v : BusWord) : (s.setLocal v).mb = s.mb := by simp [State.setLocal]

@[simp] theorem State.setLocal_es (s : State) (v : BusWord) : (s.setLocal v).es = s.es := by simp [State.setLocal]

@[simp] theorem State.setLocal_frameRx (s : State) (v : BusWord) : (s.setLocal v).frameRx = s.frameRx := by simp [State.setLocal]

@[simp] theorem State.setLocal_rxlog (s : State) (v : BusWord) : (s.setLocal v).rxlog = s.rxlog := by simp [State.setLocal]

@[simp] theorem State.setLocal_diag (s : State) (v : BusWord) : (s.setLocal v).diag = s.diag := by simp [State.setLocal]

@[simp] theorem State.setLocal_seq (s : State) (v : BusWord) : (s.setLocal v).seq = s.seq := by simp [State.setLocal]

@[simp] theorem State.setLocal_initRun (s : State) (v : BusWord) : (s.setLocal v).initRun = s.initRun := by simp [State.setLocal]

@[simp] theorem State.setLocal_ctx (s : State) (v : BusWord) : (s.setLocal v).ctx = s.ctx := by simp [State.setLocal]

@[simp] theorem State.setLocal_savedCtx (s : State) (v : BusWord) : (s.setLocal v).savedCtx = s.savedCtx := by simp [State.setLocal]

@[simp] theorem State.setLocal_halted (s : State) (v : BusWord) : (s.setLocal v).halted = s.halted := by simp [State.setLocal]

@[simp] theorem State.setLocal_can (s : State) (v : BusWord) : (s.setLocal v).can = s.can := by simp [State.setLocal]

@[simp] theorem State.setLocal_nvic (s : State) (v : BusWord) : (s.setLocal v).nvic = s.nvic := by simp [State.setLocal]

@[simp] theorem State.setLocal_vtor (s : State) (v : BusWord) : (s.setLocal v).vtor = s.vtor := by simp [State.setLocal]

@[simp] theorem State.setLocal_mem (s : State) (v : BusWord) : (s.setLocal v).mem = s.mem := by simp [State.setLocal]

@[simp] theorem State.setLocal_token (s : State) (v : BusWord) : (s.setLocal v).token = s.token := by simp [State.setLocal]

@[simp] theorem State.setLocal_port (s : State) (v : BusWord) : (s.setLocal v).port = s.port := by simp [State.setLocal]

@[simp] theorem State.setLocal_issuer (s : State) (v : BusWord) : (s.setLocal v).issuer = s.issuer := by simp [State.setLocal]

@[simp] theorem State.setLocal_host (s : State) (v : BusWord) : (s.setLocal v).host = s.host := by simp [State.setLocal]

@[simp] theorem State.setLocal_sched (s : State) (v : BusWord) : (s.setLocal v).sched = s.sched := by simp [State.setLocal]

@[simp] theorem State.setLocal_lines (s : State) (v : BusWord) : (s.setLocal v).lines = s.lines := by simp [State.setLocal]

@[simp] theorem State.setLocal_draws (s : State) (v : BusWord) : (s.setLocal v).draws = s.draws := by simp [State.setLocal]

@[simp] theorem State.setLocal_trace (s : State) (v : BusWord) : (s.setLocal v).trace = s.trace := by simp [State.setLocal]

/-! ## Setters: names for the record updates the steps make, so that a run is a chain of small terms -/

/-- The state with another `sched`. -/
def State.setSched (s : State) (x : List Move) : State := { s with sched := x }

theorem State.setSched_eq (s : State) (x : List Move) : { s with sched := x } = s.setSched x := rfl

@[simp] theorem State.setSched_cfg (s : State) (x : List Move) : (s.setSched x).cfg = s.cfg := rfl

@[simp] theorem State.setSched_args (s : State) (x : List Move) : (s.setSched x).args = s.args := rfl

@[simp] theorem State.setSched_clkHz (s : State) (x : List Move) : (s.setSched x).clkHz = s.clkHz := rfl

@[simp] theorem State.setSched_fClk (s : State) (x : List Move) : (s.setSched x).fClk = s.fClk := rfl

@[simp] theorem State.setSched_res (s : State) (x : List Move) : (s.setSched x).res = s.res := rfl

@[simp] theorem State.setSched_bt (s : State) (x : List Move) : (s.setSched x).bt = s.bt := rfl

@[simp] theorem State.setSched_mb (s : State) (x : List Move) : (s.setSched x).mb = s.mb := rfl

@[simp] theorem State.setSched_es (s : State) (x : List Move) : (s.setSched x).es = s.es := rfl

@[simp] theorem State.setSched_frameRx (s : State) (x : List Move) : (s.setSched x).frameRx = s.frameRx := rfl

@[simp] theorem State.setSched_rxlog (s : State) (x : List Move) : (s.setSched x).rxlog = s.rxlog := rfl

@[simp] theorem State.setSched_diag (s : State) (x : List Move) : (s.setSched x).diag = s.diag := rfl

@[simp] theorem State.setSched_seq (s : State) (x : List Move) : (s.setSched x).seq = s.seq := rfl

@[simp] theorem State.setSched_initRun (s : State) (x : List Move) : (s.setSched x).initRun = s.initRun := rfl

@[simp] theorem State.setSched_ctx (s : State) (x : List Move) : (s.setSched x).ctx = s.ctx := rfl

@[simp] theorem State.setSched_savedCtx (s : State) (x : List Move) : (s.setSched x).savedCtx = s.savedCtx := rfl

@[simp] theorem State.setSched_halted (s : State) (x : List Move) : (s.setSched x).halted = s.halted := rfl

@[simp] theorem State.setSched_can (s : State) (x : List Move) : (s.setSched x).can = s.can := rfl

@[simp] theorem State.setSched_nvic (s : State) (x : List Move) : (s.setSched x).nvic = s.nvic := rfl

@[simp] theorem State.setSched_vtor (s : State) (x : List Move) : (s.setSched x).vtor = s.vtor := rfl

@[simp] theorem State.setSched_mem (s : State) (x : List Move) : (s.setSched x).mem = s.mem := rfl

@[simp] theorem State.setSched_thread (s : State) (x : List Move) : (s.setSched x).thread = s.thread := rfl

@[simp] theorem State.setSched_isr (s : State) (x : List Move) : (s.setSched x).isr = s.isr := rfl

@[simp] theorem State.setSched_token (s : State) (x : List Move) : (s.setSched x).token = s.token := rfl

@[simp] theorem State.setSched_port (s : State) (x : List Move) : (s.setSched x).port = s.port := rfl

@[simp] theorem State.setSched_issuer (s : State) (x : List Move) : (s.setSched x).issuer = s.issuer := rfl

@[simp] theorem State.setSched_host (s : State) (x : List Move) : (s.setSched x).host = s.host := rfl

@[simp] theorem State.setSched_sched (s : State) (x : List Move) : (s.setSched x).sched = x := rfl

@[simp] theorem State.setSched_lines (s : State) (x : List Move) : (s.setSched x).lines = s.lines := rfl

@[simp] theorem State.setSched_draws (s : State) (x : List Move) : (s.setSched x).draws = s.draws := rfl

@[simp] theorem State.setSched_trace (s : State) (x : List Move) : (s.setSched x).trace = s.trace := rfl

@[simp] theorem State.setSched_task (s : State) (x : List Move) : (s.setSched x).task = s.task := rfl

/-- The state with another `mb`. -/
def State.setMb (s : State) (x : PerMb Mirror) : State := { s with mb := x }

theorem State.setMb_eq (s : State) (x : PerMb Mirror) : { s with mb := x } = s.setMb x := rfl

@[simp] theorem State.setMb_cfg (s : State) (x : PerMb Mirror) : (s.setMb x).cfg = s.cfg := rfl

@[simp] theorem State.setMb_args (s : State) (x : PerMb Mirror) : (s.setMb x).args = s.args := rfl

@[simp] theorem State.setMb_clkHz (s : State) (x : PerMb Mirror) : (s.setMb x).clkHz = s.clkHz := rfl

@[simp] theorem State.setMb_fClk (s : State) (x : PerMb Mirror) : (s.setMb x).fClk = s.fClk := rfl

@[simp] theorem State.setMb_res (s : State) (x : PerMb Mirror) : (s.setMb x).res = s.res := rfl

@[simp] theorem State.setMb_bt (s : State) (x : PerMb Mirror) : (s.setMb x).bt = s.bt := rfl

@[simp] theorem State.setMb_mb (s : State) (x : PerMb Mirror) : (s.setMb x).mb = x := rfl

@[simp] theorem State.setMb_es (s : State) (x : PerMb Mirror) : (s.setMb x).es = s.es := rfl

@[simp] theorem State.setMb_frameRx (s : State) (x : PerMb Mirror) : (s.setMb x).frameRx = s.frameRx := rfl

@[simp] theorem State.setMb_rxlog (s : State) (x : PerMb Mirror) : (s.setMb x).rxlog = s.rxlog := rfl

@[simp] theorem State.setMb_diag (s : State) (x : PerMb Mirror) : (s.setMb x).diag = s.diag := rfl

@[simp] theorem State.setMb_seq (s : State) (x : PerMb Mirror) : (s.setMb x).seq = s.seq := rfl

@[simp] theorem State.setMb_initRun (s : State) (x : PerMb Mirror) : (s.setMb x).initRun = s.initRun := rfl

@[simp] theorem State.setMb_ctx (s : State) (x : PerMb Mirror) : (s.setMb x).ctx = s.ctx := rfl

@[simp] theorem State.setMb_savedCtx (s : State) (x : PerMb Mirror) : (s.setMb x).savedCtx = s.savedCtx := rfl

@[simp] theorem State.setMb_halted (s : State) (x : PerMb Mirror) : (s.setMb x).halted = s.halted := rfl

@[simp] theorem State.setMb_can (s : State) (x : PerMb Mirror) : (s.setMb x).can = s.can := rfl

@[simp] theorem State.setMb_nvic (s : State) (x : PerMb Mirror) : (s.setMb x).nvic = s.nvic := rfl

@[simp] theorem State.setMb_vtor (s : State) (x : PerMb Mirror) : (s.setMb x).vtor = s.vtor := rfl

@[simp] theorem State.setMb_mem (s : State) (x : PerMb Mirror) : (s.setMb x).mem = s.mem := rfl

@[simp] theorem State.setMb_thread (s : State) (x : PerMb Mirror) : (s.setMb x).thread = s.thread := rfl

@[simp] theorem State.setMb_isr (s : State) (x : PerMb Mirror) : (s.setMb x).isr = s.isr := rfl

@[simp] theorem State.setMb_token (s : State) (x : PerMb Mirror) : (s.setMb x).token = s.token := rfl

@[simp] theorem State.setMb_port (s : State) (x : PerMb Mirror) : (s.setMb x).port = s.port := rfl

@[simp] theorem State.setMb_issuer (s : State) (x : PerMb Mirror) : (s.setMb x).issuer = s.issuer := rfl

@[simp] theorem State.setMb_host (s : State) (x : PerMb Mirror) : (s.setMb x).host = s.host := rfl

@[simp] theorem State.setMb_sched (s : State) (x : PerMb Mirror) : (s.setMb x).sched = s.sched := rfl

@[simp] theorem State.setMb_lines (s : State) (x : PerMb Mirror) : (s.setMb x).lines = s.lines := rfl

@[simp] theorem State.setMb_draws (s : State) (x : PerMb Mirror) : (s.setMb x).draws = s.draws := rfl

@[simp] theorem State.setMb_trace (s : State) (x : PerMb Mirror) : (s.setMb x).trace = s.trace := rfl

@[simp] theorem State.setMb_task (s : State) (x : PerMb Mirror) : (s.setMb x).task = s.task := rfl

/-- The state with another `es`. -/
def State.setEs (s : State) (x : ErrStat) : State := { s with es := x }

theorem State.setEs_eq (s : State) (x : ErrStat) : { s with es := x } = s.setEs x := rfl

@[simp] theorem State.setEs_cfg (s : State) (x : ErrStat) : (s.setEs x).cfg = s.cfg := rfl

@[simp] theorem State.setEs_args (s : State) (x : ErrStat) : (s.setEs x).args = s.args := rfl

@[simp] theorem State.setEs_clkHz (s : State) (x : ErrStat) : (s.setEs x).clkHz = s.clkHz := rfl

@[simp] theorem State.setEs_fClk (s : State) (x : ErrStat) : (s.setEs x).fClk = s.fClk := rfl

@[simp] theorem State.setEs_res (s : State) (x : ErrStat) : (s.setEs x).res = s.res := rfl

@[simp] theorem State.setEs_bt (s : State) (x : ErrStat) : (s.setEs x).bt = s.bt := rfl

@[simp] theorem State.setEs_mb (s : State) (x : ErrStat) : (s.setEs x).mb = s.mb := rfl

@[simp] theorem State.setEs_es (s : State) (x : ErrStat) : (s.setEs x).es = x := rfl

@[simp] theorem State.setEs_frameRx (s : State) (x : ErrStat) : (s.setEs x).frameRx = s.frameRx := rfl

@[simp] theorem State.setEs_rxlog (s : State) (x : ErrStat) : (s.setEs x).rxlog = s.rxlog := rfl

@[simp] theorem State.setEs_diag (s : State) (x : ErrStat) : (s.setEs x).diag = s.diag := rfl

@[simp] theorem State.setEs_seq (s : State) (x : ErrStat) : (s.setEs x).seq = s.seq := rfl

@[simp] theorem State.setEs_initRun (s : State) (x : ErrStat) : (s.setEs x).initRun = s.initRun := rfl

@[simp] theorem State.setEs_ctx (s : State) (x : ErrStat) : (s.setEs x).ctx = s.ctx := rfl

@[simp] theorem State.setEs_savedCtx (s : State) (x : ErrStat) : (s.setEs x).savedCtx = s.savedCtx := rfl

@[simp] theorem State.setEs_halted (s : State) (x : ErrStat) : (s.setEs x).halted = s.halted := rfl

@[simp] theorem State.setEs_can (s : State) (x : ErrStat) : (s.setEs x).can = s.can := rfl

@[simp] theorem State.setEs_nvic (s : State) (x : ErrStat) : (s.setEs x).nvic = s.nvic := rfl

@[simp] theorem State.setEs_vtor (s : State) (x : ErrStat) : (s.setEs x).vtor = s.vtor := rfl

@[simp] theorem State.setEs_mem (s : State) (x : ErrStat) : (s.setEs x).mem = s.mem := rfl

@[simp] theorem State.setEs_thread (s : State) (x : ErrStat) : (s.setEs x).thread = s.thread := rfl

@[simp] theorem State.setEs_isr (s : State) (x : ErrStat) : (s.setEs x).isr = s.isr := rfl

@[simp] theorem State.setEs_token (s : State) (x : ErrStat) : (s.setEs x).token = s.token := rfl

@[simp] theorem State.setEs_port (s : State) (x : ErrStat) : (s.setEs x).port = s.port := rfl

@[simp] theorem State.setEs_issuer (s : State) (x : ErrStat) : (s.setEs x).issuer = s.issuer := rfl

@[simp] theorem State.setEs_host (s : State) (x : ErrStat) : (s.setEs x).host = s.host := rfl

@[simp] theorem State.setEs_sched (s : State) (x : ErrStat) : (s.setEs x).sched = s.sched := rfl

@[simp] theorem State.setEs_lines (s : State) (x : ErrStat) : (s.setEs x).lines = s.lines := rfl

@[simp] theorem State.setEs_draws (s : State) (x : ErrStat) : (s.setEs x).draws = s.draws := rfl

@[simp] theorem State.setEs_trace (s : State) (x : ErrStat) : (s.setEs x).trace = s.trace := rfl

@[simp] theorem State.setEs_task (s : State) (x : ErrStat) : (s.setEs x).task = s.task := rfl

/-- The state with another `frameRx`. -/
def State.setFrameRx (s : State) (x : Frame) : State := { s with frameRx := x }

theorem State.setFrameRx_eq (s : State) (x : Frame) : { s with frameRx := x } = s.setFrameRx x := rfl

@[simp] theorem State.setFrameRx_cfg (s : State) (x : Frame) : (s.setFrameRx x).cfg = s.cfg := rfl

@[simp] theorem State.setFrameRx_args (s : State) (x : Frame) : (s.setFrameRx x).args = s.args := rfl

@[simp] theorem State.setFrameRx_clkHz (s : State) (x : Frame) : (s.setFrameRx x).clkHz = s.clkHz := rfl

@[simp] theorem State.setFrameRx_fClk (s : State) (x : Frame) : (s.setFrameRx x).fClk = s.fClk := rfl

@[simp] theorem State.setFrameRx_res (s : State) (x : Frame) : (s.setFrameRx x).res = s.res := rfl

@[simp] theorem State.setFrameRx_bt (s : State) (x : Frame) : (s.setFrameRx x).bt = s.bt := rfl

@[simp] theorem State.setFrameRx_mb (s : State) (x : Frame) : (s.setFrameRx x).mb = s.mb := rfl

@[simp] theorem State.setFrameRx_es (s : State) (x : Frame) : (s.setFrameRx x).es = s.es := rfl

@[simp] theorem State.setFrameRx_frameRx (s : State) (x : Frame) : (s.setFrameRx x).frameRx = x := rfl

@[simp] theorem State.setFrameRx_rxlog (s : State) (x : Frame) : (s.setFrameRx x).rxlog = s.rxlog := rfl

@[simp] theorem State.setFrameRx_diag (s : State) (x : Frame) : (s.setFrameRx x).diag = s.diag := rfl

@[simp] theorem State.setFrameRx_seq (s : State) (x : Frame) : (s.setFrameRx x).seq = s.seq := rfl

@[simp] theorem State.setFrameRx_initRun (s : State) (x : Frame) : (s.setFrameRx x).initRun = s.initRun := rfl

@[simp] theorem State.setFrameRx_ctx (s : State) (x : Frame) : (s.setFrameRx x).ctx = s.ctx := rfl

@[simp] theorem State.setFrameRx_savedCtx (s : State) (x : Frame) : (s.setFrameRx x).savedCtx = s.savedCtx := rfl

@[simp] theorem State.setFrameRx_halted (s : State) (x : Frame) : (s.setFrameRx x).halted = s.halted := rfl

@[simp] theorem State.setFrameRx_can (s : State) (x : Frame) : (s.setFrameRx x).can = s.can := rfl

@[simp] theorem State.setFrameRx_nvic (s : State) (x : Frame) : (s.setFrameRx x).nvic = s.nvic := rfl

@[simp] theorem State.setFrameRx_vtor (s : State) (x : Frame) : (s.setFrameRx x).vtor = s.vtor := rfl

@[simp] theorem State.setFrameRx_mem (s : State) (x : Frame) : (s.setFrameRx x).mem = s.mem := rfl

@[simp] theorem State.setFrameRx_thread (s : State) (x : Frame) : (s.setFrameRx x).thread = s.thread := rfl

@[simp] theorem State.setFrameRx_isr (s : State) (x : Frame) : (s.setFrameRx x).isr = s.isr := rfl

@[simp] theorem State.setFrameRx_token (s : State) (x : Frame) : (s.setFrameRx x).token = s.token := rfl

@[simp] theorem State.setFrameRx_port (s : State) (x : Frame) : (s.setFrameRx x).port = s.port := rfl

@[simp] theorem State.setFrameRx_issuer (s : State) (x : Frame) : (s.setFrameRx x).issuer = s.issuer := rfl

@[simp] theorem State.setFrameRx_host (s : State) (x : Frame) : (s.setFrameRx x).host = s.host := rfl

@[simp] theorem State.setFrameRx_sched (s : State) (x : Frame) : (s.setFrameRx x).sched = s.sched := rfl

@[simp] theorem State.setFrameRx_lines (s : State) (x : Frame) : (s.setFrameRx x).lines = s.lines := rfl

@[simp] theorem State.setFrameRx_draws (s : State) (x : Frame) : (s.setFrameRx x).draws = s.draws := rfl

@[simp] theorem State.setFrameRx_trace (s : State) (x : Frame) : (s.setFrameRx x).trace = s.trace := rfl

@[simp] theorem State.setFrameRx_task (s : State) (x : Frame) : (s.setFrameRx x).task = s.task := rfl

/-- The state with another `token`. -/
def State.setToken (s : State) (x : Option Word) : State := { s with token := x }

theorem State.setToken_eq (s : State) (x : Option Word) : { s with token := x } = s.setToken x := rfl

@[simp] theorem State.setToken_cfg (s : State) (x : Option Word) : (s.setToken x).cfg = s.cfg := rfl

@[simp] theorem State.setToken_args (s : State) (x : Option Word) : (s.setToken x).args = s.args := rfl

@[simp] theorem State.setToken_clkHz (s : State) (x : Option Word) : (s.setToken x).clkHz = s.clkHz := rfl

@[simp] theorem State.setToken_fClk (s : State) (x : Option Word) : (s.setToken x).fClk = s.fClk := rfl

@[simp] theorem State.setToken_res (s : State) (x : Option Word) : (s.setToken x).res = s.res := rfl

@[simp] theorem State.setToken_bt (s : State) (x : Option Word) : (s.setToken x).bt = s.bt := rfl

@[simp] theorem State.setToken_mb (s : State) (x : Option Word) : (s.setToken x).mb = s.mb := rfl

@[simp] theorem State.setToken_es (s : State) (x : Option Word) : (s.setToken x).es = s.es := rfl

@[simp] theorem State.setToken_frameRx (s : State) (x : Option Word) : (s.setToken x).frameRx = s.frameRx := rfl

@[simp] theorem State.setToken_rxlog (s : State) (x : Option Word) : (s.setToken x).rxlog = s.rxlog := rfl

@[simp] theorem State.setToken_diag (s : State) (x : Option Word) : (s.setToken x).diag = s.diag := rfl

@[simp] theorem State.setToken_seq (s : State) (x : Option Word) : (s.setToken x).seq = s.seq := rfl

@[simp] theorem State.setToken_initRun (s : State) (x : Option Word) : (s.setToken x).initRun = s.initRun := rfl

@[simp] theorem State.setToken_ctx (s : State) (x : Option Word) : (s.setToken x).ctx = s.ctx := rfl

@[simp] theorem State.setToken_savedCtx (s : State) (x : Option Word) : (s.setToken x).savedCtx = s.savedCtx := rfl

@[simp] theorem State.setToken_halted (s : State) (x : Option Word) : (s.setToken x).halted = s.halted := rfl

@[simp] theorem State.setToken_can (s : State) (x : Option Word) : (s.setToken x).can = s.can := rfl

@[simp] theorem State.setToken_nvic (s : State) (x : Option Word) : (s.setToken x).nvic = s.nvic := rfl

@[simp] theorem State.setToken_vtor (s : State) (x : Option Word) : (s.setToken x).vtor = s.vtor := rfl

@[simp] theorem State.setToken_mem (s : State) (x : Option Word) : (s.setToken x).mem = s.mem := rfl

@[simp] theorem State.setToken_thread (s : State) (x : Option Word) : (s.setToken x).thread = s.thread := rfl

@[simp] theorem State.setToken_isr (s : State) (x : Option Word) : (s.setToken x).isr = s.isr := rfl

@[simp] theorem State.setToken_token (s : State) (x : Option Word) : (s.setToken x).token = x := rfl

@[simp] theorem State.setToken_port (s : State) (x : Option Word) : (s.setToken x).port = s.port := rfl

@[simp] theorem State.setToken_issuer (s : State) (x : Option Word) : (s.setToken x).issuer = s.issuer := rfl

@[simp] theorem State.setToken_host (s : State) (x : Option Word) : (s.setToken x).host = s.host := rfl

@[simp] theorem State.setToken_sched (s : State) (x : Option Word) : (s.setToken x).sched = s.sched := rfl

@[simp] theorem State.setToken_lines (s : State) (x : Option Word) : (s.setToken x).lines = s.lines := rfl

@[simp] theorem State.setToken_draws (s : State) (x : Option Word) : (s.setToken x).draws = s.draws := rfl

@[simp] theorem State.setToken_trace (s : State) (x : Option Word) : (s.setToken x).trace = s.trace := rfl

@[simp] theorem State.setToken_task (s : State) (x : Option Word) : (s.setToken x).task = s.task := rfl

/-- The state with another `port`. -/
def State.setPort (s : State) (x : Option PortWord) : State := { s with port := x }

theorem State.setPort_eq (s : State) (x : Option PortWord) : { s with port := x } = s.setPort x := rfl

@[simp] theorem State.setPort_cfg (s : State) (x : Option PortWord) : (s.setPort x).cfg = s.cfg := rfl

@[simp] theorem State.setPort_args (s : State) (x : Option PortWord) : (s.setPort x).args = s.args := rfl

@[simp] theorem State.setPort_clkHz (s : State) (x : Option PortWord) : (s.setPort x).clkHz = s.clkHz := rfl

@[simp] theorem State.setPort_fClk (s : State) (x : Option PortWord) : (s.setPort x).fClk = s.fClk := rfl

@[simp] theorem State.setPort_res (s : State) (x : Option PortWord) : (s.setPort x).res = s.res := rfl

@[simp] theorem State.setPort_bt (s : State) (x : Option PortWord) : (s.setPort x).bt = s.bt := rfl

@[simp] theorem State.setPort_mb (s : State) (x : Option PortWord) : (s.setPort x).mb = s.mb := rfl

@[simp] theorem State.setPort_es (s : State) (x : Option PortWord) : (s.setPort x).es = s.es := rfl

@[simp] theorem State.setPort_frameRx (s : State) (x : Option PortWord) : (s.setPort x).frameRx = s.frameRx := rfl

@[simp] theorem State.setPort_rxlog (s : State) (x : Option PortWord) : (s.setPort x).rxlog = s.rxlog := rfl

@[simp] theorem State.setPort_diag (s : State) (x : Option PortWord) : (s.setPort x).diag = s.diag := rfl

@[simp] theorem State.setPort_seq (s : State) (x : Option PortWord) : (s.setPort x).seq = s.seq := rfl

@[simp] theorem State.setPort_initRun (s : State) (x : Option PortWord) : (s.setPort x).initRun = s.initRun := rfl

@[simp] theorem State.setPort_ctx (s : State) (x : Option PortWord) : (s.setPort x).ctx = s.ctx := rfl

@[simp] theorem State.setPort_savedCtx (s : State) (x : Option PortWord) : (s.setPort x).savedCtx = s.savedCtx := rfl

@[simp] theorem State.setPort_halted (s : State) (x : Option PortWord) : (s.setPort x).halted = s.halted := rfl

@[simp] theorem State.setPort_can (s : State) (x : Option PortWord) : (s.setPort x).can = s.can := rfl

@[simp] theorem State.setPort_nvic (s : State) (x : Option PortWord) : (s.setPort x).nvic = s.nvic := rfl

@[simp] theorem State.setPort_vtor (s : State) (x : Option PortWord) : (s.setPort x).vtor = s.vtor := rfl

@[simp] theorem State.setPort_mem (s : State) (x : Option PortWord) : (s.setPort x).mem = s.mem := rfl

@[simp] theorem State.setPort_thread (s : State) (x : Option PortWord) : (s.setPort x).thread = s.thread := rfl

@[simp] theorem State.setPort_isr (s : State) (x : Option PortWord) : (s.setPort x).isr = s.isr := rfl

@[simp] theorem State.setPort_token (s : State) (x : Option PortWord) : (s.setPort x).token = s.token := rfl

@[simp] theorem State.setPort_port (s : State) (x : Option PortWord) : (s.setPort x).port = x := rfl

@[simp] theorem State.setPort_issuer (s : State) (x : Option PortWord) : (s.setPort x).issuer = s.issuer := rfl

@[simp] theorem State.setPort_host (s : State) (x : Option PortWord) : (s.setPort x).host = s.host := rfl

@[simp] theorem State.setPort_sched (s : State) (x : Option PortWord) : (s.setPort x).sched = s.sched := rfl

@[simp] theorem State.setPort_lines (s : State) (x : Option PortWord) : (s.setPort x).lines = s.lines := rfl

@[simp] theorem State.setPort_draws (s : State) (x : Option PortWord) : (s.setPort x).draws = s.draws := rfl

@[simp] theorem State.setPort_trace (s : State) (x : Option PortWord) : (s.setPort x).trace = s.trace := rfl

@[simp] theorem State.setPort_task (s : State) (x : Option PortWord) : (s.setPort x).task = s.task := rfl

/-- The state with another `issuer`. -/
def State.setIssuer (s : State) (x : Issuer) : State := { s with issuer := x }

theorem State.setIssuer_eq (s : State) (x : Issuer) : { s with issuer := x } = s.setIssuer x := rfl

@[simp] theorem State.setIssuer_cfg (s : State) (x : Issuer) : (s.setIssuer x).cfg = s.cfg := rfl

@[simp] theorem State.setIssuer_args (s : State) (x : Issuer) : (s.setIssuer x).args = s.args := rfl

@[simp] theorem State.setIssuer_clkHz (s : State) (x : Issuer) : (s.setIssuer x).clkHz = s.clkHz := rfl

@[simp] theorem State.setIssuer_fClk (s : State) (x : Issuer) : (s.setIssuer x).fClk = s.fClk := rfl

@[simp] theorem State.setIssuer_res (s : State) (x : Issuer) : (s.setIssuer x).res = s.res := rfl

@[simp] theorem State.setIssuer_bt (s : State) (x : Issuer) : (s.setIssuer x).bt = s.bt := rfl

@[simp] theorem State.setIssuer_mb (s : State) (x : Issuer) : (s.setIssuer x).mb = s.mb := rfl

@[simp] theorem State.setIssuer_es (s : State) (x : Issuer) : (s.setIssuer x).es = s.es := rfl

@[simp] theorem State.setIssuer_frameRx (s : State) (x : Issuer) : (s.setIssuer x).frameRx = s.frameRx := rfl

@[simp] theorem State.setIssuer_rxlog (s : State) (x : Issuer) : (s.setIssuer x).rxlog = s.rxlog := rfl

@[simp] theorem State.setIssuer_diag (s : State) (x : Issuer) : (s.setIssuer x).diag = s.diag := rfl

@[simp] theorem State.setIssuer_seq (s : State) (x : Issuer) : (s.setIssuer x).seq = s.seq := rfl

@[simp] theorem State.setIssuer_initRun (s : State) (x : Issuer) : (s.setIssuer x).initRun = s.initRun := rfl

@[simp] theorem State.setIssuer_ctx (s : State) (x : Issuer) : (s.setIssuer x).ctx = s.ctx := rfl

@[simp] theorem State.setIssuer_savedCtx (s : State) (x : Issuer) : (s.setIssuer x).savedCtx = s.savedCtx := rfl

@[simp] theorem State.setIssuer_halted (s : State) (x : Issuer) : (s.setIssuer x).halted = s.halted := rfl

@[simp] theorem State.setIssuer_can (s : State) (x : Issuer) : (s.setIssuer x).can = s.can := rfl

@[simp] theorem State.setIssuer_nvic (s : State) (x : Issuer) : (s.setIssuer x).nvic = s.nvic := rfl

@[simp] theorem State.setIssuer_vtor (s : State) (x : Issuer) : (s.setIssuer x).vtor = s.vtor := rfl

@[simp] theorem State.setIssuer_mem (s : State) (x : Issuer) : (s.setIssuer x).mem = s.mem := rfl

@[simp] theorem State.setIssuer_thread (s : State) (x : Issuer) : (s.setIssuer x).thread = s.thread := rfl

@[simp] theorem State.setIssuer_isr (s : State) (x : Issuer) : (s.setIssuer x).isr = s.isr := rfl

@[simp] theorem State.setIssuer_token (s : State) (x : Issuer) : (s.setIssuer x).token = s.token := rfl

@[simp] theorem State.setIssuer_port (s : State) (x : Issuer) : (s.setIssuer x).port = s.port := rfl

@[simp] theorem State.setIssuer_issuer (s : State) (x : Issuer) : (s.setIssuer x).issuer = x := rfl

@[simp] theorem State.setIssuer_host (s : State) (x : Issuer) : (s.setIssuer x).host = s.host := rfl

@[simp] theorem State.setIssuer_sched (s : State) (x : Issuer) : (s.setIssuer x).sched = s.sched := rfl

@[simp] theorem State.setIssuer_lines (s : State) (x : Issuer) : (s.setIssuer x).lines = s.lines := rfl

@[simp] theorem State.setIssuer_draws (s : State) (x : Issuer) : (s.setIssuer x).draws = s.draws := rfl

@[simp] theorem State.setIssuer_trace (s : State) (x : Issuer) : (s.setIssuer x).trace = s.trace := rfl

@[simp] theorem State.setIssuer_task (s : State) (x : Issuer) : (s.setIssuer x).task = s.task := rfl

/-- The state with another `seq`. -/
def State.setSeq (s : State) (x : BitVec 4) : State := { s with seq := x }

theorem State.setSeq_eq (s : State) (x : BitVec 4) : { s with seq := x } = s.setSeq x := rfl

@[simp] theorem State.setSeq_cfg (s : State) (x : BitVec 4) : (s.setSeq x).cfg = s.cfg := rfl

@[simp] theorem State.setSeq_args (s : State) (x : BitVec 4) : (s.setSeq x).args = s.args := rfl

@[simp] theorem State.setSeq_clkHz (s : State) (x : BitVec 4) : (s.setSeq x).clkHz = s.clkHz := rfl

@[simp] theorem State.setSeq_fClk (s : State) (x : BitVec 4) : (s.setSeq x).fClk = s.fClk := rfl

@[simp] theorem State.setSeq_res (s : State) (x : BitVec 4) : (s.setSeq x).res = s.res := rfl

@[simp] theorem State.setSeq_bt (s : State) (x : BitVec 4) : (s.setSeq x).bt = s.bt := rfl

@[simp] theorem State.setSeq_mb (s : State) (x : BitVec 4) : (s.setSeq x).mb = s.mb := rfl

@[simp] theorem State.setSeq_es (s : State) (x : BitVec 4) : (s.setSeq x).es = s.es := rfl

@[simp] theorem State.setSeq_frameRx (s : State) (x : BitVec 4) : (s.setSeq x).frameRx = s.frameRx := rfl

@[simp] theorem State.setSeq_rxlog (s : State) (x : BitVec 4) : (s.setSeq x).rxlog = s.rxlog := rfl

@[simp] theorem State.setSeq_diag (s : State) (x : BitVec 4) : (s.setSeq x).diag = s.diag := rfl

@[simp] theorem State.setSeq_seq (s : State) (x : BitVec 4) : (s.setSeq x).seq = x := rfl

@[simp] theorem State.setSeq_initRun (s : State) (x : BitVec 4) : (s.setSeq x).initRun = s.initRun := rfl

@[simp] theorem State.setSeq_ctx (s : State) (x : BitVec 4) : (s.setSeq x).ctx = s.ctx := rfl

@[simp] theorem State.setSeq_savedCtx (s : State) (x : BitVec 4) : (s.setSeq x).savedCtx = s.savedCtx := rfl

@[simp] theorem State.setSeq_halted (s : State) (x : BitVec 4) : (s.setSeq x).halted = s.halted := rfl

@[simp] theorem State.setSeq_can (s : State) (x : BitVec 4) : (s.setSeq x).can = s.can := rfl

@[simp] theorem State.setSeq_nvic (s : State) (x : BitVec 4) : (s.setSeq x).nvic = s.nvic := rfl

@[simp] theorem State.setSeq_vtor (s : State) (x : BitVec 4) : (s.setSeq x).vtor = s.vtor := rfl

@[simp] theorem State.setSeq_mem (s : State) (x : BitVec 4) : (s.setSeq x).mem = s.mem := rfl

@[simp] theorem State.setSeq_thread (s : State) (x : BitVec 4) : (s.setSeq x).thread = s.thread := rfl

@[simp] theorem State.setSeq_isr (s : State) (x : BitVec 4) : (s.setSeq x).isr = s.isr := rfl

@[simp] theorem State.setSeq_token (s : State) (x : BitVec 4) : (s.setSeq x).token = s.token := rfl

@[simp] theorem State.setSeq_port (s : State) (x : BitVec 4) : (s.setSeq x).port = s.port := rfl

@[simp] theorem State.setSeq_issuer (s : State) (x : BitVec 4) : (s.setSeq x).issuer = s.issuer := rfl

@[simp] theorem State.setSeq_host (s : State) (x : BitVec 4) : (s.setSeq x).host = s.host := rfl

@[simp] theorem State.setSeq_sched (s : State) (x : BitVec 4) : (s.setSeq x).sched = s.sched := rfl

@[simp] theorem State.setSeq_lines (s : State) (x : BitVec 4) : (s.setSeq x).lines = s.lines := rfl

@[simp] theorem State.setSeq_draws (s : State) (x : BitVec 4) : (s.setSeq x).draws = s.draws := rfl

@[simp] theorem State.setSeq_trace (s : State) (x : BitVec 4) : (s.setSeq x).trace = s.trace := rfl

@[simp] theorem State.setSeq_task (s : State) (x : BitVec 4) : (s.setSeq x).task = s.task := rfl

/-- The state with another `res`. -/
def State.setRes (s : State) (x : Results) : State := { s with res := x }

theorem State.setRes_eq (s : State) (x : Results) : { s with res := x } = s.setRes x := rfl

@[simp] theorem State.setRes_cfg (s : State) (x : Results) : (s.setRes x).cfg = s.cfg := rfl

@[simp] theorem State.setRes_args (s : State) (x : Results) : (s.setRes x).args = s.args := rfl

@[simp] theorem State.setRes_clkHz (s : State) (x : Results) : (s.setRes x).clkHz = s.clkHz := rfl

@[simp] theorem State.setRes_fClk (s : State) (x : Results) : (s.setRes x).fClk = s.fClk := rfl

@[simp] theorem State.setRes_res (s : State) (x : Results) : (s.setRes x).res = x := rfl

@[simp] theorem State.setRes_bt (s : State) (x : Results) : (s.setRes x).bt = s.bt := rfl

@[simp] theorem State.setRes_mb (s : State) (x : Results) : (s.setRes x).mb = s.mb := rfl

@[simp] theorem State.setRes_es (s : State) (x : Results) : (s.setRes x).es = s.es := rfl

@[simp] theorem State.setRes_frameRx (s : State) (x : Results) : (s.setRes x).frameRx = s.frameRx := rfl

@[simp] theorem State.setRes_rxlog (s : State) (x : Results) : (s.setRes x).rxlog = s.rxlog := rfl

@[simp] theorem State.setRes_diag (s : State) (x : Results) : (s.setRes x).diag = s.diag := rfl

@[simp] theorem State.setRes_seq (s : State) (x : Results) : (s.setRes x).seq = s.seq := rfl

@[simp] theorem State.setRes_initRun (s : State) (x : Results) : (s.setRes x).initRun = s.initRun := rfl

@[simp] theorem State.setRes_ctx (s : State) (x : Results) : (s.setRes x).ctx = s.ctx := rfl

@[simp] theorem State.setRes_savedCtx (s : State) (x : Results) : (s.setRes x).savedCtx = s.savedCtx := rfl

@[simp] theorem State.setRes_halted (s : State) (x : Results) : (s.setRes x).halted = s.halted := rfl

@[simp] theorem State.setRes_can (s : State) (x : Results) : (s.setRes x).can = s.can := rfl

@[simp] theorem State.setRes_nvic (s : State) (x : Results) : (s.setRes x).nvic = s.nvic := rfl

@[simp] theorem State.setRes_vtor (s : State) (x : Results) : (s.setRes x).vtor = s.vtor := rfl

@[simp] theorem State.setRes_mem (s : State) (x : Results) : (s.setRes x).mem = s.mem := rfl

@[simp] theorem State.setRes_thread (s : State) (x : Results) : (s.setRes x).thread = s.thread := rfl

@[simp] theorem State.setRes_isr (s : State) (x : Results) : (s.setRes x).isr = s.isr := rfl

@[simp] theorem State.setRes_token (s : State) (x : Results) : (s.setRes x).token = s.token := rfl

@[simp] theorem State.setRes_port (s : State) (x : Results) : (s.setRes x).port = s.port := rfl

@[simp] theorem State.setRes_issuer (s : State) (x : Results) : (s.setRes x).issuer = s.issuer := rfl

@[simp] theorem State.setRes_host (s : State) (x : Results) : (s.setRes x).host = s.host := rfl

@[simp] theorem State.setRes_sched (s : State) (x : Results) : (s.setRes x).sched = s.sched := rfl

@[simp] theorem State.setRes_lines (s : State) (x : Results) : (s.setRes x).lines = s.lines := rfl

@[simp] theorem State.setRes_draws (s : State) (x : Results) : (s.setRes x).draws = s.draws := rfl

@[simp] theorem State.setRes_trace (s : State) (x : Results) : (s.setRes x).trace = s.trace := rfl

@[simp] theorem State.setRes_task (s : State) (x : Results) : (s.setRes x).task = s.task := rfl

/-- The state with another `initRun`. -/
def State.setInitRun (s : State) (x : Bool) : State := { s with initRun := x }

theorem State.setInitRun_eq (s : State) (x : Bool) : { s with initRun := x } = s.setInitRun x := rfl

@[simp] theorem State.setInitRun_cfg (s : State) (x : Bool) : (s.setInitRun x).cfg = s.cfg := rfl

@[simp] theorem State.setInitRun_args (s : State) (x : Bool) : (s.setInitRun x).args = s.args := rfl

@[simp] theorem State.setInitRun_clkHz (s : State) (x : Bool) : (s.setInitRun x).clkHz = s.clkHz := rfl

@[simp] theorem State.setInitRun_fClk (s : State) (x : Bool) : (s.setInitRun x).fClk = s.fClk := rfl

@[simp] theorem State.setInitRun_res (s : State) (x : Bool) : (s.setInitRun x).res = s.res := rfl

@[simp] theorem State.setInitRun_bt (s : State) (x : Bool) : (s.setInitRun x).bt = s.bt := rfl

@[simp] theorem State.setInitRun_mb (s : State) (x : Bool) : (s.setInitRun x).mb = s.mb := rfl

@[simp] theorem State.setInitRun_es (s : State) (x : Bool) : (s.setInitRun x).es = s.es := rfl

@[simp] theorem State.setInitRun_frameRx (s : State) (x : Bool) : (s.setInitRun x).frameRx = s.frameRx := rfl

@[simp] theorem State.setInitRun_rxlog (s : State) (x : Bool) : (s.setInitRun x).rxlog = s.rxlog := rfl

@[simp] theorem State.setInitRun_diag (s : State) (x : Bool) : (s.setInitRun x).diag = s.diag := rfl

@[simp] theorem State.setInitRun_seq (s : State) (x : Bool) : (s.setInitRun x).seq = s.seq := rfl

@[simp] theorem State.setInitRun_initRun (s : State) (x : Bool) : (s.setInitRun x).initRun = x := rfl

@[simp] theorem State.setInitRun_ctx (s : State) (x : Bool) : (s.setInitRun x).ctx = s.ctx := rfl

@[simp] theorem State.setInitRun_savedCtx (s : State) (x : Bool) : (s.setInitRun x).savedCtx = s.savedCtx := rfl

@[simp] theorem State.setInitRun_halted (s : State) (x : Bool) : (s.setInitRun x).halted = s.halted := rfl

@[simp] theorem State.setInitRun_can (s : State) (x : Bool) : (s.setInitRun x).can = s.can := rfl

@[simp] theorem State.setInitRun_nvic (s : State) (x : Bool) : (s.setInitRun x).nvic = s.nvic := rfl

@[simp] theorem State.setInitRun_vtor (s : State) (x : Bool) : (s.setInitRun x).vtor = s.vtor := rfl

@[simp] theorem State.setInitRun_mem (s : State) (x : Bool) : (s.setInitRun x).mem = s.mem := rfl

@[simp] theorem State.setInitRun_thread (s : State) (x : Bool) : (s.setInitRun x).thread = s.thread := rfl

@[simp] theorem State.setInitRun_isr (s : State) (x : Bool) : (s.setInitRun x).isr = s.isr := rfl

@[simp] theorem State.setInitRun_token (s : State) (x : Bool) : (s.setInitRun x).token = s.token := rfl

@[simp] theorem State.setInitRun_port (s : State) (x : Bool) : (s.setInitRun x).port = s.port := rfl

@[simp] theorem State.setInitRun_issuer (s : State) (x : Bool) : (s.setInitRun x).issuer = s.issuer := rfl

@[simp] theorem State.setInitRun_host (s : State) (x : Bool) : (s.setInitRun x).host = s.host := rfl

@[simp] theorem State.setInitRun_sched (s : State) (x : Bool) : (s.setInitRun x).sched = s.sched := rfl

@[simp] theorem State.setInitRun_lines (s : State) (x : Bool) : (s.setInitRun x).lines = s.lines := rfl

@[simp] theorem State.setInitRun_draws (s : State) (x : Bool) : (s.setInitRun x).draws = s.draws := rfl

@[simp] theorem State.setInitRun_trace (s : State) (x : Bool) : (s.setInitRun x).trace = s.trace := rfl

@[simp] theorem State.setInitRun_task (s : State) (x : Bool) : (s.setInitRun x).task = s.task := rfl

/-- The state with another `can`. -/
def State.setCan (s : State) (x : Can) : State := { s with can := x }

theorem State.setCan_eq (s : State) (x : Can) : { s with can := x } = s.setCan x := rfl

@[simp] theorem State.setCan_cfg (s : State) (x : Can) : (s.setCan x).cfg = s.cfg := rfl

@[simp] theorem State.setCan_args (s : State) (x : Can) : (s.setCan x).args = s.args := rfl

@[simp] theorem State.setCan_clkHz (s : State) (x : Can) : (s.setCan x).clkHz = s.clkHz := rfl

@[simp] theorem State.setCan_fClk (s : State) (x : Can) : (s.setCan x).fClk = s.fClk := rfl

@[simp] theorem State.setCan_res (s : State) (x : Can) : (s.setCan x).res = s.res := rfl

@[simp] theorem State.setCan_bt (s : State) (x : Can) : (s.setCan x).bt = s.bt := rfl

@[simp] theorem State.setCan_mb (s : State) (x : Can) : (s.setCan x).mb = s.mb := rfl

@[simp] theorem State.setCan_es (s : State) (x : Can) : (s.setCan x).es = s.es := rfl

@[simp] theorem State.setCan_frameRx (s : State) (x : Can) : (s.setCan x).frameRx = s.frameRx := rfl

@[simp] theorem State.setCan_rxlog (s : State) (x : Can) : (s.setCan x).rxlog = s.rxlog := rfl

@[simp] theorem State.setCan_diag (s : State) (x : Can) : (s.setCan x).diag = s.diag := rfl

@[simp] theorem State.setCan_seq (s : State) (x : Can) : (s.setCan x).seq = s.seq := rfl

@[simp] theorem State.setCan_initRun (s : State) (x : Can) : (s.setCan x).initRun = s.initRun := rfl

@[simp] theorem State.setCan_ctx (s : State) (x : Can) : (s.setCan x).ctx = s.ctx := rfl

@[simp] theorem State.setCan_savedCtx (s : State) (x : Can) : (s.setCan x).savedCtx = s.savedCtx := rfl

@[simp] theorem State.setCan_halted (s : State) (x : Can) : (s.setCan x).halted = s.halted := rfl

@[simp] theorem State.setCan_can (s : State) (x : Can) : (s.setCan x).can = x := rfl

@[simp] theorem State.setCan_nvic (s : State) (x : Can) : (s.setCan x).nvic = s.nvic := rfl

@[simp] theorem State.setCan_vtor (s : State) (x : Can) : (s.setCan x).vtor = s.vtor := rfl

@[simp] theorem State.setCan_mem (s : State) (x : Can) : (s.setCan x).mem = s.mem := rfl

@[simp] theorem State.setCan_thread (s : State) (x : Can) : (s.setCan x).thread = s.thread := rfl

@[simp] theorem State.setCan_isr (s : State) (x : Can) : (s.setCan x).isr = s.isr := rfl

@[simp] theorem State.setCan_token (s : State) (x : Can) : (s.setCan x).token = s.token := rfl

@[simp] theorem State.setCan_port (s : State) (x : Can) : (s.setCan x).port = s.port := rfl

@[simp] theorem State.setCan_issuer (s : State) (x : Can) : (s.setCan x).issuer = s.issuer := rfl

@[simp] theorem State.setCan_host (s : State) (x : Can) : (s.setCan x).host = s.host := rfl

@[simp] theorem State.setCan_sched (s : State) (x : Can) : (s.setCan x).sched = s.sched := rfl

@[simp] theorem State.setCan_lines (s : State) (x : Can) : (s.setCan x).lines = s.lines := rfl

@[simp] theorem State.setCan_draws (s : State) (x : Can) : (s.setCan x).draws = s.draws := rfl

@[simp] theorem State.setCan_trace (s : State) (x : Can) : (s.setCan x).trace = s.trace := rfl

@[simp] theorem State.setCan_task (s : State) (x : Can) : (s.setCan x).task = s.task := rfl

/-- The state with another `rxlog`. -/
def State.setRxlog (s : State) (x : List RxEvent) : State := { s with rxlog := x }

theorem State.setRxlog_eq (s : State) (x : List RxEvent) : { s with rxlog := x } = s.setRxlog x := rfl

@[simp] theorem State.setRxlog_cfg (s : State) (x : List RxEvent) : (s.setRxlog x).cfg = s.cfg := rfl

@[simp] theorem State.setRxlog_args (s : State) (x : List RxEvent) : (s.setRxlog x).args = s.args := rfl

@[simp] theorem State.setRxlog_clkHz (s : State) (x : List RxEvent) : (s.setRxlog x).clkHz = s.clkHz := rfl

@[simp] theorem State.setRxlog_fClk (s : State) (x : List RxEvent) : (s.setRxlog x).fClk = s.fClk := rfl

@[simp] theorem State.setRxlog_res (s : State) (x : List RxEvent) : (s.setRxlog x).res = s.res := rfl

@[simp] theorem State.setRxlog_bt (s : State) (x : List RxEvent) : (s.setRxlog x).bt = s.bt := rfl

@[simp] theorem State.setRxlog_mb (s : State) (x : List RxEvent) : (s.setRxlog x).mb = s.mb := rfl

@[simp] theorem State.setRxlog_es (s : State) (x : List RxEvent) : (s.setRxlog x).es = s.es := rfl

@[simp] theorem State.setRxlog_frameRx (s : State) (x : List RxEvent) : (s.setRxlog x).frameRx = s.frameRx := rfl

@[simp] theorem State.setRxlog_rxlog (s : State) (x : List RxEvent) : (s.setRxlog x).rxlog = x := rfl

@[simp] theorem State.setRxlog_diag (s : State) (x : List RxEvent) : (s.setRxlog x).diag = s.diag := rfl

@[simp] theorem State.setRxlog_seq (s : State) (x : List RxEvent) : (s.setRxlog x).seq = s.seq := rfl

@[simp] theorem State.setRxlog_initRun (s : State) (x : List RxEvent) : (s.setRxlog x).initRun = s.initRun := rfl

@[simp] theorem State.setRxlog_ctx (s : State) (x : List RxEvent) : (s.setRxlog x).ctx = s.ctx := rfl

@[simp] theorem State.setRxlog_savedCtx (s : State) (x : List RxEvent) : (s.setRxlog x).savedCtx = s.savedCtx := rfl

@[simp] theorem State.setRxlog_halted (s : State) (x : List RxEvent) : (s.setRxlog x).halted = s.halted := rfl

@[simp] theorem State.setRxlog_can (s : State) (x : List RxEvent) : (s.setRxlog x).can = s.can := rfl

@[simp] theorem State.setRxlog_nvic (s : State) (x : List RxEvent) : (s.setRxlog x).nvic = s.nvic := rfl

@[simp] theorem State.setRxlog_vtor (s : State) (x : List RxEvent) : (s.setRxlog x).vtor = s.vtor := rfl

@[simp] theorem State.setRxlog_mem (s : State) (x : List RxEvent) : (s.setRxlog x).mem = s.mem := rfl

@[simp] theorem State.setRxlog_thread (s : State) (x : List RxEvent) : (s.setRxlog x).thread = s.thread := rfl

@[simp] theorem State.setRxlog_isr (s : State) (x : List RxEvent) : (s.setRxlog x).isr = s.isr := rfl

@[simp] theorem State.setRxlog_token (s : State) (x : List RxEvent) : (s.setRxlog x).token = s.token := rfl

@[simp] theorem State.setRxlog_port (s : State) (x : List RxEvent) : (s.setRxlog x).port = s.port := rfl

@[simp] theorem State.setRxlog_issuer (s : State) (x : List RxEvent) : (s.setRxlog x).issuer = s.issuer := rfl

@[simp] theorem State.setRxlog_host (s : State) (x : List RxEvent) : (s.setRxlog x).host = s.host := rfl

@[simp] theorem State.setRxlog_sched (s : State) (x : List RxEvent) : (s.setRxlog x).sched = s.sched := rfl

@[simp] theorem State.setRxlog_lines (s : State) (x : List RxEvent) : (s.setRxlog x).lines = s.lines := rfl

@[simp] theorem State.setRxlog_draws (s : State) (x : List RxEvent) : (s.setRxlog x).draws = s.draws := rfl

@[simp] theorem State.setRxlog_trace (s : State) (x : List RxEvent) : (s.setRxlog x).trace = s.trace := rfl

@[simp] theorem State.setRxlog_task (s : State) (x : List RxEvent) : (s.setRxlog x).task = s.task := rfl

/-- The state with another `ctx`. -/
def State.setCtx (s : State) (x : Ctx) : State := { s with ctx := x }

theorem State.setCtx_eq (s : State) (x : Ctx) : { s with ctx := x } = s.setCtx x := rfl

@[simp] theorem State.setCtx_cfg (s : State) (x : Ctx) : (s.setCtx x).cfg = s.cfg := rfl

@[simp] theorem State.setCtx_args (s : State) (x : Ctx) : (s.setCtx x).args = s.args := rfl

@[simp] theorem State.setCtx_clkHz (s : State) (x : Ctx) : (s.setCtx x).clkHz = s.clkHz := rfl

@[simp] theorem State.setCtx_fClk (s : State) (x : Ctx) : (s.setCtx x).fClk = s.fClk := rfl

@[simp] theorem State.setCtx_res (s : State) (x : Ctx) : (s.setCtx x).res = s.res := rfl

@[simp] theorem State.setCtx_bt (s : State) (x : Ctx) : (s.setCtx x).bt = s.bt := rfl

@[simp] theorem State.setCtx_mb (s : State) (x : Ctx) : (s.setCtx x).mb = s.mb := rfl

@[simp] theorem State.setCtx_es (s : State) (x : Ctx) : (s.setCtx x).es = s.es := rfl

@[simp] theorem State.setCtx_frameRx (s : State) (x : Ctx) : (s.setCtx x).frameRx = s.frameRx := rfl

@[simp] theorem State.setCtx_rxlog (s : State) (x : Ctx) : (s.setCtx x).rxlog = s.rxlog := rfl

@[simp] theorem State.setCtx_diag (s : State) (x : Ctx) : (s.setCtx x).diag = s.diag := rfl

@[simp] theorem State.setCtx_seq (s : State) (x : Ctx) : (s.setCtx x).seq = s.seq := rfl

@[simp] theorem State.setCtx_initRun (s : State) (x : Ctx) : (s.setCtx x).initRun = s.initRun := rfl

@[simp] theorem State.setCtx_ctx (s : State) (x : Ctx) : (s.setCtx x).ctx = x := rfl

@[simp] theorem State.setCtx_savedCtx (s : State) (x : Ctx) : (s.setCtx x).savedCtx = s.savedCtx := rfl

@[simp] theorem State.setCtx_halted (s : State) (x : Ctx) : (s.setCtx x).halted = s.halted := rfl

@[simp] theorem State.setCtx_can (s : State) (x : Ctx) : (s.setCtx x).can = s.can := rfl

@[simp] theorem State.setCtx_nvic (s : State) (x : Ctx) : (s.setCtx x).nvic = s.nvic := rfl

@[simp] theorem State.setCtx_vtor (s : State) (x : Ctx) : (s.setCtx x).vtor = s.vtor := rfl

@[simp] theorem State.setCtx_mem (s : State) (x : Ctx) : (s.setCtx x).mem = s.mem := rfl

@[simp] theorem State.setCtx_thread (s : State) (x : Ctx) : (s.setCtx x).thread = s.thread := rfl

@[simp] theorem State.setCtx_isr (s : State) (x : Ctx) : (s.setCtx x).isr = s.isr := rfl

@[simp] theorem State.setCtx_token (s : State) (x : Ctx) : (s.setCtx x).token = s.token := rfl

@[simp] theorem State.setCtx_port (s : State) (x : Ctx) : (s.setCtx x).port = s.port := rfl

@[simp] theorem State.setCtx_issuer (s : State) (x : Ctx) : (s.setCtx x).issuer = s.issuer := rfl

@[simp] theorem State.setCtx_host (s : State) (x : Ctx) : (s.setCtx x).host = s.host := rfl

@[simp] theorem State.setCtx_sched (s : State) (x : Ctx) : (s.setCtx x).sched = s.sched := rfl

@[simp] theorem State.setCtx_lines (s : State) (x : Ctx) : (s.setCtx x).lines = s.lines := rfl

@[simp] theorem State.setCtx_draws (s : State) (x : Ctx) : (s.setCtx x).draws = s.draws := rfl

@[simp] theorem State.setCtx_trace (s : State) (x : Ctx) : (s.setCtx x).trace = s.trace := rfl

/-! ## What a register shows depends on the registers, the table RAM and the parameters only -/

@[simp] theorem State.view_setTask (s : State) (t : Task) (d : Word) (r : Reg) : (s.setTask t).view d r = s.view d r := by
  cases r <;> simp [State.view]

@[simp] theorem State.readEvent_setTask (s : State) (t : Task) (i : Nat) (r : Reg) : (s.setTask t).readEvent i r = s.readEvent i r := by
  simp [State.readEvent]

@[simp] theorem State.view_setOps (s : State) (o : List Op) (d : Word) (r : Reg) : (s.setOps o).view d r = s.view d r := by
  cases r <;> simp [State.view]

@[simp] theorem State.readEvent_setOps (s : State) (o : List Op) (i : Nat) (r : Reg) : (s.setOps o).readEvent i r = s.readEvent i r := by
  simp [State.readEvent]

@[simp] theorem State.view_setLocal (s : State) (v : BusWord) (d : Word) (r : Reg) : (s.setLocal v).view d r = s.view d r := by
  cases r <;> simp [State.view]

@[simp] theorem State.readEvent_setLocal (s : State) (v : BusWord) (i : Nat) (r : Reg) : (s.setLocal v).readEvent i r = s.readEvent i r := by
  simp [State.readEvent]

@[simp] theorem State.view_setSched (s : State) (x : List Move) (d : Word) (r : Reg) : (s.setSched x).view d r = s.view d r := by
  cases r <;> simp [State.view]

@[simp] theorem State.readEvent_setSched (s : State) (x : List Move) (i : Nat) (r : Reg) : (s.setSched x).readEvent i r = s.readEvent i r := by
  simp [State.readEvent]

@[simp] theorem State.view_setMb (s : State) (x : PerMb Mirror) (d : Word) (r : Reg) : (s.setMb x).view d r = s.view d r := by
  cases r <;> simp [State.view]

@[simp] theorem State.readEvent_setMb (s : State) (x : PerMb Mirror) (i : Nat) (r : Reg) : (s.setMb x).readEvent i r = s.readEvent i r := by
  simp [State.readEvent]

@[simp] theorem State.view_setEs (s : State) (x : ErrStat) (d : Word) (r : Reg) : (s.setEs x).view d r = s.view d r := by
  cases r <;> simp [State.view]

@[simp] theorem State.readEvent_setEs (s : State) (x : ErrStat) (i : Nat) (r : Reg) : (s.setEs x).readEvent i r = s.readEvent i r := by
  simp [State.readEvent]

@[simp] theorem State.view_setFrameRx (s : State) (x : Frame) (d : Word) (r : Reg) : (s.setFrameRx x).view d r = s.view d r := by
  cases r <;> simp [State.view]

@[simp] theorem State.readEvent_setFrameRx (s : State) (x : Frame) (i : Nat) (r : Reg) : (s.setFrameRx x).readEvent i r = s.readEvent i r := by
  simp [State.readEvent]

@[simp] theorem State.view_setToken (s : State) (x : Option Word) (d : Word) (r : Reg) : (s.setToken x).view d r = s.view d r := by
  cases r <;> simp [State.view]

@[simp] theorem State.readEvent_setToken (s : State) (x : Option Word) (i : Nat) (r : Reg) : (s.setToken x).readEvent i r = s.readEvent i r := by
  simp [State.readEvent]

@[simp] theorem State.view_setPort (s : State) (x : Option PortWord) (d : Word) (r : Reg) : (s.setPort x).view d r = s.view d r := by
  cases r <;> simp [State.view]

@[simp] theorem State.readEvent_setPort (s : State) (x : Option PortWord) (i : Nat) (r : Reg) : (s.setPort x).readEvent i r = s.readEvent i r := by
  simp [State.readEvent]

@[simp] theorem State.view_setIssuer (s : State) (x : Issuer) (d : Word) (r : Reg) : (s.setIssuer x).view d r = s.view d r := by
  cases r <;> simp [State.view]

@[simp] theorem State.readEvent_setIssuer (s : State) (x : Issuer) (i : Nat) (r : Reg) : (s.setIssuer x).readEvent i r = s.readEvent i r := by
  simp [State.readEvent]

@[simp] theorem State.view_setSeq (s : State) (x : BitVec 4) (d : Word) (r : Reg) : (s.setSeq x).view d r = s.view d r := by
  cases r <;> simp [State.view]

@[simp] theorem State.readEvent_setSeq (s : State) (x : BitVec 4) (i : Nat) (r : Reg) : (s.setSeq x).readEvent i r = s.readEvent i r := by
  simp [State.readEvent]

@[simp] theorem State.view_setRes (s : State) (x : Results) (d : Word) (r : Reg) : (s.setRes x).view d r = s.view d r := by
  cases r <;> simp [State.view]

@[simp] theorem State.readEvent_setRes (s : State) (x : Results) (i : Nat) (r : Reg) : (s.setRes x).readEvent i r = s.readEvent i r := by
  simp [State.readEvent]

@[simp] theorem State.view_setInitRun (s : State) (x : Bool) (d : Word) (r : Reg) : (s.setInitRun x).view d r = s.view d r := by
  cases r <;> simp [State.view]

@[simp] theorem State.readEvent_setInitRun (s : State) (x : Bool) (i : Nat) (r : Reg) : (s.setInitRun x).readEvent i r = s.readEvent i r := by
  simp [State.readEvent]

@[simp] theorem State.view_setRxlog (s : State) (x : List RxEvent) (d : Word) (r : Reg) : (s.setRxlog x).view d r = s.view d r := by
  cases r <;> simp [State.view]

@[simp] theorem State.readEvent_setRxlog (s : State) (x : List RxEvent) (i : Nat) (r : Reg) : (s.setRxlog x).readEvent i r = s.readEvent i r := by
  simp [State.readEvent]

@[simp] theorem State.view_setCtx (s : State) (x : Ctx) (d : Word) (r : Reg) : (s.setCtx x).view d r = s.view d r := by
  cases r <;> simp [State.view]

@[simp] theorem State.readEvent_setCtx (s : State) (x : Ctx) (i : Nat) (r : Reg) : (s.setCtx x).readEvent i r = s.readEvent i r := by
  simp [State.readEvent]

@[simp] theorem State.view_afterRead (s : State) (a : Reg) (d : Word) (r : Reg) : (s.afterRead a).view d r = s.view d r := by
  cases r <;> rfl

@[simp] theorem State.readEvent_afterRead (s : State) (a : Reg) (i : Nat) (r : Reg) :
    (s.afterRead a).readEvent i r = s.readEvent (i + 1) r := by
  simp [State.readEvent, State.afterRead, Nat.add_assoc, Nat.add_comm 1 i]
  cases r <;> rfl

theorem State.readEvent_word (s : State) (i : Nat) (r : Reg) :
    (s.readEvent i r).word = s.view (Config.freeWord (s.draws + i)) r := rfl

theorem State.regRead_eq (s : State) (r : Reg) : s.regRead r = (s.readEvent 0 r).word := rfl

/-! ## Reading a register (R64: nothing but the record of the read changes) -/

@[simp] theorem State.afterRead_cfg (s : State) (r : Reg) : (s.afterRead r).cfg = s.cfg := rfl

@[simp] theorem State.afterRead_args (s : State) (r : Reg) : (s.afterRead r).args = s.args := rfl

@[simp] theorem State.afterRead_clkHz (s : State) (r : Reg) : (s.afterRead r).clkHz = s.clkHz := rfl

@[simp] theorem State.afterRead_fClk (s : State) (r : Reg) : (s.afterRead r).fClk = s.fClk := rfl

@[simp] theorem State.afterRead_res (s : State) (r : Reg) : (s.afterRead r).res = s.res := rfl

@[simp] theorem State.afterRead_bt (s : State) (r : Reg) : (s.afterRead r).bt = s.bt := rfl

@[simp] theorem State.afterRead_mb (s : State) (r : Reg) : (s.afterRead r).mb = s.mb := rfl

@[simp] theorem State.afterRead_es (s : State) (r : Reg) : (s.afterRead r).es = s.es := rfl

@[simp] theorem State.afterRead_frameRx (s : State) (r : Reg) : (s.afterRead r).frameRx = s.frameRx := rfl

@[simp] theorem State.afterRead_rxlog (s : State) (r : Reg) : (s.afterRead r).rxlog = s.rxlog := rfl

@[simp] theorem State.afterRead_diag (s : State) (r : Reg) : (s.afterRead r).diag = s.diag := rfl

@[simp] theorem State.afterRead_seq (s : State) (r : Reg) : (s.afterRead r).seq = s.seq := rfl

@[simp] theorem State.afterRead_initRun (s : State) (r : Reg) : (s.afterRead r).initRun = s.initRun := rfl

@[simp] theorem State.afterRead_ctx (s : State) (r : Reg) : (s.afterRead r).ctx = s.ctx := rfl

@[simp] theorem State.afterRead_savedCtx (s : State) (r : Reg) : (s.afterRead r).savedCtx = s.savedCtx := rfl

@[simp] theorem State.afterRead_halted (s : State) (r : Reg) : (s.afterRead r).halted = s.halted := rfl

@[simp] theorem State.afterRead_can (s : State) (r : Reg) : (s.afterRead r).can = s.can := rfl

@[simp] theorem State.afterRead_nvic (s : State) (r : Reg) : (s.afterRead r).nvic = s.nvic := rfl

@[simp] theorem State.afterRead_vtor (s : State) (r : Reg) : (s.afterRead r).vtor = s.vtor := rfl

@[simp] theorem State.afterRead_mem (s : State) (r : Reg) : (s.afterRead r).mem = s.mem := rfl

@[simp] theorem State.afterRead_thread (s : State) (r : Reg) : (s.afterRead r).thread = s.thread := rfl

@[simp] theorem State.afterRead_isr (s : State) (r : Reg) : (s.afterRead r).isr = s.isr := rfl

@[simp] theorem State.afterRead_token (s : State) (r : Reg) : (s.afterRead r).token = s.token := rfl

@[simp] theorem State.afterRead_port (s : State) (r : Reg) : (s.afterRead r).port = s.port := rfl

@[simp] theorem State.afterRead_issuer (s : State) (r : Reg) : (s.afterRead r).issuer = s.issuer := rfl

@[simp] theorem State.afterRead_host (s : State) (r : Reg) : (s.afterRead r).host = s.host := rfl

@[simp] theorem State.afterRead_sched (s : State) (r : Reg) : (s.afterRead r).sched = s.sched := rfl

@[simp] theorem State.afterRead_lines (s : State) (r : Reg) : (s.afterRead r).lines = s.lines := rfl

@[simp] theorem State.afterRead_draws (s : State) (r : Reg) : (s.afterRead r).draws = s.draws + 1 := rfl

@[simp] theorem State.afterRead_trace (s : State) (r : Reg) :
    (s.afterRead r).trace = s.trace ++ [s.readEvent 0 r] := rfl

@[simp] theorem State.afterRead_task (s : State) (r : Reg) : (s.afterRead r).task = s.task := rfl

/-! ## Writing a register -/

@[simp] theorem State.put_cfg (s : State) (r : Reg) (v : BusWord) : (s.put r v).cfg = s.cfg := by
  cases r <;> rfl

@[simp] theorem State.put_args (s : State) (r : Reg) (v : BusWord) : (s.put r v).args = s.args := by
  cases r <;> rfl

@[simp] theorem State.put_clkHz (s : State) (r : Reg) (v : BusWord) : (s.put r v).clkHz = s.clkHz := by
  cases r <;> rfl

@[simp] theorem State.put_fClk (s : State) (r : Reg) (v : BusWord) : (s.put r v).fClk = s.fClk := by
  cases r <;> rfl

@[simp] theorem State.put_res (s : State) (r : Reg) (v : BusWord) : (s.put r v).res = s.res := by
  cases r <;> rfl

@[simp] theorem State.put_bt (s : State) (r : Reg) (v : BusWord) : (s.put r v).bt = s.bt := by
  cases r <;> rfl

@[simp] theorem State.put_mb (s : State) (r : Reg) (v : BusWord) : (s.put r v).mb = s.mb := by
  cases r <;> rfl

@[simp] theorem State.put_es (s : State) (r : Reg) (v : BusWord) : (s.put r v).es = s.es := by
  cases r <;> rfl

@[simp] theorem State.put_frameRx (s : State) (r : Reg) (v : BusWord) : (s.put r v).frameRx = s.frameRx := by
  cases r <;> rfl

@[simp] theorem State.put_rxlog (s : State) (r : Reg) (v : BusWord) : (s.put r v).rxlog = s.rxlog := by
  cases r <;> rfl

@[simp] theorem State.put_diag (s : State) (r : Reg) (v : BusWord) : (s.put r v).diag = s.diag := by
  cases r <;> rfl

@[simp] theorem State.put_seq (s : State) (r : Reg) (v : BusWord) : (s.put r v).seq = s.seq := by
  cases r <;> rfl

@[simp] theorem State.put_initRun (s : State) (r : Reg) (v : BusWord) : (s.put r v).initRun = s.initRun := by
  cases r <;> rfl

@[simp] theorem State.put_ctx (s : State) (r : Reg) (v : BusWord) : (s.put r v).ctx = s.ctx := by
  cases r <;> rfl

@[simp] theorem State.put_savedCtx (s : State) (r : Reg) (v : BusWord) : (s.put r v).savedCtx = s.savedCtx := by
  cases r <;> rfl

@[simp] theorem State.put_halted (s : State) (r : Reg) (v : BusWord) : (s.put r v).halted = s.halted := by
  cases r <;> rfl

@[simp] theorem State.put_thread (s : State) (r : Reg) (v : BusWord) : (s.put r v).thread = s.thread := by
  cases r <;> rfl

@[simp] theorem State.put_isr (s : State) (r : Reg) (v : BusWord) : (s.put r v).isr = s.isr := by
  cases r <;> rfl

@[simp] theorem State.put_token (s : State) (r : Reg) (v : BusWord) : (s.put r v).token = s.token := by
  cases r <;> rfl

@[simp] theorem State.put_port (s : State) (r : Reg) (v : BusWord) : (s.put r v).port = s.port := by
  cases r <;> rfl

@[simp] theorem State.put_issuer (s : State) (r : Reg) (v : BusWord) : (s.put r v).issuer = s.issuer := by
  cases r <;> rfl

@[simp] theorem State.put_host (s : State) (r : Reg) (v : BusWord) : (s.put r v).host = s.host := by
  cases r <;> rfl

@[simp] theorem State.put_sched (s : State) (r : Reg) (v : BusWord) : (s.put r v).sched = s.sched := by
  cases r <;> rfl

@[simp] theorem State.put_lines (s : State) (r : Reg) (v : BusWord) : (s.put r v).lines = s.lines := by
  cases r <;> rfl

@[simp] theorem State.put_draws (s : State) (r : Reg) (v : BusWord) : (s.put r v).draws = s.draws := by
  cases r <;> rfl

@[simp] theorem State.put_trace (s : State) (r : Reg) (v : BusWord) : (s.put r v).trace = s.trace := by
  cases r <;> rfl

@[simp] theorem State.regWrite_cfg (s : State) (r : Reg) (v : BusWord) : (s.regWrite r v).cfg = s.cfg := by
  simp [State.regWrite]

@[simp] theorem State.regWrite_args (s : State) (r : Reg) (v : BusWord) : (s.regWrite r v).args = s.args := by
  simp [State.regWrite]

@[simp] theorem State.regWrite_clkHz (s : State) (r : Reg) (v : BusWord) : (s.regWrite r v).clkHz = s.clkHz := by
  simp [State.regWrite]

@[simp] theorem State.regWrite_fClk (s : State) (r : Reg) (v : BusWord) : (s.regWrite r v).fClk = s.fClk := by
  simp [State.regWrite]

@[simp] theorem State.regWrite_res (s : State) (r : Reg) (v : BusWord) : (s.regWrite r v).res = s.res := by
  simp [State.regWrite]

@[simp] theorem State.regWrite_bt (s : State) (r : Reg) (v : BusWord) : (s.regWrite r v).bt = s.bt := by
  simp [State.regWrite]

@[simp] theorem State.regWrite_mb (s : State) (r : Reg) (v : BusWord) : (s.regWrite r v).mb = s.mb := by
  simp [State.regWrite]

@[simp] theorem State.regWrite_es (s : State) (r : Reg) (v : BusWord) : (s.regWrite r v).es = s.es := by
  simp [State.regWrite]

@[simp] theorem State.regWrite_frameRx (s : State) (r : Reg) (v : BusWord) : (s.regWrite r v).frameRx = s.frameRx := by
  simp [State.regWrite]

@[simp] theorem State.regWrite_rxlog (s : State) (r : Reg) (v : BusWord) : (s.regWrite r v).rxlog = s.rxlog := by
  simp [State.regWrite]

@[simp] theorem State.regWrite_diag (s : State) (r : Reg) (v : BusWord) : (s.regWrite r v).diag = s.diag := by
  simp [State.regWrite]

@[simp] theorem State.regWrite_seq (s : State) (r : Reg) (v : BusWord) : (s.regWrite r v).seq = s.seq := by
  simp [State.regWrite]

@[simp] theorem State.regWrite_initRun (s : State) (r : Reg) (v : BusWord) : (s.regWrite r v).initRun = s.initRun := by
  simp [State.regWrite]

@[simp] theorem State.regWrite_ctx (s : State) (r : Reg) (v : BusWord) : (s.regWrite r v).ctx = s.ctx := by
  simp [State.regWrite]

@[simp] theorem State.regWrite_savedCtx (s : State) (r : Reg) (v : BusWord) : (s.regWrite r v).savedCtx = s.savedCtx := by
  simp [State.regWrite]

@[simp] theorem State.regWrite_halted (s : State) (r : Reg) (v : BusWord) : (s.regWrite r v).halted = s.halted := by
  simp [State.regWrite]

@[simp] theorem State.regWrite_thread (s : State) (r : Reg) (v : BusWord) : (s.regWrite r v).thread = s.thread := by
  simp [State.regWrite]

@[simp] theorem State.regWrite_isr (s : State) (r : Reg) (v : BusWord) : (s.regWrite r v).isr = s.isr := by
  simp [State.regWrite]

@[simp] theorem State.regWrite_token (s : State) (r : Reg) (v : BusWord) : (s.regWrite r v).token = s.token := by
  simp [State.regWrite]

@[simp] theorem State.regWrite_port (s : State) (r : Reg) (v : BusWord) : (s.regWrite r v).port = s.port := by
  simp [State.regWrite]

@[simp] theorem State.regWrite_issuer (s : State) (r : Reg) (v : BusWord) : (s.regWrite r v).issuer = s.issuer := by
  simp [State.regWrite]

@[simp] theorem State.regWrite_host (s : State) (r : Reg) (v : BusWord) : (s.regWrite r v).host = s.host := by
  simp [State.regWrite]

@[simp] theorem State.regWrite_sched (s : State) (r : Reg) (v : BusWord) : (s.regWrite r v).sched = s.sched := by
  simp [State.regWrite]

@[simp] theorem State.regWrite_lines (s : State) (r : Reg) (v : BusWord) : (s.regWrite r v).lines = s.lines := by
  simp [State.regWrite]

@[simp] theorem State.regWrite_draws (s : State) (r : Reg) (v : BusWord) : (s.regWrite r v).draws = s.draws := by
  simp [State.regWrite]

@[simp] theorem State.regWrite_trace (s : State) (r : Reg) (v : BusWord) :
    (s.regWrite r v).trace = s.trace ++ [⟨.write, r.addr s.cfg, v⟩] := rfl

@[simp] theorem State.regWrite_task (s : State) (r : Reg) (v : BusWord) : (s.regWrite r v).task = s.task := by
  simp [State.task]

end Sys2Proof.Machine
end

