-- ==== Sys2Proof/Laws/Step.lean ====
section
/-! SUPPORT. What one step is, by who moves and what is running; runs step by step. -/

namespace Sys2Proof.Machine

/-! ## Runs -/

@[simp] theorem reaches_zero (s t : State) : Reaches 0 s t ↔ s = t := Iff.rfl

/-- A run whose first step is known goes on from the state that step leads to. -/
theorem reaches_succ_iff {n : Nat} {s t u : State} (h : step s = .next t) : Reaches (n + 1) s u ↔ Reaches n t u := by
  rw [Reaches, h]

theorem reaches_succ {n : Nat} {s t u : State} (h : step s = .next t) (h' : Reaches n t u) : Reaches (n + 1) s u :=
  (reaches_succ_iff h).2 h'

theorem Reaches.trans {m n : Nat} {s t u : State} (h : Reaches m s t) (h' : Reaches n t u) : Reaches (m + n) s u := by
  induction m generalizing s with
  | zero =>
    cases (reaches_zero s t).1 h
    rw [Nat.zero_add]
    exact h'
  | succ m ih =>
    have e : m + 1 + n = (m + n) + 1 := by omega
    rw [e]
    rw [Reaches] at h ⊢
    split at h
    · exact ih h
    · exact h.elim
    · exact h.elim

/-! ## Schedules of engine moves -/

@[simp] theorem engineMoves_zero (r : List Move) : engineMoves 0 r = r := rfl

@[simp] theorem engineMoves_succ (n : Nat) (r : List Move) : engineMoves (n + 1) r = .engine :: engineMoves n r := by
  simp [engineMoves, List.replicate_succ]

/-! ## Who moves -/

theorem fetch_of_sched {s : State} {m : Move} {r : List Move} (h : s.sched = m :: r) :
    fetch s = runMove m (s.setSched r) := by
  simp [fetch, h, State.setSched]

theorem step_of_run {s t : State} {i : Instr} (h : fetch s = .run i t) : step s = exec i t := by
  simp [step, h]

theorem step_of_out {s : State} {o : Host.Outcome State Fault Refusal} (h : fetch s = .out o) : step s = o := by
  simp [step, h]

/-- The engine moves and an operation is running in the current context: its next micro-operation is done. -/
theorem step_op {s : State} {op : Op} {rest : List Op} {r : List Move} (h : s.plays (.engine :: r))
    (ho : s.task.ops = op :: rest) : step s = opStep op rest (s.setSched r) := by
  obtain ⟨hh, hp, ht, hs⟩ := h
  apply step_of_out
  rw [fetch_of_sched hs]
  cases hc : s.ctx with
  | thread =>
    have ho' : s.thread.ops = op :: rest := by simpa [State.task, hc] using ho
    simp [runMove, fetchEngine, hh, hp, hc, fetchThread, ho']
  | interrupt k =>
    have ho' : s.isr.ops = op :: rest := by simpa [State.task, hc] using ho
    simp [runMove, fetchEngine, hh, hp, hc, fetchInterrupt, ht, ho']

/-- The engine moves and a bus step is next. -/
theorem step_bus {s : State} {b : BusOp} {rest : List Op} {r : List Move} (h : s.plays (.engine :: r))
    (ho : s.task.ops = .bus b :: rest) : step s = busStep b rest (s.setSched r) :=
  step_op h ho

/-- CANHW moves. -/
theorem step_hw {s : State} {m : HwMove} {r : List Move} (hs : s.sched = .hw m :: r) :
    step s = .next ((s.setSched r).setCan (s.can.move s.cfg m)) := by
  apply step_of_out
  rw [fetch_of_sched hs]
  rfl

/-- The engine takes the word in the port. -/
theorem step_port {s : State} {pw : PortWord} {r : List Move} {i : Instr} (hh : s.halted = false)
    (hp : s.port = some pw) (hs : s.sched = .engine :: r) (hd : decodeCommand pw.word = .ok i) :
    step s = exec i (((s.setSched r).setPort none).setIssuer pw.issuer) := by
  apply step_of_run
  rw [fetch_of_sched hs]
  simp [runMove, fetchEngine, hh, hp, takePort, hd, State.setPort, State.setIssuer]

/-- The engine takes the next step of `CAN.INIT`. -/
theorem step_seq {s : State} {r : List Move} {i : Instr} (h : s.plays (.engine :: r)) (hc : s.ctx = .thread)
    (ho : s.thread.ops = []) (hi : s.initRun = true) (hd : decodeSeq s.seq = some i) :
    step s = exec i ((s.setSched r).setIssuer .engine) := by
  obtain ⟨hh, hp, ht, hs⟩ := h
  apply step_of_run
  rw [fetch_of_sched hs]
  simp [runMove, fetchEngine, hh, hp, hc, fetchThread, ho, hi, takeSeq, hd, State.setIssuer]

/-- The engine invokes the token read from the table. -/
theorem step_token {s : State} {r : List Move} {i : Instr} {k : Irq} {w : Word} (hh : s.halted = false)
    (hp : s.port = none) (hs : s.sched = .engine :: r) (hc : s.ctx = .interrupt k) (ht : s.token = some w)
    (hd : decodeToken s.cfg w = some i) :
    step s = exec i (((s.setSched r).setToken none).setIssuer .trampoline) := by
  apply step_of_run
  rw [fetch_of_sched hs]
  simp [runMove, fetchEngine, hh, hp, hc, fetchInterrupt, ht, invokeToken, hd, State.setToken, State.setIssuer]

/-! ## The micro-operations -/

@[simp] theorem proceed_nil (s : State) : proceed [] s = s.setOps [] := rfl

@[simp] theorem proceed_bus (b : BusOp) (r : List Op) (s : State) :
    proceed (.bus b :: r) s = s.setOps (.bus b :: r) := rfl

@[simp] theorem proceed_issue (i : Issuer) (w : Word) (r : List Op) (s : State) :
    proceed (.issue i w :: r) s = s.setOps (.issue i w :: r) := rfl

@[simp] theorem proceed_quiet (q : Quiet) (r : List Op) (s : State) :
    proceed (.quiet q :: r) s = proceed r (runQuiet q s) := rfl

@[simp] theorem proceed_ret (r : List Op) (s : State) : proceed (.ret :: r) s = leaveInterrupt (s.setOps r) := rfl

/-- Replacing the rest of the operation before going on is in vain: going on replaces it. -/
@[simp] theorem proceed_setOps (ops r : List Op) (s : State) : proceed r (s.setOps ops) = proceed r s := by
  induction r generalizing s with
  | nil => simp
  | cons op r ih =>
    cases op with
    | bus b => simp
    | issue i w => simp
    | ret => simp
    | quiet q =>
      have e : runQuiet q (s.setOps ops) = (runQuiet q s).setOps ops := by
        cases q <;> simp [runQuiet, State.setOps, State.setTask, State.task] <;> split <;> simp
      simp [e, ih]

/-- Starting a program that begins with a bus step: it waits for the engine's next move. -/
theorem startOp_bus (b : BusOp) (ops : List Op) (s : State) :
    startOp (.bus b :: ops) s = s.setOps (.bus b :: ops ++ s.task.ops) := rfl

/-! ## One bus step, as a rewriting of the state -/

@[simp] theorem opStep_bus (b : BusOp) (rest : List Op) (s : State) : opStep (.bus b) rest s = busStep b rest s := rfl

@[simp] theorem busStep_rd (r : Reg) (rest : List Op) (s : State) : busStep (.rd r) rest s = .next (readStep r rest s) := rfl

@[simp] theorem busStep_wr (r : Reg) (w : Word) (rest : List Op) (s : State) :
    busStep (.wr r w) rest s = .next (writeStep r (BusWord.lit w) rest s) := rfl

@[simp] theorem busStep_wrOr (r : Reg) (m : Word) (rest : List Op) (s : State) :
    busStep (.wrOr r m) rest s = .next (writeStep r (s.task.v.orMask m) rest s) := rfl

@[simp] theorem busStep_wrAndNot (r : Reg) (m : Word) (rest : List Op) (s : State) :
    busStep (.wrAndNot r m) rest s = .next (writeStep r (s.task.v.andNotMask m) rest s) := rfl

/-- A wait whose condition holds at this read ends (R310). -/
theorem busStep_wait_done {r : Reg} {b : Nat} {val : Bool} (rest : List Op) {s : State}
    (h : (s.regRead r).bit b = val) : busStep (.wait r b val) rest s = .next (readStep r rest s) := by
  simp [busStep, waitStep, h]

/-- A wait whose condition fails at this read goes on (R310). -/
theorem busStep_wait_more {r : Reg} {b : Nat} {val : Bool} (rest : List Op) {s : State}
    (h : (s.regRead r).bit b ≠ val) :
    busStep (.wait r b val) rest s
      = .next (((s.afterRead r).setLocal (s.regRead r)).setOps (.bus (.wait r b val) :: rest)) := by
  simp [busStep, waitStep, h]

@[simp] theorem busStep_flags (n : MbIdx) (rest : List Op) (s : State) :
    busStep (.flags n) rest s
      = .next (readStep .tsr rest
          (s.setMb (s.mb.set n (mbFlags n (s.task.v.on mTxrq) ((s.readEvent 0 .tsr).word.on seenTsr))))) := rfl

@[simp] theorem busStep_esr (rest : List Op) (s : State) :
    busStep .esr rest s = .next (readStep .esr rest (s.setEs (esFields ((s.readEvent 0 .esr).word.on seenEsr)))) := rfl

/-- A run goes on through a bus step. -/
theorem reaches_bus {n : Nat} {s t u : State} {b : BusOp} {rest : List Op} {r : List Move}
    (h : s.plays (.engine :: r)) (ho : s.task.ops = .bus b :: rest)
    (hb : busStep b rest (s.setSched r) = .next u) (h' : Reaches n u t) : Reaches (n + 1) s t :=
  reaches_succ ((step_bus h ho).trans hb) h'

/-- A run goes on through a move of CANHW. -/
theorem reaches_hw {n : Nat} {s t : State} {m : HwMove} {r : List Move} (hs : s.sched = .hw m :: r)
    (h' : Reaches n ((s.setSched r).setCan (s.can.move s.cfg m)) t) : Reaches (n + 1) s t :=
  reaches_succ (step_hw hs) h'

end Sys2Proof.Machine
end

