-- ==== Sys2Proof/Laws/Bus.lean ====
section
/-! SUPPORT. Bus words: the part of a word under a mask that meets no unspecified bit is given. -/

namespace Sys2Proof.Machine

/-! ## Masks -/

theorem BusWord.on_known {v : BusWord} {m : Word} (h : v.opn &&& m = 0#32) : v.on m = v.known &&& m := by
  simp [BusWord.on, h]

@[simp] theorem BusWord.on_lit (w m : Word) : (BusWord.lit w).on m = w &&& m := by
  simp [BusWord.on, BusWord.lit]

theorem and_ones (w : Word) : w &&& 0xFFFFFFFF#32 = w := by
  have e : (0xFFFFFFFF#32) = BitVec.allOnes 32 := by decide
  rw [e, BitVec.and_allOnes]

@[simp] theorem BusWord.word_lit (w : Word) : (BusWord.lit w).word = w := by
  rw [BusWord.word, BusWord.on_lit, and_ones]

/-- A bit that is given is the known word's. -/
theorem BusWord.bit_known {v : BusWord} {b : Nat} (h : v.opn.getLsbD b = false) : v.bit b = v.known.getLsbD b := by
  have e : v.opn &&& 1#32 <<< b = 0#32 := by
    apply BitVec.eq_of_getLsbD_eq
    intro i hi
    by_cases hb : i = b
    · subst hb; simp [h]
    · simp [hi]
      omega
  rw [BusWord.bit, BusWord.on_known e]
  cases hb : v.known.getLsbD b
  · simp [hb]
  · have : b < 32 := by
      rcases Nat.lt_or_ge b 32 with h | h
      · exact h
      · rw [BitVec.getLsbD_of_ge _ _ h] at hb; cases hb
    simp [hb, this]

@[simp] theorem BusWord.bit_lit (w : Word) (b : Nat) : (BusWord.lit w).bit b = w.getLsbD b :=
  BusWord.bit_known (by simp [BusWord.lit])

/-- A register whose bits under `m` are all seen reads there as it stands. -/
theorem on_shown {w seen d m : Word} (h : m &&& ~~~seen = 0#32) : (shown w seen d).on m = w &&& m := by
  apply BusWord.on_known
  rw [shown, BitVec.and_comm]
  exact h

theorem bit_shown {w seen d : Word} {b : Nat} (h : seen.getLsbD b = true) : (shown w seen d).bit b = w.getLsbD b := by
  apply BusWord.bit_known
  simp [shown, h]

end Sys2Proof.Machine
end

