-- ==== Sys2Proof/Laws/Memory.lean ====
section
/-! SUPPORT. The table RAM: every operation keeps the canonical form (R47, R60); reading after writing. -/

namespace Sys2Proof.Machine

/-! ## The canonical form -/

theorem Memory.wf_nil : Memory.wf [] := List.Pairwise.nil

/-- What a byte write leaves at the front: every address is one that was there, or the written one. -/
theorem Memory.mem_putByte {m : Memory} {a : Nat} {b : Byte} {c : Host.Cell} (h : c ∈ m.putByte a b) :
    c.1 = a ∨ c ∈ m := by
  induction m with
  | nil => simp [Memory.putByte] at h; simp [h]
  | cons x r ih =>
    rw [Memory.putByte] at h
    split at h
    · simp at h; rcases h with h | h | h <;> simp [h]
    · split at h
      · simp at h; rcases h with h | h <;> simp [h]
      · simp at h
        rcases h with h | h
        · simp [h]
        · rcases ih h with h | h <;> simp [h]

/-- A byte write keeps the canonical form. -/
theorem Memory.wf_putByte {m : Memory} (a : Nat) (b : Byte) (h : m.wf) : (m.putByte a b).wf := by
  induction m with
  | nil => simp [Memory.putByte, Memory.wf]
  | cons x r ih =>
    obtain ⟨h1, h2⟩ := List.pairwise_cons.1 h
    rw [Memory.putByte]
    split
    · rename_i hlt
      refine List.pairwise_cons.2 ⟨?_, h⟩
      intro y hy
      rcases List.mem_cons.1 hy with e | hy
      · rw [e]; exact hlt
      · exact Nat.lt_trans hlt (h1 y hy)
    · split
      · rename_i heq
        refine List.pairwise_cons.2 ⟨?_, h2⟩
        intro y hy
        simp only [heq]
        exact h1 y hy
      · refine List.pairwise_cons.2 ⟨?_, ih h2⟩
        intro y hy
        rcases Memory.mem_putByte hy with e | hy
        · omega
        · exact h1 y hy

/-- A word write keeps the canonical form. -/
theorem Memory.wf_putWord {m : Memory} (a : Nat) (w : Word) (h : m.wf) : (m.putWord a w).wf := by
  unfold Memory.putWord
  exact Memory.wf_putByte _ _ (Memory.wf_putByte _ _ (Memory.wf_putByte _ _ (Memory.wf_putByte _ _ h)))

/-- A register write keeps the canonical form. -/
theorem wf_put {s : State} (r : Reg) (v : BusWord) (h : s.mem.wf) : (s.put r v).mem.wf := by
  cases r <;> first | exact h | exact Memory.wf_putWord _ _ h

/-- The same with the record of the bus step. -/
theorem wf_regWrite {s : State} (r : Reg) (v : BusWord) (h : s.mem.wf) : (s.regWrite r v).mem.wf :=
  wf_put r v h

/-- The table RAM after reset is in canonical form. -/
theorem wf_resetWith (p : Params) : (State.resetWith p).mem.wf := Memory.wf_nil

/-! ## Reading after writing -/

/-- A byte write is seen at its address and nowhere else. -/
theorem Memory.byteAt_putByte (m : Memory) (a b : Nat) (x : Byte) :
    (m.putByte a x).byteAt b = if b = a then some x else m.byteAt b := by
  induction m with
  | nil =>
    by_cases h : b = a
    · simp [Memory.putByte, Memory.byteAt, h]
    · simp [Memory.putByte, Memory.byteAt, h, Ne.symm h]
  | cons y r ih =>
    rw [Memory.putByte]
    split
    · by_cases h : b = a
      · simp [Memory.byteAt, h]
      · simp [Memory.byteAt, h, Ne.symm h]
    · split
      · rename_i heq
        by_cases h : b = a
        · simp [Memory.byteAt, h]
        · have : ¬y.1 = b := fun e => h (by rw [← e, ← heq])
          simp [Memory.byteAt, h, Ne.symm h, this]
      · rename_i h1 h2
        by_cases h : b = a
        · have : ¬y.1 = b := fun e => h2 (by rw [← h, e])
          rw [Memory.byteAt, if_neg this, ih, if_pos h, if_pos h]
        · by_cases h3 : y.1 = b
          · simp [Memory.byteAt, h, h3]
          · rw [Memory.byteAt, if_neg h3, ih, Memory.byteAt, if_neg h3]

/-- A word write changes the four bytes of its word only. -/
theorem Memory.byteAt_putWord_other {m : Memory} {a b : Nat} (w : Word) (h : ¬(a ≤ b ∧ b < a + 4)) :
    (m.putWord a w).byteAt b = m.byteAt b := by
  unfold Memory.putWord
  rw [Memory.byteAt_putByte, if_neg (by omega), Memory.byteAt_putByte, if_neg (by omega), Memory.byteAt_putByte,
    if_neg (by omega), Memory.byteAt_putByte, if_neg (by omega)]

theorem Memory.byteAt_putWord_0 (m : Memory) (a : Nat) (w : Word) :
    (m.putWord a w).byteAt a = some (w.extractLsb' 0 8) := by
  unfold Memory.putWord
  simp [Memory.byteAt_putByte]

theorem Memory.byteAt_putWord_1 (m : Memory) (a : Nat) (w : Word) :
    (m.putWord a w).byteAt (a + 1) = some (w.extractLsb' 8 8) := by
  unfold Memory.putWord
  simp [Memory.byteAt_putByte]

theorem Memory.byteAt_putWord_2 (m : Memory) (a : Nat) (w : Word) :
    (m.putWord a w).byteAt (a + 2) = some (w.extractLsb' 16 8) := by
  unfold Memory.putWord
  simp [Memory.byteAt_putByte]

theorem Memory.byteAt_putWord_3 (m : Memory) (a : Nat) (w : Word) :
    (m.putWord a w).byteAt (a + 3) = some (w.extractLsb' 24 8) := by
  unfold Memory.putWord
  simp [Memory.byteAt_putByte]

/-- Four bytes of a word, put together again. -/
theorem bytes_of_word (w : Word) :
    w.extractLsb' 24 8 ++ w.extractLsb' 16 8 ++ w.extractLsb' 8 8 ++ w.extractLsb' 0 8 = w := by
  apply BitVec.eq_of_getLsbD_eq
  intro i hi
  simp only [BitVec.getLsbD_append, BitVec.getLsbD_extractLsb']
  grind

/-- A word that has been written reads back, all its bits given. -/
theorem Memory.readWord_putWord (m : Memory) (a : Nat) (w draw : Word) :
    (m.putWord a w).readWord a draw = ⟨w, 0#32, draw⟩ := by
  unfold Memory.readWord
  rw [Memory.byteAt_putWord_0, Memory.byteAt_putWord_1, Memory.byteAt_putWord_2, Memory.byteAt_putWord_3]
  simp only [knownByte, openByte, Option.getD_some, Option.isSome_some, if_true, bytes_of_word]
  rfl

/-- A word write elsewhere is not seen. -/
theorem Memory.readWord_putWord_other {m : Memory} {a b : Nat} (w draw : Word) (h : b + 4 ≤ a ∨ a + 4 ≤ b) :
    (m.putWord a w).readWord b draw = m.readWord b draw := by
  unfold Memory.readWord
  rw [Memory.byteAt_putWord_other w (by omega), Memory.byteAt_putWord_other w (by omega),
    Memory.byteAt_putWord_other w (by omega), Memory.byteAt_putWord_other w (by omega)]

/-! ## Slots (R47) -/

/-- The address of a slot, without wrapping: the table lies below `2^32` (R6). -/
theorem slotAddr_toNat {p : Params} {k : Nat} (h : p.vtBase.toNat + 4 * p.nVec ≤ 2 ^ 32) (hk : k < p.nVec) :
    (slotAddr p k).toNat = p.vtBase.toNat + 4 * k := by
  rw [slotAddr, BitVec.toNat_add, BitVec.toNat_ofNat]
  omega

/-- The parts of a legal choice of parameters that concern the table (R6, D34). -/
theorem Params.wf_table {p : Params} (h : p.wf = true) :
    p.irqRx0 ≠ p.irqRx1 ∧ p.irqRx0.toNat < p.nVec ∧ p.irqRx1.toNat < p.nVec ∧ p.vtBase.toNat % 4 = 0
      ∧ p.vtBase.toNat + 4 * p.nVec ≤ 2 ^ 32 ∧ p.flashVt ≠ p.vtBase := by
  simp only [Params.wf, Bool.and_eq_true, decide_eq_true_eq] at h
  obtain ⟨⟨⟨⟨⟨⟨⟨⟨⟨⟨⟨⟨⟨⟨⟨h1, h2⟩, h3⟩, -⟩, -⟩, h6⟩, h7⟩, h8⟩, -⟩, -⟩, -⟩, -⟩, -⟩, -⟩, -⟩, -⟩ := h
  exact ⟨h1, h2, h3, h6, h7, h8⟩

end Sys2Proof.Machine
end

