-- ==== Sys2Proof/Laws/Can.lean ====
section
/-! SUPPORT. Indices, mailbox and FIFO tables, and what a register write changes. -/

namespace Sys2Proof.Machine

/-! ## Indices (R97) -/

theorem mbOfIdx_of {n : Byte} {m : MbIdx} (h : n.toNat = m.toNat) : mbOfIdx n = some m := by
  have e : n = BitVec.ofNat 8 m.toNat := by
    apply BitVec.eq_of_toNat_eq
    rw [h]
    cases m <;> rfl
  subst e
  cases m <;> rfl

theorem mbOfIdx_none {n : Byte} (h : 2 < n.toNat) : mbOfIdx n = none := by
  have h0 : n ≠ 0#8 := by rintro rfl; simp at h
  have h1 : n ≠ 1#8 := by rintro rfl; simp at h
  have h2 : n ≠ 2#8 := by rintro rfl; simp at h
  simp [mbOfIdx, h0, h1, h2]

theorem fifoOfIdx_of {n : Byte} {f : FifoIdx} (h : n.toNat = f.toNat) : fifoOfIdx n = some f := by
  have e : n = BitVec.ofNat 8 f.toNat := by
    apply BitVec.eq_of_toNat_eq
    rw [h]
    cases f <;> rfl
  subst e
  cases f <;> rfl

theorem fifoOfIdx_none {n : Byte} (h : 1 < n.toNat) : fifoOfIdx n = none := by
  have h0 : n ≠ 0#8 := by rintro rfl; simp at h
  have h1 : n ≠ 1#8 := by rintro rfl; simp at h
  simp [fifoOfIdx, h0, h1]

/-! ## Tables -/

section
variable {α : Type}

@[simp] theorem PerMb.get_set (m : MbIdx) (x : α) (t : PerMb α) : (t.set m x).get m = x := by cases m <;> rfl

theorem PerMb.get_set_ne {m n : MbIdx} (h : n ≠ m) (x : α) (t : PerMb α) : (t.set m x).get n = t.get n := by
  cases m <;> cases n <;> first | rfl | exact absurd rfl h

@[simp] theorem PerMb.set_set (m : MbIdx) (x y : α) (t : PerMb α) : (t.set m x).set m y = t.set m y := by
  cases m <;> rfl

@[simp] theorem PerMb.set_get (m : MbIdx) (t : PerMb α) : t.set m (t.get m) = t := by cases m <;> rfl

@[simp] theorem PerFifo.get_set (f : FifoIdx) (x : α) (t : PerFifo α) : (t.set f x).get f = x := by cases f <;> rfl

theorem PerFifo.get_set_ne {f g : FifoIdx} (h : g ≠ f) (x : α) (t : PerFifo α) : (t.set f x).get g = t.get g := by
  cases f <;> cases g <;> first | rfl | exact absurd rfl h

@[simp] theorem PerFifo.set_set (f : FifoIdx) (x y : α) (t : PerFifo α) : (t.set f x).set f y = t.set f y := by
  cases f <;> rfl

@[simp] theorem PerFifo.set_get (f : FifoIdx) (t : PerFifo α) : t.set f (t.get f) = t := by cases f <;> rfl

end

/-! ## What a register write changes: the register file, the enables, the priorities, `VTOR`, or a slot -/

@[simp] theorem regWrite_can (s : State) (r : Reg) (v : BusWord) : (s.regWrite r v).can = s.can.write v r := by
  cases r <;> rfl

@[simp] theorem regWrite_vtor (s : State) (r : Reg) (v : BusWord) :
    (s.regWrite r v).vtor = if r = .vtor then v.word else s.vtor := by
  cases r <;> simp [State.regWrite, State.put]

@[simp] theorem regWrite_mem (s : State) (r : Reg) (v : BusWord) :
    (s.regWrite r v).mem = match r with
      | .slot k => s.mem.putWord (slotAddr s.cfg k).toNat v.word
      | _ => s.mem := by
  cases r <;> rfl

@[simp] theorem regWrite_nvic (s : State) (r : Reg) (v : BusWord) :
    (s.regWrite r v).nvic = match r with
      | .iser k => s.nvic.setEn k (setBits (s.nvic.enOf k) v.word)
      | .ipr k => s.nvic.setPrio k v.word
      | _ => s.nvic := by
  cases r <;> rfl

/-! ## The interrupt-controller words -/

@[simp] theorem Nvic.enOf_setEn (n : Nvic) (k : Irq) (w : Word) : (n.setEn k w).enOf k = w := by
  simp [Nvic.enOf, Nvic.setEn]

@[simp] theorem Nvic.prioOf_setPrio (n : Nvic) (k : Irq) (w : Word) : (n.setPrio k w).prioOf k = w := by
  simp [Nvic.prioOf, Nvic.setPrio]

theorem Nvic.enOf_setEn_other {n : Nvic} {j k : Irq} (h : enWord j ≠ enWord k) (w : Word) :
    (n.setEn k w).enOf j = n.enOf j := by
  have : (enWord k).val ≠ (enWord j).val := fun e => h (Fin.ext e.symm)
  simp [Nvic.enOf, Nvic.setEn, this]

theorem Nvic.prioOf_setPrio_other {n : Nvic} {j k : Irq} (h : prioWord j ≠ prioWord k) (w : Word) :
    (n.setPrio k w).prioOf j = n.prioOf j := by
  have : (prioWord k).val ≠ (prioWord j).val := fun e => h (Fin.ext e.symm)
  simp [Nvic.prioOf, Nvic.setPrio, this]

/-! ## The write of a read-modify-write of `MCR`: exactly the masked bits change (R25, R64) -/

theorem mcr_or_write_back {w d m : Word} (hm : m &&& ~~~seenMcr = 0#32) :
    mergeBits w rwMcr (((shown w seenMcr d).orMask m).on rwMcr) ||| ((shown w seenMcr d).orMask m).on mReset
      = w ||| m := by
  have o1 : ((shown w seenMcr d).orMask m).on rwMcr = (w ||| m) &&& rwMcr := by
    apply BusWord.on_known
    apply BitVec.eq_of_getLsbD_eq
    intro i hi
    have : ∀ j : Fin 32, (rwMcr.getLsbD j && !seenMcr.getLsbD j) = false := by decide
    have := this ⟨i, hi⟩
    simp [shown, BusWord.orMask, hi]
    grind
  have o2 : ((shown w seenMcr d).orMask m).on mReset = (w ||| m) &&& mReset := by
    apply BusWord.on_known
    apply BitVec.eq_of_getLsbD_eq
    intro i hi
    have : ∀ j : Fin 32, (mReset.getLsbD j && !seenMcr.getLsbD j) = false := by decide
    have := this ⟨i, hi⟩
    simp [shown, BusWord.orMask, hi]
    grind
  rw [o1, o2, mergeBits]
  apply BitVec.eq_of_getLsbD_eq
  intro i hi
  have h0 : (m &&& ~~~seenMcr).getLsbD i = false := by rw [hm]; simp
  have : ∀ j : Fin 32, (rwMcr.getLsbD j || mReset.getLsbD j) = seenMcr.getLsbD j := by decide
  have := this ⟨i, hi⟩
  simp [hi] at h0 ⊢
  grind

theorem mcr_and_write_back {w d m : Word} (hm : m &&& ~~~rwMcr = 0#32) :
    mergeBits w rwMcr (((shown w seenMcr d).andNotMask m).on rwMcr) ||| ((shown w seenMcr d).andNotMask m).on mReset
      = w &&& ~~~m := by
  have o1 : ((shown w seenMcr d).andNotMask m).on rwMcr = (w &&& ~~~m) &&& rwMcr := by
    apply BusWord.on_known
    apply BitVec.eq_of_getLsbD_eq
    intro i hi
    have : ∀ j : Fin 32, (rwMcr.getLsbD j && !seenMcr.getLsbD j) = false := by decide
    have := this ⟨i, hi⟩
    simp [shown, BusWord.andNotMask, hi]
    grind
  have o2 : ((shown w seenMcr d).andNotMask m).on mReset = (w &&& ~~~m) &&& mReset := by
    apply BusWord.on_known
    apply BitVec.eq_of_getLsbD_eq
    intro i hi
    have : ∀ j : Fin 32, (mReset.getLsbD j && !seenMcr.getLsbD j) = false := by decide
    have := this ⟨i, hi⟩
    simp [shown, BusWord.andNotMask, hi]
    grind
  rw [o1, o2, mergeBits]
  apply BitVec.eq_of_getLsbD_eq
  intro i hi
  have h0 : (m &&& ~~~rwMcr).getLsbD i = false := by rw [hm]; simp
  simp [hi] at h0 ⊢
  grind

end Sys2Proof.Machine
end

