-- ==== Sys2Proof/Laws/Decode.lean ====
section
/-! SUPPORT. The decoders and the encoder: fields of a command word, what decodes, what is refused. -/

namespace Sys2Proof

/-! ## Fields of a command word (R90) -/

@[simp] theorem opField_commandWord (op idx : Byte) : opField (commandWord op idx) = op := by
  simp only [opField, commandWord]; ext i hi; simp; grind

@[simp] theorem idxField_commandWord (op idx : Byte) : idxField (commandWord op idx) = idx := by
  simp only [idxField, commandWord]; ext i hi; simp; grind

@[simp] theorem zeroField_commandWord (op idx : Byte) : zeroField (commandWord op idx) = 0#16 := by
  simp only [zeroField, commandWord]; ext i hi; simp; grind

/-- A word whose bits 31:16 are 0 is made of its two fields. -/
theorem commandWord_fields {w : Word} (h : zeroField w = 0#16) : commandWord (opField w) (idxField w) = w := by
  simp only [opField, zeroField, idxField, commandWord] at *
  apply BitVec.eq_of_getLsbD_eq
  intro i hi
  have hz := congrArg (fun (z : BitVec 16) => z.getLsbD (i - 16)) h
  simp at hz
  simp
  grind

theorem decodeCommand_commandWord (op idx : Byte) : decodeCommand (commandWord op idx) = decodeOp op idx := by
  simp [decodeCommand]

/-! ## The operation map (R93, R96) -/

theorem c0_ok {idx : Byte} {i j : Instr} (h : c0 idx i = .ok j) : idx = 0#8 ∧ i = j := by
  by_cases e : idx = 0#8
  · rw [c0, if_pos e] at h
    exact ⟨e, by injection h⟩
  · rw [c0, if_neg e] at h
    cases h

theorem c0_error {idx : Byte} {i : Instr} {x : DecodeError} (h : c0 idx i = .error x) : idx ≠ 0#8 := by
  intro e
  rw [c0, if_pos e] at h
  cases h

/-- The operation codes of R93. -/
def opCodes : List Byte :=
  [0x01#8, 0x02#8, 0x03#8, 0x10#8, 0x20#8, 0x21#8, 0x22#8, 0x30#8, 0x31#8, 0x40#8, 0x47#8, 0x50#8, 0x51#8, 0x52#8, 0x53#8]

/-- Those of format `C0`. -/
def c0Codes : List Byte :=
  [0x01#8, 0x10#8, 0x30#8, 0x40#8, 0x47#8, 0x50#8, 0x52#8]

/-- What decodes is the encoding of what it decodes to. -/
theorem decodeOp_ok {p : Params} {op idx : Byte} {i : Instr} (h : decodeOp op idx = .ok i) :
    encode p i = .command (commandWord op idx) := by
  rw [decodeOp] at h
  by_cases e : op = 0x01#8
  · rw [if_pos e] at h; subst e
    obtain ⟨rfl, rfl⟩ := c0_ok h; rfl
  rw [if_neg e] at h; clear e
  by_cases e : op = 0x02#8
  · rw [if_pos e] at h; subst e
    injection h with h; subst h; rfl
  rw [if_neg e] at h; clear e
  by_cases e : op = 0x03#8
  · rw [if_pos e] at h; subst e
    injection h with h; subst h; rfl
  rw [if_neg e] at h; clear e
  by_cases e : op = 0x10#8
  · rw [if_pos e] at h; subst e
    obtain ⟨rfl, rfl⟩ := c0_ok h; rfl
  rw [if_neg e] at h; clear e
  by_cases e : op = 0x20#8
  · rw [if_pos e] at h; subst e
    injection h with h; subst h; rfl
  rw [if_neg e] at h; clear e
  by_cases e : op = 0x21#8
  · rw [if_pos e] at h; subst e
    injection h with h; subst h; rfl
  rw [if_neg e] at h; clear e
  by_cases e : op = 0x22#8
  · rw [if_pos e] at h; subst e
    injection h with h; subst h; rfl
  rw [if_neg e] at h; clear e
  by_cases e : op = 0x30#8
  · rw [if_pos e] at h; subst e
    obtain ⟨rfl, rfl⟩ := c0_ok h; rfl
  rw [if_neg e] at h; clear e
  by_cases e : op = 0x31#8
  · rw [if_pos e] at h; subst e
    injection h with h; subst h; rfl
  rw [if_neg e] at h; clear e
  by_cases e : op = 0x40#8
  · rw [if_pos e] at h; subst e
    obtain ⟨rfl, rfl⟩ := c0_ok h; rfl
  rw [if_neg e] at h; clear e
  by_cases e : op = 0x47#8
  · rw [if_pos e] at h; subst e
    obtain ⟨rfl, rfl⟩ := c0_ok h; rfl
  rw [if_neg e] at h; clear e
  by_cases e : op = 0x50#8
  · rw [if_pos e] at h; subst e
    obtain ⟨rfl, rfl⟩ := c0_ok h; rfl
  rw [if_neg e] at h; clear e
  by_cases e : op = 0x51#8
  · rw [if_pos e] at h; subst e
    injection h with h; subst h; rfl
  rw [if_neg e] at h; clear e
  by_cases e : op = 0x52#8
  · rw [if_pos e] at h; subst e
    obtain ⟨rfl, rfl⟩ := c0_ok h; rfl
  rw [if_neg e] at h; clear e
  by_cases e : op = 0x53#8
  · rw [if_pos e] at h; subst e
    injection h with h; subst h; rfl
  rw [if_neg e] at h; clear e
  cases h

/-- A refused pair of fields has an unknown code, or a stray operand on a `C0` operation. -/
theorem decodeOp_error {op idx : Byte} {x : DecodeError} (h : decodeOp op idx = .error x) :
    op ∉ opCodes ∨ (op ∈ c0Codes ∧ idx ≠ 0#8) := by
  rw [decodeOp] at h
  by_cases e0 : op = 0x01#8
  · rw [if_pos e0] at h
    exact .inr ⟨by rw [e0]; decide, c0_error h⟩
  rw [if_neg e0] at h
  by_cases e1 : op = 0x02#8
  · rw [if_pos e1] at h
    cases h
  rw [if_neg e1] at h
  by_cases e2 : op = 0x03#8
  · rw [if_pos e2] at h
    cases h
  rw [if_neg e2] at h
  by_cases e3 : op = 0x10#8
  · rw [if_pos e3] at h
    exact .inr ⟨by rw [e3]; decide, c0_error h⟩
  rw [if_neg e3] at h
  by_cases e4 : op = 0x20#8
  · rw [if_pos e4] at h
    cases h
  rw [if_neg e4] at h
  by_cases e5 : op = 0x21#8
  · rw [if_pos e5] at h
    cases h
  rw [if_neg e5] at h
  by_cases e6 : op = 0x22#8
  · rw [if_pos e6] at h
    cases h
  rw [if_neg e6] at h
  by_cases e7 : op = 0x30#8
  · rw [if_pos e7] at h
    exact .inr ⟨by rw [e7]; decide, c0_error h⟩
  rw [if_neg e7] at h
  by_cases e8 : op = 0x31#8
  · rw [if_pos e8] at h
    cases h
  rw [if_neg e8] at h
  by_cases e9 : op = 0x40#8
  · rw [if_pos e9] at h
    exact .inr ⟨by rw [e9]; decide, c0_error h⟩
  rw [if_neg e9] at h
  by_cases e10 : op = 0x47#8
  · rw [if_pos e10] at h
    exact .inr ⟨by rw [e10]; decide, c0_error h⟩
  rw [if_neg e10] at h
  by_cases e11 : op = 0x50#8
  · rw [if_pos e11] at h
    exact .inr ⟨by rw [e11]; decide, c0_error h⟩
  rw [if_neg e11] at h
  by_cases e12 : op = 0x51#8
  · rw [if_pos e12] at h
    cases h
  rw [if_neg e12] at h
  by_cases e13 : op = 0x52#8
  · rw [if_pos e13] at h
    exact .inr ⟨by rw [e13]; decide, c0_error h⟩
  rw [if_neg e13] at h
  by_cases e14 : op = 0x53#8
  · rw [if_pos e14] at h
    cases h
  rw [if_neg e14] at h
  left
  simp [opCodes, e0, e1, e2, e3, e4, e5, e6, e7, e8, e9, e10, e11, e12, e13, e14]

theorem decodeCommand_ok {p : Params} {w : Word} {i : Instr} (h : decodeCommand w = .ok i) :
    encode p i = .command w := by
  rw [decodeCommand] at h
  by_cases hz : zeroField w = 0#16
  · rw [if_pos hz] at h
    rw [decodeOp_ok h, commandWord_fields hz]
  · rw [if_neg hz] at h
    cases h

/-- A command operation decodes from its encoding. -/
theorem decodeCommand_encode {p : Params} {w : Word} {i : Instr} (h : encode p i = .command w) :
    decodeCommand w = .ok i := by
  cases i <;> cases h <;> simp [decodeCommand, decodeOp, c0]

theorem decodeSeq_ok {p : Params} {c : BitVec 4} {i : Instr} (h : decodeSeq c = some i) : encode p i = .seq c := by
  simp only [decodeSeq] at h
  repeat' (split at h)
  all_goals cases h
  all_goals simp [encode, *]

theorem decodeToken_ok {p : Params} {t : Word} {i : Instr} (h : decodeToken p t = some i) : encode p i = .token t := by
  simp only [decodeToken] at h
  repeat' (split at h)
  all_goals cases h
  all_goals simp [encode, *]

end Sys2Proof
end

