-- ==== Sys2Proof/Laws/Images.lean ====
section
/-! SUPPORT. Register images bit by bit (R98 to R102). -/

namespace Sys2Proof.Machine

/-- The bits of a word at or above a power that bounds it are 0. -/
theorem getLsbD_of_bound {n k i : Nat} {w : BitVec n} (h : w.toNat < 2 ^ k) (hi : k ≤ i) : w.getLsbD i = false := by
  rw [BitVec.getLsbD]
  exact Nat.testBit_lt_two_pow (Nat.lt_of_lt_of_le h (Nat.pow_le_pow_right (by decide) hi))

theorem four_bits (i : Nat) : (4#32).getLsbD i = decide (i = 2) := by
  rcases Nat.lt_or_ge i 32 with h | h
  · have : ∀ j : Fin 32, (4#32).getLsbD j = decide (j.val = 2) := by decide
    exact this ⟨i, h⟩
  · rw [BitVec.getLsbD_of_ge _ _ h]
    symm
    simp
    omega

/-- A standard identifier's image is the identifier at bits 31:21 (R98). -/
theorem idWord_standard {id : Word} (h : id ≤ 0x7FF#32) : idWord id = id <<< 21 := by
  simp [idWord, h]

/-- An extended identifier's image is the identifier at bits 31:3, with the format bit (R98). -/
theorem idWord_extended {id : Word} (h : ¬id ≤ 0x7FF#32) : idWord id = id <<< 3 ||| 4#32 := by
  simp [idWord, h]

/-- The request bit of an identifier image is 0 (R98). -/
theorem idWord_bit0 (id : Word) : (idWord id).getLsbD 0 = false := by
  by_cases h : id ≤ 0x7FF#32
  · simp [idWord_standard h]
  · simp [idWord_extended h]

end Sys2Proof.Machine
end

