-- ==== Sys2Proof/Laws/Run.lean ====
section
/-! SUPPORT. Runs of bus steps as a small term: `s.busy c d t r k` is `s` with the register file `c`, `d` reads made, the
record `t`, the schedule `r` and the micro-step `k`; each kind of bus step leads from one such state to another. -/

namespace Sys2Proof.Machine

/-- `s` in the middle of an operation. -/
def State.busy (s : State) (c : Can) (d : Nat) (t : List BusEvent) (r : List Move) (k : Task) : State :=
  { s with can := c, draws := d, trace := t, sched := r }.setTask k

/-- What a register shows depends on the registers, the table RAM and the parameters only. -/
theorem view_congr {s t : State} (h1 : s.can = t.can) (h2 : s.nvic = t.nvic) (h3 : s.vtor = t.vtor)
    (h4 : s.mem = t.mem) (h5 : s.cfg = t.cfg) (d : Word) (q : Reg) : s.view d q = t.view d q := by
  cases q <;> simp [State.view, *]

/-- Two operations' ways back from states that differ in what is left of the operation only are the same. -/
theorem proceed_congr {X Y : State} (r : List Op) (h : X.setOps [] = Y.setOps []) : proceed r X = proceed r Y := by
  rw [← proceed_setOps [] r X, h, proceed_setOps]

/-- The effect of a write on the registers outside the controller and on the table RAM. -/
def State.putCore (s : State) (r : Reg) (v : BusWord) : State :=
  match r with
  | .iser k => { s with nvic := s.nvic.setEn k (setBits (s.nvic.enOf k) v.word) }
  | .ipr k => { s with nvic := s.nvic.setPrio k v.word }
  | .vtor => { s with vtor := v.word }
  | .slot k => { s with mem := s.mem.putWord (slotAddr s.cfg k).toNat v.word }
  | _ => s

section
variable (s : State) (c : Can) (d : Nat) (t : List BusEvent) (r : List Move) (k : Task)

@[simp] theorem busy_task : (s.busy c d t r k).task = k := by simp [State.busy]
@[simp] theorem busy_ctx : (s.busy c d t r k).ctx = s.ctx := by simp [State.busy]
@[simp] theorem busy_cfg : (s.busy c d t r k).cfg = s.cfg := by simp [State.busy]
@[simp] theorem busy_args : (s.busy c d t r k).args = s.args := by simp [State.busy]
@[simp] theorem busy_can : (s.busy c d t r k).can = c := by simp [State.busy]
@[simp] theorem busy_draws : (s.busy c d t r k).draws = d := by simp [State.busy]
@[simp] theorem busy_mb : (s.busy c d t r k).mb = s.mb := by simp [State.busy]
@[simp] theorem busy_frameRx : (s.busy c d t r k).frameRx = s.frameRx := by simp [State.busy]

theorem busy_plays {h : s.halted = false} {p : s.port = none} {q : s.token = none} :
    (s.busy c d t r k).plays r := by
  simp [State.busy, State.plays, h, p, q]

/-- Any state is one. -/
theorem busy_self : s = s.busy s.can s.draws s.trace s.sched s.task := (State.setTask_same s).symm

@[simp] theorem busy_view (w : Word) (q : Reg) : (s.busy c d t r k).view w q = (s.setCan c).view w q := by
  cases q <;> simp [State.busy, State.view, State.setCan]

@[simp] theorem busy_regRead (q : Reg) :
    (s.busy c d t r k).regRead q = (s.setCan c).view (Config.freeWord d) q := by
  simp [State.regRead]

@[simp] theorem busy_setSched (r' : List Move) : (s.busy c d t r k).setSched r' = s.busy c d t r' k := by
  apply State.ext <;> simp [State.busy, State.setTask_thread, State.setTask_isr]

@[simp] theorem busy_setTask (k' : Task) : (s.busy c d t r k).setTask k' = s.busy c d t r k' := by
  simp [State.busy]

@[simp] theorem busy_setOps (o : List Op) : (s.busy c d t r k).setOps o = s.busy c d t r ⟨o, k.v⟩ := by
  simp [State.setOps]

@[simp] theorem busy_setLocal (v : BusWord) : (s.busy c d t r k).setLocal v = s.busy c d t r ⟨k.ops, v⟩ := by
  simp [State.setLocal]

@[simp] theorem busy_afterRead (q : Reg) :
    (s.busy c d t r k).afterRead q
      = s.busy c (d + 1) (t ++ [⟨.read, q.addr s.cfg, (s.setCan c).view (Config.freeWord d) q⟩]) r k := by
  apply State.ext <;> simp [State.busy, State.setTask_thread, State.setTask_isr, State.readEvent]
  exact view_congr rfl rfl rfl rfl rfl _ q

@[simp] theorem busy_regWrite (q : Reg) (v : BusWord) :
    (s.busy c d t r k).regWrite q v
      = (s.putCore q v).busy (c.write v q) d (t ++ [⟨.write, q.addr s.cfg, v⟩]) r k := by
  have h1 : (s.busy c d t r k).isr = if s.ctx = .thread then s.isr else k := by
    simp [State.busy, State.setTask_isr]
  have h2 : (s.busy c d t r k).thread = if s.ctx = .thread then k else s.thread := by
    simp [State.busy, State.setTask_thread]
  apply State.ext <;> cases q <;>
    simp [State.busy, State.regWrite, State.put, State.putCore, Can.write, State.setTask_thread, State.setTask_isr]

@[simp] theorem busy_setMb (x : PerMb Mirror) : (s.busy c d t r k).setMb x = (s.setMb x).busy c d t r k := by
  apply State.ext <;> simp [State.busy, State.setTask_thread, State.setTask_isr]

@[simp] theorem busy_setEs (x : ErrStat) : (s.busy c d t r k).setEs x = (s.setEs x).busy c d t r k := by
  apply State.ext <;> simp [State.busy, State.setTask_thread, State.setTask_isr]

@[simp] theorem busy_setFrameRx (x : Frame) : (s.busy c d t r k).setFrameRx x = (s.setFrameRx x).busy c d t r k := by
  apply State.ext <;> simp [State.busy, State.setTask_thread, State.setTask_isr]

@[simp] theorem busy_setSeq (x : BitVec 4) : (s.busy c d t r k).setSeq x = (s.setSeq x).busy c d t r k := by
  apply State.ext <;> simp [State.busy, State.setTask_thread, State.setTask_isr]

@[simp] theorem busy_setRes (x : Results) : (s.busy c d t r k).setRes x = (s.setRes x).busy c d t r k := by
  apply State.ext <;> simp [State.busy, State.setTask_thread, State.setTask_isr]

@[simp] theorem busy_setCan (c' : Can) : (s.busy c d t r k).setCan c' = s.busy c' d t r k := by
  apply State.ext <;> simp [State.busy, State.setTask_thread, State.setTask_isr]

end

/-- An operation that is started stands at its first bus step. -/
theorem startOp_busy (b : BusOp) (ops : List Op) (s : State) :
    startOp (.bus b :: ops) s = s.busy s.can s.draws s.trace s.sched ⟨.bus b :: (ops ++ s.task.ops), s.task.v⟩ := by
  have h : startOp (.bus b :: ops) s = s.setOps (.bus b :: (ops ++ s.task.ops)) := rfl
  rw [h]
  conv => lhs; rw [busy_self s]
  simp

/-! ## One bus step -/

section
variable {n : Nat} {s T : State} {c : Can} {d : Nat} {t : List BusEvent} {r : List Move} {v : BusWord} {rest : List Op}

/-- A bus step of the engine. -/
theorem reaches_busy {b : BusOp} {u : State} (h : s.halted = false ∧ s.port = none ∧ s.token = none)
    (hb : busStep b rest (s.busy c d t r ⟨.bus b :: rest, v⟩) = .next u) (h' : Reaches n u T) :
    Reaches (n + 1) (s.busy c d t (.engine :: r) ⟨.bus b :: rest, v⟩) T := by
  obtain ⟨h1, h2, h3⟩ := h
  refine reaches_bus (busy_plays (h := h1) (p := h2) (q := h3) s c d t (.engine :: r) _) (by simp; exact ⟨rfl, rfl⟩) ?_ h'
  rw [busy_setSched]
  exact hb

/-- A read. -/
theorem reaches_rd {q : Reg} {w : BusWord} (h : s.halted = false ∧ s.port = none ∧ s.token = none)
    (hw : w = (s.setCan c).view (Config.freeWord d) q)
    (h' : Reaches n (proceed rest (s.busy c (d + 1) (t ++ [⟨.read, q.addr s.cfg, w⟩]) r ⟨rest, w⟩)) T) :
    Reaches (n + 1) (s.busy c d t (.engine :: r) ⟨.bus (.rd q) :: rest, v⟩) T := by
  refine reaches_busy h (busStep_rd q rest _) ?_
  subst hw
  rw [← proceed_setOps rest] at h'
  rw [readStep, ← proceed_setOps rest]
  simpa using h'

/-- A write of a word. -/
theorem reaches_wr {q : Reg} {w : Word} (h : s.halted = false ∧ s.port = none ∧ s.token = none)
    (h' : Reaches n (proceed rest ((s.putCore q (.lit w)).busy (c.write (.lit w) q) d
      (t ++ [⟨.write, q.addr s.cfg, .lit w⟩]) r ⟨rest, v⟩)) T) :
    Reaches (n + 1) (s.busy c d t (.engine :: r) ⟨.bus (.wr q w) :: rest, v⟩) T := by
  refine reaches_busy h (busStep_wr q w rest _) ?_
  rw [← proceed_setOps rest] at h'
  rw [writeStep, ← proceed_setOps rest]
  simpa using h'

/-- The write of a read-modify-write that sets bits. -/
theorem reaches_wrOr {q : Reg} {m : Word} {x : BusWord} (h : s.halted = false ∧ s.port = none ∧ s.token = none)
    (hx : x = v.orMask m)
    (h' : Reaches n (proceed rest ((s.putCore q x).busy (c.write x q) d (t ++ [⟨.write, q.addr s.cfg, x⟩]) r ⟨rest, v⟩)) T) :
    Reaches (n + 1) (s.busy c d t (.engine :: r) ⟨.bus (.wrOr q m) :: rest, v⟩) T := by
  refine reaches_busy h (busStep_wrOr q m rest _) ?_
  subst hx
  rw [← proceed_setOps rest] at h'
  rw [writeStep, ← proceed_setOps rest]
  simpa using h'

/-- The write of a read-modify-write that clears bits. -/
theorem reaches_wrAndNot {q : Reg} {m : Word} {x : BusWord} (h : s.halted = false ∧ s.port = none ∧ s.token = none)
    (hx : x = v.andNotMask m)
    (h' : Reaches n (proceed rest ((s.putCore q x).busy (c.write x q) d (t ++ [⟨.write, q.addr s.cfg, x⟩]) r ⟨rest, v⟩)) T) :
    Reaches (n + 1) (s.busy c d t (.engine :: r) ⟨.bus (.wrAndNot q m) :: rest, v⟩) T := by
  refine reaches_busy h (busStep_wrAndNot q m rest _) ?_
  subst hx
  rw [← proceed_setOps rest] at h'
  rw [writeStep, ← proceed_setOps rest]
  simpa using h'

/-- The last read of a wait. -/
theorem reaches_wait {q : Reg} {b : Nat} {val : Bool} {w : BusWord}
    (h : s.halted = false ∧ s.port = none ∧ s.token = none)
    (hw : w = (s.setCan c).view (Config.freeWord d) q) (hb : w.bit b = val)
    (h' : Reaches n (proceed rest (s.busy c (d + 1) (t ++ [⟨.read, q.addr s.cfg, w⟩]) r ⟨rest, w⟩)) T) :
    Reaches (n + 1) (s.busy c d t (.engine :: r) ⟨.bus (.wait q b val) :: rest, v⟩) T := by
  refine reaches_busy h (busStep_wait_done rest ?_) ?_
  · subst hw
    simpa using hb
  · subst hw
    rw [← proceed_setOps rest] at h'
    rw [readStep, ← proceed_setOps rest]
    simpa using h'

/-- A read of a wait that does not find the bit. -/
theorem reaches_poll {q : Reg} {b : Nat} {val : Bool} {w : BusWord}
    (h : s.halted = false ∧ s.port = none ∧ s.token = none)
    (hw : w = (s.setCan c).view (Config.freeWord d) q) (hb : w.bit b ≠ val)
    (h' : Reaches n (s.busy c (d + 1) (t ++ [⟨.read, q.addr s.cfg, w⟩]) r ⟨.bus (.wait q b val) :: rest, w⟩) T) :
    Reaches (n + 1) (s.busy c d t (.engine :: r) ⟨.bus (.wait q b val) :: rest, v⟩) T := by
  refine reaches_busy h (busStep_wait_more rest ?_) ?_
  · subst hw
    simpa using hb
  · subst hw
    simpa using h'

/-- The read of the flags in `MB.UPDATE`. -/
theorem reaches_flags {m : MbIdx} {w : BusWord} (h : s.halted = false ∧ s.port = none ∧ s.token = none)
    (hw : w = (s.setCan c).view (Config.freeWord d) .tsr)
    (h' : Reaches n (proceed rest ((s.setMb (s.mb.set m (mbFlags m (v.on mTxrq) (w.on seenTsr)))).busy c (d + 1)
      (t ++ [⟨.read, Reg.addr s.cfg .tsr, w⟩]) r ⟨rest, w⟩)) T) :
    Reaches (n + 1) (s.busy c d t (.engine :: r) ⟨.bus (.flags m) :: rest, v⟩) T := by
  refine reaches_busy h (busStep_flags m rest _) ?_
  subst hw
  rw [← proceed_setOps rest] at h'
  rw [readStep, ← proceed_setOps rest]
  have e : ∀ x, (((s.setMb x).setCan c).view (Config.freeWord d) .tsr) = (s.setCan c).view (Config.freeWord d) .tsr :=
    fun x => rfl
  simpa [State.readEvent, e] using h'

/-- The first write of `MB.SEND` on an empty mailbox. -/
theorem reaches_load {m : MbIdx} {w : Word} (h : s.halted = false ∧ s.port = none ∧ s.token = none)
    (he : c.empty m = true)
    (h' : Reaches n (proceed rest (s.busy (c.write (.lit w) (.tir m)) d
      (t ++ [⟨.write, Reg.addr s.cfg (.tir m), .lit w⟩]) r ⟨rest, v⟩)) T) :
    Reaches (n + 1) (s.busy c d t (.engine :: r) ⟨.bus (.load m w) :: rest, v⟩) T := by
  refine reaches_busy h (u := writeStep (.tir m) (BusWord.lit w) rest (s.busy c d t r ⟨.bus (.load m w) :: rest, v⟩))
    (by simp [busStep, he]) ?_
  rw [← proceed_setOps rest] at h'
  rw [writeStep, ← proceed_setOps rest]
  simpa [State.putCore] using h'

/-- A move of CANHW in the middle of an operation. -/
theorem reaches_busy_hw {m : HwMove} {k : Task} (h' : Reaches n (s.busy (c.move s.cfg m) d t r k) T) :
    Reaches (n + 1) (s.busy c d t (.hw m :: r) k) T := by
  refine reaches_hw (m := m) (r := r) (by simp [State.busy]) ?_
  simpa using h'

/-- Any moves of CANHW in the middle of an operation. -/
theorem reaches_busy_hws {k : Task} (hs : List HwMove)
    (h' : Reaches n (s.busy (hs.foldl (fun c h => c.move s.cfg h) c) d t r k) T) :
    Reaches (n + hs.length) (s.busy c d t (hs.map .hw ++ r) k) T := by
  induction hs generalizing c with
  | nil => exact h'
  | cons h l ih => exact reaches_busy_hw (ih h')

end

end Sys2Proof.Machine
end

