-- ==== Sys2Proof/Laws/Inversion.lean ====
section
/-! SUPPORT. Once for all: what an operation that is started, a micro-operation and a step can come to. -/

namespace Sys2Proof.Machine

/-! ## Going on -/

/-- A property that the engine's own bookkeeping keeps. -/
structure Keeps (P : State → Prop) : Prop where
  task : ∀ s k, P s → P (s.setTask k)
  quiet : ∀ q s, P s → P (runQuiet q s)
  leave : ∀ s, P s → P (leaveInterrupt s)

theorem Keeps.proceed {P : State → Prop} (h : Keeps P) {ops : List Op} {s : State} (hs : P s) : P (proceed ops s) := by
  induction ops generalizing s with
  | nil => exact h.task _ _ hs
  | cons op r ih =>
    cases op with
    | bus b => exact h.task _ _ hs
    | issue i w => exact h.task _ _ hs
    | ret => exact h.leave _ (h.task _ _ hs)
    | quiet q => exact ih (h.quiet q s hs)

theorem Keeps.startOp {P : State → Prop} (h : Keeps P) {ops : List Op} {s : State} (hs : P s) : P (startOp ops s) :=
  h.proceed hs

/-! ## Starting an operation -/

/-- What an operation may write before its first bus step: the sampled clock, `BT`, the result latches, `SEQ`, and new
diagnostic records. -/
structure Prepared (s u : State) : Prop where
  eq : u = { s with fClk := u.fClk, bt := u.bt, res := u.res, seq := u.seq, diag := u.diag }
  diag : ∃ l, u.diag = s.diag ++ l
  seq : u.seq = s.seq ∨ u.seq ≤ 9#4

theorem Prepared.refl (s : State) : Prepared s s := ⟨rfl, ⟨[], by simp⟩, .inl rfl⟩

theorem prepared_solveInto (clock rate : Word) (s : State) : Prepared s (solveInto clock rate s) := by
  refine ⟨rfl, ?_, .inl rfl⟩
  unfold solveInto
  simp only
  split
  · exact ⟨[], by simp⟩
  · exact ⟨_, rfl⟩

theorem prepared_timing (s : State) (c : BitVec 4) (h : c ≤ 9#4) : Prepared s { timingSolved s with seq := c } := by
  refine ⟨rfl, ?_, .inr h⟩
  obtain ⟨l, hl⟩ := (prepared_solveInto s.clkHz s.args.rate { s with fClk := s.clkHz }).diag
  exact ⟨l, hl⟩

theorem prepared_seq (s : State) (c : BitVec 4) (h : c ≤ 9#4) : Prepared s { s with seq := c } :=
  ⟨rfl, ⟨[], by simp⟩, .inr h⟩

/-- What an operation that is started can come to. -/
inductive Starts (s : State) : State → Prop
  | enter (k : Irq) (h : s.ctx = .thread) : Starts s (enterInterrupt k s)
  | init (h : s.ctx = .thread) : Starts s { s with seq := 1#4, initRun := true }
  | halt (k : Irq) (h : s.ctx = .interrupt k) :
      Starts s { s with diag := s.diag ++ [.unhandledInterrupt k], halted := true }
  | run (ops : List Op) (u : State) (h : Prepared s u) (ho : ops.all Op.seqOk = true) : Starts s (startOp ops u)

theorem inContext_next {a : Admit} {i : Instr} {s t : State} {o : Host.Outcome State Fault Refusal}
    (h : inContext a i s o = .next t) : a.holds s = true ∧ o = .next t := by
  unfold inContext at h
  split at h
  · exact ⟨‹_›, h⟩
  · cases h

theorem withMailbox_next {n : Byte} {t : State} {f : MbIdx → Host.Outcome State Fault Refusal}
    (h : withMailbox n f = .next t) : ∃ m, mbOfIdx n = some m ∧ f m = .next t := by
  unfold withMailbox at h
  split at h
  · exact ⟨_, ‹_›, h⟩
  · cases h

theorem withFifo_next {n : Byte} {t : State} {f : FifoIdx → Host.Outcome State Fault Refusal}
    (h : withFifo n f = .next t) : ∃ m, fifoOfIdx n = some m ∧ f m = .next t := by
  unfold withFifo at h
  split at h
  · exact ⟨_, ‹_›, h⟩
  · cases h

theorem withIrq_next {k : Irq} {s t : State} {o : Host.Outcome State Fault Refusal}
    (h : withIrq k s o = .next t) : k.toNat < s.cfg.nVec ∧ o = .next t := by
  unfold withIrq at h
  split at h
  · exact ⟨‹_›, h⟩
  · cases h

theorem withFrame_next {s t : State} {o : Host.Outcome State Fault Refusal} (h : withFrame s o = .next t) :
    o = .next t := by
  unfold withFrame at h
  split at h
  · cases h
  · split at h
    · cases h
    · exact h

theorem next_inj {t u : State} (h : (.next t : Host.Outcome State Fault Refusal) = .next u) : t = u := by
  cases h
  rfl

theorem starts_run {s t : State} {ops : List Op} (ho : ops.all Op.seqOk = true)
    (h : (.next (startOp ops s) : Host.Outcome State Fault Refusal) = .next t) : Starts s t :=
  next_inj h ▸ .run ops s (.refl s) ho

theorem starts_step {s t : State} {c : BitVec 4} {ops : List Op} (hc : c ≤ 8#4) (ho : ops.all Op.seqOk = true)
    (h : (.next (startStep c ops s) : Host.Outcome State Fault Refusal) = .next t) : Starts s t := by
  rw [← next_inj h, startStep]
  refine .run _ _ (prepared_seq s c (by bv_omega)) ?_
  have : c + 1#4 ≤ 9#4 := by bv_omega
  simp [ho, Op.seqOk, this]

/-- The meaning of every operation, where it answers a next state. -/
theorem exec_starts {i : Instr} {s t : State} (h : exec i s = .next t) : Starts s t := by
  cases i with
  | vtRelocate =>
    refine starts_run ?_ (inContext_next h).2
    simp [relocateOps, Op.seqOk]
  | vtInstall k => exact starts_run rfl (withIrq_next (inContext_next h).2).2
  | vtDispatch k =>
    obtain ⟨ha, hb⟩ := inContext_next h
    have hb := (withIrq_next hb).2
    have hc : s.ctx = .thread := by simp [Admit.holds] at ha; exact ha.2
    split at hb
    · exact next_inj hb ▸ .enter k hc
    · cases hb
  | btSolve =>
    have h : execBtSolve s = .next t := h
    unfold execBtSolve at h
    exact next_inj (inContext_next h).2 ▸ .run [] _ (prepared_solveInto _ _ _) rfl
  | mbSend n =>
    obtain ⟨m, -, hm⟩ := withMailbox_next (inContext_next h).2
    exact starts_run rfl (withFrame_next hm)
  | mbUpdate n =>
    have h : execMbUpdate n s = .next t := h
    unfold execMbUpdate at h
    obtain ⟨m, -, hm⟩ := withMailbox_next (inContext_next h).2
    exact starts_run rfl hm
  | mbAbort n =>
    obtain ⟨m, -, hm⟩ := withMailbox_next (inContext_next h).2
    exact starts_run rfl hm
  | esUpdate =>
    have h : execEsUpdate s = .next t := h
    unfold execEsUpdate at h
    exact starts_run rfl (inContext_next h).2
  | esLabel c =>
    have h : execEsLabel c s = .next t := h
    unfold execEsLabel at h
    have hb := (inContext_next h).2
    split at hb
    · cases hb
    · exact next_inj hb ▸ .run [] _ ⟨rfl, ⟨[], by simp⟩, .inl rfl⟩ rfl
  | canInit =>
    obtain ⟨ha, hb⟩ := inContext_next h
    have hc : s.ctx = .thread := by simpa [Admit.holds] using ha
    exact next_inj hb ▸ .init hc
  | canStart => exact starts_run rfl (inContext_next h).2
  | canSend => exact starts_run rfl (withFrame_next (inContext_next h).2)
  | canRxisr f =>
    obtain ⟨g, -, hg⟩ := withFifo_next (inContext_next h).2
    exact starts_run rfl hg
  | canGeterr =>
    have h : execCanGeterr s = .next t := h
    unfold execCanGeterr at h
    exact starts_run rfl (inContext_next h).2
  | canGetmb n =>
    have h : execCanGetmb n s = .next t := h
    unfold execCanGetmb at h
    obtain ⟨m, -, hm⟩ := withMailbox_next (inContext_next h).2
    exact starts_run rfl hm
  | stepReset => exact starts_step (c := 1#4) (by decide) rfl h
  | stepExitsleep => exact starts_step (c := 2#4) (by decide) rfl h
  | stepEnterconfig => exact starts_step (c := 3#4) (by decide) rfl h
  | stepOptions => exact starts_step (c := 4#4) (by decide) rfl h
  | stepTiming =>
    refine next_inj h ▸ ?_
    exact .run _ { timingSolved s with seq := 5#4 } (prepared_timing s 5#4 (by decide)) rfl
  | stepFilter => exact starts_step (c := 6#4) (by decide) rfl h
  | stepLeaveconfig => exact starts_step (c := 7#4) (by decide) rfl h
  | stepEnableirq =>
    refine next_inj h ▸ ?_
    exact .run _ { s with seq := 8#4 } (prepared_seq s 8#4 (by decide)) rfl
  | cbDefault =>
    change execCbDefault s = _ at h
    unfold execCbDefault at h
    split at h
    · exact next_inj h ▸ .halt _ ‹_›
    · cases h
  | cbRx0 =>
    change callbackBody .cbRx0 _ s = _ at h
    unfold callbackBody at h
    split at h
    · exact starts_run rfl h
    · cases h
  | cbRx1 =>
    change callbackBody .cbRx1 _ s = _ at h
    unfold callbackBody at h
    split at h
    · exact starts_run rfl h
    · cases h

/-! ## One micro-operation -/

/-- What a bus step can come to: a read or a write, with the engine's data it fills, and what follows it. -/
inductive Moves (op : Op) (rest : List Op) (s : State) : State → Prop
  /-- a read; what the engine keeps of it -/
  | read (r : Reg) (ops : List Op) (mb : PerMb Mirror) (es : ErrStat) (f : Frame) (v : BusWord)
      (ho : rest.all Op.seqOk = true → ops.all Op.seqOk = true)
      (hm : ∀ n, mb.get n ≠ s.mb.get n → op = .bus (.flags n)) :
      Moves op rest s (proceed ops (({ s with mb := mb, es := es, frameRx := f }.afterRead r).setLocal v))
  /-- the read of a slot, which also gives a token -/
  | vector (k : Irq) (w : Word) (v : BusWord) :
      Moves op rest s { proceed rest ((s.afterRead (.slot k.toNat)).setLocal v) with token := some w }
  | write (r : Reg) (v : BusWord) : Moves op rest s (proceed rest (s.regWrite r v))
  | issue (i : Issuer) (w : Word) : Moves op rest s { s.setOps rest with port := some ⟨i, w⟩ }
  | quiet (q : Quiet) (h : op = .quiet q) : Moves op rest s (proceed (.quiet q :: rest) s)
  | ret : Moves op rest s (proceed (.ret :: rest) s)

theorem moves_readStep {op : Op} {rest ops : List Op} {s t : State} {r : Reg}
    (ho : rest.all Op.seqOk = true → ops.all Op.seqOk = true)
    (h : (.next (readStep r ops s) : Host.Outcome State Fault Refusal) = .next t) : Moves op rest s t :=
  next_inj h ▸ .read r ops s.mb s.es s.frameRx (s.regRead r) ho (fun _ hn => absurd rfl hn)

theorem moves_queryStep {op : Op} {rest : List Op} {s t : State} {n : MbIdx} {l : List MbIdx}
    (h : (.next (queryStep n l rest s) : Host.Outcome State Fault Refusal) = .next t) : Moves op rest s t := by
  unfold queryStep at h
  split at h
  · refine moves_readStep ?_ h
    intro hr
    simp [sendOps, updateOps, Op.seqOk] at hr ⊢
    exact hr
  · split at h
    · refine moves_readStep ?_ h
      intro hr
      simp [Op.seqOk] at hr ⊢
      exact hr
    · refine moves_readStep ?_ h
      intro hr
      simp [Op.seqOk] at hr ⊢
      exact hr

/-- Replacing a mirror changes no other. -/
theorem perMb_get_set_ne {α : Type} {m n : MbIdx} {x : α} {t : PerMb α} (h : (t.set m x).get n ≠ t.get n) : n = m := by
  cases m <;> cases n <;> first | rfl | exact absurd rfl h

theorem opStep_moves {op : Op} {rest : List Op} {s t : State} (h : opStep op rest s = .next t) : Moves op rest s t := by
  cases op with
  | issue i w => exact next_inj h ▸ .issue i w
  | quiet q => exact next_inj h ▸ .quiet q rfl
  | ret => exact next_inj h ▸ .ret
  | bus b =>
    change busStep b rest s = _ at h
    cases b with
    | rd r => exact moves_readStep id h
    | wr r w => exact next_inj h ▸ .write r _
    | wrOr r m => exact next_inj h ▸ .write r _
    | wrAndNot r m => exact next_inj h ▸ .write r _
    | wrPrio k p => exact next_inj h ▸ .write (.ipr k) _
    | wait r b val =>
      change (.next (waitStep r b val rest s) : Host.Outcome State Fault Refusal) = _ at h
      unfold waitStep at h
      split at h
      · exact moves_readStep id h
      · refine next_inj h ▸ ?_
        exact .read r (.bus (.wait r b val) :: rest) s.mb s.es s.frameRx (s.regRead r)
          (fun hr => by simpa [Op.seqOk] using hr) (fun _ hn => absurd rfl hn)
    | load n w =>
      change (if s.can.empty n then _ else _) = _ at h
      split at h
      · exact next_inj h ▸ .write (.tir n) _
      · cases h
    | flags n =>
      refine next_inj h ▸ ?_
      refine .read .tsr rest _ s.es s.frameRx _ id ?_
      intro m hm
      rw [perMb_get_set_ne hm]
    | esr => exact next_inj h ▸ .read .esr rest s.mb _ s.frameRx _ id (fun _ hn => absurd rfl hn)
    | query n later => exact moves_queryStep h
    | rxId f => exact next_inj h ▸ .read (.rir f) rest s.mb s.es _ _ id (fun _ hn => absurd rfl hn)
    | rxLen f => exact next_inj h ▸ .read (.rdtr f) rest s.mb s.es _ _ id (fun _ hn => absurd rfl hn)
    | rxLo f =>
      change (.next (rxLoStep f rest s) : Host.Outcome State Fault Refusal) = _ at h
      unfold rxLoStep at h
      simp only at h
      split at h
      · refine next_inj h ▸ ?_
        exact .read (.rdlr f) (.bus (.rxHi f) :: rest) s.mb s.es _ _ (fun hr => by simpa [Op.seqOk] using hr)
          (fun _ hn => absurd rfl hn)
      · exact next_inj h ▸ .read (.rdlr f) rest s.mb s.es _ _ id (fun _ hn => absurd rfl hn)
    | rxHi f => exact next_inj h ▸ .read (.rdhr f) rest s.mb s.es _ _ id (fun _ hn => absurd rfl hn)
    | vector k => exact next_inj h ▸ .vector k _ _

/-! ## One step -/

/-- What a step can come to. `r` is the rest of the schedule. -/
inductive Steps (s : State) (r : List Move) : State → Prop
  | hw (m : HwMove) (h : s.sched = .hw m :: r) : Steps s r (hwMove m (s.setSched r))
  | line (k : Irq) (up : Bool) (h : s.sched = .line k up :: r) : Steps s r (setLine k up (s.setSched r))
  | enableLine (k : Irq) (p : Byte) (h : s.sched = .enableLine k p :: r) : Steps s r (enableLine k p (s.setSched r))
  | clock (w : Word) (h : s.sched = .clock w :: r) : Steps s r { s.setSched r with clkHz := w }
  | powerOn (h : s.sched = .powerOn :: r) : Steps s r (powerOn (s.setSched r))
  | trampoline : Steps s r (trampolineAct (s.setSched r))
  /-- nothing to do, or the halted engine -/
  | idle : Steps s r (s.setSched r)
  | host (a : HostAct) (l : List HostAct) (hh : s.halted = false) (h : s.host = a :: l) :
      Steps s r (hostAct a { s.setSched r with host := l })
  | start (i : Instr) (p : Option PortWord) (tok : Option Word) (by_ : Issuer) (t : State) (hh : s.halted = false)
      (h : Starts { s.setSched r with port := p, token := tok, issuer := by_ } t) : Steps s r t
  | op (op : Op) (rest : List Op) (t : State) (hh : s.halted = false) (ho : s.task.ops = op :: rest)
      (h : Moves op rest (s.setSched r) t) : Steps s r t
  | external (w : Word) (tok : Option Word) (hh : s.halted = false) :
      Steps s r (invokeExternal w { s.setSched r with token := tok })
  | return_ (hh : s.halted = false) : Steps s r (leaveInterrupt (s.setSched r))
  | initEnd (hh : s.halted = false) : Steps s r { s.setSched r with initRun := false }

theorem engine_steps {s t : State} {r : List Move}
    (h : (match fetchEngine (s.setSched r) with | .run i u => exec i u | .out o => o) = .next t) : Steps s r t := by
  by_cases hh : s.halted = true
  · have e : fetchEngine (s.setSched r) = .out (.next (s.setSched r)) := by simp [fetchEngine, hh]
    rw [e] at h
    exact next_inj h ▸ .idle
  have hh : s.halted = false := by simpa using hh
  cases hp : s.port with
  | some pw =>
    have e : fetchEngine (s.setSched r) = takePort pw (s.setSched r) := by simp [fetchEngine, hh, hp]
    rw [e] at h
    unfold takePort at h
    cases hd : decodeCommand pw.word with
    | ok i =>
      simp only [hd] at h
      exact .start i none s.token pw.issuer t hh (exec_starts h)
    | error _ =>
      simp only [hd] at h
      cases h
  | none =>
    cases hc : s.ctx with
    | interrupt k =>
      have e : fetchEngine (s.setSched r) = fetchInterrupt (s.setSched r) := by simp [fetchEngine, hh, hp, hc]
      rw [e] at h
      unfold fetchInterrupt at h
      cases ht : s.token with
      | some w =>
        simp only [State.setSched_token, ht] at h
        unfold invokeToken at h
        cases hd : decodeToken s.cfg w with
        | some i =>
          simp only [State.setSched_cfg, hd] at h
          exact .start i s.port none .trampoline t hh (exec_starts h)
        | none =>
          simp only [State.setSched_cfg, hd] at h
          exact next_inj h ▸ .external w none hh
      | none =>
        simp only [State.setSched_token, ht] at h
        cases ho : s.isr.ops with
        | cons op rest =>
          simp only [State.setSched_isr, ho] at h
          exact .op op rest t hh (by rw [State.task_eq_isr hc]; exact ho) (opStep_moves h)
        | nil =>
          simp only [State.setSched_isr, ho] at h
          exact next_inj h ▸ .return_ hh
    | thread =>
      have e : fetchEngine (s.setSched r) = fetchThread (s.setSched r) := by simp [fetchEngine, hh, hp, hc]
      rw [e] at h
      unfold fetchThread at h
      cases ho : s.thread.ops with
      | cons op rest =>
        simp only [State.setSched_thread, ho] at h
        exact .op op rest t hh (by rw [State.task_eq_thread hc]; exact ho) (opStep_moves h)
      | nil =>
        simp only [State.setSched_thread, ho] at h
        by_cases hi : s.initRun = true
        · rw [if_pos (show (s.setSched r).initRun = true from hi)] at h
          unfold takeSeq at h
          cases hd : decodeSeq s.seq with
          | some i =>
            simp only [State.setSched_seq, hd] at h
            exact .start i s.port s.token .engine t hh (exec_starts h)
          | none =>
            simp only [State.setSched_seq, hd] at h
            exact next_inj h ▸ .initEnd hh
        · rw [if_neg (show ¬(s.setSched r).initRun = true from hi)] at h
          rw [← next_inj h]
          unfold hostStep
          cases ha : s.host with
          | nil =>
            simp only [State.setSched_host, ha]
            exact .idle
          | cons a l =>
            simp only [State.setSched_host, ha]
            exact .host a l hh ha

/-- Every step that answers a next state. -/
theorem step_steps {s t : State} (h : step s = .next t) : Steps s s.sched.tail t := by
  unfold step at h
  cases hs : s.sched with
  | nil =>
    have e : s.setSched [] = s := by rw [← hs]; rfl
    unfold fetch at h
    rw [hs] at h
    simp only at h
    by_cases hk : s.takeable.isSome = true
    · rw [if_pos hk] at h
      have : Steps s [] (trampolineAct (s.setSched [])) := .trampoline
      rw [e] at this
      exact next_inj h ▸ this
    · rw [if_neg hk] at h
      refine engine_steps ?_
      rw [List.tail_nil, e]
      exact h
  | cons m r =>
    rw [fetch_of_sched hs] at h
    rw [List.tail_cons]
    cases m with
    | engine => exact engine_steps h
    | trampoline => exact next_inj h ▸ .trampoline
    | hw m => exact next_inj h ▸ .hw m hs
    | line k up => exact next_inj h ▸ .line k up hs
    | enableLine k p => exact next_inj h ▸ .enableLine k p hs
    | clock w => exact next_inj h ▸ .clock w hs
    | powerOn => exact next_inj h ▸ .powerOn hs

end Sys2Proof.Machine
end

