-- ==== Sys2Proof/Laws/PerInstr.lean ====
section
/-! SUPPORT. A law of every operation, one lemma per constructor: where it has a command word, the reserved half of the
word is 0 (R90). -/

namespace Sys2Proof.Laws.ReservedHalf

/-- Where the operation is encoded as a command word, bits 31:16 of the word are 0 (R90). -/
def Statement (i : Instr) : Prop := ∀ (p : Params) (w : Word), encode p i = .command w → zeroField w = 0#16

theorem of_word {i : Instr} {op idx : Byte} (h : ∀ p, encode p i = .command (Sys2Proof.commandWord op idx)) :
    Statement i := by
  intro p w hw
  rw [h p] at hw
  injection hw with hw
  rw [← hw]
  exact zeroField_commandWord op idx

theorem vtRelocate : Statement (.vtRelocate) := of_word fun _ => rfl

theorem vtInstall (x : Byte) : Statement (.vtInstall x) := of_word fun _ => rfl

theorem vtDispatch (x : Byte) : Statement (.vtDispatch x) := of_word fun _ => rfl

theorem btSolve : Statement (.btSolve) := of_word fun _ => rfl

theorem mbSend (x : Byte) : Statement (.mbSend x) := of_word fun _ => rfl

theorem mbUpdate (x : Byte) : Statement (.mbUpdate x) := of_word fun _ => rfl

theorem mbAbort (x : Byte) : Statement (.mbAbort x) := of_word fun _ => rfl

theorem esUpdate : Statement (.esUpdate) := of_word fun _ => rfl

theorem esLabel (x : Byte) : Statement (.esLabel x) := of_word fun _ => rfl

theorem canInit : Statement (.canInit) := of_word fun _ => rfl

theorem canStart : Statement (.canStart) := of_word fun _ => rfl

theorem canSend : Statement (.canSend) := of_word fun _ => rfl

theorem canRxisr (x : Byte) : Statement (.canRxisr x) := of_word fun _ => rfl

theorem canGeterr : Statement (.canGeterr) := of_word fun _ => rfl

theorem canGetmb (x : Byte) : Statement (.canGetmb x) := of_word fun _ => rfl

theorem stepReset : Statement .stepReset := fun _ _ h => by cases h

theorem stepExitsleep : Statement .stepExitsleep := fun _ _ h => by cases h

theorem stepEnterconfig : Statement .stepEnterconfig := fun _ _ h => by cases h

theorem stepOptions : Statement .stepOptions := fun _ _ h => by cases h

theorem stepTiming : Statement .stepTiming := fun _ _ h => by cases h

theorem stepFilter : Statement .stepFilter := fun _ _ h => by cases h

theorem stepLeaveconfig : Statement .stepLeaveconfig := fun _ _ h => by cases h

theorem stepEnableirq : Statement .stepEnableirq := fun _ _ h => by cases h

theorem cbDefault : Statement .cbDefault := fun _ _ h => by cases h

theorem cbRx0 : Statement .cbRx0 := fun _ _ h => by cases h

theorem cbRx1 : Statement .cbRx1 := fun _ _ h => by cases h

end Sys2Proof.Laws.ReservedHalf
end

