-- ==== Sys2Proof/Laws/Peripheral.lean ====
section
/-! SUPPORT. CANHW: what `ESR` shows, what a received frame does to a FIFO, what the moves keep; and what another driver's
enabling of its line changes. -/

namespace Sys2Proof.Machine

/-! ## Taking part in bus traffic -/

theorem takesPart_iff_onBus {c : Can} : c.takesPart ↔ c.onBus = true := by
  simp [Can.takesPart, Can.onBus, Can.inInit, Can.asleep, Can.busOff, bitInak, bitSlak, bitBoff, and_assoc]

theorem errorCode_of {code : BitVec 3} (h1 : 1#3 ≤ code) (h2 : code ≤ 6#3) : errorCode code = true := by
  revert h1 h2
  revert code
  decide

/-- The end of an attempt that is enabled. -/
theorem endAttempt_of {c : Can} {n : MbIdx} {f : MbIdx → Can} (ha : c.onAir = some n) (hb : c.onBus = true) :
    c.endAttempt f = f n := by
  simp [Can.endAttempt, ha, hb]

/-- One that is not. -/
theorem endAttempt_off {c : Can} {f : MbIdx → Can} (h : c.onAir = none ∨ c.onBus = false) : c.endAttempt f = c := by
  unfold Can.endAttempt
  rcases h with h | h
  · rw [h]
  · split <;> simp [h]

/-! ## `ESR` (R30, R245) -/

theorem getLsbD_append_ite {m n : Nat} (x : BitVec m) (y : BitVec n) (i : Nat) :
    (x ++ y).getLsbD i = if i < n then y.getLsbD i else x.getLsbD (i - n) := BitVec.getLsbD_append

/-- Each bit of `esrWord`. -/
theorem getLsbD_esrWord (lec : BitVec 3) (k : Counters) (b : Bool) (i : Nat) :
    (esrWord lec k b).getLsbD i =
      if i < 1 then decide (96 ≤ k.tecCount) || decide (96 ≤ k.recCount)
      else if i < 2 then decide (128 ≤ k.tecCount) || decide (128 ≤ k.recCount)
      else if i < 3 then b
      else if i < 4 then false
      else if i < 7 then lec.getLsbD (i - 4)
      else if i < 16 then false
      else if i < 24 then (BitVec.ofNat 8 k.tecCount).getLsbD (i - 16)
      else (BitVec.ofNat 8 k.recCount).getLsbD (i - 24) := by
  unfold esrWord
  rw [getLsbD_append_ite]
  split
  · simp [*]
  rw [getLsbD_append_ite]
  split
  · rw [show i = 1 by omega]; simp
  rw [getLsbD_append_ite]
  split
  · rw [show i = 2 by omega]; simp
  rw [getLsbD_append_ite]
  split
  · rw [show i = 3 by omega]; simp
  rw [getLsbD_append_ite]
  split
  · rw [if_neg (by omega), if_neg (by omega), if_neg (by omega), if_pos (by omega)]; congr 1
  rw [getLsbD_append_ite]
  split
  · rw [if_neg (by omega), if_neg (by omega), if_neg (by omega), if_neg (by omega), if_pos (by omega)]; simp
  rw [getLsbD_append_ite]
  split
  · rw [if_neg (by omega), if_neg (by omega), if_neg (by omega), if_neg (by omega), if_neg (by omega),
      if_pos (by omega)]
    congr 1
  · rw [if_neg (by omega), if_neg (by omega), if_neg (by omega), if_neg (by omega), if_neg (by omega),
      if_neg (by omega)]
    congr 1

theorem esrShows_esrWord (lec : BitVec 3) (k : Counters) {b : Bool} (h : b = decide (255 < k.tecCount)) :
    esrShows (esrWord lec k b) lec k := by
  refine ⟨?_, ?_, ?_, ?_, ?_, ?_⟩
  · apply BitVec.eq_of_getLsbD_eq
    intro i hi
    rw [BitVec.getLsbD_extractLsb', getLsbD_esrWord, if_neg (by omega), if_neg (by omega), if_neg (by omega),
      if_neg (by omega), if_pos (by omega), show 4 + i - 4 = i by omega]
    simp [hi]
  · apply BitVec.eq_of_getLsbD_eq
    intro i hi
    rw [BitVec.getLsbD_extractLsb', getLsbD_esrWord, if_neg (by omega), if_neg (by omega), if_neg (by omega),
      if_neg (by omega), if_neg (by omega), if_neg (by omega), if_pos (by omega), show 16 + i - 16 = i by omega,
      decide_eq_true hi, Bool.true_and]
  · apply BitVec.eq_of_getLsbD_eq
    intro i hi
    rw [BitVec.getLsbD_extractLsb', getLsbD_esrWord, if_neg (by omega), if_neg (by omega), if_neg (by omega),
      if_neg (by omega), if_neg (by omega), if_neg (by omega), if_neg (by omega), show 24 + i - 24 = i by omega,
      decide_eq_true hi, Bool.true_and]
  · rw [bitOf, getLsbD_esrWord]; simp
  · rw [bitOf, getLsbD_esrWord]; simp
  · rw [bitOf, getLsbD_esrWord]; simp [h]

/-- What an event leaves in `ESR`, from a controller that is not in bus-off. -/
theorem esrShows_setErrors {lec : BitVec 3} {k : Counters} {c : Can} (h : c.busOff = false) :
    esrShows (c.setErrors lec k).esr lec k :=
  esrShows_esrWord lec k (by simp [h])

/-- Ending an attempt does not touch `ESR`. -/
@[simp] theorem attemptFailed_esr (n : MbIdx) (w : Word) (c : Can) : (c.attemptFailed n w).esr = c.esr := by
  unfold Can.attemptFailed
  simp only
  split <;> rfl

@[simp] theorem finishTx_esr (n : MbIdx) (b : Bool) (c : Can) : (c.finishTx n b).esr = c.esr := rfl

/-! ## A received frame (R241) -/

@[simp] theorem overwriteNewest_length (m : RxMsg) (q : List RxMsg) : (overwriteNewest m q).length = q.length := by
  match q with
  | [] => rfl
  | [a] => rfl
  | a :: b :: l => simp [overwriteNewest]

/-- With two places or more the last message is replaced; with one the head stays. -/
theorem overwriteNewest_eq (m : RxMsg) (q : List RxMsg) :
    overwriteNewest m q = if 2 ≤ q.length then q.dropLast ++ [m] else q := by
  match q with
  | [] => rfl
  | [a] => rfl
  | a :: b :: l => simp [overwriteNewest]

/-- The head of a FIFO that is not empty is never touched (R230 (f)). -/
theorem accept_head {d : Nat} {r : Bool} {m : RxMsg} {q : Fifo} (h : q.queue ≠ []) :
    (q.accept d r m).queue.head? = q.queue.head? := by
  unfold Fifo.accept
  split
  · cases hq : q.queue with
    | nil => exact absurd hq h
    | cons a l => simp
  · split
    · rfl
    · show (overwriteNewest m q.queue).head? = _
      match q.queue with
      | [] => rfl
      | [a] => rfl
      | a :: b :: l => rfl

/-- Storing a frame keeps the FIFO's invariant. -/
theorem accept_ok {d : Nat} {r : Bool} {m : RxMsg} {q : Fifo} (h : q.ok d) : (q.accept d r m).ok d := by
  unfold Fifo.accept
  split
  · refine ⟨?_, ?_⟩
    · simp
      omega
    · intro hf
      simp at hf ⊢
      rcases hf with hf | hf
      · have := h.2 hf
        omega
      · exact hf
  · split
    · exact h
    · exact ⟨by simpa using h.1, by simpa using h.2⟩

/-! ## Enabling one line, setting one priority (R44, R45) -/

/-- Setting the enable of line `k` sets that enable and no other. -/
theorem enOf_enable_bit (n : Nvic) (k j : Irq) :
    bitOf ((n.setEn k (setBits (n.enOf k) (oneBit (k.toNat % 32)))).enOf j) (j.toNat % 32)
      = (bitOf (n.enOf j) (j.toNat % 32) || decide (j = k)) := by
  by_cases hw : enWord j = enWord k
  · have hq : j.toNat / 32 = k.toNat / 32 := congrArg Fin.val hw
    have e : ∀ n : Nvic, n.enOf j = n.enOf k := fun n => by simp only [Nvic.enOf, hw]
    rw [e, e, Nvic.enOf_setEn]
    simp only [bitOf, setBits, oneBit, BitVec.getLsbD_or, BitVec.getLsbD_shiftLeft, BitVec.getLsbD_one]
    congr 1
    by_cases h : j = k
    · subst h
      simp
      omega
    · have : j.toNat % 32 ≠ k.toNat % 32 := fun h' => h (BitVec.eq_of_toNat_eq (by omega))
      simp [h]
      omega
  · rw [Nvic.enOf_setEn_other hw]
    have : j ≠ k := fun h => hw (by rw [h])
    simp [this]

theorem getLsbD_ones8 (i : Nat) : (0xFF#32).getLsbD i = decide (i < 8) := by
  by_cases h : i < 32
  · have : ∀ i : Fin 32, (0xFF#32).getLsbD i = decide (i.val < 8) := by decide
    exact this ⟨i, h⟩
  · rw [BitVec.getLsbD_of_ge _ _ (by omega)]
    simp
    omega

/-- Setting the priority of line `k` sets that priority and no other. -/
theorem prioOf_withPrio (n : Nvic) (k j : Irq) (p : Byte) :
    ((n.setPrio k (n.withPrio k p)).prioOf j).extractLsb' (8 * (j.toNat % 4)) 8
      = if j = k then p else (n.prioOf j).extractLsb' (8 * (j.toNat % 4)) 8 := by
  by_cases hw : prioWord j = prioWord k
  · have hq : j.toNat / 4 = k.toNat / 4 := congrArg Fin.val hw
    have e : ∀ n : Nvic, n.prioOf j = n.prioOf k := fun n => by simp only [Nvic.prioOf, hw]
    rw [e, e, Nvic.prioOf_setPrio]
    apply BitVec.eq_of_getLsbD_eq
    intro i hi
    have hb : 8 * (j.toNat % 4) + i < 32 := by omega
    simp only [Nvic.withPrio, mergeBits, BitVec.getLsbD_extractLsb', BitVec.getLsbD_or, BitVec.getLsbD_and,
      BitVec.getLsbD_not, BitVec.getLsbD_shiftLeft, BitVec.getLsbD_setWidth, getLsbD_ones8]
    by_cases h : j = k
    · subst h
      have hn : ¬8 * (j.toNat % 4) + i < 8 * (j.toNat % 4) := by omega
      have h32 : i < 32 := by omega
      rw [if_pos rfl]
      simp [hi, hb, hn, h32]
    · have : j.toNat % 4 ≠ k.toNat % 4 := fun h' => h (BitVec.eq_of_toNat_eq (by omega))
      rw [if_neg h]
      by_cases hlt : 8 * (j.toNat % 4) + i < 8 * (k.toNat % 4)
      · simp [hi, hb, hlt]
      · have : ¬8 * (j.toNat % 4) + i - 8 * (k.toNat % 4) < 8 := by omega
        simp [hi, hb, hlt, this]
  · rw [Nvic.prioOf_setPrio_other hw]
    have : j ≠ k := fun h => hw (by rw [h])
    simp [this]

/-! ## Another driver enables its line (R266) -/

/-- Everything it can do: the words of enables and priorities that hold the line. -/
theorem enableLine_eq (k : Irq) (p : Byte) (s : State) :
    enableLine k p s =
      if s.halted || decide (k = s.cfg.irqRx0) || decide (k = s.cfg.irqRx1) then s
      else
        { s with
          nvic := (s.nvic.setPrio k (s.nvic.withPrio k p)).setEn k
            (setBits (s.nvic.enOf k) (oneBit (k.toNat % 32))) } := by
  unfold enableLine
  split
  · rfl
  · simp [State.put]
    rfl

/-- It changes the enables and priorities only. -/
theorem enableLine_frame (k : Irq) (p : Byte) (s : State) :
    enableLine k p s = { s with nvic := (enableLine k p s).nvic } := by
  rw [enableLine_eq]
  split <;> rfl

end Sys2Proof.Machine
end

