-- ==== Sys2Proof/Laws/Solver.lean ====
section
/-! SUPPORT. What the scan of the solver returns (R141). -/

namespace Sys2Proof.Machine

/-- The scan stops at the first candidate that matches. -/
theorem scan_hit {clock target q : Nat} :
    ∀ {n p : Nat} {best : Option (Nat × Nat)}, p ≤ q → q < p + n → rateOf clock q = target →
      (∀ j, p ≤ j → j < q → rateOf clock j ≠ target) → scan clock target n p best = (q, true) := by
  intro n
  induction n with
  | zero => intro p best h1 h2; omega
  | succ n ih =>
    intro p best h1 h2 hq hlt
    rw [scan]
    by_cases hp : rateOf clock p = target
    · rw [if_pos hp]
      have : p = q := by
        rcases Nat.lt_or_ge p q with h | h
        · exact absurd hp (hlt p (Nat.le_refl p) h)
        · omega
      rw [this]
    · rw [if_neg hp]
      have hne : p ≠ q := by intro e; exact hp (e ▸ hq)
      exact ih (by omega) (by omega) hq (fun j hj => hlt j (by omega))

/-- Is `b` the earliest candidate below `p`, from `1`, with the least distance? -/
structure IsBest (clock target p : Nat) (b : Nat × Nat) : Prop where
  dist_eq : b.2 = dist (rateOf clock b.1) target
  pos : 1 ≤ b.1
  lt : b.1 < p
  least : ∀ q, 1 ≤ q → q < p → b.2 ≤ dist (rateOf clock q) target
  first : ∀ q, 1 ≤ q → q < b.1 → b.2 < dist (rateOf clock q) target

theorem IsBest.step {clock target p : Nat} {b : Nat × Nat} (h : IsBest clock target p b) (hp : 1 ≤ p) :
    ∃ c, better (some b) p (dist (rateOf clock p) target) = some c ∧ IsBest clock target (p + 1) c := by
  rw [better]
  split
  · rename_i hlt
    refine ⟨_, rfl, rfl, hp, Nat.lt_succ_self p, ?_, ?_⟩
    · intro q h1 h2
      rcases Nat.lt_or_ge q p with hq | hq
      · exact Nat.le_of_lt (Nat.lt_of_lt_of_le hlt (h.least q h1 hq))
      · have : q = p := by omega
        subst this
        exact Nat.le_refl _
    · intro q h1 h2
      exact Nat.lt_of_lt_of_le hlt (h.least q h1 h2)
  · rename_i hge
    refine ⟨b, rfl, h.dist_eq, h.pos, Nat.lt_succ_of_lt h.lt, ?_, h.first⟩
    intro q h1 h2
    rcases Nat.lt_or_ge q p with hq | hq
    · exact h.least q h1 hq
    · have : q = p := by omega
      subst this
      omega

/-- Without a match the scan returns the best candidate. -/
theorem scan_miss {clock target : Nat} :
    ∀ {n p : Nat} {b : Nat × Nat}, 1 ≤ p → IsBest clock target p b →
      (∀ j, p ≤ j → j < p + n → rateOf clock j ≠ target) →
      ∃ c, scan clock target n p (some b) = (c.1, false) ∧ IsBest clock target (p + n) c := by
  intro n
  induction n with
  | zero => intro p b hp h _; exact ⟨b, rfl, h⟩
  | succ n ih =>
    intro p b hp h hne
    obtain ⟨c, hc, hb⟩ := h.step hp
    rw [scan, if_neg (hne p (Nat.le_refl p) (by omega)), hc]
    obtain ⟨d, hd, hb'⟩ := ih (by omega) hb (fun j h1 h2 => hne j (by omega) (by omega))
    exact ⟨d, hd, by rwa [show p + (n + 1) = p + 1 + n by omega]⟩

/-- The scan from candidate 1, without a match. -/
theorem scan_from_one {clock target n : Nat} (hne : ∀ j, 1 ≤ j → j < 1 + (n + 1) → rateOf clock j ≠ target) :
    ∃ c, scan clock target (n + 1) 1 none = (c.1, false) ∧ IsBest clock target (1 + (n + 1)) c := by
  rw [scan, if_neg (hne 1 (Nat.le_refl 1) (by omega))]
  have hb : IsBest clock target 2 (1, dist (rateOf clock 1) target) := by
    refine ⟨rfl, Nat.le_refl 1, Nat.lt_succ_self 1, ?_, ?_⟩
    · intro q h1 h2
      have : q = 1 := by omega
      subst this
      exact Nat.le_refl _
    · intro q h1 h2
      simp at h2
      omega
  obtain ⟨c, hc, hb'⟩ := scan_miss (n := n) (by decide) hb (fun j h1 h2 => hne j (by omega) (by omega))
  exact ⟨c, hc, by rwa [show 1 + (n + 1) = 2 + n by omega]⟩

/-- The distance is the absolute difference (R141, R142). -/
theorem dist_eq_natAbs (a b : Nat) : dist a b = ((a : Int) - b).natAbs := by
  unfold dist
  omega

end Sys2Proof.Machine
end

