-- ==== Sys2Proof/Tests/Slice0.lean ====
section
/-! SUPPORT. Tests. Expected values are those of spec/: the tables of 30_encoding.md and the vectors T-... of
95_test_vectors.md (named in each docstring). Each runs one operation or one step. Then a witness for the hypotheses of
every statement. -/

namespace Sys2Proof.Tests

open Sys2Proof.Machine

/-! ## Small states -/

/-- Power-on reset, with the moves `ms` to come. -/
def boot (ms : List Move) : State := { State.resetWith Params.default with sched := ms }

/-- The same with the register file `c`. -/
def bootCan (c : Can) (ms : List Move) : State := { boot ms with can := c }

/-- In the callback of line 20, issued by a callback body. -/
def inIsr (s : State) : State := { s with ctx := .interrupt 20#8, issuer := .callback }

/-- The register file of a running controller (R192). -/
def running : Can :=
  { Can.reset with mcr := 0x00010000#32, msr := 0x00000C00#32, ier := 0x00000012#32 }

/-- A mailbox with a pending request, nothing else given. -/
def pendingMb : MbRegs := { MbRegs.reset with tir := ⟨1#32, 0#32⟩ }

/-- The running controller with mailbox 0 pending. -/
def sending : Can :=
  { running with mbx := { running.mbx with mb0 := pendingMb }, tsr := 0x18000000#32, txOrder := [.mb0] }

/-- Mailboxes 0 to 2 pending. -/
def crowded : Can :=
  { running with mbx := ⟨pendingMb, pendingMb, pendingMb⟩, tsr := 0#32, txOrder := [.mb0, .mb1, .mb2] }

/-- A standard frame 0x123 of three bytes, as CANHW queues it (T-R6). -/
def msg3 : RxMsg := ⟨0x24600000#32, 3#4, 0xDDCCBBAA#32, 0#32⟩

/-- An extended frame 0x1ABCDE of eight bytes (T-R7). -/
def msg8 : RxMsg := ⟨0x00D5E6F4#32, 8#4, 0x44332211#32, 0x88776655#32⟩

/-- The running controller with the messages `q` in FIFO 0. -/
def received (q : List RxMsg) : Can := { running with fifo := { running.fifo with f0 := ⟨q, false, false⟩ } }

/-- The frame of S9: 0x555, five bytes 0x55. -/
def frame555 (s : State) : State :=
  { s with args := { s.args with
      id := 0x555#32, len := 5#4, data := ⟨⟨0x55#8, 0x55#8, 0x55#8, 0x55#8⟩, ⟨0x55#8, 0#8, 0#8, 0#8⟩⟩ } }

/-- What a next state holds. -/
def after {α : Type} (o : Host.Outcome State Fault Refusal) (f : State → α) : Option α :=
  match o with
  | .next s => some (f s)
  | .fault _ => none
  | .refused _ => none

/-- The fault a step ends in. -/
def stops (o : Host.Outcome State Fault Refusal) : Option Fault :=
  match o with
  | .fault x => some x
  | .next _ => none
  | .refused _ => none

/-! ## Well-formedness: an ill-formed term for each check (R97) -/

theorem test_wf_install : Instr.wellFormed Params.default (.vtInstall 128#8) = false := by decide
theorem test_wf_dispatch : Instr.wellFormed Params.default (.vtDispatch 200#8) = false := by decide
theorem test_wf_send : Instr.wellFormed Params.default (.mbSend 3#8) = false := by decide
theorem test_wf_update : Instr.wellFormed Params.default (.mbUpdate 3#8) = false := by decide
theorem test_wf_abort : Instr.wellFormed Params.default (.mbAbort 255#8) = false := by decide
theorem test_wf_getmb : Instr.wellFormed Params.default (.canGetmb 3#8) = false := by decide
theorem test_wf_rxisr : Instr.wellFormed Params.default (.canRxisr 2#8) = false := by decide
theorem test_wf_label : Instr.wellFormed Params.default (.esLabel 8#8) = false := by decide

/-! ## Decoding: words written out from the tables of R93, R94, R95 -/

/-- Row by row: `zero`, `idx`, `op`. -/
theorem test_decode_vector_table :
    decodeTableWord 32 0b00000000000000000000000000000001 = some .vtRelocate
      ∧ decodeTableWord 32 0b00000000000000000001010000000010 = some (.vtInstall 20#8)
      ∧ decodeTableWord 32 0b00000000000000000000010100000011 = some (.vtDispatch 5#8) := by decide

theorem test_decode_solver : decodeTableWord 32 0b00000000000000000000000000010000 = some .btSolve := by decide

theorem test_decode_mailbox :
    decodeTableWord 32 0b00000000000000000000000000100000 = some (.mbSend 0#8)
      ∧ decodeTableWord 32 0b00000000000000000000000100100001 = some (.mbUpdate 1#8)
      ∧ decodeTableWord 32 0b00000000000000000000001000100010 = some (.mbAbort 2#8) := by decide

theorem test_decode_error_statistic :
    decodeTableWord 32 0b00000000000000000000000000110000 = some .esUpdate
      ∧ decodeTableWord 32 0b00000000000000000000011100110001 = some (.esLabel 7#8) := by decide

theorem test_decode_controller :
    decodeTableWord 32 0b00000000000000000000000001000000 = some .canInit
      ∧ decodeTableWord 32 0b00000000000000000000000001000111 = some .canStart
      ∧ decodeTableWord 32 0b00000000000000000000000001010000 = some .canSend
      ∧ decodeTableWord 32 0b00000000000000000000000101010001 = some (.canRxisr 1#8)
      ∧ decodeTableWord 32 0b00000000000000000000000001010010 = some .canGeterr
      ∧ decodeTableWord 32 0b00000000000000000000001001010011 = some (.canGetmb 2#8) := by decide

theorem test_decode_steps :
    decodeTableWord 8 1 = some .stepReset ∧ decodeTableWord 8 2 = some .stepExitsleep
      ∧ decodeTableWord 8 3 = some .stepEnterconfig ∧ decodeTableWord 8 4 = some .stepOptions
      ∧ decodeTableWord 8 5 = some .stepTiming ∧ decodeTableWord 8 6 = some .stepFilter
      ∧ decodeTableWord 8 7 = some .stepLeaveconfig ∧ decodeTableWord 8 8 = some .stepEnableirq
      ∧ decodeTableWord 8 0 = none ∧ decodeTableWord 8 9 = none ∧ decodeTableWord 8 10 = none
      ∧ decodeTableWord 8 15 = none := by decide

/-- `CB_DEFAULT = 0`, `CB_RX0 = 1`, `CB_RX1 = 2` in the token space (R48, R95). -/
theorem test_decode_tokens :
    decode Params.default (.token 0#32) = some .cbDefault ∧ decode Params.default (.token 1#32) = some .cbRx0
      ∧ decode Params.default (.token 2#32) = some .cbRx1 ∧ decode Params.default (.token 3#32) = none := by decide

/-- T-E5 to T-E9. -/
theorem test_decode_illegal :
    decodeCommand 0x00000000#32 = .error .unknownOp ∧ decodeCommand 0x00000004#32 = .error .unknownOp
      ∧ decodeCommand 0x00010001#32 = .error .zeroField ∧ decodeCommand 0x00000101#32 = .error .strayIdx
      ∧ decodeCommand 0x00000140#32 = .error .strayIdx := ⟨rfl, rfl, rfl, rfl, rfl⟩

/-! ## Register images (T-I1 to T-I27) -/

theorem test_idWord :
    idWord 0x001#32 = 0x00200000#32 ∧ idWord 0x123#32 = 0x24600000#32 ∧ idWord 0x555#32 = 0xAAA00000#32
      ∧ idWord 0x7FF#32 = 0xFFE00000#32 ∧ idWord 0x800#32 = 0x00004004#32 ∧ idWord 0x1ABCDE#32 = 0x00D5E6F4#32
      ∧ idWord 0x1FFFFFFF#32 = 0xFFFFFFFC#32 ∧ idWord 0x12345678#32 = 0x91A2B3C4#32 := by decide

theorem test_idOf :
    idOf 0x24600000#32 = 0x123#29 ∧ idOf 0x24600002#32 = 0x123#29 ∧ idOf 0x00D5E6F4#32 = 0x1ABCDE#29
      ∧ idOf 0x0000000C#32 = 1#29 := by decide

theorem test_payload_words :
    loWord ⟨⟨1#8, 2#8, 3#8, 4#8⟩, ⟨5#8, 6#8, 7#8, 8#8⟩⟩ = 0x04030201#32
      ∧ hiWord ⟨⟨1#8, 2#8, 3#8, 4#8⟩, ⟨5#8, 6#8, 7#8, 8#8⟩⟩ = 0x08070605#32
      ∧ bytesOf 0x44332211#32 = ⟨0x11#8, 0x22#8, 0x33#8, 0x44#8⟩ := by decide

theorem test_lengths :
    dlcWord 5#4 = 5#32 ∧ lenOf 0x00000003#32 = 3#4 ∧ lenOf 0x12340708#32 = 8#4 ∧ lenOf 0x00000009#32 = 8#4
      ∧ lenOf 0x0000000F#32 = 8#4 := by decide

theorem test_btrWord :
    btrWord ⟨8#32, 3#32, 1#32⟩ = 0x00020007#32 ∧ btrWord ⟨1#32, 3#32, 1#32⟩ = 0x00020000#32
      ∧ btrWord ⟨1023#32, 3#32, 1#32⟩ = 0x000203FE#32 ∧ btrWord ⟨0#32, 3#32, 1#32⟩ = 0x000203FF#32 := by decide

theorem test_mbFlags :
    mbFlags .mb0 0xAAA00000#32 0x1C000003#32 = ⟨false, true, true, false, false⟩
      ∧ mbFlags .mb1 0x24600001#32 0x14000400#32 = ⟨true, false, false, true, false⟩
      ∧ mbFlags .mb2 0x00D5E6F5#32 0x0C080000#32 = ⟨true, false, false, false, true⟩ := by decide

theorem test_free_abort :
    free .mb0 0x14000000#32 = true ∧ free .mb1 0x14000000#32 = false ∧ free .mb2 0x14000000#32 = true
      ∧ abortBit .mb0 = 0x80#32 ∧ abortBit .mb1 = 0x8000#32 ∧ abortBit .mb2 = 0x800000#32 := by decide

theorem test_esFields :
    esFields 0x00800053#32 = ⟨0#8, 128#8, 5#3, false, true, true⟩
      ∧ esFields 0x7F000031#32 = ⟨127#8, 0#8, 3#3, false, false, true⟩
      ∧ esFields 0xFFFFFFFF#32 = ⟨255#8, 255#8, 7#3, true, true, true⟩ := by decide

/-! ## The solver (T-B1, T-B5, T-B6, T-B10; T-B14 without a match) -/

theorem test_solve_exact :
    solve .nearest 40000000#32 1000000#32 = (⟨8#32, 3#32, 1#32⟩, true)
      ∧ solve .nearest 9#32 1#32 = (⟨1#32, 3#32, 1#32⟩, true)
      ∧ solve .zero 10#32 1#32 = (⟨2#32, 3#32, 1#32⟩, true)
      ∧ solve .nearest 0#32 0#32 = (⟨1#32, 3#32, 1#32⟩, true) := by decide

/-! ## The vector table -/

/-- T-V8, T-V12: `NotLive`, `BadOperand`. -/
theorem test_dispatch_refused :
    stops (exec (.vtDispatch 20#8) { boot [] with issuer := .trampoline }) = some (.notLive 20#8)
      ∧ stops (exec (.vtDispatch 128#8) { boot [] with issuer := .trampoline })
          = some (.badOperand .interruptNumber) := by decide

/-- T-V1: with four slots, four slot writes and then the write of `VTOR`. -/
theorem test_relocate_plan :
    after (exec .vtRelocate { boot [] with cfg := { Params.default with nVec := 4 } }) (·.thread.ops)
      = some [.bus (.wr (.slot 0) 0#32), .bus (.wr (.slot 1) 0#32), .bus (.wr (.slot 2) 0#32),
          .bus (.wr (.slot 3) 0#32), .bus (.wr .vtor 0x20000000#32)] := by decide

/-- T-V3: `W 0x2000_0050 <- 1`. -/
theorem test_install_step :
    after (step { boot [.engine] with thread := ⟨[.bus (.wr (.slot 20) 1#32)], BusWord.lit 0#32⟩ })
        (fun s => (s.trace, s.mem))
      = some ([⟨.write, 0x20000050#32, BusWord.lit 1#32⟩],
          [(0x20000050, 1#8), (0x20000051, 0#8), (0x20000052, 0#8), (0x20000053, 0#8)]) := by decide

/-- T-E14: the context check comes before the range check. -/
theorem test_install_context : stops (exec (.vtInstall 200#8) (inIsr (boot []))) = some (.contextFault (.vtInstall 200#8)) := by
  decide

/-- T-V4: the entry remembers the context and reads the slot next. -/
theorem test_dispatch_entry :
    after (exec (.vtDispatch 20#8) { boot [] with issuer := .trampoline, vtor := 0x20000000#32 })
        (fun s => (s.ctx, s.savedCtx, s.isr.ops))
      = some (.interrupt 20#8, .thread, [.bus (.vector 20#8)]) := by decide

/-- T-V6. -/
theorem test_default_handler :
    after (exec .cbDefault { boot [] with ctx := .interrupt 6#8 }) (fun s => (s.diag, s.halted, s.ctx))
      = some ([.unhandledInterrupt 6#8], true, .interrupt 6#8) := by decide

/-- R127, R128. -/
theorem test_receive_closures :
    after (exec .cbRx0 (inIsr (boot []))) (·.isr.ops) = some [.issue .callback 0x00000051#32, .ret]
      ∧ after (exec .cbRx1 (inIsr (boot []))) (·.isr.ops) = some [.issue .callback 0x00000151#32, .ret] := by decide

/-! ## Mailboxes -/

/-- T-S1: the writes of `MB.SEND`. -/
theorem test_send_plan :
    after (exec (.mbSend 0#8) (frame555 (boot []))) (·.thread.ops)
      = some [.bus (.load .mb0 0xAAA00000#32), .bus (.wr (.tdtr .mb0) 5#32), .bus (.wr (.tdlr .mb0) 0x55555555#32),
          .bus (.wr (.tdhr .mb0) 0x00000055#32), .bus (.rd (.tir .mb0)), .bus (.wrOr (.tir .mb0) 1#32),
          .bus (.rd (.tir .mb0)), .bus (.flags .mb0)] := by decide

/-- T-S1: the write that requests: `TSR` 0x18000000, `TXORDER = [0]`. -/
theorem test_send_request :
    after (step { boot [.engine] with
        can := { running with mbx := { running.mbx with mb0 := { MbRegs.reset with tir := ⟨0xAAA00000#32, 0#32⟩ } } }
        thread := ⟨[.bus (.wrOr (.tir .mb0) 1#32)], BusWord.lit 0xAAA00000#32⟩ })
        (fun s => (s.can.tsr, s.can.txOrder, s.can.mbx.mb0.tir.val, s.trace))
      = some (0x18000000#32, [.mb0], 0xAAA00001#32, [⟨.write, 0x40006580#32, BusWord.lit 0xAAA00001#32⟩]) := by decide

/-- T-I16: the mirror after the read of `TSR`. -/
theorem test_update_step :
    after (step { bootCan sending [.engine] with thread := ⟨[.bus (.flags .mb0)], BusWord.lit 0xAAA00001#32⟩ })
        (fun s => (s.mb.mb0, s.mb.mb1))
      = some (⟨true, false, false, false, false⟩, ⟨false, false, false, false, false⟩) := by decide

/-- T-S11: `MB.ABORT 2` writes one bit, and then waits. -/
theorem test_abort_plan :
    after (exec (.mbAbort 2#8) (boot [])) (·.thread.ops)
      = some [.bus (.wr .tsr 0x00800000#32), .bus (.wait .tsr 23 false)] := by decide

/-- T-S11: the `rc_w1` flags stay. -/
theorem test_abort_keeps_flags :
    (({ crowded with tsr := 0x0C000103#32 } : Can).write (.lit 0x00800000#32) .tsr).tsr = 0x0C800103#32 := by decide

/-- T-E20, T-E10. -/
theorem test_mailbox_refused :
    stops (exec (.mbAbort 1#8) (inIsr (boot []))) = some (.contextFault (.mbAbort 1#8))
      ∧ stops (exec (.mbSend 3#8) (boot [])) = some (.badOperand .mailbox) := by decide

/-! ## The error statistic -/

/-- T-X1. -/
theorem test_es_update :
    after (step { bootCan { running with esr := 0x00800053#32 } [.engine] with
        thread := ⟨[.bus .esr], BusWord.lit 0#32⟩ }) (·.es) = some ⟨0#8, 128#8, 5#3, false, true, true⟩ := by decide

/-- T-X5, T-X6. -/
theorem test_es_label :
    after (exec (.esLabel 7#8) (boot [])) (·.res.label) = some 7#4
      ∧ stops (exec (.esLabel 8#8) (boot [])) = some (.rangeFault 8#8)
      ∧ errorLabel 0#4 = "No Error" ∧ errorLabel 3#4 = "Ack Error" ∧ errorLabel 7#4 = "Software Error" := by decide

/-! ## Initialisation -/

theorem test_init_start : after (exec .canInit (boot [])) (fun s => (s.seq, s.initRun)) = some (1#4, true) := by decide

/-- T-N1: `W MCR <- 0x0001_8002`. -/
theorem test_step_reset :
    after (exec .stepReset (boot [])) (fun s => (s.seq, s.thread.ops))
        = some (1#4, [.bus (.rd .mcr), .bus (.wrOr .mcr 0x8000#32), .bus (.wait .mcr 15 false), .quiet (.setSeq 2#4)])
      ∧ (Can.reset.write (.lit 0x00018002#32) .mcr).mcr = 0x00018002#32 := by decide

/-- T-N4. -/
theorem test_step_exitsleep :
    after (exec .stepExitsleep (boot [])) (fun s => (s.seq, s.thread.ops))
      = some (2#4, [.bus (.rd .mcr), .bus (.wrAndNot .mcr 2#32), .bus (.wait .msr 1 false), .quiet (.setSeq 3#4)]) := by
  decide

/-- T-N5. -/
theorem test_step_enterconfig :
    after (exec .stepEnterconfig (boot [])) (fun s => (s.seq, s.thread.ops))
      = some (3#4, [.bus (.rd .mcr), .bus (.wrOr .mcr 1#32), .bus (.wait .msr 0 true), .quiet (.setSeq 4#4)]) := by
  decide

/-- T-N7: 0x0001_00FD becomes 0x0001_0001. -/
theorem test_step_options :
    after (step { bootCan { running with mcr := 0x000100FD#32 } [.engine] with
        thread := ⟨[.bus (.wrAndNot .mcr 0xFC#32), .quiet (.setSeq 5#4)], BusWord.lit 0x000100FD#32⟩ })
        (fun s => (s.can.mcr, s.seq)) = some (0x00010001#32, 5#4) := by decide

/-- T-N8. -/
theorem test_step_timing :
    after (exec .stepTiming { boot [] with
        clkHz := 40000000#32, args := { (boot []).args with rate := 1000000#32 } })
        (fun s => (s.seq, s.fClk, s.bt, s.diag, s.thread.ops))
      = some (5#4, 40000000#32, ⟨8#32, 3#32, 1#32⟩, [], [.bus (.wr .btr 0x00020007#32), .quiet (.setSeq 6#4)]) := by
  decide

/-- T-N11. -/
theorem test_step_filter :
    after (exec .stepFilter (boot [])) (·.thread.ops)
      = some [.bus (.rd .fmr), .bus (.wrOr .fmr 1#32), .bus (.rd .fs1r), .bus (.wrOr .fs1r 1#32), .bus (.rd .fm1r),
          .bus (.wrAndNot .fm1r 1#32), .bus (.wr .f0r1 0#32), .bus (.wr .f0r2 0#32), .bus (.rd .ffa1r),
          .bus (.wrAndNot .ffa1r 1#32), .bus (.rd .fa1r), .bus (.wrOr .fa1r 1#32), .bus (.rd .fmr),
          .bus (.wrAndNot .fmr 1#32), .quiet (.setSeq 7#4)] := by decide

/-- T-N13, T-N17. -/
theorem test_step_leaveconfig :
    after (exec .stepLeaveconfig (boot [])) (·.thread.ops)
        = some [.bus (.rd .mcr), .bus (.wrAndNot .mcr 1#32), .bus (.wait .msr 0 false), .quiet (.setSeq 8#4)]
      ∧ after (exec .canStart (boot [])) (fun s => (s.seq, s.thread.ops))
        = some (0#4, [.bus (.rd .mcr), .bus (.wrAndNot .mcr 1#32), .bus (.wait .msr 0 false)]) := by decide

/-- T-N15: the plan. -/
theorem test_step_enableirq :
    after (exec .stepEnableirq (boot [])) (·.thread.ops)
      = some [.bus (.rd .ier), .bus (.wrOr .ier 0x12#32), .bus (.rd (.ipr 20#8)), .bus (.wrPrio 20#8 0x50#8),
          .bus (.rd (.ipr 21#8)), .bus (.wrPrio 21#8 0x50#8), .bus (.wr (.iser 20#8) 0x00100000#32),
          .bus (.wr (.iser 21#8) 0x00200000#32), .bus (.wr (.slot 20) 1#32), .bus (.wr (.slot 21) 2#32),
          .quiet .initDone] := by decide

/-- T-N16: line 35's priority 0x80 in the word 0x10203040. -/
theorem test_priority_write :
    after (step { boot [.engine] with thread := ⟨[.bus (.wrPrio 35#8 0x80#8)], BusWord.lit 0x10203040#32⟩ }) (·.trace)
      = some [⟨.write, 0xE000E420#32, BusWord.lit 0x80203040#32⟩] := by decide

/-! ## Run-time operations -/

/-- T-R1, T-R5: the first query; a free mailbox is loaded, a busy one is passed over. -/
theorem test_can_send :
    after (step { frame555 (bootCan sending [.engine]) with thread := ⟨[.bus (.query .mb0 [.mb1, .mb2])], BusWord.lit 0#32⟩ })
        (·.thread.ops) = some [.bus (.query .mb1 [.mb2])]
      ∧ after (step { frame555 (bootCan sending [.engine]) with thread := ⟨[.bus (.query .mb1 [.mb2])], BusWord.lit 0#32⟩ })
        (fun s => s.thread.ops.head?) = some (some (.bus (.load .mb1 0xAAA00000#32))) := by decide

/-- T-R3; T-E17. -/
theorem test_can_send_fails :
    after (step { bootCan crowded [.engine] with
        res := { (boot []).res with ok := true }, thread := ⟨[.bus (.query .mb2 [])], BusWord.lit 0#32⟩ })
        (fun s => (s.res.ok, s.thread.ops)) = some (false, [])
      ∧ stops (exec .canSend { boot [] with args := { (boot []).args with len := 9#4 } })
          = some (.badOperand .length) := by decide

/-- T-R6: the low word; four bytes or fewer, so bytes 4 to 7 are 0, and the Handler is called. -/
theorem test_rxisr_low :
    after (step { inIsr (bootCan (received [msg8]) [.engine]) with
        frameRx := ⟨0x123#29, 4#4, Payload.zero⟩, isr := ⟨[.bus (.rxLo .f0), .quiet (.deliver .f0)], BusWord.lit 0#32⟩ })
        (·.rxlog)
      = some [⟨.f0, 0x123#29, 4#4, ⟨⟨0x11#8, 0x22#8, 0x33#8, 0x44#8⟩, ⟨0#8, 0#8, 0#8, 0#8⟩⟩⟩] := by decide

/-- T-R7, T-R13: the release. -/
theorem test_rxisr_release :
    after (step { inIsr (bootCan (received [msg3, msg8]) [.engine]) with
        isr := ⟨[.bus (.wr (.rfr .f0) 0x20#32)], BusWord.lit 0#32⟩ })
        (fun s => (s.can.fifo.f0.queue, s.trace))
      = some ([msg8], [⟨.write, 0x4000640C#32, BusWord.lit 0x20#32⟩]) := by decide

/-- T-E11, T-E12. -/
theorem test_rxisr_refused :
    stops (exec (.canRxisr 2#8) (inIsr (boot []))) = some (.badOperand .fifoIndex)
      ∧ stops (exec (.canRxisr 0#8) (boot [])) = some (.contextFault (.canRxisr 0#8)) := by decide

/-- T-R16: `RES_MB = 0b00110`. -/
theorem test_getmb :
    after (step { bootCan { running with tsr := 0x1C000003#32 } [.engine] with
        thread := ⟨[.bus (.flags .mb0), .quiet (.resMb .mb0)], BusWord.lit 0xAAA00000#32⟩ }) (·.res.mb)
      = some 0b00110#5 := by decide

/-- T-X3. -/
theorem test_geterr :
    after (step { bootCan { running with esr := 0x00F80037#32 } [.engine] with
        thread := ⟨[.bus .esr, .quiet .resEs], BusWord.lit 0#32⟩ }) (·.res.es)
      = some ⟨0#8, 248#8, 3#3, true, true, true⟩ := by decide

/-! ## CANHW and the trampoline -/

/-- T-R14: at a full FIFO the newest message is overwritten. -/
theorem test_overrun :
    (Fifo.accept 3 false msg3 ⟨[msg8, msg8, msg8], true, false⟩) = ⟨[msg8, msg8, msg3], true, true⟩ := by decide

/-- R230 (f): with one place, the pending message stays. -/
theorem test_overrun_depth_one : Fifo.accept 1 false msg3 ⟨[msg8], true, false⟩ = ⟨[msg8], true, true⟩ := by decide

/-- R238, R245: neither a foreign error nor a foreign frame puts the controller in bus-off while its own frame is sent. -/
theorem test_no_foreign_event_on_air :
    let c : Can := { sending with onAir := some .mb0, fmr := UReg.lit 0#32, fa1r := UReg.lit 1#32 }
    c.move Params.default (.busError 3#3 ⟨256, 0⟩) = c ∧ c.move Params.default (.receive 0#5 msg3 ⟨256, 0⟩) = c := by decide

/-- U27: a frame in a bank whose `FFA1R` bit is unknown goes where the environment's bit says. -/
theorem test_unknown_assignment :
    let c := ({ running with mcr := 0x00018000#32 } : Can).move Params.default
      (.resetDone (.unknown ⟨0#32, 0#32, 0#32, 2#32, 2#32, 0#32, 0#32⟩))
    c.bankFifo 1#5 = .f1 ∧ c.bankPasses 1#5 0#32 = true ∧ c.bankPasses 2#5 0#32 = false := by decide

/-- R238: success. -/
theorem test_tx_success :
    (({ sending with onAir := some .mb0 } : Can).move Params.default (.txSuccess ⟨0, 0⟩)).tsr = 0x1C000003#32 := by decide

/-- R245: warning, passive, bus-off. -/
theorem test_error_state :
    (running.move Params.default (.busError 3#3 ⟨95, 96⟩)).esr = 0x605F0031#32
      ∧ (running.move Params.default (.busError 3#3 ⟨128, 0⟩)).esr = 0x00800033#32
      ∧ bitOf (running.move Params.default (.busError 3#3 ⟨256, 0⟩)).esr 2 = true := by decide

/-- The running machine with a message in FIFO 0, both lines enabled. -/
def ready : State :=
  { bootCan (received [msg3]) [] with
    vtor := 0x20000000#32, nvic := Nvic.reset.setEn 20#8 0x00300000#32 }

/-- T-F1 to T-F6. -/
theorem test_takeable :
    ready.takeable = some 20#8
      ∧ State.takeable { ready with can := { ready.can with ier := 0#32 } } = none
      ∧ State.takeable { ready with can := running } = none
      ∧ State.takeable { ready with nvic := Nvic.reset } = none
      ∧ State.takeable { ready with ctx := .interrupt 21#8 } = none
      ∧ State.takeable { ready with halted := true } = none := by decide

/-- Program P1: another driver enables its line 5; asserted, it can be taken. -/
theorem test_other_drivers_line :
    (after (step (boot [.enableLine 5#8 0x80#8])) fun s => State.takeable (setLine 5#8 true s)) = some (some 5#8)
      ∧ (boot []).takeable = none := by decide

/-- T-F8: equal priorities, the smaller number first. -/
theorem test_priority_tie :
    State.takeable { ready with can := { running with fifo := ⟨⟨[msg3], false, false⟩, ⟨[msg3], false, false⟩⟩ } }
      = some 20#8 := by decide

/-! ## Witnesses: a concrete state and operands that meet the hypotheses of each statement, clause by clause -/

theorem witness_DecodeAndEncodeAgree :
    Params.default.wf = true ∧ decode Params.default (.command 0x0000FF53#32) = some (.canGetmb 255#8)
      ∧ decode Params.default (.seq 8#4) = some .stepEnableirq ∧ decode Params.default (.token 2#32) = some .cbRx1 := by
  decide

/-- An illegal word, and one that decodes. -/
theorem witness_IllegalCommandRefused :
    ∀ w ∈ [0x00010001#32, 0x00000101#32, 0x00000000#32, 0x0000FF02#32],
      ∃ (s : State) (by_ : Issuer) (r : List Move), s.halted = false ∧ s.port = some ⟨by_, w⟩ ∧ s.sched = .engine :: r :=
  fun w _ => ⟨{ boot [.engine] with port := some ⟨.host, w⟩ }, .host, [], rfl, rfl, rfl⟩

/-- The largest standard, the smallest and the largest extended identifier. -/
theorem witness_IdentifierRoundTrip :
    0x7FF#32 ≤ 0x1FFFFFFF#32 ∧ 0x800#32 ≤ 0x1FFFFFFF#32 ∧ 0x1FFFFFFF#32 ≤ 0x1FFFFFFF#32 := by decide

theorem witness_PayloadRoundTrip : 0#4 ≤ 8#4 ∧ 8#4 ≤ 8#4 := by decide

/-- A match at the second candidate; one at the bound. -/
theorem witness_SolverTakesFirstMatch_match :
    (∃ clock target : Word, clock.toNat / 2 / 5 = target.toNat
        ∧ ∀ q, 1 ≤ q → q < 2 → clock.toNat / q / 5 ≠ target.toNat)
      ∧ ∃ clock target : Word, clock.toNat / 1023 / 5 = target.toNat
        ∧ ∀ q, 1 ≤ q → q < 1023 → clock.toNat / q / 5 ≠ target.toNat := by
  refine ⟨⟨10#32, 1#32, by decide, ?_⟩, ⟨5227530#32, 1022#32, by decide, ?_⟩⟩
  · intro q h1 h2
    have : q = 1 := by omega
    subst this
    decide
  · intro q h1 h2 h
    have e : (5227530#32).toNat = 5227530 := rfl
    have e' : (1022#32).toNat = 1022 := rfl
    rw [e, e', Nat.div_div_eq_div_mul] at h
    have h3 : 5227530 / 5110 ≤ 5227530 / (q * 5) := Nat.div_le_div_left (by omega) (by omega)
    rw [h] at h3
    exact absurd h3 (by decide)

theorem witness_SolverTakesFirstMatch_none : ∃ clock target : Word, ∀ q, 1 ≤ q → q ≤ 1023 → clock.toNat / q / 5 ≠ target.toNat := by
  refine ⟨0#32, 1000#32, ?_⟩
  intro q _ _
  simp

theorem witness_BtSolveWrites :
    ∃ (s : State) (bt : BitTiming) (exact : Bool), solve s.cfg.solverFallback s.args.clk s.args.rate = (bt, exact) :=
  ⟨boot [], _, _, rfl⟩

theorem witness_RelocateFillsTable :
    ∃ (s : State) (r : List Move), s.cfg.wf = true ∧ s.ctx = .thread ∧ s.plays (engineMoves (s.cfg.nVec + 1) r) :=
  ⟨boot (engineMoves 129 []), [], by decide, rfl, rfl, rfl, rfl, rfl⟩

/-- The last slot. -/
theorem witness_InstallWritesSlot :
    ∃ (k : Irq) (s : State) (r : List Move), s.cfg.wf = true ∧ s.ctx = .thread ∧ k.toNat < s.cfg.nVec
      ∧ s.plays (engineMoves 1 r) :=
  ⟨127#8, boot (engineMoves 1 []), [], by decide, rfl, by decide, rfl, rfl, rfl, rfl⟩

/-- A table that is live, and one that is not. -/
theorem witness_DispatchReadsSlotOfLiveTable :
    (∃ (k : Irq) (s : State) (r : List Move), s.ctx = .thread ∧ s.issuer = .trampoline ∧ k.toNat < s.cfg.nVec
        ∧ s.vtor = s.cfg.vtBase ∧ s.plays (engineMoves 1 r))
      ∧ ∃ (k : Irq) (s : State), s.ctx = .thread ∧ s.issuer = .trampoline ∧ k.toNat < s.cfg.nVec
        ∧ s.vtor ≠ s.cfg.vtBase :=
  ⟨⟨127#8, { boot (engineMoves 1 []) with vtor := 0x20000000#32, issuer := .trampoline }, [], rfl, rfl, by decide, rfl,
      rfl, rfl, rfl, rfl⟩,
    ⟨0#8, { boot [] with issuer := .trampoline }, rfl, rfl, by decide, by decide⟩⟩

/-- `j = k` and `j ≠ k`. -/
theorem witness_InstalledCallbackIsDispatched :
    ∀ j ∈ [20#8, 127#8], ∃ (k : Irq) (s t u v : State) (r : List Move), s.cfg.wf = true ∧ s.ctx = .thread
      ∧ k.toNat < s.cfg.nVec ∧ j.toNat < s.cfg.nVec ∧ s.task.ops = [] ∧ s.vtor = s.cfg.vtBase
      ∧ s.plays (engineMoves 2 r) ∧ exec (.vtInstall k) s = .next t ∧ Reaches 1 t u
      ∧ exec (.vtDispatch j) { u with issuer := .trampoline } = .next v := by
  intro j hj
  have hj' : j.toNat < 128 := by
    simp at hj
    rcases hj with h | h <;> rw [h] <;> decide
  have e : exec (.vtDispatch j)
      { boot (engineMoves 1 []) with
        vtor := 0x20000000#32, issuer := .trampoline, trace := [⟨.write, 0x20000050#32, BusWord.lit 0#32⟩]
        mem := [(0x20000050, 0#8), (0x20000051, 0#8), (0x20000052, 0#8), (0x20000053, 0#8)] }
      = .next (enterInterrupt j
      { boot (engineMoves 1 []) with
        vtor := 0x20000000#32, issuer := .trampoline, trace := [⟨.write, 0x20000050#32, BusWord.lit 0#32⟩]
        mem := [(0x20000050, 0#8), (0x20000051, 0#8), (0x20000052, 0#8), (0x20000053, 0#8)] }) := by
    show withIrq j _ _ = _
    unfold withIrq
    exact if_pos hj'
  exact ⟨20#8, { boot (engineMoves 2 []) with vtor := 0x20000000#32 }, _,
    { boot (engineMoves 1 []) with
      vtor := 0x20000000#32, trace := [⟨.write, 0x20000050#32, BusWord.lit 0#32⟩]
      mem := [(0x20000050, 0#8), (0x20000051, 0#8), (0x20000052, 0#8), (0x20000053, 0#8)] },
    _, [], by decide, rfl, by decide, hj', rfl, rfl, ⟨rfl, rfl, rfl, rfl⟩, rfl, rfl, e⟩

/-- A running callback; halted and not about to be reset; halted with a move of CANHW to come. -/
theorem witness_DefaultHandlerHaltsForGood :
    (∃ (k : Irq) (s : State), s.ctx = .interrupt k)
      ∧ (∃ s : State, s.halted = true ∧ (∀ r, s.sched ≠ .powerOn :: r) ∧ ∀ m r, s.sched ≠ .hw m :: r)
      ∧ ∃ (s : State) (m : HwMove) (r : List Move), s.halted = true ∧ s.sched = .hw m :: r :=
  ⟨⟨20#8, inIsr (boot []), rfl⟩,
    ⟨{ inIsr (boot [.engine]) with halted := true }, rfl, (by intro r h; cases h), (by intro m r h; cases h)⟩,
    ⟨{ inIsr (boot [.hw .wake]) with halted := true }, .wake, [], rfl, rfl⟩⟩

theorem witness_ReceiveClosuresIssue :
    ∃ (k : Irq) (s : State) (r : List Move), s.ctx = .interrupt k ∧ s.plays (engineMoves 2 r) :=
  ⟨20#8, inIsr (boot (engineMoves 2 [])), [], rfl, rfl, rfl, rfl, rfl⟩

theorem witness_ExternalCallbackReturns :
    ∃ (k : Irq) (w : Word) (s : State) (r : List Move), s.halted = false ∧ s.port = none ∧ s.ctx = .interrupt k
      ∧ s.sched = .engine :: r ∧ s.token = some w ∧ w ≠ s.cfg.cbDefault ∧ w ≠ s.cfg.cbRx0 ∧ w ≠ s.cfg.cbRx1
      ∧ ∀ e ∈ s.cfg.extAction, e.1 ≠ w :=
  ⟨20#8, 0x08001235#32, { inIsr (boot [.engine]) with token := some 0x08001235#32 }, [], rfl, rfl, rfl, rfl, rfl,
    by decide, by decide, by decide, by intro e he; cases he⟩

/-- The largest length and identifier. -/
def largestFrame (s : State) : State := { s with args := { s.args with id := 0x1FFFFFFF#32, len := 8#4 } }

theorem witness_MbSendLoadsAndRequests :
    ∀ m : MbIdx, ∃ (n : Byte) (s : State) (r : List Move), n.toNat = m.toNat ∧ s.ctx = .thread ∧ s.args.len ≤ 8#4
      ∧ s.args.id ≤ 0x1FFFFFFF#32 ∧ s.can.mbOk m ∧ bitOf s.can.tsr (26 + m.toNat) = true
      ∧ s.plays (engineMoves 8 r) := by
  intro m
  refine ⟨BitVec.ofNat 8 m.toNat, largestFrame (bootCan running (engineMoves 8 [])), [], ?_, rfl, by decide, by decide,
    ?_, ?_, rfl, rfl, rfl, rfl⟩ <;> cases m <;> decide

theorem witness_MbSendBusyFaults :
    ∀ m : MbIdx, ∃ (n : Byte) (s : State) (r : List Move), n.toNat = m.toNat ∧ s.ctx = .thread ∧ s.args.len ≤ 8#4
      ∧ s.args.id ≤ 0x1FFFFFFF#32 ∧ bitOf s.can.tsr (26 + m.toNat) = false ∧ s.plays (engineMoves 1 r) := by
  intro m
  refine ⟨BitVec.ofNat 8 m.toNat, largestFrame (bootCan crowded (engineMoves 1 [])), [], ?_, rfl, by decide, by decide,
    ?_, rfl, rfl, rfl, rfl⟩ <;> cases m <;> decide

/-- With CANHW's success move between the two reads. -/
theorem witness_MailboxSnapshots :
    (∃ (n : Byte) (m : MbIdx) (s : State) (hs : List HwMove) (r : List Move) (c : Can), n.toNat = m.toNat
        ∧ bitOf (s.can.mbx.get m).tir.unk 0 = false ∧ s.plays (.engine :: hs.map .hw ++ .engine :: r)
        ∧ c = hs.foldl (fun c h => c.move s.cfg h) s.can)
      ∧ ∃ (n : Byte) (m : MbIdx) (s : State) (r : List Move), n.toNat = m.toNat
        ∧ bitOf (s.can.mbx.get m).tir.unk 0 = false ∧ s.plays (.engine :: ([] : List HwMove).map .hw ++ .engine :: r) :=
  ⟨⟨0#8, .mb0, bootCan { sending with onAir := some .mb0 } [.engine, .hw (.txSuccess ⟨0, 0⟩), .engine],
      [.txSuccess ⟨0, 0⟩], [], _, rfl, by decide, ⟨rfl, rfl, rfl, rfl⟩, rfl⟩,
    ⟨2#8, .mb2, bootCan running (engineMoves 2 []), [], rfl, by decide, rfl, rfl, rfl, rfl⟩⟩

theorem witness_MbAbortWaitsForHardware :
    (∀ m : MbIdx, ∃ (n : Byte) (s : State) (r : List Move), n.toNat = m.toNat ∧ s.ctx = .thread ∧ s.can.mbOk m
        ∧ bitOf s.can.tsr (26 + m.toNat) = true ∧ s.plays (engineMoves 2 r))
      ∧ ∀ (m : MbIdx) (k : Nat), ∃ (n : Byte) (s : State) (r : List Move) (b : State), n.toNat = m.toNat
        ∧ s.ctx = .thread ∧ bitOf s.can.tsr (26 + m.toNat) = false ∧ m ∈ s.can.txOrder ∧ s.can.onAir ≠ some m
        ∧ s.plays (engineMoves (k + 1) (.hw (.abortDone m) :: .engine :: r))
        ∧ b = { s with can := { s.can with tsr := s.can.tsr ||| 1#32 <<< (8 * m.toNat + 7) } } := by
  refine ⟨?_, ?_⟩
  · intro m
    refine ⟨BitVec.ofNat 8 m.toNat, bootCan running (engineMoves 2 []), [], ?_, rfl, ?_, ?_, rfl, rfl, rfl, rfl⟩ <;>
      cases m <;> decide
  · intro m k
    refine ⟨BitVec.ofNat 8 m.toNat, bootCan crowded (engineMoves (k + 1) [.hw (.abortDone m), .engine]), [], _, ?_, rfl,
      ?_, ?_, ?_, ⟨rfl, rfl, rfl, rfl⟩, rfl⟩
    · cases m <;> decide
    · show bitOf crowded.tsr (26 + m.toNat) = false
      cases m <;> decide
    · show m ∈ crowded.txOrder
      cases m <;> decide
    · intro h
      cases h

theorem witness_ErrorSnapshots :
    (∃ (s : State) (r : List Move), s.plays (engineMoves 1 r))
      ∧ ∃ (s : State) (r : List Move) (e : ErrStat), s.plays (engineMoves 1 r)
        ∧ e = { recCount := s.can.esr.extractLsb' 24 8
                tecCount := s.can.esr.extractLsb' 16 8
                lec := s.can.esr.extractLsb' 4 3
                busOff := bitOf s.can.esr 2
                errorPassive := bitOf s.can.esr 1
                errorWarning := bitOf s.can.esr 0 } :=
  ⟨⟨boot (engineMoves 1 []), [], rfl, rfl, rfl, rfl⟩, ⟨boot (engineMoves 1 []), [], _, ⟨rfl, rfl, rfl, rfl⟩, rfl⟩⟩

theorem witness_LabelOfErrorCode : 0#8 ≤ 7#8 ∧ 7#8 ≤ 7#8 ∧ 7#8 < 8#8 ∧ 7#8 < 255#8 := by decide

theorem witness_InitStartsAtStepOne : (boot []).ctx = .thread := rfl

theorem witness_StepResetRuns :
    ∀ (k : Nat) (fr : FilterReset), ∃ (s : State) (r : List Move) (b : State), s.ctx = .thread
      ∧ s.plays (engineMoves (k + 2) (.hw (.resetDone fr) :: .engine :: r))
      ∧ b = { s with can := { s.can with mcr := s.can.mcr ||| 0x00008000#32 } } :=
  fun k fr => ⟨boot (engineMoves (k + 2) [.hw (.resetDone fr), .engine]), [], _, rfl, ⟨rfl, rfl, rfl, rfl⟩, rfl⟩

theorem witness_StepExitSleepRuns :
    ∀ k : Nat, ∃ (s : State) (r : List Move) (b : State), s.ctx = .thread ∧ bitOf s.can.msr 1 = true
      ∧ s.plays (engineMoves (k + 2) (.hw .wake :: .engine :: r))
      ∧ b = { s with can := { s.can with mcr := s.can.mcr &&& ~~~0x00000002#32 } } :=
  fun k => ⟨boot (engineMoves (k + 2) [.hw .wake, .engine]), [], _, rfl,
    (by decide : bitOf Can.reset.msr 1 = true), ⟨rfl, rfl, rfl, rfl⟩, rfl⟩

theorem witness_StepEnterConfigRuns :
    ∀ k : Nat, ∃ (s : State) (r : List Move) (b : State), s.ctx = .thread ∧ bitOf s.can.msr 0 = false
      ∧ s.can.onAir = none ∧ s.plays (engineMoves (k + 2) (.hw .initEnter :: .engine :: r))
      ∧ b = { s with can := { s.can with mcr := s.can.mcr ||| 0x00000001#32 } } :=
  fun k => ⟨boot (engineMoves (k + 2) [.hw .initEnter, .engine]), [], _, rfl,
    (by decide : bitOf Can.reset.msr 0 = false), rfl, ⟨rfl, rfl, rfl, rfl⟩, rfl⟩

theorem witness_StepOptionsRuns : ∃ (s : State) (r : List Move), s.ctx = .thread ∧ s.plays (engineMoves 2 r) :=
  ⟨boot (engineMoves 2 []), [], rfl, rfl, rfl, rfl, rfl⟩

/-- Inside and outside init mode. -/
theorem witness_StepTimingRuns :
    ∀ inak ∈ [true, false], ∃ (s : State) (r : List Move) (bt : BitTiming) (exact : Bool), s.ctx = .thread
      ∧ solve s.cfg.solverFallback s.clkHz s.args.rate = (bt, exact) ∧ s.plays (engineMoves 1 r)
      ∧ bitOf s.can.msr 0 = inak := by
  intro inak _
  cases inak
  · exact ⟨boot (engineMoves 1 []), [], _, _, rfl, rfl, ⟨rfl, rfl, rfl, rfl⟩, by decide⟩
  · exact ⟨bootCan { running with msr := 0x00000C01#32 } (engineMoves 1 []), [], _, _, rfl, rfl, ⟨rfl, rfl, rfl, rfl⟩,
      by decide⟩

theorem witness_StepFilterRuns : ∃ (s : State) (r : List Move), s.ctx = .thread ∧ s.plays (engineMoves 14 r) :=
  ⟨boot (engineMoves 14 []), [], rfl, rfl, rfl, rfl, rfl⟩

theorem witness_LeaveConfigRuns :
    ∀ (i : Instr) (k : Nat), i = Instr.stepLeaveconfig ∨ i = Instr.canStart →
      ∃ (s : State) (r : List Move) (b : State), s.ctx = .thread ∧ bitOf s.can.msr 0 = true
        ∧ s.plays (engineMoves (k + 2) (.hw .initLeave :: .engine :: r))
        ∧ b = { s with can := { s.can with mcr := s.can.mcr &&& ~~~0x00000001#32 } } :=
  fun _ k _ => ⟨bootCan { running with msr := 0x00000C01#32 } (engineMoves (k + 2) [.hw .initLeave, .engine]), [], _,
    rfl, (by decide : bitOf 0x00000C01#32 0 = true), ⟨rfl, rfl, rfl, rfl⟩, rfl⟩

theorem witness_StepEnableIrqRuns :
    ∃ (s : State) (r : List Move), s.cfg.wf = true ∧ s.ctx = .thread ∧ s.plays (engineMoves 10 r) :=
  ⟨boot (engineMoves 10 []), [], by decide, rfl, rfl, rfl, rfl, rfl⟩

/-- Each of the four clauses. -/
theorem witness_WaitsEndAtFirstRead :
    (∃ (s : State) (r : List Move), s.ctx = .thread ∧ s.plays (engineMoves 3 r) ∧ bitOf s.can.msr 1 = false
        ∧ bitOf s.can.msr 0 = false)
      ∧ ∃ (s : State) (r : List Move), s.ctx = .thread ∧ s.plays (engineMoves 3 r) ∧ bitOf s.can.msr 0 = true :=
  ⟨⟨bootCan running (engineMoves 3 []), [], rfl, ⟨rfl, rfl, rfl, rfl⟩, by decide, by decide⟩,
    ⟨bootCan { running with msr := 0x00000C01#32 } (engineMoves 3 []), [], rfl, ⟨rfl, rfl, rfl, rfl⟩, by decide⟩⟩

/-- `MCR.RESET` stands, and the wait is for its end. -/
theorem witness_WaitsAreUnbounded :
    ∀ n : Nat, ∃ (reg : Reg) (b : Nat) (val : Bool) (rest : List Op) (s : State) (r : List Move),
      s.task.ops = .bus (.wait reg b val) :: rest ∧ s.plays (engineMoves n r)
        ∧ ∀ d, (s.view (Config.freeWord d) reg).bit b ≠ val := by
  intro n
  refine ⟨.mcr, 15, false, [], { bootCan { running with mcr := 0x00018000#32 } (engineMoves n []) with
    thread := ⟨[.bus (.wait .mcr 15 false)], BusWord.lit 0#32⟩ }, [], rfl, ⟨rfl, rfl, rfl, rfl⟩, ?_⟩
  intro d
  show (shown 0x00018000#32 seenMcr _).bit 15 ≠ false
  rw [bit_shown (by decide)]
  decide

/-- Each mailbox as the first free one; all three busy. -/
theorem witness_CanSendTakesFirstFreeMailbox :
    (∀ m : MbIdx, ∃ (s : State) (r : List Move), s.ctx = .thread ∧ s.args.len ≤ 8#4 ∧ s.args.id ≤ 0x1FFFFFFF#32
        ∧ s.can.mbOk m ∧ bitOf s.can.tsr (26 + m.toNat) = true
        ∧ (∀ j : MbIdx, j.toNat < m.toNat → bitOf s.can.tsr (26 + j.toNat) = false)
        ∧ s.plays (engineMoves (m.toNat + 9) r))
      ∧ ∃ (s : State) (r : List Move), s.ctx = .thread ∧ s.args.len ≤ 8#4 ∧ s.args.id ≤ 0x1FFFFFFF#32
        ∧ (∀ j : MbIdx, bitOf s.can.tsr (26 + j.toNat) = false) ∧ s.plays (engineMoves 3 r) := by
  refine ⟨?_, ?_⟩
  · intro m
    cases m with
    | mb0 =>
      exact ⟨largestFrame (bootCan running (engineMoves 9 [])), [], rfl, by decide, by decide, by decide, by decide,
        by intro j hj; exact absurd hj (Nat.not_lt_zero _), rfl, rfl, rfl, rfl⟩
    | mb1 =>
      exact ⟨largestFrame (bootCan sending (engineMoves 10 [])), [], rfl, by decide, by decide, by decide, by decide,
        by intro j hj; cases j <;> first | decide | exact absurd hj (by decide), rfl, rfl, rfl, rfl⟩
    | mb2 =>
      exact ⟨largestFrame (bootCan { running with
          mbx := { running.mbx with mb0 := pendingMb, mb1 := pendingMb }, tsr := 0x10000000#32
          txOrder := [.mb0, .mb1] } (engineMoves 11 [])), [], rfl, by decide, by decide, by decide, by decide,
        by intro j hj; cases j <;> first | decide | exact absurd hj (by decide), rfl, rfl, rfl, rfl⟩
  · exact ⟨largestFrame (bootCan crowded (engineMoves 3 [])), [], rfl, by decide, by decide,
      by intro j; cases j <;> decide, rfl, rfl, rfl, rfl⟩

/-- Lengths 4 and 5 are where the number of steps changes. -/
theorem witness_RxIsrDeliversHead :
    ∀ l ∈ [4#4, 5#4], ∃ (f : Byte) (g : FifoIdx) (k : Irq) (m : RxMsg) (q : List RxMsg) (n : Nat) (s : State)
      (r : List Move), f.toNat = g.toNat ∧ s.ctx = .interrupt k ∧ s.issuer = .callback
        ∧ (s.can.fifo.get g).queue = m :: q ∧ n = (if 4#4 < m.dlc then 5 else 4) ∧ s.plays (engineMoves n r)
        ∧ m.dlc = l := by
  intro l _
  exact ⟨0#8, .f0, 20#8, { msg8 with dlc := l }, [msg3], _,
    inIsr (bootCan (received [{ msg8 with dlc := l }, msg3]) (engineMoves (if 4#4 < l then 5 else 4) [])), [], rfl, rfl,
    rfl, rfl, rfl, ⟨rfl, rfl, rfl, rfl⟩, rfl⟩

theorem witness_RxIsrOnEmptyFifo :
    ∀ g : FifoIdx, ∃ (f : Byte) (k : Irq) (s : State) (r : List Move), f.toNat = g.toNat ∧ s.ctx = .interrupt k
      ∧ s.issuer = .callback ∧ (s.can.fifo.get g).queue = [] ∧ s.plays (engineMoves 5 r) := by
  intro g
  refine ⟨BitVec.ofNat 8 g.toNat, 20#8, inIsr (bootCan running (engineMoves 5 [])), [], ?_, rfl, rfl, ?_, rfl, rfl, rfl,
    rfl⟩ <;> cases g <;> decide

/-- A command of each kind; and both sides of the condition hold somewhere. -/
theorem witness_WrongContextRefused :
    (∃ (w : Word) (s : State), decodeCommand w = .ok .canSend ∧ s.ctx ≠ .thread)
      ∧ (∃ (w : Word) (s : State), decodeCommand w = .ok (.vtDispatch 20#8) ∧ s.ctx = .thread ∧ s.issuer ≠ .trampoline)
      ∧ (∃ (w : Word) (s : State), decodeCommand w = .ok (.canRxisr 1#8) ∧ s.ctx ≠ .thread ∧ s.issuer = .callback)
      ∧ ∃ w : Word, decodeCommand w = .ok .btSolve :=
  ⟨⟨0x50#32, inIsr (boot []), rfl, by decide⟩, ⟨0x1403#32, boot [], rfl, rfl, by decide⟩,
    ⟨0x151#32, inIsr (boot []), rfl, by decide, rfl⟩, ⟨0x10#32, rfl⟩⟩

/-- The first value out of each range. -/
theorem witness_BadOperandRefused :
    (∃ (k : Irq) (s : State), s.ctx = .thread ∧ s.cfg.nVec ≤ k.toNat ∧ s.issuer = .trampoline)
      ∧ (∃ (n : Byte) (s : State), 2 < n.toNat ∧ s.ctx = .thread)
      ∧ (∃ (f : Byte) (k : Irq) (s : State), 1 < f.toNat ∧ s.ctx = .interrupt k ∧ s.issuer = .callback)
      ∧ (∃ c : Byte, 7 < c.toNat)
      ∧ ∀ i ∈ [Instr.canSend, Instr.mbSend 2#8], ∃ (n : Byte) (s s' s'' : State),
        s.ctx = .thread ∧ s'.ctx = .thread ∧ s''.ctx = .thread ∧ n.toNat ≤ 2 ∧ (i = .canSend ∨ i = .mbSend n)
          ∧ (8#4 < s.args.len ∧ s.args.id ≤ 0x1FFFFFFF#32) ∧ (s'.args.len ≤ 8#4 ∧ 0x1FFFFFFF#32 < s'.args.id)
          ∧ 8#4 < s''.args.len ∧ 0x1FFFFFFF#32 < s''.args.id := by
  refine ⟨⟨128#8, { boot [] with issuer := .trampoline }, rfl, by decide, rfl⟩, ⟨3#8, boot [], by decide, rfl⟩,
    ⟨2#8, 20#8, inIsr (boot []), by decide, rfl, rfl⟩, ⟨8#8, by decide⟩, ?_⟩
  intro i hi
  refine ⟨2#8, { boot [] with args := { (boot []).args with len := 9#4 } },
    { boot [] with args := { (boot []).args with id := 0x20000000#32 } },
    { boot [] with args := { (boot []).args with len := 9#4, id := 0x20000000#32 } }, rfl, rfl, rfl, by decide, ?_,
    by decide, by decide, by decide, by decide⟩
  simpa using hi

/-- Where each register ignores a write; where it does not. -/
theorem witness_RegisterWrites :
    (bitOf running.msr 0 = false
        ∧ bitOf ({ running with fmr := UReg.lit 0#32, fa1r := UReg.lit 1#32 } : Can).fmr.val 0 = false
        ∧ bitOf ({ running with fmr := UReg.lit 0#32, fa1r := UReg.lit 1#32 } : Can).fa1r.val 0 = true
        ∧ bitOf crowded.tsr 26 = false ∧ bitOf crowded.tsr 28 = false)
      ∧ ∃ (s : State) (k : Irq) (n : MbIdx), s.cfg.wf = true ∧ bitOf s.can.msr 0 = true
        ∧ bitOf s.can.tsr (26 + n.toNat) = true ∧ k.toNat < s.cfg.nVec :=
  ⟨by decide, ⟨bootCan { running with msr := 0x00000C01#32 } [], 127#8, .mb2, by decide, by decide, by decide,
    by decide⟩⟩

theorem witness_AttemptOrder : ∃ c : Can, c.onAir = none := ⟨sending, rfl⟩

/-- The least and the greatest code. -/
theorem witness_AttemptEnds :
    ∀ code ∈ [1#3, 6#3], ∃ (c : Can) (n : MbIdx) (freed : Word → Can), c.onAir = some n ∧ c.takesPart ∧ 1#3 ≤ code ∧ code ≤ 6#3
      ∧ ∀ x, freed x = { c with
          onAir := none
          mbx := c.mbx.set n { c.mbx.get n with tir :=
            { (c.mbx.get n).tir with val := (c.mbx.get n).tir.val &&& ~~~1#32 } }
          tsr := (c.tsr &&& ~~~(0b10000010#32 <<< (8 * n.toNat))) ||| x <<< (8 * n.toNat) ||| 1#32 <<< (26 + n.toNat)
          txOrder := c.txOrder.filter (fun j => decide (j ≠ n)) } := by
  intro code h
  simp at h
  rcases h with rfl | rfl <;>
    exact ⟨{ sending with onAir := some .mb0 }, .mb0, _, rfl, by decide, by decide, by decide, fun _ => rfl⟩

/-- No attempt; an attempt in a controller that is in bus-off. -/
theorem witness_AttemptEnds_not_enabled :
    ∃ c d : Can, c.onAir = none ∧ d.onAir ≠ none ∧ ¬d.takesPart :=
  ⟨sending, { sending with onAir := some .mb0, esr := 4#32 }, rfl, by decide, by decide⟩

/-- The least and the greatest code, with no attempt and in one; a frame that a bank passes. -/
theorem witness_ErrorStateFollowsCounters :
    (∀ code ∈ [1#3, 6#3], ∃ (c d : Can) (n : MbIdx), c.takesPart ∧ c.onAir = none ∧ d.takesPart ∧ d.onAir = some n
        ∧ 1#3 ≤ code ∧ code ≤ 6#3)
      ∧ ∃ (c : Can) (b : BitVec 5) (m : RxMsg), c.takesPart ∧ c.onAir = none ∧ bitOf c.fmr.val 0 = false
        ∧ c.bankPasses b m.idword = true := by
  refine ⟨?_, ⟨{ running with fmr := UReg.lit 0#32, fa1r := UReg.lit 1#32 }, 0#5, msg3, by decide, rfl, by decide,
    by decide⟩⟩
  intro code h
  simp at h
  rcases h with rfl | rfl <;>
    exact ⟨running, { sending with onAir := some .mb0 }, .mb0, by decide, rfl, by decide, rfl, by decide, by decide⟩

/-- Bus-off with a move that is neither of the two; a recovery that begins. -/
theorem witness_BusOffEndsByRecoveryOnly :
    (∃ (c : Can) (m : HwMove), bitOf c.esr 2 = true ∧ (∀ fr, m ≠ .resetDone fr) ∧ ∀ k, m ≠ .busOffRecovered k)
      ∧ ∃ (c : Can) (m : HwMove), c.recovering = false ∧ (c.move Params.default m).recovering = true :=
  ⟨⟨{ sending with esr := 4#32 }, .abortDone .mb0, by decide, (by intro fr h; cases h), (by intro k h; cases h)⟩,
    ⟨{ running with esr := 4#32, msr := 0x00000C01#32 }, .initLeave, rfl, by decide⟩⟩

/-- Bank 0 as step 6 leaves it; it passes a frame. And a bank that is not active. -/
theorem witness_ReceptionFiltersAndQueues :
    ∃ (c : Can) (m : RxMsg) (f : FifoIdx) (q : Fifo), bitOf c.fa1r.val 0 = true ∧ bitOf c.fs1r.val 0 = true
      ∧ bitOf c.fm1r.val 0 = false ∧ c.f0r1.unk = 0#32 ∧ c.f0r2.unk = 0#32
      ∧ c.takesPart ∧ c.onAir = none ∧ bitOf c.fmr.val 0 = false
      ∧ f = (if bitOf c.ffa1r.val 0 then .f1 else .f0) ∧ q = c.fifo.get f
      ∧ c.bankPasses 0#5 m.idword = true ∧ c.bankPasses 27#5 m.idword = false :=
  ⟨{ running with
      fmr := UReg.lit 0#32, fa1r := UReg.lit 1#32, fs1r := UReg.lit 1#32, f0r1 := UReg.lit 0#32, f0r2 := UReg.lit 0#32 },
    msg3, _, _, by decide, by decide, by decide, by decide, by decide, by decide, rfl, by decide, rfl, rfl, by decide,
    by decide⟩

/-- A FIFO of one place that is full, and a frame to come. -/
theorem witness_PendingFrameStays :
    ∃ (s : State) (m : HwMove) (r : List Move), s.sched = .hw m :: r ∧ (∀ fr, m ≠ .resetDone fr)
      ∧ (s.can.fifo.get .f0).queue ≠ [] ∧ s.cfg.fifoDepth = 1 :=
  ⟨{ bootCan (received [msg8]) [.hw (.receive 0#5 msg3 ⟨0, 0⟩)] with cfg := { Params.default with fifoDepth := 1 } },
    _, [], rfl, (by intro fr h; cases h), by decide, rfl⟩

theorem witness_LinesFollowFifos :
    ∃ s : State, s.cfg.irqRx0 ≠ s.cfg.irqRx1 ∧ ∀ f, (s.can.fifo.get f).queue.length ≤ 3 :=
  ⟨bootCan (received [msg3, msg3, msg8]) [], by decide, by intro f; cases f <;> decide⟩

/-- A move, a reset move, a free mailbox. -/
theorem witness_CanhwKeepsSoftwareFields :
    (∃ (s : State) (m : HwMove) (r : List Move), s.sched = .hw m :: r ∧ (∀ fr, m ≠ .resetDone fr)
        ∧ bitOf s.can.tsr (26 + MbIdx.mb1.toNat) = true)
      ∧ ∃ (s : State) (m : HwMove) (r : List Move), s.sched = .hw m :: r ∧ m = .resetDone (.unknown ⟨1#32, 0#32, 0#32, 0#32, 0#32, 0#32, 0#32⟩) :=
  ⟨⟨bootCan sending [.hw (.txStart .mb0)], .txStart .mb0, [], rfl, (by intro fr h; cases h), by decide⟩,
    ⟨boot [.hw (.resetDone (.unknown ⟨1#32, 0#32, 0#32, 0#32, 0#32, 0#32, 0#32⟩))], _, [], rfl, rfl⟩⟩

/-- The trampoline given the move, and nothing scheduled. -/
theorem witness_TrampolineTakesMostUrgentLine :
    (∃ (s : State) (k : Irq) (r : List Move), s.takeable = some k ∧ s.sched = .trampoline :: r)
      ∧ ∃ (s : State) (k : Irq), s.takeable = some k ∧ s.sched = [] :=
  ⟨⟨{ ready with sched := [.trampoline] }, 20#8, [], by decide, rfl⟩, ⟨ready, 20#8, by decide, rfl⟩⟩

/-- A line beside the block's own; one of its own; a halted machine. -/
theorem witness_OtherDriversEnableTheirLines :
    (∃ (s : State) (k : Irq) (p : Byte) (r : List Move), s.sched = .enableLine k p :: r ∧ s.halted = false
        ∧ k ≠ s.cfg.irqRx0 ∧ k ≠ s.cfg.irqRx1)
      ∧ (∃ (s : State) (k : Irq) (p : Byte) (r : List Move), s.sched = .enableLine k p :: r ∧ k = s.cfg.irqRx0)
      ∧ ∃ (s : State) (k : Irq) (p : Byte) (r : List Move), s.sched = .enableLine k p :: r ∧ s.halted = true :=
  ⟨⟨boot [.enableLine 22#8 0x80#8], _, _, [], rfl, rfl, by decide, by decide⟩,
    ⟨boot [.enableLine 20#8 0x80#8], _, _, [], rfl, rfl⟩,
    ⟨{ boot [.enableLine 22#8 0x80#8] with halted := true }, _, _, [], rfl, rfl⟩⟩

/-- The running machine with a live table whose slot 20 holds `CB_RX0`. -/
def serving (m : RxMsg) (n : Nat) : State :=
  { ready with
    can := received [m], sched := .trampoline :: engineMoves n []
    mem := [(0x20000050, 1#8), (0x20000051, 0#8), (0x20000052, 0#8), (0x20000053, 0#8)] }

theorem witness_ReceiveInterruptService :
    ∀ l ∈ [4#4, 5#4], ∃ (s : State) (m : RxMsg) (q : List RxMsg) (n : Nat) (r : List Move),
      s.takeable = some s.cfg.irqRx0 ∧ s.token = none ∧ s.cfg.wf = true ∧ s.vtor = s.cfg.vtBase
        ∧ (∀ d, s.view (Config.freeWord d) (.slot s.cfg.irqRx0.toNat) = .given s.cfg.cbRx0 d)
        ∧ s.can.fifo.f0.queue = m :: q ∧ n = (if 4#4 < m.dlc then 10 else 9)
        ∧ s.sched = .trampoline :: engineMoves n r ∧ m.dlc = l := by
  intro l hl
  simp at hl
  rcases hl with rfl | rfl
  · exact ⟨serving { msg8 with dlc := 4#4 } 9, _, [], 9, [], by decide, rfl, by decide, rfl, fun d => rfl, rfl, by decide,
      rfl, rfl⟩
  · exact ⟨serving { msg8 with dlc := 5#4 } 10, _, [], 10, [], by decide, rfl, by decide, rfl, fun d => rfl, rfl,
      by decide, rfl, rfl⟩

/-- Each of the four places. -/
theorem witness_StepRunsDecodedOperation :
    (∃ (s : State) (i : Instr) (r : List Move) (pw : PortWord), s.halted = false ∧ s.sched = .engine :: r
        ∧ s.port = some pw ∧ decodeCommand pw.word = .ok i)
      ∧ (∃ (s : State) (i : Instr) (r : List Move), s.halted = false ∧ s.sched = .engine :: r ∧ s.port = none
        ∧ s.ctx = .thread ∧ s.thread.ops = [] ∧ s.initRun = true ∧ decodeSeq s.seq = some i)
      ∧ (∃ (s : State) (i : Instr) (r : List Move) (k : Irq) (w : Word), s.halted = false ∧ s.sched = .engine :: r
        ∧ s.port = none ∧ s.ctx = .interrupt k ∧ s.token = some w ∧ decodeToken s.cfg w = some i)
      ∧ ∃ (s : State) (r : List Move) (op : Op) (rest : List Op), s.halted = false ∧ s.sched = .engine :: r
        ∧ s.port = none ∧ s.token = none ∧ s.task.ops = op :: rest :=
  ⟨⟨{ boot [.engine] with port := some ⟨.host, 0x00001402#32⟩ }, .vtInstall 20#8, [], _, rfl, rfl, rfl, rfl⟩,
    ⟨{ boot [.engine] with initRun := true, seq := 8#4 }, .stepEnableirq, [], rfl, rfl, rfl, rfl, rfl, rfl, rfl⟩,
    ⟨{ inIsr (boot [.engine]) with token := some 1#32 }, .cbRx0, [], 20#8, 1#32, rfl, rfl, rfl, rfl, rfl, by decide⟩,
    ⟨{ inIsr (boot [.engine]) with isr := ⟨[.ret], BusWord.lit 0#32⟩ }, [], .ret, [], rfl, rfl, rfl, rfl, rfl⟩⟩

theorem witness_PowerOnReset :
    (∃ (s : State) (r : List Move), s.sched = .powerOn :: r)
      ∧ ∃ (p : Params) (s : State), s = State.resetWith p ∧ p.flashVt ≠ p.vtBase :=
  ⟨⟨boot [.powerOn], [], rfl⟩, ⟨Params.default, _, rfl, by decide⟩⟩

/-- A step that makes a bus step, no power-on reset. -/
theorem witness_ReadsHaveNoSideEffect :
    ∃ s t : State, step s = .next t ∧ ∀ r, s.sched ≠ .powerOn :: r :=
  ⟨{ boot [.engine] with thread := ⟨[.bus (.rd .mcr)], BusWord.lit 0#32⟩ }, _, rfl, by intro r h; cases h⟩

/-- A host's load; the second read of `MB.UPDATE`; a write of `VTOR`; an enabled line. -/
theorem witness_StateHasItsWriters :
    (∃ s t : State, step s = .next t ∧ (∀ r, s.sched ≠ .powerOn :: r) ∧ t.args ≠ s.args)
      ∧ (∃ s t : State, step s = .next t ∧ (∀ r, s.sched ≠ .powerOn :: r) ∧ t.mb.get .mb0 ≠ s.mb.get .mb0)
      ∧ (∃ s t : State, step s = .next t ∧ (∀ r, s.sched ≠ .powerOn :: r) ∧ t.vtor ≠ s.vtor)
      ∧ ∃ s t : State, step s = .next t ∧ (∀ r, s.sched ≠ .powerOn :: r) ∧ s.en 20#8 = true :=
  ⟨⟨{ boot [.engine] with host := [.loadClk 1#32] }, _, rfl, (by intro r h; cases h), by decide⟩,
    ⟨{ bootCan sending [.engine] with thread := ⟨[.bus (.flags .mb0)], BusWord.lit 1#32⟩ }, _, rfl,
      (by intro r h; cases h), by decide⟩,
    ⟨{ boot [.engine] with thread := ⟨[.bus (.wr .vtor 0x20000000#32)], BusWord.lit 0#32⟩ }, _, rfl,
      (by intro r h; cases h), by decide⟩,
    ⟨{ ready with sched := [.engine] }, _, rfl, (by intro r h; cases h), by decide⟩⟩

/-- A state in which an invariant means something, and a step from it. -/
theorem witness_MemoryStaysCanonical :
    ∃ s t : State, s.mem ≠ [] ∧ s.mem.wf ∧ step s = .next t :=
  ⟨{ serving msg3 1 with sched := [.engine] }, _, by decide, by decide, rfl⟩

theorem witness_ControllerInvariantsKept :
    ∃ s t : State, s.can.txOrder ≠ [] ∧ s.can.mbxInv ∧ s.fifoInv ∧ step s = .next t :=
  ⟨bootCan crowded [.hw (.txStart .mb0)], _, by decide, by decide, by decide, rfl⟩

theorem witness_EngineInvariantsKept :
    ∃ s t : State, s.halted = true ∧ s.seqInv ∧ s.ctxInv ∧ step s = .next t :=
  ⟨{ inIsr (boot [.engine]) with halted := true, diag := [.unhandledInterrupt 20#8] }, _, rfl, by decide,
    ⟨rfl, fun _ => .head _⟩, rfl⟩

theorem witness_AccessesStayAligned :
    ∃ s t : State, s.trace ≠ [] ∧ s.cfg.wf = true ∧ s.aligned ∧ step s = .next t :=
  ⟨{ boot [.engine] with trace := [⟨.write, 0x20000050#32, BusWord.lit 1#32⟩] }, _, by decide, by decide, by decide, rfl⟩

theorem witness_InvariantsHoldAtReset : Params.default.wf = true := by decide

theorem witness_InitFromReset :
    ∃ (p : Params) (clk rate : Word) (fr : FilterReset) (r : List Move) (s : State) (bt : BitTiming) (exact : Bool),
      p.wf = true ∧ (∀ v, fr ≠ .unknown v) ∧ solve p.solverFallback clk rate = (bt, exact)
        ∧ s = { State.resetWith p with
          clkHz := clk, host := [.loadRate rate, .issue 0x00000040#32]
          sched := engineMoves 6 (.hw (.resetDone fr) :: engineMoves 4 (.hw .wake :: engineMoves 4 (.hw .initEnter ::
            engineMoves 24 (.hw .initLeave :: engineMoves 12 r)))) } :=
  ⟨Params.default, 40000000#32, 1000000#32, .kept, [], _, _, _, by decide, (by intro v h; cases h), rfl, rfl⟩

end Sys2Proof.Tests
end

section
/-! What a step can do to the parameters, the registers and the table RAM, whoever makes it. -/

namespace Sys2Proof.Machine

/-! ## The micro-step -/

theorem Keeps.setOps {P : State → Prop} (h : Keeps P) {ops : List Op} {s : State} (hs : P s) : P (s.setOps ops) :=
  h.task _ _ hs

theorem Keeps.setLocal {P : State → Prop} (h : Keeps P) {v : BusWord} {s : State} (hs : P s) : P (s.setLocal v) :=
  h.task _ _ hs

/-! ## The registers and the table RAM -/

/-- `t` has the parameters, the registers and the table RAM of `s`. -/
structure SameHardware (s t : State) : Prop where
  cfg : t.cfg = s.cfg
  can : t.can = s.can
  nvic : t.nvic = s.nvic
  vtor : t.vtor = s.vtor
  mem : t.mem = s.mem

theorem SameHardware.refl (s : State) : SameHardware s s := ⟨rfl, rfl, rfl, rfl, rfl⟩

/-- The schedule plays no part in it. -/
theorem SameHardware.of_setSched {s t : State} {r : List Move} (h : SameHardware (s.setSched r) t) : SameHardware s t :=
  ⟨h.cfg, h.can, h.nvic, h.vtor, h.mem⟩

/-- The engine's bookkeeping touches no register. -/
theorem keeps_sameHardware (s : State) : Keeps (SameHardware s) where
  task u k h := ⟨by simp [h.cfg], by simp [h.can], by simp [h.nvic], by simp [h.vtor], by simp [h.mem]⟩
  quiet q u h := by cases q <;> exact ⟨h.cfg, h.can, h.nvic, h.vtor, h.mem⟩
  leave u h := ⟨h.cfg, h.can, h.nvic, h.vtor, h.mem⟩

/-- The engine's bookkeeping makes no bus step (R66). -/
theorem keeps_trace (l : List BusEvent) : Keeps (fun u => u.trace = l) where
  task u k h := by simpa using h
  quiet q u h := by cases q <;> exact h
  leave u h := h

/-- What a step can do to the registers and the table RAM. -/
inductive HardwareStep (s t : State) : Prop
  | same (h : SameHardware s t)
  /-- a bus step of the engine -/
  | write (r : Reg) (v : BusWord) (h : SameHardware (s.regWrite r v) t) (ht : t.trace = s.trace ++ [s.writes r v])
  | canhw (m : HwMove) (h : SameHardware (s.setCan (s.can.move s.cfg m)) t)
  /-- another driver's move -/
  | enableLine (k : Irq) (p : Byte) (h : SameHardware (enableLine k p s) t)
  | powerOn (r : List Move) (hs : s.sched = .powerOn :: r) (h : SameHardware (State.resetWith s.cfg) t)

/-- What an operation writes before its first bus step is no register. -/
theorem Prepared.sameHardware {s u : State} (h : Prepared s u) : SameHardware s u := by
  rw [h.eq]
  exact ⟨rfl, rfl, rfl, rfl, rfl⟩

theorem Starts.sameHardware {s t : State} (h : Starts s t) : SameHardware s t := by
  cases h with
  | enter k hc => exact ⟨rfl, rfl, rfl, rfl, rfl⟩
  | init hc => exact ⟨rfl, rfl, rfl, rfl, rfl⟩
  | halt k hc => exact ⟨rfl, rfl, rfl, rfl, rfl⟩
  | run ops u hu ho => exact (keeps_sameHardware s).startOp hu.sameHardware

/-- A micro-operation writes one register or none. -/
theorem Moves.sameHardware_or_write {op : Op} {rest : List Op} {s t : State} (h : Moves op rest s t) :
    SameHardware s t ∨ ∃ r v, SameHardware (s.regWrite r v) t ∧ t.trace = s.trace ++ [s.writes r v] := by
  have kept {u : State} (hu : SameHardware s u) {ops : List Op} : SameHardware s (proceed ops u) :=
    (keeps_sameHardware s).proceed hu
  cases h with
  | read r ops mb es f v ho hm =>
    have hread : SameHardware s ({ s with mb := mb, es := es, frameRx := f }.afterRead r) := ⟨rfl, rfl, rfl, rfl, rfl⟩
    exact .inl (kept ((keeps_sameHardware s).setLocal hread))
  | vector k w v =>
    have hread : SameHardware s (s.afterRead (.slot k.toNat)) := ⟨rfl, rfl, rfl, rfl, rfl⟩
    obtain ⟨hcfg, hcan, hnvic, hvtor, hmem⟩ := kept (ops := rest) ((keeps_sameHardware s).setLocal (v := v) hread)
    exact .inl ⟨hcfg, hcan, hnvic, hvtor, hmem⟩
  | write r v =>
    exact .inr ⟨r, v, (keeps_sameHardware _).proceed (.refl _), (keeps_trace _).proceed (State.regWrite_trace s r v)⟩
  | issue i w =>
    obtain ⟨hcfg, hcan, hnvic, hvtor, hmem⟩ := (keeps_sameHardware s).setOps (ops := rest) (.refl s)
    exact .inl ⟨hcfg, hcan, hnvic, hvtor, hmem⟩
  | quiet q hq => exact .inl (kept (.refl s))
  | ret => exact .inl (kept (.refl s))

theorem State.regWrite_setSched (s : State) (l : List Move) (r : Reg) (v : BusWord) :
    (s.setSched l).regWrite r v = (s.regWrite r v).setSched l := by
  cases r <;> rfl

/-- Every step, by what it does to the registers and the table RAM. -/
theorem step_hardware {s t : State} (h : step s = .next t) : HardwareStep s t := by
  cases step_steps h with
  | hw m hs => exact .canhw m ⟨rfl, rfl, rfl, rfl, rfl⟩
  | line k up hs => exact .same ⟨rfl, rfl, rfl, rfl, rfl⟩
  | enableLine k p hs =>
    refine .enableLine k p ?_
    rw [enableLine_eq, enableLine_eq, State.setSched_halted, State.setSched_cfg]
    split <;> exact ⟨rfl, rfl, rfl, rfl, rfl⟩
  | clock w hs => exact .same ⟨rfl, rfl, rfl, rfl, rfl⟩
  | powerOn hs => exact .powerOn _ hs ⟨rfl, rfl, rfl, rfl, rfl⟩
  | trampoline =>
    unfold trampolineAct
    split <;> exact .same ⟨rfl, rfl, rfl, rfl, rfl⟩
  | idle => exact .same ⟨rfl, rfl, rfl, rfl, rfl⟩
  | host a l hh ha => cases a <;> exact .same ⟨rfl, rfl, rfl, rfl, rfl⟩
  | start i p tok by_ t hh hst =>
    obtain ⟨hcfg, hcan, hnvic, hvtor, hmem⟩ := hst.sameHardware
    exact .same ⟨hcfg, hcan, hnvic, hvtor, hmem⟩
  | op op rest t hh ho hm =>
    rcases hm.sameHardware_or_write with hsame | ⟨r, v, hw, ht⟩
    · exact .same hsame.of_setSched
    · rw [State.regWrite_setSched] at hw
      exact .write r v hw.of_setSched ht
  | external w tok hh => exact .same ((keeps_sameHardware s).startOp ⟨rfl, rfl, rfl, rfl, rfl⟩)
  | return_ hh => exact .same ⟨rfl, rfl, rfl, rfl, rfl⟩
  | initEnd hh => exact .same ⟨rfl, rfl, rfl, rfl, rfl⟩

/-! ## The table RAM (R47, R60) -/

/-- Settles O54: a register write keeps the form, and nothing else but power-on reset touches the table RAM. -/
theorem memoryStaysCanonical : Obligations.MemoryStaysCanonical := by
  unfold Obligations.MemoryStaysCanonical
  intro s t hs h
  cases step_hardware h with
  | same h => exact h.mem ▸ hs
  | write r v h ht => exact h.mem ▸ wf_regWrite r v hs
  | canhw m h => exact h.mem ▸ hs
  | enableLine k p h =>
    rw [h.mem, enableLine_frame]
    exact hs
  | powerOn r hr h => exact h.mem ▸ wf_resetWith s.cfg

end Sys2Proof.Machine
end

section
/-! CANHW and the register writes keep the transmit side's and the receive side's invariant (R50, R51). -/

namespace Sys2Proof.Machine

/-! ## Single bits -/

theorem bitOf_setBits (w m : Word) (b : Nat) : bitOf (setBits w m) b = (bitOf w b || bitOf m b) := by
  simp [bitOf, setBits]

theorem bitOf_clearBits (w m : Word) (b : Nat) : bitOf (clearBits w m) b = (bitOf w b && !bitOf m b) := by
  simp only [bitOf, clearBits, BitVec.getLsbD_and, BitVec.getLsbD_not]
  by_cases h : b < 32
  · simp [h]
  · simp [BitVec.getLsbD_of_ge w b (by omega)]

theorem bitOf_mergeBits (w m x : Word) (b : Nat) :
    bitOf (mergeBits w m x) b = if bitOf m b then bitOf x b else bitOf w b := by
  have h := bitOf_clearBits w m b
  cases hm : bitOf m b <;> simp_all [bitOf, clearBits, mergeBits]

/-- Outside the mask no bit of a bus word is taken. -/
theorem bitOf_on {v : BusWord} {m : Word} {b : Nat} (h : bitOf m b = false) : bitOf (v.on m) b = false := by
  unfold BusWord.on
  unfold bitOf at h ⊢
  split <;> simp [h]

/-! ## The flags of a mailbox -/

theorem bitOf_mTxrq : bitOf mTxrq 0 = true := rfl

/-- What a transmit request clears of mailbox `m`'s `TME` and `ABRQ` bits (R236). -/
theorem bitOf_requestClears_tme (n m : MbIdx) : bitOf (requestClears n) (bitTme m) = decide (m = n) := by
  cases n <;> cases m <;> rfl

theorem bitOf_requestClears_abrq (n m : MbIdx) : bitOf (requestClears n) (bitAbrq m) = false := by
  cases n <;> cases m <;> rfl

@[simp] theorem requestTx_txOrder (c : Can) (n : MbIdx) : (c.requestTx n).txOrder = c.txOrder ++ [n] := rfl

theorem requestTx_empty (c : Can) (n m : MbIdx) : (c.requestTx n).empty m = (c.empty m && !decide (m = n)) := by
  simp only [Can.empty, free, Can.requestTx, bitOf_clearBits, bitOf_requestClears_tme]

theorem requestTx_abrq (c : Can) (n m : MbIdx) :
    bitOf (c.requestTx n).tsr (bitAbrq m) = bitOf c.tsr (bitAbrq m) := by
  simp [Can.requestTx, bitOf_clearBits, bitOf_requestClears_abrq]

theorem requestTx_tir (c : Can) (n m : MbIdx) :
    ((c.requestTx n).mbx.get m).tir.unk = (c.mbx.get m).tir.unk
      ∧ bitOf ((c.requestTx n).mbx.get m).tir.val 0 = (bitOf (c.mbx.get m).tir.val 0 || decide (m = n)) := by
  by_cases h : m = n
  · subst h
    simp [Can.requestTx, bitOf_setBits, bitOf_mTxrq]
  · simp [Can.requestTx, PerMb.get_set_ne h, h]

theorem finishTx_empty (c : Can) (n m : MbIdx) (ok : Bool) :
    (c.finishTx n ok).empty m = (c.empty m || decide (m = n)) := by
  have h1 : bitOf (abortBit n ||| oneBit (bitTxok n)) (bitTme m) = false := by cases n <;> cases m <;> rfl
  have h2 : bitOf (oneBit (bitTme n) ||| oneBit (bitRqcp n) ||| (if ok then oneBit (bitTxok n) else 0#32)) (bitTme m)
      = decide (m = n) := by
    cases ok <;> cases n <;> cases m <;> rfl
  simp only [Can.empty, free, Can.finishTx, bitOf_setBits, bitOf_clearBits, h1, h2, Bool.not_false, Bool.and_true]

theorem finishTx_abrq (c : Can) (n m : MbIdx) (ok : Bool) :
    bitOf (c.finishTx n ok).tsr (bitAbrq m) = (bitOf c.tsr (bitAbrq m) && !decide (m = n)) := by
  have h1 : bitOf (abortBit n ||| oneBit (bitTxok n)) (bitAbrq m) = decide (m = n) := by cases n <;> cases m <;> rfl
  have h2 : bitOf (oneBit (bitTme n) ||| oneBit (bitRqcp n) ||| (if ok then oneBit (bitTxok n) else 0#32)) (bitAbrq m)
      = false := by
    cases ok <;> cases n <;> cases m <;> rfl
  simp only [Can.finishTx, bitOf_setBits, bitOf_clearBits, h1, h2, Bool.or_false]

theorem finishTx_tir (c : Can) (n m : MbIdx) (ok : Bool) :
    ((c.finishTx n ok).mbx.get m).tir.unk = (c.mbx.get m).tir.unk
      ∧ bitOf ((c.finishTx n ok).mbx.get m).tir.val 0 = (bitOf (c.mbx.get m).tir.val 0 && !decide (m = n)) := by
  by_cases h : m = n
  · subst h
    simp [Can.finishTx, bitOf_clearBits, bitOf_mTxrq]
  · simp [Can.finishTx, PerMb.get_set_ne h, h]

/-! ## The transmit side (R50, R238) -/

theorem mbxInv_iff {c : Can} :
    c.mbxInv ↔ (∀ n, c.mbOk n) ∧ c.txOrder.Nodup ∧ ∀ n ∈ c.onAir, n ∈ c.txOrder ∧ c.onBus = true := by
  constructor
  · rintro ⟨h0, h1, h2, hd, ha⟩
    exact ⟨fun n => by cases n <;> assumption, hd, ha⟩
  · rintro ⟨h, hd, ha⟩
    exact ⟨h .mb0, h .mb1, h .mb2, hd, ha⟩

/-- `c'` has the mailboxes of `c` as the invariant sees them, and what is being sent still may be. -/
structure SameTx (c c' : Can) : Prop where
  mb : ∀ n, c.mbOk n → c'.mbOk n
  order : c'.txOrder = c.txOrder
  air : ∀ n ∈ c'.onAir, n ∈ c.onAir ∧ (c.onBus = true → c'.onBus = true)

theorem mbxInv_of_sameTx {c c' : Can} (hi : c.mbxInv) (h : SameTx c c') : c'.mbxInv := by
  obtain ⟨hm, hd, ha⟩ := mbxInv_iff.1 hi
  refine mbxInv_iff.2 ⟨fun n => h.mb n (hm n), h.order ▸ hd, fun n hn => ?_⟩
  obtain ⟨hn, hb⟩ := h.air n hn
  exact ⟨h.order ▸ (ha n hn).1, hb (ha n hn).2⟩

/-- A mailbox whose `TIR` is as it was, in a controller whose `TSR` and `TXORDER` are. -/
theorem mbOk_of_tir {c c' : Can} {n : MbIdx} (ht : (c'.mbx.get n).tir = (c.mbx.get n).tir) (hs : c'.tsr = c.tsr)
    (ho : c'.txOrder = c.txOrder) (h : c.mbOk n) : c'.mbOk n := by
  simpa only [Can.mbOk, Can.empty, ht, hs, ho] using h

/-- A transmit request of an empty mailbox (R236). -/
theorem mbxInv_requestTx {c : Can} {n : MbIdx} (he : c.empty n = true) (h : c.mbxInv) : (c.requestTx n).mbxInv := by
  obtain ⟨hm, hd, ha⟩ := mbxInv_iff.1 h
  have hn : n ∉ c.txOrder := by
    obtain ⟨-, -, hq, -⟩ := hm n
    simpa [he] using hq
  refine mbxInv_iff.2 ⟨fun m => ?_, ?_, fun m hair => ?_⟩
  · obtain ⟨hu, hv, hq, hr⟩ := hm m
    obtain ⟨tu, tv⟩ := requestTx_tir c n m
    refine ⟨by rw [tu, hu], ?_, ?_, ?_⟩
    · rw [tv, requestTx_empty, hv]; simp
    · rw [requestTx_empty, hq]; simp
    · rw [requestTx_abrq, requestTx_empty]
      intro hb
      rw [hr hb, Bool.false_and]
  · refine List.nodup_append.2 ⟨hd, List.nodup_cons.2 ⟨List.not_mem_nil, List.nodup_nil⟩, fun a ha b hb => ?_⟩
    rw [List.mem_singleton.1 hb]
    rintro rfl
    exact hn ha
  · exact ⟨List.mem_append_left _ (ha m hair).1, (ha m hair).2⟩

/-- A mailbox that is not being sent becomes empty (R238, R239). -/
theorem mbxInv_finishTx {c : Can} {n : MbIdx} (ok : Bool) (hn : c.onAir ≠ some n) (h : c.mbxInv) :
    (c.finishTx n ok).mbxInv := by
  obtain ⟨hm, hd, ha⟩ := mbxInv_iff.1 h
  refine mbxInv_iff.2 ⟨fun m => ?_, hd.filter _, fun m hair => ?_⟩
  · obtain ⟨hu, hv, hq, hr⟩ := hm m
    obtain ⟨tu, tv⟩ := finishTx_tir c n m ok
    refine ⟨by rw [tu, hu], ?_, ?_, ?_⟩
    · rw [tv, finishTx_empty, hv]; simp
    · have hmem : m ∈ (c.finishTx n ok).txOrder ↔ m ∈ c.txOrder ∧ m ≠ n := by
        simp only [Can.finishTx, List.mem_filter, decide_eq_true_eq]
      rw [finishTx_empty, hq, ← Bool.decide_or]
      exact decide_eq_decide.2 (by rw [hmem, Decidable.not_and_iff_not_or_not, Decidable.not_not])
    · rw [finishTx_abrq, finishTx_empty]
      intro hb
      simp only [Bool.and_eq_true, Bool.not_eq_true'] at hb
      rw [hr hb.1, hb.2, Bool.false_or]
  · have hne : m ≠ n := by rintro rfl; exact hn hair
    exact ⟨List.mem_filter.2 ⟨(ha m hair).1, by simpa using hne⟩, (ha m hair).2⟩

/-! ## Register writes and the transmit side (R234, R236, R239) -/

/-- A change of registers that the transmit side's invariant does not look at. -/
theorem SameTx.of_eq {c c' : Can} (hm : ∀ n, (c'.mbx.get n).tir = (c.mbx.get n).tir) (hs : c'.tsr = c.tsr)
    (ho : c'.txOrder = c.txOrder) (ha : c'.onAir = c.onAir) (hb : c.onBus = true → c'.onBus = true) : SameTx c c' :=
  ⟨fun n => mbOk_of_tir (hm n) hs ho, ho, fun _ hn => ⟨ha ▸ hn, hb⟩⟩

theorem SameTx.refl (c : Can) : SameTx c c := .of_eq (fun _ => rfl) rfl rfl rfl id

/-- Storing the `rw` bits of `TIR` leaves `TXRQ` (R32). -/
theorem sameTx_setTir (c : Can) (n : MbIdx) (v : BusWord) :
    SameTx c (c.setMbx n { c.mbx.get n with tir := (c.mbx.get n).tir.store rwTir v }) := by
  refine ⟨fun m hm => ?_, rfl, fun _ h => ⟨h, id⟩⟩
  by_cases h : m = n
  · subst h
    have hrw : bitOf rwTir 0 = false := rfl
    have hval : bitOf ((c.mbx.get m).tir.store rwTir v).val 0 = bitOf (c.mbx.get m).tir.val 0 := by
      have : bitOf (clearBits (c.mbx.get m).tir.val rwTir ||| v.on rwTir) 0 = _ := bitOf_setBits _ _ _
      simp [UReg.store, this, bitOf_clearBits, bitOf_on hrw, hrw]
    have hunk : bitOf ((c.mbx.get m).tir.store rwTir v).unk 0 = bitOf (c.mbx.get m).tir.unk 0 := by
      simp [UReg.store, bitOf_clearBits, hrw]
    obtain ⟨hu, hv, hq, hr⟩ := hm
    refine ⟨?_, ?_, hq, hr⟩
    · simpa [Can.setMbx, hunk] using hu
    · change _ = !c.empty m
      simpa [Can.setMbx, hval] using hv
  · exact mbOk_of_tir (by simp [Can.setMbx, PerMb.get_set_ne h]) (c := c) rfl rfl hm

theorem mbxInv_writeTir {c : Can} (n : MbIdx) (v : BusWord) (h : c.mbxInv) : (c.writeTir n v).mbxInv := by
  unfold Can.writeTir
  simp only
  split
  · rename_i he
    have h' := mbxInv_of_sameTx h (sameTx_setTir c n v)
    split
    · exact mbxInv_requestTx he h'
    · exact h'
  · exact h

/-- A write of a mailbox's content leaves its `TIR` (R33, R34). -/
theorem sameTx_writeContent (c : Can) (n : MbIdx) {f : MbRegs → MbRegs} (hf : ∀ r, (f r).tir = r.tir) :
    SameTx c (c.writeContent n f) := by
  unfold Can.writeContent
  split
  · refine .of_eq (fun m => ?_) rfl rfl rfl id
    by_cases h : m = n
    · subst h; simp [Can.setMbx, hf]
    · simp [Can.setMbx, PerMb.get_set_ne h]
  · exact .refl c

/-- A write of `TSR` requests aborts of busy mailboxes only, and empties none (R27, R239). -/
theorem sameTx_writeTsr (c : Can) (v : BusWord) : SameTx c (c.writeTsr v) := by
  have hrc (m : MbIdx) : bitOf (v.on rcTsr) (bitTme m) = false := bitOf_on (by cases m <;> rfl)
  have habort (n m : MbIdx) : bitOf (abortBits c.tsr v n) (bitTme m) = false := by
    unfold abortBits
    split
    · cases n <;> cases m <;> rfl
    · simp [bitOf]
  have hbusy (n m : MbIdx) (hb : bitOf (abortBits c.tsr v n) (bitAbrq m) = true) : c.empty m = false := by
    unfold abortBits at hb
    split at hb
    · rename_i hc
      have : m = n := by
        revert hb
        cases n <;> cases m <;> decide
      subst this
      simp only [Bool.and_eq_true, Bool.not_eq_true'] at hc
      exact hc.2
    · simp [bitOf] at hb
  have hempty (m : MbIdx) : (c.writeTsr v).empty m = c.empty m := by
    simp only [Can.empty, free, Can.writeTsr, bitOf_setBits, bitOf_clearBits, hrc]
    simp only [bitOf, BitVec.getLsbD_or] at habort ⊢
    simp [habort]
  refine ⟨fun m hm => ?_, rfl, fun _ h => ⟨h, id⟩⟩
  obtain ⟨hu, hv, hq, hr⟩ := hm
  refine ⟨hu, by rw [hempty]; exact hv, by rw [hempty]; exact hq, ?_⟩
  rw [hempty]
  intro hb
  simp only [Can.writeTsr, bitOf_setBits, bitOf_clearBits, Bool.or_eq_true, Bool.and_eq_true] at hb
  rcases hb with hb | hb
  · exact hr hb.1
  · simp only [bitOf, BitVec.getLsbD_or, Bool.or_eq_true] at hb
    rcases hb with (hb | hb) | hb <;> exact hbusy _ m hb

/-- Normal mode and bus-off are read off two bits of `MSR` and one of `ESR`. -/
theorem onBus_of_bits {c c' : Can} (hb : c.onBus = true) (h0 : bitOf c'.msr bitInak = bitOf c.msr bitInak)
    (h1 : bitOf c'.msr bitSlak = bitOf c.msr bitSlak) (h2 : bitOf c'.esr bitBoff = bitOf c.esr bitBoff) :
    c'.onBus = true := by
  simpa only [Can.onBus, Can.inInit, Can.asleep, Can.busOff, h0, h1, h2] using hb

/-- Clearing bits of `MSR` ends neither normal mode nor wakefulness. -/
theorem onBus_of_clearBits {c c' : Can} {m : Word} (hb : c.onBus = true) (hmsr : c'.msr = clearBits c.msr m)
    (hesr : c'.esr = c.esr) : c'.onBus = true := by
  simp only [Can.onBus, Can.inInit, Can.asleep, Can.busOff, hmsr, hesr, bitOf_clearBits, Bool.and_eq_true,
    Bool.not_eq_true'] at hb ⊢
  obtain ⟨⟨hinit, hsleep⟩, hoff⟩ := hb
  simp [hinit, hsleep, hoff]

/-- Every register write keeps the transmit side's invariant. -/
theorem mbxInv_write {c : Can} (v : BusWord) (r : Reg) (h : c.mbxInv) : (c.write v r).mbxInv := by
  have frame {c' : Can} (hs : SameTx c c') : c'.mbxInv := mbxInv_of_sameTx h hs
  have filter {p : Bool} {c' : Can} (hs : SameTx c c') : (if p then c' else c).mbxInv := by
    split
    · exact frame hs
    · exact h
  cases r with
  | mcr => exact frame (.of_eq (fun _ => rfl) rfl rfl rfl id)
  | msr =>
    have hrc (b : Nat) (hb : bitOf rcMsr b = false) : bitOf (clearBits c.msr (v.on rcMsr)) b = bitOf c.msr b := by
      simp [bitOf_clearBits, bitOf_on hb]
    exact frame (.of_eq (fun _ => rfl) rfl rfl rfl fun hb => onBus_of_bits hb (hrc 0 rfl) (hrc 1 rfl) rfl)
  | tsr => exact frame (sameTx_writeTsr c v)
  | esr =>
    have hrw : bitOf rwEsr bitBoff = false := rfl
    have hboff : bitOf (mergeBits c.esr rwEsr (v.on rwEsr)) bitBoff = bitOf c.esr bitBoff := by
      rw [bitOf_mergeBits, hrw]; rfl
    exact frame (.of_eq (fun _ => rfl) rfl rfl rfl fun hb => onBus_of_bits hb rfl rfl hboff)
  | rfr f => exact frame (.of_eq (fun _ => rfl) rfl rfl rfl id)
  | ier => exact frame (.of_eq (fun _ => rfl) rfl rfl rfl id)
  | btr => exact filter (.of_eq (fun _ => rfl) rfl rfl rfl id)
  | tir n => exact mbxInv_writeTir n v h
  | tdtr n => exact frame (sameTx_writeContent c n (f := fun x => { x with tdtr := x.tdtr.store seenTdtr v }) fun _ => rfl)
  | tdlr n => exact frame (sameTx_writeContent c n (f := fun x => { x with tdlr := x.tdlr.store 0xFFFFFFFF#32 v }) fun _ => rfl)
  | tdhr n => exact frame (sameTx_writeContent c n (f := fun x => { x with tdhr := x.tdhr.store 0xFFFFFFFF#32 v }) fun _ => rfl)
  | fmr => exact frame (.of_eq (fun _ => rfl) rfl rfl rfl id)
  | fm1r => exact filter (.of_eq (fun _ => rfl) rfl rfl rfl id)
  | fs1r => exact filter (.of_eq (fun _ => rfl) rfl rfl rfl id)
  | ffa1r => exact filter (.of_eq (fun _ => rfl) rfl rfl rfl id)
  | fa1r => exact frame (.of_eq (fun _ => rfl) rfl rfl rfl id)
  | f0r1 => exact filter (.of_eq (fun _ => rfl) rfl rfl rfl id)
  | f0r2 => exact filter (.of_eq (fun _ => rfl) rfl rfl rfl id)
  | rir f => exact h
  | rdtr f => exact h
  | rdlr f => exact h
  | rdhr f => exact h
  | iser k => exact h
  | ipr k => exact h
  | vtor => exact h
  | slot k => exact h

/-! ## CANHW and the transmit side (R231 to R245) -/

/-- After a controller reset no mailbox is pending, whatever the filter registers (R231, R54). -/
theorem mbxInv_reset {c : Can} (hm : c.mbx = Can.reset.mbx) (hs : c.tsr = Can.reset.tsr) (ho : c.txOrder = [])
    (ha : c.onAir = none) : c.mbxInv := by
  have ok (n : MbIdx) : c.mbOk n := by
    simp only [Can.mbOk, Can.empty, hm, hs, ho]
    cases n <;> decide
  exact mbxInv_iff.2 ⟨ok, by simp [ho], by simp [ha]⟩

/-- Nothing is being sent, and the mailboxes are as they were. -/
theorem SameTx.of_ended {c c' : Can} (hm : c'.mbx = c.mbx) (hs : c'.tsr = c.tsr) (ho : c'.txOrder = c.txOrder)
    (ha : c'.onAir = none) : SameTx c c' :=
  ⟨fun n => mbOk_of_tir (by rw [hm]) hs ho, ho, by simp [ha]⟩

/-- Ending an attempt (R238): a flag that is neither `TMEn` nor `ABRQn` is set, and nothing is being sent. -/
theorem mbxInv_endOfAttempt {c : Can} {flag : Word} (h : c.mbxInv)
    (hf : ∀ m, bitOf flag (bitTme m) = false ∧ bitOf flag (bitAbrq m) = false) :
    Can.mbxInv { c with tsr := setBits c.tsr flag, onAir := none } := by
  refine mbxInv_of_sameTx h ⟨fun m hm => ?_, rfl, by simp⟩
  have hempty : Can.empty { c with tsr := setBits c.tsr flag, onAir := none } m = c.empty m := by
    simp [Can.empty, free, bitOf_setBits, (hf m).1]
  obtain ⟨hu, hv, hq, hr⟩ := hm
  refine ⟨hu, by rw [hempty]; exact hv, by rw [hempty]; exact hq, ?_⟩
  rw [hempty, bitOf_setBits, (hf m).2, Bool.or_false]
  exact hr

theorem mbxInv_attemptFailed {c : Can} {n : MbIdx} {flag : Word} (h : c.mbxInv)
    (hf : ∀ m, bitOf flag (bitTme m) = false ∧ bitOf flag (bitAbrq m) = false) : (c.attemptFailed n flag).mbxInv := by
  unfold Can.attemptFailed
  simp only
  split
  · exact mbxInv_finishTx false (by simp) (mbxInv_endOfAttempt h hf)
  · exact mbxInv_endOfAttempt h hf

/-- With nothing being sent the error state is free (R245). -/
theorem mbxInv_setErrors {c : Can} (lec : BitVec 3) (k : Counters) (ha : c.onAir = none) (h : c.mbxInv) :
    (c.setErrors lec k).mbxInv :=
  mbxInv_of_sameTx h (.of_ended rfl rfl rfl ha)

@[simp] theorem attemptFailed_onAir (n : MbIdx) (w : Word) (c : Can) : (c.attemptFailed n w).onAir = none := by
  unfold Can.attemptFailed
  simp only
  split <;> rfl

/-- What an attempt's end keeps, if its own effect keeps it (R238). -/
theorem endAttempt_keeps {P : Can → Prop} {c : Can} {f : MbIdx → Can} (h : P c) (hf : ∀ n, P (f n)) :
    P (c.endAttempt f) := by
  unfold Can.endAttempt
  split
  · split
    · exact hf _
    · exact h
  · exact h

/-- What may be attempted is pending (R237). -/
theorem mem_txOrder_of_mayAttempt {o : TxOrder} {n : MbIdx} {c : Can} (h : c.mayAttempt o n = true) : n ∈ c.txOrder := by
  unfold Can.mayAttempt at h
  split at h
  · exact of_decide_eq_true h
  · split at h
    · exact of_decide_eq_true h
    · exact List.mem_of_head? (of_decide_eq_true h)

/-- In bus-off nothing is being sent (R245). -/
theorem onAir_eq_none_of_busOff {c : Can} (h : c.mbxInv) (hb : c.busOff = true) : c.onAir = none := by
  obtain ⟨-, -, ha⟩ := mbxInv_iff.1 h
  refine Option.eq_none_iff_forall_not_mem.2 fun n hn => ?_
  simpa [Can.onBus, hb] using (ha n hn).2

/-- Every move of CANHW keeps the transmit side's invariant. -/
theorem mbxInv_move {c : Can} (p : Params) (m : HwMove) (h : c.mbxInv) : (c.move p m).mbxInv := by
  cases m with
  | resetDone fr =>
    change (c.resetDone fr).mbxInv
    unfold Can.resetDone
    split
    · cases fr <;> exact mbxInv_reset rfl rfl rfl rfl
    · exact h
  | wake =>
    change c.wake.mbxInv
    unfold Can.wake
    split
    · exact mbxInv_of_sameTx h (.of_eq (fun _ => rfl) rfl rfl rfl fun hb => onBus_of_clearBits hb rfl rfl)
    · exact h
  | sleep =>
    change c.sleep.mbxInv
    unfold Can.sleep
    split
    · rename_i hc
      simp only [Bool.and_eq_true, Option.isNone_iff_eq_none] at hc
      exact mbxInv_of_sameTx h (.of_ended rfl rfl rfl hc.2)
    · exact h
  | initEnter =>
    change c.initEnter.mbxInv
    unfold Can.initEnter
    split
    · rename_i hc
      simp only [Bool.and_eq_true, Option.isNone_iff_eq_none] at hc
      exact mbxInv_of_sameTx h (.of_ended rfl rfl rfl hc.2)
    · exact h
  | initLeave =>
    change c.initLeave.mbxInv
    unfold Can.initLeave
    split
    · exact mbxInv_of_sameTx h (.of_eq (fun _ => rfl) rfl rfl rfl fun hb => onBus_of_clearBits hb rfl rfl)
    · exact h
  | txStart n =>
    change (c.txStart p.txOrder n).mbxInv
    unfold Can.txStart
    split
    · rename_i hc
      simp only [Bool.and_eq_true] at hc
      obtain ⟨⟨hbus, -⟩, hmay⟩ := hc
      obtain ⟨hm, hd, -⟩ := mbxInv_iff.1 h
      refine mbxInv_iff.2 ⟨hm, hd, fun j hj => ?_⟩
      cases Option.mem_some.1 hj
      exact ⟨mem_txOrder_of_mayAttempt hmay, hbus⟩
    · exact h
  | txSuccess k =>
    have ended : Can.mbxInv { c with onAir := none } := mbxInv_of_sameTx h (.of_ended rfl rfl rfl rfl)
    exact endAttempt_keeps h fun n => mbxInv_setErrors _ _ rfl (mbxInv_finishTx true (by simp) ended)
  | txArbLost =>
    exact endAttempt_keeps h fun n => mbxInv_attemptFailed h fun m => by cases n <;> cases m <;> decide
  | txError code k =>
    refine endAttempt_keeps h fun n => ?_
    split
    · refine mbxInv_setErrors _ _ (by simp) (mbxInv_attemptFailed h fun m => ?_)
      cases n <;> cases m <;> decide
    · exact h
  | abortDone n =>
    change (c.abortDone n).mbxInv
    unfold Can.abortDone
    split
    · rename_i hc
      simp only [Bool.and_eq_true, decide_eq_true_eq] at hc
      exact mbxInv_finishTx false hc.2 h
    · exact h
  | receive b msg k =>
    change (c.receive p.fifoDepth b msg k).mbxInv
    unfold Can.receive
    split
    · rename_i hc
      simp only [Bool.and_eq_true, Option.isNone_iff_eq_none] at hc
      obtain ⟨⟨⟨-, ha⟩, -⟩, -⟩ := hc
      exact mbxInv_setErrors _ _ ha (mbxInv_of_sameTx h (.of_ended rfl rfl rfl ha))
    · exact h
  | busError code k =>
    change (c.busError code k).mbxInv
    unfold Can.busError
    split
    · rename_i hc
      simp only [Bool.and_eq_true, Option.isNone_iff_eq_none] at hc
      obtain ⟨⟨-, ha⟩, -⟩ := hc
      exact mbxInv_setErrors _ _ ha h
    · exact h
  | busOffRecovered k =>
    change (c.busOffRecovered k).mbxInv
    unfold Can.busOffRecovered
    split
    · rename_i hc
      simp only [Bool.and_eq_true] at hc
      obtain ⟨⟨⟨hoff, -⟩, -⟩, -⟩ := hc
      have ha : c.onAir = none := onAir_eq_none_of_busOff h hoff
      exact mbxInv_of_sameTx h (.of_ended rfl rfl rfl ha)
    · exact h

/-! ## The receive side (R28, R51) -/

theorem fifoInv_iff {s : State} :
    s.fifoInv ↔ 1 ≤ s.cfg.fifoDepth ∧ ∀ f, (s.can.fifo.get f).ok s.cfg.fifoDepth := by
  constructor
  · rintro ⟨hd, h0, h1⟩
    exact ⟨hd, fun f => by cases f <;> assumption⟩
  · rintro ⟨hd, h⟩
    exact ⟨hd, h .f0, h .f1⟩

theorem ok_empty {d : Nat} : Fifo.empty.ok d := ⟨Nat.zero_le d, by intro h; cases h⟩

/-- A write of `RFfR` clears flags and releases at most the head (R242). -/
theorem ok_writeRfr {d : Nat} {q : Fifo} (v : BusWord) (h : q.ok d) : (q.writeRfr v).ok d := by
  obtain ⟨hl, hf⟩ := h
  have cleared : Fifo.ok d { q with full := q.full && !v.bit 3, fovr := q.fovr && !v.bit 4 } := by
    refine ⟨hl, fun hfull => hf ?_⟩
    simp only [Bool.and_eq_true] at hfull
    exact hfull.1
  unfold Fifo.writeRfr
  simp only
  split
  · unfold Fifo.release
    split
    · exact cleared
    · rename_i m r hq
      have hq : q.queue = m :: r := hq
      rw [hq, List.length_cons] at hl
      exact ⟨Nat.le_of_succ_le hl, by intro hfull; cases hfull⟩
  · exact cleared

theorem ok_set {d : Nat} {t : PerFifo Fifo} {f : FifoIdx} {q : Fifo} (hq : q.ok d) (h : ∀ g, (t.get g).ok d)
    (g : FifoIdx) : ((t.set f q).get g).ok d := by
  by_cases e : g = f
  · subst e; rwa [PerFifo.get_set]
  · rw [PerFifo.get_set_ne e]; exact h g

/-- A register write touches the FIFOs by `RFfR` only (R24). -/
theorem write_fifo (c : Can) (v : BusWord) (r : Reg) :
    (c.write v r).fifo = match r with
      | .rfr f => c.fifo.set f ((c.fifo.get f).writeRfr v)
      | _ => c.fifo := by
  cases r with
  | tir n =>
    simp only [Can.write, Can.writeTir]
    split
    · split <;> rfl
    · rfl
  | tdtr n | tdlr n | tdhr n =>
    simp only [Can.write, Can.writeContent]
    split <;> rfl
  | btr | fm1r | fs1r | ffa1r | f0r1 | f0r2 =>
    simp only [Can.write]
    split <;> rfl
  | _ => rfl

theorem ok_write {d : Nat} {c : Can} (v : BusWord) (r : Reg) (h : ∀ f, (c.fifo.get f).ok d) (f : FifoIdx) :
    (((c.write v r).fifo).get f).ok d := by
  rw [write_fifo]
  split
  · exact ok_set (ok_writeRfr v (h _)) h f
  · exact h f

/-- A move of CANHW that is no reset and no reception leaves the FIFOs (R241, R242). -/
theorem move_fifo {p : Params} {m : HwMove} (c : Can) (hr : ∀ fr, m ≠ .resetDone fr) (hv : ∀ b x k, m ≠ .receive b x k) :
    (c.move p m).fifo = c.fifo := by
  have ended (n : MbIdx) (w : Word) : (c.attemptFailed n w).fifo = c.fifo := by
    unfold Can.attemptFailed
    simp only
    split <;> rfl
  cases m with
  | resetDone fr => exact absurd rfl (hr fr)
  | receive b x k => exact absurd rfl (hv b x k)
  | txSuccess k => exact endAttempt_keeps (P := fun u => u.fifo = c.fifo) rfl fun n => rfl
  | txArbLost => exact endAttempt_keeps (P := fun u => u.fifo = c.fifo) rfl fun n => ended n _
  | txError code k =>
    refine endAttempt_keeps (P := fun u => u.fifo = c.fifo) rfl fun n => ?_
    split
    · exact ended n _
    · rfl
  | wake => simp only [Can.move, Can.wake]; split <;> rfl
  | sleep => simp only [Can.move, Can.sleep]; split <;> rfl
  | initEnter => simp only [Can.move, Can.initEnter]; split <;> rfl
  | initLeave => simp only [Can.move, Can.initLeave]; split <;> rfl
  | txStart n => simp only [Can.move, Can.txStart]; split <;> rfl
  | abortDone n => simp only [Can.move, Can.abortDone]; split <;> rfl
  | busError code k => simp only [Can.move, Can.busError]; split <;> rfl
  | busOffRecovered k => simp only [Can.move, Can.busOffRecovered]; split <;> rfl

/-- Every move of CANHW keeps the FIFOs' invariant. -/
theorem ok_move {c : Can} (p : Params) (m : HwMove) (h : ∀ f, (c.fifo.get f).ok p.fifoDepth) (f : FifoIdx) :
    ((c.move p m).fifo.get f).ok p.fifoDepth := by
  cases m with
  | resetDone fr =>
    change ((c.resetDone fr).fifo.get f).ok _
    unfold Can.resetDone
    split
    · cases fr <;> cases f <;> exact ok_empty
    · exact h f
  | receive b x k =>
    change ((c.receive p.fifoDepth b x k).fifo.get f).ok _
    unfold Can.receive
    split
    · exact ok_set (accept_ok (h _)) h f
    · exact h f
  | _ =>
    rw [move_fifo c (by intro _ e; cases e) (by intro _ _ _ e; cases e)]
    exact h f

/-! ## Every step (R50, R51) -/

theorem step_mbxInv {s t : State} (hs : s.can.mbxInv) (h : step s = .next t) : t.can.mbxInv := by
  cases step_hardware h with
  | same h => exact h.can ▸ hs
  | write r v h ht =>
    rw [h.can, regWrite_can]
    exact mbxInv_write v r hs
  | canhw m h => exact h.can ▸ mbxInv_move s.cfg m hs
  | enableLine k p h =>
    rw [h.can, enableLine_frame]
    exact hs
  | powerOn r hr h => exact h.can ▸ mbxInv_reset rfl rfl rfl rfl

theorem step_fifoInv {s t : State} (hs : s.fifoInv) (h : step s = .next t) : t.fifoInv := by
  obtain ⟨hd, hq⟩ := fifoInv_iff.1 hs
  rw [fifoInv_iff]
  cases step_hardware h with
  | same h =>
    rw [h.cfg, h.can]
    exact ⟨hd, hq⟩
  | write r v h ht =>
    rw [h.cfg, h.can, State.regWrite_cfg, regWrite_can]
    exact ⟨hd, ok_write v r hq⟩
  | canhw m h =>
    rw [h.cfg, h.can]
    exact ⟨hd, ok_move s.cfg m hq⟩
  | enableLine k p h =>
    rw [h.cfg, h.can, enableLine_frame]
    exact ⟨hd, hq⟩
  | powerOn r hr h =>
    rw [h.cfg, h.can]
    exact ⟨hd, fun f => by cases f <;> exact ok_empty⟩

/-- Settles O55: the transmit side by the mailboxes' flags as each write and move leaves them, the receive side by what
a release and a reception do to a FIFO. -/
theorem controllerInvariantsKept : Obligations.ControllerInvariantsKept :=
  ⟨fun _ _ => step_mbxInv, fun _ _ => step_fifoInv⟩

/-! ## Right after reset (R54) -/

theorem one_le_fifoDepth_of_wf {p : Params} (h : p.wf = true) : 1 ≤ p.fifoDepth := by
  simp only [Params.wf, Bool.and_eq_true, decide_eq_true_eq] at h
  obtain ⟨⟨⟨⟨⟨-, hdepth⟩, -⟩, -⟩, -⟩, -⟩ := h
  exact hdepth

/-- Settles O58: power-on reset clears everything the invariants speak of. -/
theorem invariantsHoldAtReset : Obligations.InvariantsHoldAtReset := by
  unfold Obligations.InvariantsHoldAtReset
  intro p hp
  refine ⟨wf_resetWith p, mbxInv_reset rfl rfl rfl rfl, ?_, ?_, ?_, ?_⟩
  · exact ⟨one_le_fifoDepth_of_wf hp, ok_empty, ok_empty⟩
  · exact ⟨(by decide : 0#4 ≤ 9#4), rfl, rfl⟩
  · exact ⟨rfl, by intro h; cases h⟩
  · intro e he
    cases he

end Sys2Proof.Machine
end

section
/-! The engine's own data: who writes the latches, the mirrors, the logs, `VTOR` and the enables; `SEQ`, the halt and the
remembered context. -/

namespace Sys2Proof.Machine

/-! ## Latches, mirrors and logs (R11, R15, R18, R19) -/

/-- `t` has the operand latches and the mirrors of `s`, and its logs are those of `s` or go on from them. -/
structure LogsGrow (s t : State) : Prop where
  args : t.args = s.args
  mb : t.mb = s.mb
  rxlog : ∃ l, t.rxlog = s.rxlog ++ l
  diag : ∃ l, t.diag = s.diag ++ l

theorem LogsGrow.of_eq {s t : State} (ha : t.args = s.args) (hm : t.mb = s.mb) (hr : t.rxlog = s.rxlog)
    (hd : t.diag = s.diag) : LogsGrow s t :=
  ⟨ha, hm, ⟨[], by simp [hr]⟩, ⟨[], by simp [hd]⟩⟩

/-- The engine's bookkeeping appends to the receive log only. -/
theorem keeps_logsGrow (s : State) : Keeps (LogsGrow s) where
  task u k h := ⟨by simp [h.args], by simp [h.mb], by simpa using h.rxlog, by simpa using h.diag⟩
  quiet q u h := by
    cases q with
    | deliver f =>
      obtain ⟨l, hl⟩ := h.rxlog
      exact ⟨h.args, h.mb, ⟨l ++ [⟨f, u.frameRx⟩], by simp [runQuiet, hl]⟩, h.diag⟩
    | _ => exact ⟨h.args, h.mb, h.rxlog, h.diag⟩
  leave u h := ⟨h.args, h.mb, h.rxlog, h.diag⟩

theorem Starts.logsGrow {s t : State} (h : Starts s t) : LogsGrow s t := by
  cases h with
  | enter k hc => exact .of_eq rfl rfl rfl rfl
  | init hc => exact .of_eq rfl rfl rfl rfl
  | halt k hc => exact ⟨rfl, rfl, ⟨[], by simp⟩, ⟨_, rfl⟩⟩
  | run ops u hu ho =>
    obtain ⟨he, hd, -⟩ := hu
    refine (keeps_logsGrow s).startOp ⟨?_, ?_, ?_, hd⟩
    · rw [he]
    · rw [he]
    · exact ⟨[], by rw [he]; simp⟩

/-- A micro-operation keeps the latches and the logs' beginnings; the read of the flags writes its mirror. -/
theorem Moves.logsGrow {op : Op} {rest : List Op} {s t : State} (h : Moves op rest s t) :
    ∃ mb, LogsGrow { s with mb := mb } t ∧ ∀ n, mb.get n ≠ s.mb.get n → op = .bus (.flags n) := by
  have kept {u : State} (hu : LogsGrow s u) {ops : List Op} :
      ∃ mb, LogsGrow { s with mb := mb } (proceed ops u) ∧ ∀ n, mb.get n ≠ s.mb.get n → op = .bus (.flags n) :=
    ⟨s.mb, (keeps_logsGrow s).proceed hu, fun _ hn => absurd rfl hn⟩
  cases h with
  | read r ops mb es f v ho hm =>
    have hread : LogsGrow { s with mb := mb } ({ s with mb := mb, es := es, frameRx := f }.afterRead r) :=
      .of_eq rfl rfl rfl rfl
    exact ⟨mb, (keeps_logsGrow _).proceed ((keeps_logsGrow _).setLocal hread), hm⟩
  | vector k w v =>
    have hread : LogsGrow s (s.afterRead (.slot k.toNat)) := .of_eq rfl rfl rfl rfl
    obtain ⟨mb, hg, hm⟩ := kept (ops := rest) ((keeps_logsGrow s).setLocal (v := v) hread)
    exact ⟨mb, ⟨hg.args, hg.mb, hg.rxlog, hg.diag⟩, hm⟩
  | write r v => exact kept (.of_eq (by simp) (by simp) (by simp) (by simp))
  | issue i w => exact ⟨s.mb, .of_eq (by simp) (by simp) (by simp) (by simp), fun _ hn => absurd rfl hn⟩
  | quiet q hq => exact kept (.of_eq rfl rfl rfl rfl)
  | ret => exact kept (.of_eq rfl rfl rfl rfl)

/-- Every step but power-on reset, by what it does to the latches, the mirrors and the logs. -/
inductive LogStep (s t : State) : Prop
  | grow (h : LogsGrow s t)
  /-- the host's next action -/
  | host (a : HostAct) (r : List HostAct) (ha : s.host = a :: r) (ht : t.host = r)
      (hissue : ∀ w, a = .issue w → t.args = s.args) (h : LogsGrow { s with args := t.args } t)
  /-- a micro-operation -/
  | op (o : Op) (rest : List Op) (ho : s.task.ops = o :: rest) (h : LogsGrow { s with mb := t.mb } t)
      (hm : ∀ n, t.mb.get n ≠ s.mb.get n → o = .bus (.flags n))

theorem step_log {s t : State} (h : step s = .next t) (hp : ∀ r, s.sched ≠ .powerOn :: r) : LogStep s t := by
  cases step_steps h with
  | hw m hs => exact .grow (.of_eq rfl rfl rfl rfl)
  | line k up hs => exact .grow (.of_eq rfl rfl rfl rfl)
  | enableLine k p hs =>
    rw [enableLine_frame]
    exact .grow (.of_eq rfl rfl rfl rfl)
  | clock w hs => exact .grow (.of_eq rfl rfl rfl rfl)
  | powerOn hs => exact absurd hs (hp _)
  | trampoline =>
    unfold trampolineAct
    split <;> exact .grow (.of_eq rfl rfl rfl rfl)
  | idle => exact .grow (.of_eq rfl rfl rfl rfl)
  | host a l hh ha =>
    refine .host a l ha ?_ ?_ ?_
    · cases a <;> rfl
    · rintro w rfl; rfl
    · cases a <;> exact .of_eq rfl rfl rfl rfl
  | start i p tok by_ t hh hst =>
    obtain ⟨ha, hm, hr, hd⟩ := hst.logsGrow
    exact .grow ⟨ha, hm, hr, hd⟩
  | op o rest t hh ho hmv =>
    obtain ⟨mb, ⟨ha, hm, hr, hd⟩, hflags⟩ := hmv.logsGrow
    refine .op o rest ho ⟨ha, rfl, hr, hd⟩ ?_
    rw [hm]
    exact hflags
  | external w tok hh => exact .grow ((keeps_logsGrow s).startOp (.of_eq rfl rfl rfl rfl))
  | return_ hh => exact .grow (.of_eq rfl rfl rfl rfl)
  | initEnd hh => exact .grow (.of_eq rfl rfl rfl rfl)

/-! ## `VTOR` and the enables (R44, R46, R265) -/

/-- A write of `ISER` sets bits, so a register write clears no enable (R44). -/
theorem en_regWrite {s : State} (r : Reg) (v : BusWord) {k : Irq} (h : s.en k = true) : (s.regWrite r v).en k = true := by
  unfold State.en at h ⊢
  rw [regWrite_nvic]
  cases r with
  | iser j =>
    by_cases hw : enWord k = enWord j
    · have e (n : Nvic) : n.enOf k = n.enOf j := by simp only [Nvic.enOf, hw]
      rw [e] at h
      simp only [e, Nvic.enOf_setEn, bitOf_setBits, h, Bool.true_or]
    · rw [Nvic.enOf_setEn_other hw]
      exact h
  | _ => exact h

/-- Another driver's move clears no enable (R266). -/
theorem en_enableLine {s : State} (j : Irq) (p : Byte) {k : Irq} (h : s.en k = true) : (enableLine j p s).en k = true := by
  rw [enableLine_eq]
  split
  · exact h
  · have e : bitOf ((((s.nvic.setPrio j (s.nvic.withPrio j p)).setEn j
        (setBits (s.nvic.enOf j) (oneBit (j.toNat % 32)))).enOf k)) (k.toNat % 32) = _ :=
      enOf_enable_bit (s.nvic.setPrio j (s.nvic.withPrio j p)) j k
    refine e.trans ?_
    have h : bitOf ((s.nvic.setPrio j (s.nvic.withPrio j p)).enOf k) (k.toNat % 32) = true := h
    rw [h, Bool.true_or]

theorem SameHardware.en {s t : State} (h : SameHardware s t) (k : Irq) : t.en k = s.en k := by
  simp only [State.en, h.nvic]

/-- No step changes the parameters (R6). -/
theorem step_cfg {s t : State} (h : step s = .next t) : t.cfg = s.cfg := by
  cases step_hardware h with
  | same h => exact h.cfg
  | write r v h ht => rw [h.cfg, State.regWrite_cfg]
  | canhw m h => exact h.cfg
  | enableLine k p h => rw [h.cfg, enableLine_frame]
  | powerOn r hs h => exact h.cfg

/-- `VTOR` changes by a recorded write of it (R46). -/
theorem step_vtor {s t : State} (h : step s = .next t) (hp : ∀ r, s.sched ≠ .powerOn :: r) (hn : t.vtor ≠ s.vtor) :
    ∃ v, t.trace = s.trace ++ [s.writes .vtor v] ∧ t.vtor = v.word := by
  cases step_hardware h with
  | same h => exact absurd h.vtor hn
  | write r v h ht =>
    have hv := h.vtor
    rw [regWrite_vtor] at hv
    split at hv
    · rename_i hr
      exact ⟨v, hr ▸ ht, hv⟩
    · exact absurd hv hn
  | canhw m h => exact absurd h.vtor hn
  | enableLine k p h => exact absurd (by rw [h.vtor, enableLine_frame]) hn
  | powerOn r hs h => exact absurd hs (hp r)

/-- No step clears an enable (R44, R265). -/
theorem step_en {s t : State} (h : step s = .next t) (hp : ∀ r, s.sched ≠ .powerOn :: r) {k : Irq}
    (hk : s.en k = true) : t.en k = true := by
  cases step_hardware h with
  | same h => exact (h.en k).trans hk
  | write r v h ht => exact (h.en k).trans (en_regWrite r v hk)
  | canhw m h => exact (h.en k).trans hk
  | enableLine j p h => exact (h.en k).trans (en_enableLine j p hk)
  | powerOn r hs h => exact absurd hs (hp r)

/-- Settles O53: the parameters, `VTOR` and the enables by what a step does to the hardware, the latches, the mirrors and
the logs by what it does to the engine's data. -/
theorem stateHasItsWriters : Obligations.StateHasItsWriters := by
  unfold Obligations.StateHasItsWriters
  refine ⟨fun s t h hp => ⟨step_cfg h, ?_⟩, fun s t h hp => ⟨step_vtor h hp, fun k => step_en h hp⟩⟩
  cases step_log h hp with
  | grow h => exact ⟨fun hn => absurd h.args hn, fun n hn => absurd (by rw [h.mb]) hn, h.rxlog, h.diag⟩
  | host a r ha ht hissue h =>
    exact ⟨fun hn => ⟨a, r, ha, ht, fun w e => hn (hissue w e)⟩, fun n hn => absurd (by rw [h.mb]) hn, h.rxlog, h.diag⟩
  | op o rest ho h hm => exact ⟨fun hn => absurd h.args hn, fun n hn => ⟨rest, hm n hn ▸ ho⟩, h.rxlog, h.diag⟩

/-! ## `SEQ` (R20) -/

/-- `SEQ` and the micro-steps are legal when these three parts of the state are. -/
theorem seqInv_of_eq {s t : State} (h : s.seqInv) (hq : t.seq = s.seq) (ht : t.thread.ops = s.thread.ops)
    (hi : t.isr.ops = s.isr.ops) : t.seqInv := by
  simpa only [State.seqInv, hq, ht, hi] using h

theorem seqInv_task {s : State} (h : s.seqInv) : s.task.ops.all Op.seqOk = true := by
  obtain ⟨-, ht, hi⟩ := h
  cases hc : s.ctx with
  | thread => rw [State.task_eq_thread hc]; exact ht
  | interrupt k => rw [State.task_eq_isr hc]; exact hi

theorem seqInv_setTask {s : State} {k : Task} (hk : k.ops.all Op.seqOk = true) (h : s.seqInv) : (s.setTask k).seqInv := by
  obtain ⟨hq, ht, hi⟩ := h
  refine ⟨by simpa using hq, ?_, ?_⟩
  · rw [State.setTask_thread]
    split <;> assumption
  · rw [State.setTask_isr]
    split <;> assumption

theorem seqInv_runQuiet {s : State} {q : Quiet} (hq : (Op.quiet q).seqOk = true) (h : s.seqInv) : (runQuiet q s).seqInv := by
  obtain ⟨hs, ht, hi⟩ := h
  cases q with
  | setSeq c => exact ⟨of_decide_eq_true hq, ht, hi⟩
  | initDone => exact ⟨(by decide : 9#4 ≤ 9#4), ht, hi⟩
  | _ => exact ⟨hs, ht, hi⟩

/-- Going on with legal micro-operations. -/
theorem seqInv_proceed {ops : List Op} {s : State} (ho : ops.all Op.seqOk = true) (h : s.seqInv) :
    (proceed ops s).seqInv := by
  induction ops generalizing s with
  | nil => exact seqInv_setTask ho h
  | cons op r ih =>
    obtain ⟨hop, hr⟩ : op.seqOk = true ∧ r.all Op.seqOk = true := by rwa [List.all_cons, Bool.and_eq_true] at ho
    cases op with
    | bus b => exact seqInv_setTask ho h
    | issue i w => exact seqInv_setTask ho h
    | ret => exact seqInv_of_eq (seqInv_setTask (k := ⟨r, s.task.v⟩) hr h) rfl rfl rfl
    | quiet q => exact ih hr (seqInv_runQuiet hop h)

theorem seqInv_startOp {ops : List Op} {s : State} (ho : ops.all Op.seqOk = true) (h : s.seqInv) :
    (startOp ops s).seqInv :=
  seqInv_proceed (by rw [List.all_append, ho, seqInv_task h]; rfl) h

theorem Starts.seqInv {s t : State} (h : Starts s t) (hs : s.seqInv) : t.seqInv := by
  obtain ⟨hq, ht, hi⟩ := hs
  cases h with
  | enter k hc => exact ⟨hq, ht, rfl⟩
  | init hc => exact ⟨(by decide : 1#4 ≤ 9#4), ht, hi⟩
  | halt k hc => exact ⟨hq, ht, hi⟩
  | run ops u hu ho =>
    obtain ⟨he, -, hu⟩ := hu
    refine seqInv_startOp ho ⟨?_, by rw [he]; exact ht, by rw [he]; exact hi⟩
    rcases hu with hu | hu
    · rw [hu]; exact hq
    · exact hu

theorem Moves.seqInv {op : Op} {rest : List Op} {s t : State} (h : Moves op rest s t) (ho : s.task.ops = op :: rest)
    (hs : s.seqInv) : t.seqInv := by
  have htask := seqInv_task hs
  obtain ⟨hop, hrest⟩ : op.seqOk = true ∧ rest.all Op.seqOk = true := by
    rwa [ho, List.all_cons, Bool.and_eq_true] at htask
  cases h with
  | read r ops mb es f v hops hm =>
    have hread : State.seqInv ({ s with mb := mb, es := es, frameRx := f }.afterRead r) := seqInv_of_eq hs rfl rfl rfl
    exact seqInv_proceed (hops hrest) (seqInv_setTask (seqInv_task hread) hread)
  | vector k w v =>
    have hread : (s.afterRead (.slot k.toNat)).seqInv := seqInv_of_eq hs rfl rfl rfl
    exact seqInv_of_eq (seqInv_proceed hrest (seqInv_setTask (k := ⟨s.task.ops, v⟩) htask hread)) rfl rfl rfl
  | write r v => exact seqInv_proceed hrest (seqInv_of_eq hs (by simp) (by simp) (by simp))
  | issue i w => exact seqInv_of_eq (seqInv_setTask (k := ⟨rest, s.task.v⟩) hrest hs) rfl rfl rfl
  | quiet q hq =>
    subst hq
    exact seqInv_proceed (by rw [List.all_cons, hop, hrest]; rfl) hs
  | ret => exact seqInv_proceed (by rw [List.all_cons, hrest]; rfl) hs

theorem step_seqInv {s t : State} (hs : s.seqInv) (h : step s = .next t) : t.seqInv := by
  cases step_steps h with
  | hw m hm => exact seqInv_of_eq hs rfl rfl rfl
  | line k up hm => exact seqInv_of_eq hs rfl rfl rfl
  | enableLine k p hm =>
    rw [enableLine_frame]
    exact seqInv_of_eq hs rfl rfl rfl
  | clock w hm => exact seqInv_of_eq hs rfl rfl rfl
  | powerOn hm => exact ⟨(by decide : 0#4 ≤ 9#4), rfl, rfl⟩
  | trampoline =>
    unfold trampolineAct
    split <;> exact seqInv_of_eq hs rfl rfl rfl
  | idle => exact seqInv_of_eq hs rfl rfl rfl
  | host a l hh ha => cases a <;> exact seqInv_of_eq hs rfl rfl rfl
  | start i p tok by_ t hh hst => exact hst.seqInv (seqInv_of_eq hs rfl rfl rfl)
  | op o rest t hh ho hm => exact hm.seqInv ho (seqInv_of_eq hs rfl rfl rfl)
  | external w tok hh =>
    refine seqInv_startOp ?_ (seqInv_of_eq hs rfl rfl rfl)
    simp [Op.seqOk]
  | return_ hh => exact seqInv_of_eq hs rfl rfl rfl
  | initEnd hh => exact seqInv_of_eq hs rfl rfl rfl

/-! ## The halt and the remembered context (R126, R262, R271) -/

/-- Not halted, and a return leads to thread context. -/
def State.running (s : State) : Prop := s.savedCtx = .thread ∧ s.halted = false

theorem State.running.ctxInv {s : State} (h : s.running) : s.ctxInv :=
  ⟨h.1, by rw [h.2]; intro hh; cases hh⟩

theorem State.ctxInv.running {s : State} (h : s.ctxInv) (hh : s.halted = false) : s.running := ⟨h.1, hh⟩

/-- The engine's bookkeeping neither halts nor forgets. -/
theorem keeps_running : Keeps State.running where
  task s k h := by simpa [State.running] using h
  quiet q s h := by cases q <;> exact h
  leave s h := h

theorem ctxInv_of_eq {s t : State} (h : s.ctxInv) (hsaved : t.savedCtx = s.savedCtx) (hh : t.halted = s.halted)
    (hc : t.ctx = s.ctx) (hd : t.diag = s.diag) : t.ctxInv := by
  simpa only [State.ctxInv, hsaved, hh, hc, hd] using h

/-- Only the default handler halts, and only thread context is remembered. -/
theorem Starts.ctxInv {s t : State} (h : Starts s t) (hs : s.running) : t.ctxInv := by
  cases h with
  | enter k hc => exact State.running.ctxInv ⟨hc, hs.2⟩
  | init hc => exact State.running.ctxInv hs
  | halt k hc =>
    refine ⟨hs.1, fun _ => ?_⟩
    simp [hc]
  | run ops u hu ho =>
    refine (keeps_running.startOp ?_).ctxInv
    rw [hu.eq]
    exact hs

theorem Moves.running {op : Op} {rest : List Op} {s t : State} (h : Moves op rest s t) (hs : s.running) : t.running := by
  cases h with
  | read r ops mb es f v hops hm =>
    have hread : State.running ({ s with mb := mb, es := es, frameRx := f }.afterRead r) := hs
    exact keeps_running.proceed (keeps_running.setLocal hread)
  | vector k w v =>
    have hread : (s.afterRead (.slot k.toNat)).running := hs
    have hnext : (proceed rest ((s.afterRead (.slot k.toNat)).setLocal v)).running :=
      keeps_running.proceed (keeps_running.setLocal hread)
    exact hnext
  | write r v => exact keeps_running.proceed (by simpa [State.running] using hs)
  | issue i w => exact (keeps_running.setOps hs : (s.setOps rest).running)
  | quiet q hq => exact keeps_running.proceed hs
  | ret => exact keeps_running.proceed hs

theorem step_ctxInv {s t : State} (hs : s.ctxInv) (h : step s = .next t) : t.ctxInv := by
  cases step_steps h with
  | hw m hm => exact ctxInv_of_eq hs rfl rfl rfl rfl
  | line k up hm => exact ctxInv_of_eq hs rfl rfl rfl rfl
  | enableLine k p hm =>
    rw [enableLine_frame]
    exact ctxInv_of_eq hs rfl rfl rfl rfl
  | clock w hm => exact ctxInv_of_eq hs rfl rfl rfl rfl
  | powerOn hm => exact State.running.ctxInv ⟨rfl, rfl⟩
  | trampoline =>
    unfold trampolineAct
    split <;> exact ctxInv_of_eq hs rfl rfl rfl rfl
  | idle => exact ctxInv_of_eq hs rfl rfl rfl rfl
  | host a l hh ha => cases a <;> exact ctxInv_of_eq hs rfl rfl rfl rfl
  | start i p tok by_ t hh hst => exact hst.ctxInv (hs.running hh)
  | op o rest t hh ho hm => exact (hm.running (hs.running hh)).ctxInv
  | external w tok hh =>
    have hrun : State.running { s.setSched s.sched.tail with token := tok } := hs.running hh
    exact (keeps_running.startOp hrun).ctxInv
  | return_ hh => exact State.running.ctxInv (hs.running hh)
  | initEnd hh => exact ctxInv_of_eq hs rfl rfl rfl rfl

/-- Settles O56: `SEQ` by the codes the micro-operations set, the halt and the remembered context by what starting an
operation can come to. -/
theorem engineInvariantsKept : Obligations.EngineInvariantsKept :=
  ⟨fun _ _ => step_seqInv, fun _ _ => step_ctxInv⟩

end Sys2Proof.Machine
end

section
/-! Reception: which frames bank 0 passes, and where a frame goes (R41, R43, R241). -/

namespace Sys2Proof.Machine

/-- Two words agree under two masks exactly if they agree on the bits of both. -/
theorem and_and_eq_iff (w x m n : Word) :
    w &&& m &&& n = x &&& m &&& n ↔
      ∀ i, i < 32 → bitOf n i = true → bitOf m i = true → bitOf w i = bitOf x i := by
  have bit (y : Word) (i : Nat) : (y &&& m &&& n).getLsbD i = (bitOf y i && bitOf m i && bitOf n i) := by
    simp [bitOf]
  constructor
  · intro h i hi hn hm
    have := congrArg (fun y => BitVec.getLsbD y i) h
    simpa only [bit, hn, hm, Bool.and_true] using this
  · intro h
    refine BitVec.eq_of_getLsbD_eq fun i hi => ?_
    rw [bit, bit]
    cases hn : bitOf n i with
    | false => simp
    | true =>
      cases hm : bitOf m i with
      | false => simp
      | true => rw [h i hi hn hm]

/-- The identifier word's bits that a filter compares are 31:1 (R43). -/
theorem bitOf_rwTir {i : Nat} (hi : i < 32) : bitOf rwTir i = true ↔ 1 ≤ i := by
  have : ∀ j : Fin 32, bitOf rwTir j = true ↔ 1 ≤ j.val := by decide
  exact this ⟨i, hi⟩

/-- Bank 0, active and in 32-bit mask mode, compares under its mask (R43). -/
theorem bankPasses_zero {c : Can} {w : Word} (ha : bitOf c.fa1r.val 0 = true) (hs : bitOf c.fs1r.val 0 = true)
    (hm : bitOf c.fm1r.val 0 = false) (h1 : c.f0r1.unk = 0#32) (h2 : c.f0r2.unk = 0#32) :
    c.bankPasses 0#5 w = true ↔
      w &&& c.f0r2.val &&& rwTir = c.f0r1.val &&& c.f0r2.val &&& rwTir := by
  simp [Can.bankPasses, ha, hs, hm, h1, h2]

/-- A frame an active bank passes is stored in the bank's FIFO (R241). -/
theorem receive_of_passes {c : Can} {b : BitVec 5} {m : RxMsg} (depth : Nat) (k : Counters) (hb : c.onBus = true)
    (ha : c.onAir = none) (hf : bitOf c.fmr.val 0 = false) (hp : c.bankPasses b m.idword = true) :
    c.receive depth b m k = Can.setErrors 0#3 k
      { c with fifo :=
          c.fifo.set (c.bankFifo b) ((c.fifo.get (c.bankFifo b)).accept depth (bitOf c.mcr bitRflm) m) } := by
  simp [Can.receive, Can.finit, hb, ha, hf, hp]

theorem receive_of_not_passes {c : Can} {b : BitVec 5} {m : RxMsg} (depth : Nat) (k : Counters)
    (hp : c.bankPasses b m.idword = false) : c.receive depth b m k = c := by
  simp [Can.receive, hp]

/-- What storing a frame does, by the number of messages there are (R241). -/
theorem accept_eq (depth : Nat) (rflm : Bool) (m : RxMsg) (q : Fifo) :
    q.accept depth rflm m =
      if q.queue.length < depth then
        { q with queue := q.queue ++ [m], full := q.full || decide (q.queue.length + 1 = depth) }
      else if rflm then { q with fovr := true }
      else { q with queue := if 2 ≤ q.queue.length then q.queue.dropLast ++ [m] else q.queue, fovr := true } := by
  unfold Fifo.accept
  rw [overwriteNewest_eq]

/-- Settles O43: bank 0 by comparing masked words bit by bit, the FIFO by what storing a frame does to it. -/
theorem receptionFiltersAndQueues : Obligations.ReceptionFiltersAndQueues := by
  unfold Obligations.ReceptionFiltersAndQueues
  constructor
  · intro c w ha hs hm h1 h2
    rw [bankPasses_zero ha hs hm h1 h2, and_and_eq_iff]
    constructor
    · intro h i hi1 hi hmask
      exact h i hi ((bitOf_rwTir hi).2 hi1) hmask
    · intro h i hi hrw hmask
      exact h i ((bitOf_rwTir hi).1 hrw) hi hmask
  · rintro p c b m k f q ht ha hf rfl rfl
    have hb := takesPart_iff_onBus.1 ht
    obtain ⟨-, -, hoff⟩ := ht
    have hoff : c.busOff = false := hoff
    refine ⟨fun hp => ?_, receive_of_not_passes p.fifoDepth k⟩
    have hr : c.move p (.receive b m k) = _ := receive_of_passes p.fifoDepth k hb ha hf hp
    rw [hr, accept_eq]
    exact ⟨rfl, (esrShows_setErrors hoff).1⟩

end Sys2Proof.Machine
end

section
/-! The record of bus steps: a step adds at most one access to it, and every access is at a multiple of 4 (R62, R64, R66). -/

namespace Sys2Proof.Machine

/-! ## What a step adds to the record (R64, R66) -/

/-- What a step that is no power-on reset can do to the record of bus steps. -/
inductive TraceStep (s t : State) : Prop
  | silent (ht : t.trace = s.trace)
  /-- a read changes no register and no table byte -/
  | read (r : Reg) (v : BusWord) (h : SameHardware s t) (ht : t.trace = s.trace ++ [s.reads r v])
  | write (r : Reg) (v : BusWord) (ht : t.trace = s.trace ++ [s.writes r v])

/-- The schedule plays no part in it. -/
theorem TraceStep.of_setSched {s t : State} {r : List Move} (h : TraceStep (s.setSched r) t) : TraceStep s t := by
  cases h with
  | silent ht => exact .silent ht
  | read q v h ht => exact .read q v h.of_setSched ht
  | write q v ht => exact .write q v ht

/-- Starting an operation makes no bus step. -/
theorem Starts.trace {s t : State} (h : Starts s t) : t.trace = s.trace := by
  cases h with
  | enter k hc => rfl
  | init hc => rfl
  | halt k hc => rfl
  | run ops u hu ho =>
    have hu : u.trace = s.trace := by rw [hu.eq]
    exact (keeps_trace s.trace).startOp hu

/-- A micro-operation makes one bus step or none. -/
theorem Moves.traceStep {op : Op} {rest : List Op} {s t : State} (h : Moves op rest s t) : TraceStep s t := by
  rcases h.sameHardware_or_write with hsame | ⟨r, v, -, ht⟩
  · cases h with
    | read r ops mb es f v ho hm => exact .read r _ hsame ((keeps_trace _).proceed ((keeps_trace _).setLocal rfl))
    | vector k w v =>
      have ht : (proceed rest ((s.afterRead (.slot k.toNat)).setLocal v)).trace
          = s.trace ++ [s.reads (.slot k.toNat) (s.regRead (.slot k.toNat))] :=
        (keeps_trace _).proceed ((keeps_trace _).setLocal rfl)
      exact .read (.slot k.toNat) _ hsame ht
    | write r v => exact .write r v ((keeps_trace _).proceed rfl)
    | issue i w => exact .silent (State.setOps_trace s rest)
    | quiet q hq => exact .silent ((keeps_trace _).proceed rfl)
    | ret => exact .silent ((keeps_trace _).proceed rfl)
  · exact .write r v ht

/-- Every step but power-on reset, by the bus step it makes (R66). -/
theorem step_trace {s t : State} (h : step s = .next t) (hp : ∀ r, s.sched ≠ .powerOn :: r) : TraceStep s t := by
  cases step_steps h with
  | hw m hs => exact .silent rfl
  | line k up hs => exact .silent rfl
  | enableLine k p hs =>
    rw [enableLine_frame]
    exact .silent rfl
  | clock w hs => exact .silent rfl
  | powerOn hs => exact absurd hs (hp _)
  | trampoline =>
    unfold trampolineAct
    split <;> exact .silent rfl
  | idle => exact .silent rfl
  | host a l hh ha => cases a <;> exact .silent rfl
  | start i p tok by_ t hh hst => exact .silent hst.trace
  | op op rest t hh ho hm => exact hm.traceStep.of_setSched
  | external w tok hh => exact .silent ((keeps_trace s.trace).startOp rfl)
  | return_ hh => exact .silent rfl
  | initEnd hh => exact .silent rfl

/-- Settles O52: by the bus step a step makes, a read leaving the hardware as it was. -/
theorem readsHaveNoSideEffect : Obligations.ReadsHaveNoSideEffect := by
  unfold Obligations.ReadsHaveNoSideEffect
  intro s t h hp
  cases step_trace h hp with
  | silent ht => exact .inl ht
  | read r v hsame ht => exact .inr ⟨s.reads r v, ht, fun _ => ⟨hsame.can, hsame.nvic, hsame.vtor, hsame.mem⟩⟩
  | write r v ht => exact .inr ⟨s.writes r v, ht, by intro hd; cases hd⟩

/-! ## The register map (R23, R62) -/

/-- The parts of a legal choice of parameters that concern the bases of the register map (R6). -/
theorem Params.wf_bases {p : Params} (h : p.wf = true) :
    p.canBase.toNat % 4 = 0 ∧ p.nvicBase.toNat % 4 = 0 ∧ p.vtorAddr.toNat % 4 = 0 ∧ p.vtBase.toNat % 4 = 0 := by
  simp only [Params.wf, Bool.and_eq_true, decide_eq_true_eq] at h
  obtain ⟨⟨⟨⟨⟨⟨⟨⟨⟨⟨⟨-, hvt⟩, -⟩, -⟩, hcan⟩, hnvic⟩, hvtor⟩, -⟩, -⟩, -⟩, -⟩, -⟩ := h
  exact ⟨hcan, hnvic, hvtor, hvt⟩

/-- Words that are multiples of 4 add up to one, whatever wraps (R7). -/
theorem toNat_add_mod_four {a b : Word} (ha : a.toNat % 4 = 0) (hb : b.toNat % 4 = 0) : (a + b).toNat % 4 = 0 := by
  rw [BitVec.toNat_add]
  omega

theorem toNat_ofNat_mod_four {n : Nat} (h : n % 4 = 0) : (BitVec.ofNat 32 n).toNat % 4 = 0 := by
  rw [BitVec.toNat_ofNat]
  omega

/-- The registers of a mailbox or a FIFO stand 16 bytes apart. -/
theorem groupOffset_mod_four {base : Nat} (i : Nat) (h : base % 4 = 0) : (groupOffset base i).toNat % 4 = 0 :=
  toNat_ofNat_mod_four (by omega)

/-- Every register stands at a multiple of 4 (R62). -/
theorem Reg.addr_mod_four {p : Params} (h : p.wf = true) (r : Reg) : (r.addr p).toNat % 4 = 0 := by
  obtain ⟨hcan, hnvic, hvtor, hvt⟩ := Params.wf_bases h
  cases r with
  | mcr => exact hcan
  | msr | tsr | ier | esr | btr | fmr | fm1r | fs1r | ffa1r | fa1r | f0r1 | f0r2 => exact toNat_add_mod_four hcan rfl
  | rfr f => cases f <;> exact toNat_add_mod_four hcan rfl
  | tir n | tdtr n | tdlr n | tdhr n => exact toNat_add_mod_four hcan (groupOffset_mod_four n.toNat rfl)
  | rir f | rdtr f | rdlr f | rdhr f => exact toNat_add_mod_four hcan (groupOffset_mod_four f.toNat rfl)
  | iser k => exact toNat_add_mod_four hnvic (toNat_ofNat_mod_four (Nat.mul_mod_right 4 _))
  | ipr k =>
    exact toNat_add_mod_four (toNat_add_mod_four hnvic rfl) (toNat_ofNat_mod_four (Nat.mul_mod_right 4 _))
  | vtor => exact hvtor
  | slot k => exact toNat_add_mod_four hvt (toNat_ofNat_mod_four (Nat.mul_mod_right 4 k))

/-! ## Every step (R62) -/

/-- One more access of a register keeps the record aligned. -/
theorem aligned_of_access {s t : State} {d : Dir} {r : Reg} {v : BusWord} (hc : s.cfg.wf = true) (hs : s.aligned)
    (ht : t.trace = s.trace ++ [⟨d, r.addr s.cfg, v⟩]) : t.aligned := by
  intro e he
  rw [ht, List.mem_append, List.mem_singleton] at he
  rcases he with he | rfl
  · exact hs e he
  · exact r.addr_mod_four hc

/-- Power-on reset (R300). -/
theorem step_powerOn {s : State} {r : List Move} (hs : s.sched = .powerOn :: r) :
    step s = .next (powerOn (s.setSched r)) := by
  apply step_of_out
  rw [fetch_of_sched hs]
  rfl

/-- Power-on reset clears the record. -/
theorem powerOn_aligned (s : State) : (powerOn s).aligned := by
  intro e he
  cases he

/-- Settles O57: by the bus step a step makes, every register standing at a multiple of 4. -/
theorem accessesStayAligned : Obligations.AccessesStayAligned := by
  unfold Obligations.AccessesStayAligned
  intro s t hc hs h
  by_cases hp : ∃ r, s.sched = .powerOn :: r
  · obtain ⟨r, hr⟩ := hp
    rw [step_powerOn hr] at h
    exact next_inj h ▸ powerOn_aligned _
  · cases step_trace h (not_exists.1 hp) with
    | silent ht => exact fun e he => hs e (ht ▸ he)
    | read r v hsame ht => exact aligned_of_access hc hs ht
    | write r v ht => exact aligned_of_access hc hs ht

end Sys2Proof.Machine
end

section
/-! The three encodings: decoding inverts the encoder (R90, R93, R94, R95), the illegal command words (R96), and the rows
of the tables. -/

namespace Sys2Proof

/-! ## Decoding what the encoder gives -/

/-- A sequencer step decodes from its code (R94). -/
theorem decodeSeq_encode {p : Params} {c : BitVec 4} {i : Instr} (h : encode p i = .seq c) : decodeSeq c = some i := by
  cases i <;> cases h <;> rfl

/-- The parts of a legal choice of parameters that concern the callback tokens (R48). -/
theorem Params.wf_tokens {p : Params} (h : p.wf = true) :
    p.cbDefault ≠ p.cbRx0 ∧ p.cbDefault ≠ p.cbRx1 ∧ p.cbRx0 ≠ p.cbRx1 := by
  simp only [Params.wf, Bool.and_eq_true, decide_eq_true_eq] at h
  obtain ⟨⟨⟨-, h01⟩, h02⟩, h12⟩ := h
  exact ⟨h01, h02, h12⟩

/-- A callback body decodes from its token: the three tokens differ (R48, R95). -/
theorem decodeToken_encode {p : Params} {t : Word} {i : Instr} (hp : p.wf = true) (h : encode p i = .token t) :
    decodeToken p t = some i := by
  obtain ⟨h01, h02, h12⟩ := Params.wf_tokens hp
  cases i <;> cases h
  case cbDefault => simp [decodeToken]
  case cbRx0 => simp [decodeToken, h01.symm]
  case cbRx1 => simp [decodeToken, h02.symm, h12.symm]

/-- Decoding inverts the encoder, in each of the three spaces of R91. -/
theorem decode_encode {p : Params} (hp : p.wf = true) (i : Instr) : decode p (encode p i) = some i := by
  cases he : encode p i with
  | command w => rw [decode, decodeCommand_encode he]; rfl
  | seq c => exact decodeSeq_encode he
  | token t => exact decodeToken_encode hp he

/-- What decodes is the encoding of what it decodes to, in each of the three spaces of R91. -/
theorem encode_of_decode {p : Params} {e : Encoded} {i : Instr} (h : decode p e = some i) : encode p i = e := by
  cases e with
  | command w =>
    rw [decode] at h
    cases hd : decodeCommand w with
    | ok j =>
      rw [hd] at h
      cases h
      exact decodeCommand_ok hd
    | error x =>
      rw [hd] at h
      cases h
  | seq c => exact decodeSeq_ok h
  | token t => exact decodeToken_ok h

/-- Settles O1: the encoder and the decoders invert each other in each of the three spaces. -/
theorem decodeAndEncodeAgree : Obligations.DecodeAndEncodeAgree :=
  ⟨fun _ i hp => decode_encode hp i, fun _ _ _ => encode_of_decode⟩

/-- Settles O3: the words are literals, so the decoders evaluate. -/
theorem tableWordsDecode : Obligations.TableWordsDecode :=
  ⟨rfl, rfl, rfl, rfl, rfl, rfl, rfl, rfl, rfl, rfl, rfl, rfl⟩

/-! ## Illegal command words (R96) -/

/-- A command word of the encoder has a code of the map, and operand 0 where the operation takes none. -/
theorem fields_of_encode {p : Params} {w : Word} {i : Instr} (h : encode p i = .command w) :
    zeroField w = 0#16 ∧ opField w ∈ opCodes ∧ (opField w ∈ c0Codes → idxField w = 0#8) := by
  cases i <;> cases h <;> simp [opCodes, c0Codes]

/-- The command words that are refused are those of R96. -/
theorem decodeCommand_error_iff (w : Word) :
    (∃ x, decodeCommand w = .error x) ↔
      zeroField w ≠ 0#16 ∨ opField w ∉ opCodes ∨ (opField w ∈ c0Codes ∧ idxField w ≠ 0#8) := by
  constructor
  · rintro ⟨x, hx⟩
    by_cases hz : zeroField w = 0#16
    · rw [decodeCommand, if_pos hz] at hx
      exact .inr (decodeOp_error hx)
    · exact .inl hz
  · intro hill
    cases hd : decodeCommand w with
    | error x => exact ⟨x, rfl⟩
    | ok i =>
      obtain ⟨hz, hop, hidx⟩ := fields_of_encode (decodeCommand_ok (p := Params.default) hd)
      rcases hill with h | h | ⟨hc, h⟩
      · exact absurd hz h
      · exact absurd hop h
      · exact absurd (hidx hc) h

end Sys2Proof

namespace Sys2Proof.Machine

/-! ## What an operation can refuse (R260) -/

/-- The faults an operation can end in where it is started. -/
inductive StartFault (i : Instr) : Fault → Prop
  | context : StartFault i (.contextFault i)
  | operand (which : Operand) : StartFault i (.badOperand which)
  | range (c : Byte) : StartFault i (.rangeFault c)
  | notLive (k : Irq) : StartFault i (.notLive k)

/-- An outcome whose fault, if it is one, is one of those. -/
def Guarded (i : Instr) (o : Host.Outcome State Fault Refusal) : Prop := ∀ x, o = .fault x → StartFault i x

section
variable {i : Instr} {o : Host.Outcome State Fault Refusal}

theorem guarded_next (t : State) : Guarded i (.next t) := by
  intro x h
  cases h

theorem guarded_fault {x : Fault} (h : StartFault i x) : Guarded i (.fault x) := by
  intro y hy
  cases hy
  exact h

theorem guarded_ite {c : Prop} [Decidable c] {o' : Host.Outcome State Fault Refusal} (h : Guarded i o)
    (h' : Guarded i o') : Guarded i (if c then o else o') := by
  split
  · exact h
  · exact h'

theorem guarded_inContext (a : Admit) (s : State) (h : Guarded i o) : Guarded i (inContext a i s o) :=
  guarded_ite h (guarded_fault .context)

theorem guarded_withIrq (k : Irq) (s : State) (h : Guarded i o) : Guarded i (withIrq k s o) :=
  guarded_ite h (guarded_fault (.operand _))

theorem guarded_withFrame (s : State) (h : Guarded i o) : Guarded i (withFrame s o) :=
  guarded_ite (guarded_fault (.operand _)) (guarded_ite (guarded_fault (.operand _)) h)

theorem guarded_withMailbox {n : Byte} {f : MbIdx → Host.Outcome State Fault Refusal} (h : ∀ m, Guarded i (f m)) :
    Guarded i (withMailbox n f) := by
  unfold withMailbox
  split
  · exact h _
  · exact guarded_fault (.operand _)

theorem guarded_withFifo {n : Byte} {f : FifoIdx → Host.Outcome State Fault Refusal} (h : ∀ m, Guarded i (f m)) :
    Guarded i (withFifo n f) := by
  unfold withFifo
  split
  · exact h _
  · exact guarded_fault (.operand _)

theorem guarded_callbackBody (w : Word) (s : State) : Guarded i (callbackBody i w s) := by
  unfold callbackBody
  split
  · exact guarded_next _
  · exact guarded_fault .context

end

/-- Every operation's faults where it is started: those of R92, R97, R172, R122 and no other. -/
theorem exec_guarded (i : Instr) (s : State) : Guarded i (exec i s) := by
  cases i with
  | vtRelocate | canInit | canStart => exact guarded_inContext _ _ (guarded_next _)
  | btSolve | esUpdate | canGeterr => exact guarded_inContext .anyContext s (guarded_next _)
  | vtInstall k => exact guarded_inContext _ _ (guarded_withIrq _ _ (guarded_next _))
  | vtDispatch k =>
    exact guarded_inContext _ _ (guarded_withIrq _ _ (guarded_ite (guarded_next _) (guarded_fault (.notLive k))))
  | mbSend n => exact guarded_inContext _ _ (guarded_withMailbox fun m => guarded_withFrame _ (guarded_next _))
  | mbAbort n => exact guarded_inContext _ _ (guarded_withMailbox fun m => guarded_next _)
  | mbUpdate n | canGetmb n => exact guarded_inContext .anyContext s (guarded_withMailbox fun m => guarded_next _)
  | esLabel c =>
    change Guarded _ (execEsLabel c s)
    unfold execEsLabel
    exact guarded_inContext _ _ (guarded_ite (guarded_fault (.range c)) (guarded_next _))
  | canSend => exact guarded_inContext _ _ (guarded_withFrame _ (guarded_next _))
  | canRxisr f => exact guarded_inContext _ _ (guarded_withFifo fun m => guarded_next _)
  | stepReset | stepExitsleep | stepEnterconfig | stepOptions | stepTiming | stepFilter | stepLeaveconfig
  | stepEnableirq => exact guarded_next _
  | cbDefault =>
    change Guarded _ (execCbDefault s)
    unfold execCbDefault
    split
    · exact guarded_next _
    · exact guarded_fault .context
  | cbRx0 | cbRx1 => exact guarded_callbackBody _ s

/-- An operation that is started has a legal word: only the fetch raises `IllegalCommand` (R96). -/
theorem exec_ne_illegalCommand (i : Instr) (s : State) (w : Word) : exec i s ≠ .fault (.illegalCommand w) := by
  intro h
  cases exec_guarded i s _ h

/-! ## The word in the port (R90, R96) -/

/-- The engine finds a word in the port that does not decode. -/
theorem step_port_error {s : State} {pw : PortWord} {r : List Move} {x : DecodeError} (hh : s.halted = false)
    (hp : s.port = some pw) (hs : s.sched = .engine :: r) (hd : decodeCommand pw.word = .error x) :
    step s = .fault (.illegalCommand pw.word) := by
  apply step_of_out
  rw [fetch_of_sched hs]
  simp [runMove, fetchEngine, hh, hp, takePort, hd]

/-- The engine raises `IllegalCommand` for exactly the words that do not decode. -/
theorem step_illegalCommand_iff {s : State} {pw : PortWord} {r : List Move} (hh : s.halted = false)
    (hp : s.port = some pw) (hs : s.sched = .engine :: r) :
    step s = .fault (.illegalCommand pw.word) ↔ ∃ x, decodeCommand pw.word = .error x := by
  constructor
  · intro h
    cases hd : decodeCommand pw.word with
    | error x => exact ⟨x, rfl⟩
    | ok i =>
      rw [step_port hh hp hs hd] at h
      exact absurd h (exec_ne_illegalCommand i _ _)
  · rintro ⟨x, hx⟩
    exact step_port_error hh hp hs hx

/-- Settles O2: the fetch refuses what does not decode, no operation raises that fault, and the words that do not decode
are those of R96. -/
theorem illegalCommandRefused : Obligations.IllegalCommandRefused := by
  unfold Obligations.IllegalCommandRefused
  intro s by_ w r hh hp hs
  exact (step_illegalCommand_iff hh hp hs).trans (decodeCommand_error_iff w)

/-! ## Where the engine fetches from (R91, R94, R95, R180) -/

/-- The engine takes the step `SEQ` names; no token stands in the way of it in thread context. -/
theorem step_takeSeq {s : State} {r : List Move} {i : Instr} (hh : s.halted = false) (hs : s.sched = .engine :: r)
    (hp : s.port = none) (hc : s.ctx = .thread) (ho : s.thread.ops = []) (hi : s.initRun = true)
    (hd : decodeSeq s.seq = some i) : step s = exec i ((s.setSched r).setIssuer .engine) := by
  apply step_of_run
  rw [fetch_of_sched hs]
  simp [runMove, fetchEngine, hh, hp, hc, fetchThread, ho, hi, takeSeq, hd, State.setIssuer]

/-- Settles O50: one lemma for each place the engine fetches from. -/
theorem stepRunsDecodedOperation : Obligations.StepRunsDecodedOperation := by
  unfold Obligations.StepRunsDecodedOperation
  intro s i r hh hs
  exact ⟨fun pw hp hd => step_port (i := i) (r := r) hh hp hs hd,
    fun hp hc ho hi hd => step_takeSeq hh hs hp hc ho hi hd,
    fun k w hp hc ht hd => step_token (i := i) (r := r) hh hp hs hc ht hd,
    fun op rest hp ht ho => step_op ⟨hh, hp, ht, hs⟩ ho⟩

end Sys2Proof.Machine
end

section
/-! Register images (R98 to R101): identifiers, lengths and payloads round-trip. -/

namespace Sys2Proof.Machine

/-! ## Identifiers (R98, R99) -/

/-- The format bit tells an extended identifier (R98). -/
theorem idWord_bit2 (id : Word) : (idWord id).getLsbD 2 = decide (0x7FF#32 < id) := by
  by_cases h : id ≤ 0x7FF#32
  · have hn : ¬0x7FF#32 < id := BitVec.not_lt.2 h
    simp [idWord_standard h, hn]
  · have hn : 0x7FF#32 < id := BitVec.not_le.1 h
    simp [idWord_extended h, hn]

theorem idWord_bit1 (id : Word) : (idWord id).getLsbD 1 = false := by
  by_cases h : id ≤ 0x7FF#32
  · simp [idWord_standard h]
  · simp [idWord_extended h]

/-- A standard image gives the identifier back: it has no bit above the eleven (R99). -/
theorem idOf_idWord_standard {id : Word} (h : id ≤ 0x7FF#32) : idOf (idWord id) = id.setWidth 29 := by
  have hfmt : (idWord id).getLsbD 2 = false := by
    rw [idWord_bit2, decide_eq_false (BitVec.not_lt.2 h)]
  rw [idOf, if_neg (Bool.eq_false_iff.1 hfmt), idWord_standard h]
  apply BitVec.eq_of_getLsbD_eq
  intro i hi
  by_cases hlow : i < 11
  · simp [hi, hlow]
    omega
  · have hzero : id.getLsbD i = false := getLsbD_of_bound (k := 11) (Nat.lt_succ_of_le h) (by omega)
    simp [hlow, hzero]

/-- An extended image gives the low 29 bits of the identifier back (R99). -/
theorem idOf_idWord_extended {id : Word} (h : ¬id ≤ 0x7FF#32) : idOf (idWord id) = id.setWidth 29 := by
  have hfmt : (idWord id).getLsbD 2 = true := by
    rw [idWord_bit2, decide_eq_true (BitVec.not_le.1 h)]
  rw [idOf, if_pos hfmt, idWord_extended h]
  apply BitVec.eq_of_getLsbD_eq
  intro i hi
  have htop : 3 + i < 32 := by omega
  have hbit : 3 + i ≠ 2 := by omega
  rw [BitVec.getLsbD_extractLsb', BitVec.getLsbD_or, four_bits, BitVec.getLsbD_shiftLeft, BitVec.getLsbD_setWidth]
  simp [hi, htop, hbit]

/-- Settles O4: bit by bit, standard and extended images apart. -/
theorem identifierRoundTrip : Obligations.IdentifierRoundTrip := by
  unfold Obligations.IdentifierRoundTrip
  intro id _
  refine ⟨?_, idWord_bit2 id, idWord_bit1 id, idWord_bit0 id⟩
  by_cases h : id ≤ 0x7FF#32
  · exact idOf_idWord_standard h
  · exact idOf_idWord_extended h

/-! ## Lengths (R100) -/

/-- The received length is clamped to 8. -/
theorem lenOf_toNat (w : Word) : (lenOf w).toNat = min (w.extractLsb' 0 4).toNat 8 := by
  unfold lenOf
  split
  next h => exact (Nat.min_eq_left h).symm
  next h => exact (Nat.min_eq_right (Nat.le_of_not_le h)).symm

theorem extractLsb'_dlcWord (len : BitVec 4) : (dlcWord len).extractLsb' 0 4 = len := by
  apply BitVec.eq_of_getLsbD_eq
  intro i hi
  simp [dlcWord, hi]
  omega

/-- A legal length round-trips. -/
theorem lenOf_dlcWord {len : BitVec 4} (h : len ≤ 8#4) : lenOf (dlcWord len) = len := by
  rw [lenOf, extractLsb'_dlcWord, if_pos h]

/-! ## Payloads (R61, R101) -/

/-- Each byte of a word of payload stands at its place. -/
theorem quadWord_eq (q : Quad) :
    quadWord q = q.b0.setWidth 32 ||| q.b1.setWidth 32 <<< 8 ||| q.b2.setWidth 32 <<< 16
      ||| q.b3.setWidth 32 <<< 24 := by
  apply BitVec.eq_of_getLsbD_eq
  intro i hi
  simp only [quadWord, BitVec.getLsbD_append, BitVec.getLsbD_or, BitVec.getLsbD_shiftLeft, BitVec.getLsbD_setWidth]
  grind

/-- The bytes of a word of payload round-trip. -/
theorem bytesOf_quadWord (q : Quad) : bytesOf (quadWord q) = q := by
  obtain ⟨b0, b1, b2, b3⟩ := q
  simp only [bytesOf, quadWord, Quad.mk.injEq]
  refine ⟨?_, ?_, ?_, ?_⟩
  all_goals
    apply BitVec.eq_of_getLsbD_eq
    intro i hi
    simp only [BitVec.getLsbD_extractLsb', BitVec.getLsbD_append]
    grind

/-- Settles O5: the clamp on lengths, and the place of each byte in its word. -/
theorem payloadRoundTrip : Obligations.PayloadRoundTrip :=
  ⟨lenOf_toNat, fun _ h => ⟨lenOf_dlcWord h, rfl⟩,
    fun d => ⟨quadWord_eq d.lo, quadWord_eq d.hi, bytesOf_quadWord d.lo, bytesOf_quadWord d.hi⟩⟩

end Sys2Proof.Machine
end

section
/-! An operand out of its range ends the operation in the outcome of R97. -/

namespace Sys2Proof.Machine

/-! ## The operand checks (R97) -/

section
variable {i : Instr} {s : State} {o : Host.Outcome State Fault Refusal}

/-- In a context that admits the operation the context check is passed (R274). -/
theorem inContext_of_holds {a : Admit} (h : a.holds s = true) : inContext a i s o = o := by
  rw [inContext, if_pos h]

theorem inContext_thread (h : s.ctx = .thread) : inContext .threadOnly i s o = o :=
  inContext_of_holds (by simp [Admit.holds, h])

theorem withIrq_bad {k : Irq} (h : s.cfg.nVec ≤ k.toNat) : withIrq k s o = .fault (.badOperand .interruptNumber) := by
  rw [withIrq, if_neg (Nat.not_lt.2 h)]

theorem withMailbox_bad {n : Byte} (h : 2 < n.toNat) (f : MbIdx → Host.Outcome State Fault Refusal) :
    withMailbox n f = .fault (.badOperand .mailbox) := by
  rw [withMailbox, mbOfIdx_none h]

theorem withFifo_bad {f : Byte} (h : 1 < f.toNat) (g : FifoIdx → Host.Outcome State Fault Refusal) :
    withFifo f g = .fault (.badOperand .fifoIndex) := by
  rw [withFifo, fifoOfIdx_none h]

theorem withFrame_badLength (h : 8#4 < s.args.len) : withFrame s o = .fault (.badOperand .length) := by
  rw [withFrame, if_pos h]

theorem withFrame_badIdentifier (hl : s.args.len ≤ 8#4) (h : 0x1FFFFFFF#32 < s.args.id) :
    withFrame s o = .fault (.badOperand .identifier) := by
  rw [withFrame, if_neg (BitVec.not_lt.2 hl), if_pos h]

end

/-- A byte in the range names a mailbox. -/
theorem exists_mbOfIdx {n : Byte} (h : n.toNat ≤ 2) : ∃ m, mbOfIdx n = some m := by
  have hn : n.toNat = 0 ∨ n.toNat = 1 ∨ n.toNat = 2 := by omega
  rcases hn with h | h | h
  · exact ⟨.mb0, mbOfIdx_of h⟩
  · exact ⟨.mb1, mbOfIdx_of h⟩
  · exact ⟨.mb2, mbOfIdx_of h⟩

/-- The operations that take the Frame operand come to its check where the context and the mailbox are in order. -/
theorem exec_withFrame {i : Instr} {n : Byte} {s : State} (hc : s.ctx = .thread) (hn : n.toNat ≤ 2)
    (hi : i = .canSend ∨ i = .mbSend n) : ∃ o, exec i s = withFrame s o := by
  rcases hi with rfl | rfl
  · exact ⟨_, inContext_thread hc⟩
  · obtain ⟨m, hm⟩ := exists_mbOfIdx hn
    refine ⟨.next (startOp (sendOps m s.args) s), (inContext_thread hc).trans ?_⟩
    rw [withMailbox, hm]

/-- Settles O36: the check of each operand, after the context check has been passed. -/
theorem badOperandRefused : Obligations.BadOperandRefused := by
  unfold Obligations.BadOperandRefused
  refine ⟨?interruptNumber, ?mailbox, ?fifoIndex, ?errorCode, ?frame⟩
  case interruptNumber =>
    intro k s hc hk
    refine ⟨(inContext_thread hc).trans (withIrq_bad hk), fun hi => ?_⟩
    exact (inContext_of_holds (by simp [Admit.holds, hi, hc])).trans (withIrq_bad hk)
  case mailbox =>
    intro n s hn
    refine ⟨withMailbox_bad hn _, withMailbox_bad hn _, fun hc => ⟨?_, .inl ?_⟩⟩
    · exact (inContext_thread hc).trans (withMailbox_bad hn _)
    · exact (inContext_thread hc).trans (withMailbox_bad hn _)
  case fifoIndex =>
    intro f k s hf hc hi
    exact (inContext_of_holds (by simp [Admit.holds, hi, hc])).trans (withFifo_bad hf _)
  case errorCode =>
    intro c s hc
    have hlt : 7#8 < c := BitVec.lt_def.2 hc
    exact if_pos hlt
  case frame =>
    intro i n s hc hn hi
    obtain ⟨o, ho⟩ := exec_withFrame hc hn hi
    rw [ho]
    exact ⟨fun hl _ => withFrame_badLength hl, withFrame_badIdentifier, fun hl _ => .inl (withFrame_badLength hl)⟩

end Sys2Proof.Machine
end

section
/-! The vector table: filling it (R120), installing a callback (R121), dispatching (R122, R129), and the callback bodies
(R124 to R128). -/

namespace Sys2Proof.Machine

/-! ## Starting the operations (R260) -/

theorem withIrq_of_lt {k : Irq} {s : State} {o : Host.Outcome State Fault Refusal} (h : k.toNat < s.cfg.nVec) :
    withIrq k s o = o := by
  rw [withIrq, if_pos h]

theorem exec_vtRelocate {s : State} (hc : s.ctx = .thread) :
    exec .vtRelocate s = .next (startOp (relocateOps s.cfg) s) :=
  inContext_thread hc

theorem exec_vtInstall {k : Irq} {s : State} (hc : s.ctx = .thread) (hk : k.toNat < s.cfg.nVec) :
    exec (.vtInstall k) s = .next (startOp (installOps k s.args.cb) s) :=
  (inContext_thread hc).trans (withIrq_of_lt hk)

theorem exec_vtDispatch {k : Irq} {s : State} (hc : s.ctx = .thread) (hi : s.issuer = .trampoline)
    (hk : k.toNat < s.cfg.nVec) :
    exec (.vtDispatch k) s = if s.live then .next (enterInterrupt k s) else .fault (.notLive k) :=
  (inContext_of_holds (by simp [Admit.holds, hi, hc])).trans (withIrq_of_lt hk)

theorem exec_vtDispatch_live {k : Irq} {s : State} (hc : s.ctx = .thread) (hi : s.issuer = .trampoline)
    (hk : k.toNat < s.cfg.nVec) (hl : s.vtor = s.cfg.vtBase) :
    exec (.vtDispatch k) s = .next (enterInterrupt k s) := by
  rw [exec_vtDispatch hc hi hk, if_pos (show s.live = true from decide_eq_true hl)]

theorem exec_vtDispatch_notLive {k : Irq} {s : State} (hc : s.ctx = .thread) (hi : s.issuer = .trampoline)
    (hk : k.toNat < s.cfg.nVec) (hl : s.vtor ≠ s.cfg.vtBase) : exec (.vtDispatch k) s = .fault (.notLive k) := by
  rw [exec_vtDispatch hc hi hk, if_neg (by simp [State.live, hl])]

/-! ## Runs -/

/-- A run of a given length ends in one state. -/
theorem Reaches.unique {n : Nat} {s t u : State} (ht : Reaches n s t) (hu : Reaches n s u) : t = u := by
  induction n generalizing s with
  | zero => exact ht.symm.trans hu
  | succ n ih =>
    rw [Reaches] at ht hu
    cases hs : step s with
    | next v => rw [hs] at ht hu; exact ih ht hu
    | fault x => rw [hs] at ht; exact ht.elim
    | refused x => rw [hs] at ht; exact ht.elim

theorem engineMoves_succ_last (n : Nat) (r : List Move) : engineMoves (n + 1) r = engineMoves n (.engine :: r) := by
  simp [engineMoves, List.replicate_succ']

/-- The way back from an operation that has only used the bus. -/
theorem proceed_busy (s : State) (c : Can) (d : Nat) (t : List BusEvent) (r : List Move) (ops rest : List Op) :
    proceed rest (s.busy c d t r ⟨ops, s.task.v⟩)
      = proceed rest { s with can := c, draws := d, trace := t, sched := r } :=
  proceed_setOps ops rest { s with can := c, draws := d, trace := t, sched := r }

/-- In a context where nothing is running there is nothing to go back to. -/
theorem proceed_idle {s : State} (h : s.task.ops = []) : proceed [] s = s := by
  rw [proceed_nil, ← h]
  exact State.setTask_same s

theorem putCore_slot (s : State) (k : Nat) (w : Word) :
    s.putCore (.slot k) (.lit w) = { s with mem := s.mem.putWord (slotAddr s.cfg k).toNat w } := by
  simp [State.putCore]

theorem putCore_vtor (s : State) (w : Word) : s.putCore .vtor (.lit w) = { s with vtor := w } := by
  simp [State.putCore]

@[simp] theorem BusWord.word_given (w : Word) (d : Nat) : (BusWord.given w d).word = w := by
  have hon : (BusWord.given w d).on 0xFFFFFFFF#32 = w &&& 0xFFFFFFFF#32 :=
    BusWord.on_known (by simp [BusWord.given])
  rw [BusWord.word, hon, and_ones]

/-! ## The slots in the table RAM (R47) -/

/-- The table RAM with the word `w` written to the slots `ks`, in this order. -/
def Memory.fillSlots (p : Params) (w : Word) : List Nat → Memory → Memory
  | [], m => m
  | k :: ks, m => Memory.fillSlots p w ks (m.putWord (slotAddr p k).toNat w)

section
variable {p : Params} (ht : p.vtBase.toNat + 4 * p.nVec ≤ 2 ^ 32)
include ht

/-- Slots do not overlap: a word written to one is read there and at no other. -/
theorem readWord_putSlot (m : Memory) (w d : Word) {j k : Nat} (hj : j < p.nVec) (hk : k < p.nVec) :
    (m.putWord (slotAddr p k).toNat w).readWord (slotAddr p j).toNat d
      = if j = k then ⟨w, 0#32, d⟩ else m.readWord (slotAddr p j).toNat d := by
  split
  · next h => rw [h, Memory.readWord_putWord]
  · next h =>
    refine Memory.readWord_putWord_other w d ?_
    rw [slotAddr_toNat ht hj, slotAddr_toNat ht hk]
    omega

theorem readWord_fillSlots (w d : Word) {ks : List Nat} (hks : ∀ k ∈ ks, k < p.nVec) {j : Nat} (hj : j < p.nVec)
    (m : Memory) :
    (m.fillSlots p w ks).readWord (slotAddr p j).toNat d
      = if j ∈ ks then ⟨w, 0#32, d⟩ else m.readWord (slotAddr p j).toNat d := by
  induction ks generalizing m with
  | nil => rfl
  | cons k ks ih =>
    obtain ⟨hk, hks⟩ := List.forall_mem_cons.1 hks
    rw [Memory.fillSlots, ih hks, readWord_putSlot ht m w d hj hk]
    by_cases h : j = k <;> by_cases h' : j ∈ ks <;> simp [h, h']

/-- Filling slots changes no byte outside the table. -/
theorem byteAt_fillSlots (w : Word) {ks : List Nat} (hks : ∀ k ∈ ks, k < p.nVec) {a : Nat}
    (ha : ¬(p.vtBase.toNat ≤ a ∧ a < p.vtBase.toNat + 4 * p.nVec)) (m : Memory) :
    (m.fillSlots p w ks).byteAt a = m.byteAt a := by
  induction ks generalizing m with
  | nil => rfl
  | cons k ks ih =>
    obtain ⟨hk, hks⟩ := List.forall_mem_cons.1 hks
    rw [Memory.fillSlots, ih hks]
    refine Memory.byteAt_putWord_other w ?_
    rw [slotAddr_toNat ht hk]
    omega

end

/-! ## `VT.RELOCATE` (R120) -/

/-- Writes of one word to slots, one bus step each. -/
theorem reaches_fillSlots {n d : Nat} {s T : State} {c : Can} {t : List BusEvent} {r : List Move} {ops rest : List Op}
    {v : BusWord} {w : Word} (h : s.halted = false ∧ s.port = none ∧ s.token = none) (ks : List Nat)
    (h' : Reaches n (proceed rest ({ s with mem := s.mem.fillSlots s.cfg w ks }.busy c d
      (t ++ ks.map (fun k => s.writeEvent (.slot k) w)) r ⟨ops, v⟩)) T) :
    Reaches (n + ks.length)
      (proceed (ks.map (fun k => .bus (.wr (.slot k) w)) ++ rest) (s.busy c d t (engineMoves ks.length r) ⟨ops, v⟩))
      T := by
  induction ks generalizing s t with
  | nil => simpa [Memory.fillSlots] using h'
  | cons k ks ih =>
    rw [List.map_cons, List.cons_append, proceed_bus, busy_setOps]
    refine reaches_wr h ?_
    rw [← proceed_setOps ops, busy_setOps, putCore_slot]
    refine ih h ?_
    simpa [Memory.fillSlots, State.writeEvent, Can.write] using h'

/-- The run of `VT.RELOCATE`: the slots in ascending order, then `VTOR`. -/
theorem vtRelocate_run {s : State} {r : List Move} (hp : s.plays (engineMoves (s.cfg.nVec + 1) r)) :
    Reaches (s.cfg.nVec + 1) (startOp (relocateOps s.cfg) s) (proceed s.task.ops
      { s with
        sched := r, vtor := s.cfg.vtBase, mem := s.mem.fillSlots s.cfg s.cfg.cbDefault (List.range s.cfg.nVec)
        trace := s.trace ++ (List.range s.cfg.nVec).map (fun k => s.writeEvent (.slot k) s.cfg.cbDefault)
          ++ [s.writeEvent .vtor s.cfg.vtBase] }) := by
  obtain ⟨hh, hport, htok, hs⟩ := hp
  have hlen : (List.range s.cfg.nVec).length = s.cfg.nVec := List.length_range
  have hstart : startOp (relocateOps s.cfg) s
      = proceed ((List.range s.cfg.nVec).map (fun k => .bus (.wr (.slot k) s.cfg.cbDefault))
          ++ .bus (.wr .vtor s.cfg.vtBase) :: s.task.ops)
        (s.busy s.can s.draws s.trace (engineMoves (List.range s.cfg.nVec).length (.engine :: r)) s.task) := by
    rw [hlen, ← engineMoves_succ_last, ← hs, ← busy_self, startOp, relocateOps, List.append_assoc]
    rfl
  have hn : s.cfg.nVec + 1 = 1 + (List.range s.cfg.nVec).length := by rw [hlen, Nat.add_comm]
  rw [hstart, hn]
  refine reaches_fillSlots ⟨hh, hport, htok⟩ _ ?_
  rw [proceed_bus, busy_setOps]
  refine reaches_wr ⟨hh, hport, htok⟩ ?_
  rw [putCore_vtor]
  exact proceed_busy _ _ _ _ _ _ _

/-- Settles O8: the run writes the slots one after another and then `VTOR`; what the table RAM then holds is read off
slot by slot. -/
theorem relocateFillsTable : Obligations.RelocateFillsTable := by
  unfold Obligations.RelocateFillsTable
  intro s r hwf hc hp
  obtain ⟨-, -, -, -, ht, -⟩ := Params.wf_table hwf
  have hks : ∀ k ∈ List.range s.cfg.nVec, k < s.cfg.nVec := fun k => List.mem_range.1
  refine ⟨_, _, exec_vtRelocate hc, vtRelocate_run hp, rfl, decide_eq_true rfl, fun k hk d => ?_, fun a ha => ?_⟩
  · exact (readWord_fillSlots ht _ _ hks hk s.mem).trans (if_pos (List.mem_range.2 hk))
  · exact byteAt_fillSlots ht _ hks ha s.mem

/-! ## `VT.INSTALL` (R121) -/

/-- `s` after the token `w` has been written to slot `k`, `r` being the moves still to come. -/
def State.installed (s : State) (k : Nat) (w : Word) (r : List Move) : State :=
  { s with
    sched := r, mem := s.mem.putWord (slotAddr s.cfg k).toNat w, trace := s.trace ++ [s.writeEvent (.slot k) w] }

theorem vtInstall_run {k : Irq} {s : State} {w : Word} {r : List Move} (hp : s.plays (engineMoves 1 r)) :
    Reaches 1 (startOp (installOps k w) s) (proceed s.task.ops (s.installed k.toNat w r)) := by
  obtain ⟨hh, hport, htok, hs⟩ := hp
  rw [installOps, startOp_busy, hs]
  refine reaches_wr ⟨hh, hport, htok⟩ ?_
  rw [putCore_slot]
  exact proceed_busy _ _ _ _ _ _ _

/-- Settles O9: one write, then the way back. -/
theorem installWritesSlot : Obligations.InstallWritesSlot := by
  unfold Obligations.InstallWritesSlot
  intro k s r hwf hc hk hp
  exact ⟨_, s.installed k.toNat s.args.cb r, exec_vtInstall hc hk, vtInstall_run hp, rfl,
    fun d => Memory.readWord_putWord _ _ _ _, fun a ha => Memory.byteAt_putWord_other _ ha⟩

/-! ## `VT.DISPATCH` (R122) -/

/-- `s` after the entry of interrupt `k` and the read of its slot, `r` being the moves still to come. -/
def State.dispatched (s : State) (k : Irq) (r : List Move) : State :=
  { s with
    sched := r, ctx := .interrupt k, savedCtx := .thread, isr := ⟨[], s.regRead (.slot k.toNat)⟩
    token := some (s.regRead (.slot k.toNat)).word, draws := s.draws + 1
    trace := s.trace ++ [s.readEvent 0 (.slot k.toNat)] }

/-- The bus step of a dispatch: one read of the slot (R122). -/
theorem step_enterInterrupt {k : Irq} {s : State} {r : List Move} (hc : s.ctx = .thread) (hp : s.plays (.engine :: r)) :
    step (enterInterrupt k s) = .next (s.dispatched k r) := by
  have hbus : step (enterInterrupt k s) = busStep (.vector k) [] ((enterInterrupt k s).setSched r) :=
    step_bus hp rfl
  rw [hbus, State.dispatched, ← hc]
  rfl

/-- Settles O10: the entry and the read of the slot; the check that the table is live comes before both. -/
theorem dispatchReadsSlotOfLiveTable : Obligations.DispatchReadsSlotOfLiveTable := by
  unfold Obligations.DispatchReadsSlotOfLiveTable
  refine ⟨fun k s r hc hi hk hl hp => ?_, fun k s hc hi hk hl => exec_vtDispatch_notLive hc hi hk hl⟩
  exact ⟨_, _, exec_vtDispatch_live hc hi hk hl, reaches_succ (step_enterInterrupt hc hp) rfl, rfl⟩

/-- Settles O11: the install run ends with the slot written, so the read of the dispatch finds the new token in that
slot and, slots being disjoint, the old word in another. -/
theorem installedCallbackIsDispatched : Obligations.InstalledCallbackIsDispatched := by
  unfold Obligations.InstalledCallbackIsDispatched
  intro k j s t u v r hwf hc hk hj hidle hl hp hinst hrun hdisp
  obtain ⟨-, -, -, -, ht, -⟩ := Params.wf_table hwf
  have hp' : s.plays (engineMoves 1 (.engine :: r)) := hp
  have hu : u = proceed s.task.ops (s.installed k.toNat s.args.cb (.engine :: r)) := by
    rw [exec_vtInstall hc hk] at hinst
    exact hrun.unique (next_inj hinst ▸ vtInstall_run hp')
  rw [hidle, proceed_idle (s := s.installed k.toNat s.args.cb (.engine :: r)) hidle] at hu
  subst hu
  have hlive := exec_vtDispatch_live (k := j)
    (s := (s.installed k.toNat s.args.cb (.engine :: r)).setIssuer .trampoline) hc rfl hj hl
  obtain rfl := next_inj (hlive.symm.trans hdisp)
  obtain ⟨hh, hport, htok, -⟩ := hp
  refine ⟨_, reaches_succ (step_enterInterrupt hc ⟨hh, hport, htok, rfl⟩) rfl, rfl, congrArg some ?_⟩
  have hread := readWord_putSlot ht s.mem s.args.cb (Config.freeWord s.draws) hj hk
  refine (congrArg BusWord.word hread).trans ?_
  by_cases h : j = k
  · rw [if_pos h, if_pos (congrArg BitVec.toNat h)]
    exact BusWord.word_given s.args.cb s.draws
  · rw [if_neg h, if_neg (fun e => h (BitVec.eq_of_toNat_eq e))]
    rfl

end Sys2Proof.Machine
end

section
/-! The callback bodies (R124 to R128) and the halt of the default handler (R126, R262). -/

namespace Sys2Proof.Machine

/-! ## The default handler (R126) -/

theorem exec_cbDefault {k : Irq} {s : State} (hc : s.ctx = .interrupt k) :
    exec .cbDefault s = .next { s with diag := s.diag ++ [.unhandledInterrupt k], halted := true } := by
  change execCbDefault s = _
  rw [execCbDefault, hc]

/-- What a move does to a halted machine: CANHW and the environment go on, power-on reset ends the halt, the others do
nothing (R262). -/
def haltedMove (s : State) : Move → State
  | .hw m => hwMove m s
  | .line k up => setLine k up s
  | .clock hz => { s with clkHz := hz }
  | .powerOn => powerOn s
  | .engine | .trampoline | .enableLine _ _ => s

theorem takeable_of_halted {s : State} (hh : s.halted = true) : s.takeable = none := by
  simp [State.takeable, hh]

theorem fetchEngine_of_halted {s : State} (hh : s.halted = true) : fetchEngine s = .out (.next s) := by
  rw [fetchEngine, if_pos hh]

theorem trampolineAct_of_halted {s : State} (hh : s.halted = true) : trampolineAct s = s := by
  rw [trampolineAct, takeable_of_halted hh]

theorem enableLine_of_halted {k : Irq} {p : Byte} {s : State} (hh : s.halted = true) : enableLine k p s = s := by
  simp [enableLine, hh]

theorem runMove_of_halted {m : Move} {s : State} (hh : s.halted = true) :
    runMove m s = .out (.next (haltedMove s m)) := by
  cases m with
  | engine => exact fetchEngine_of_halted hh
  | trampoline => exact congrArg (Fetch.out ∘ .next) (trampolineAct_of_halted hh)
  | enableLine k p => exact congrArg (Fetch.out ∘ .next) (enableLine_of_halted hh)
  | hw m | line k up | clock hz | powerOn => rfl

theorem step_of_halted {s : State} {m : Move} {r : List Move} (hh : s.halted = true) (hs : s.sched = m :: r) :
    step s = .next (haltedMove (s.setSched r) m) := by
  apply step_of_out
  rw [fetch_of_sched hs]
  exact runMove_of_halted hh

theorem step_of_halted_nil {s : State} (hh : s.halted = true) (hs : s.sched = []) : step s = .next s := by
  apply step_of_out
  rw [fetch, hs]
  simp [takeable_of_halted hh, fetchEngine_of_halted hh]

/-- Settles O12: the meaning of the body, then each move of a halted machine. -/
theorem defaultHandlerHaltsForGood : Obligations.DefaultHandlerHaltsForGood := by
  unfold Obligations.DefaultHandlerHaltsForGood
  refine ⟨fun k s hc => exec_cbDefault hc, fun s hh => ?_⟩
  cases hs : s.sched with
  | nil =>
    refine ⟨s, step_of_halted_nil hh hs, fun _ => ?_, fun _ _ h => (nomatch h), fun _ _ => rfl⟩
    exact congrArg s.setSched hs
  | cons m r =>
    refine ⟨_, step_of_halted hh hs, ?_⟩
    cases m with
    | powerOn => exact ⟨fun h => absurd rfl (h r), fun _ _ h => (nomatch h), fun h => absurd rfl (h r)⟩
    | hw m =>
      refine ⟨fun _ => rfl, fun m' r' h => ?_, fun _ h => absurd rfl (h m r)⟩
      cases h
      rfl
    | engine | trampoline | line k up | enableLine k p | clock hz =>
      exact ⟨fun _ => rfl, fun _ _ h => (nomatch h), fun _ _ => rfl⟩

/-! ## The receive closures (R127, R128) -/

/-- The body of FIFO `f`'s closure. -/
def rxClosure : FifoIdx → Instr
  | .f0 => .cbRx0
  | .f1 => .cbRx1

/-- The `idx` byte that names FIFO `f`. -/
def fifoByte : FifoIdx → Byte
  | .f0 => 0#8
  | .f1 => 1#8

theorem exec_rxClosure {f : FifoIdx} {k : Irq} {s : State} (hc : s.ctx = .interrupt k) :
    exec (rxClosure f) s
      = .next (s.setOps (.issue .callback (commandWord 0x51#8 (fifoByte f)) :: .ret :: s.isr.ops)) := by
  have hbody (i : Instr) (w : Word) :
      callbackBody i w s = .next (s.setOps (.issue .callback w :: .ret :: s.isr.ops)) := by
    rw [callbackBody, hc]
    simp only [startOp, State.task_eq_isr hc]
    rfl
  cases f with
  | f0 => exact hbody .cbRx0 _
  | f1 => exact hbody .cbRx1 _

/-- A callback writes a command word to the port, and the engine takes it from there (R90, R92). -/
theorem issue_run {s : State} {by_ : Issuer} {w : Word} {i : Instr} {rest : List Op} {r : List Move}
    (hp : s.plays (engineMoves 2 r)) (ho : s.task.ops = .issue by_ w :: rest) (hd : decodeCommand w = .ok i) :
    ∃ u : State, step s = .next u ∧ step u = exec i (((s.setSched r).setOps rest).setIssuer by_) := by
  have hissue : step s = .next (((s.setSched (engineMoves 1 r)).setOps rest).setPort (some ⟨by_, w⟩)) := step_op hp ho
  refine ⟨_, hissue, ?_⟩
  obtain ⟨hh, hport, -, -⟩ := hp
  rw [step_port (pw := ⟨by_, w⟩) (r := r) (by simpa using hh) (State.setPort_port _ _) (by simp) hd]
  congr 1
  apply State.ext <;> simp [hport] <;> rfl

/-- The run of a closure: its command is issued, and its return is what is left of the callback. -/
theorem rxClosure_run {f : FifoIdx} {k : Irq} {s : State} {r : List Move} (hc : s.ctx = .interrupt k)
    (hp : s.plays (engineMoves 2 r)) :
    ∃ t u : State, exec (rxClosure f) s = .next t ∧ step t = .next u
      ∧ step u = exec (.canRxisr (fifoByte f))
          { s with sched := r, issuer := .callback, isr := ⟨.ret :: s.isr.ops, s.isr.v⟩ } := by
  obtain ⟨hh, hport, htok, hs⟩ := hp
  have hdec : decodeCommand (commandWord 0x51#8 (fifoByte f)) = .ok (.canRxisr (fifoByte f)) := by
    rw [decodeCommand_commandWord]
    rfl
  have hplays : (s.setOps (.issue .callback (commandWord 0x51#8 (fifoByte f)) :: .ret :: s.isr.ops)).plays
      (engineMoves 2 r) :=
    ⟨by simpa using hh, by simpa using hport, by simpa using htok, by simpa using hs⟩
  obtain ⟨u, hissue, htake⟩ := issue_run hplays (by rw [State.setOps_task]) hdec
  refine ⟨_, u, exec_rxClosure hc, hissue, htake.trans ?_⟩
  congr 1
  apply State.ext <;> simp [hc]

/-- Settles O13: the run of a closure, for each of the two. -/
theorem receiveClosuresIssue : Obligations.ReceiveClosuresIssue := by
  unfold Obligations.ReceiveClosuresIssue
  intro k f s r hc hp
  obtain ⟨t, u, hexec, hstep, hnext⟩ := rxClosure_run (f := f) hc hp
  cases f with
  | f0 => exact ⟨t, u, hexec, reaches_succ hstep rfl, hnext⟩
  | f1 => exact ⟨t, u, hexec, reaches_succ hstep rfl, hnext⟩

/-! ## External callbacks (R124) -/

theorem decodeToken_external {p : Params} {w : Word} (h : w ≠ p.cbDefault) (h0 : w ≠ p.cbRx0) (h1 : w ≠ p.cbRx1) :
    decodeToken p w = none := by
  rw [decodeToken, if_neg h, if_neg h0, if_neg h1]

theorem extCommands_of_unlisted {p : Params} {w : Word} (h : ∀ e ∈ p.extAction, e.1 ≠ w) : extCommands p w = [] := by
  have hfind : p.extAction.find? (fun e => decide (e.1 = w)) = none := by
    rw [List.find?_eq_none]
    intro e he
    simpa using h e he
  rw [extCommands, hfind]
  rfl

/-- An external callback without commands returns at once (R270). -/
theorem invokeExternal_of_unlisted {w : Word} {s : State} (h : ∀ e ∈ s.cfg.extAction, e.1 ≠ w) :
    invokeExternal w s = leaveInterrupt s := by
  rw [invokeExternal, extCommands_of_unlisted h]
  exact congrArg leaveInterrupt s.setTask_same

/-- The engine invokes a token that names no body of the block. -/
theorem step_external {s : State} {r : List Move} {k : Irq} {w : Word} (hh : s.halted = false) (hp : s.port = none)
    (hs : s.sched = .engine :: r) (hc : s.ctx = .interrupt k) (ht : s.token = some w)
    (hd : decodeToken s.cfg w = none) :
    step s = .next (invokeExternal w ((s.setSched r).setToken none)) := by
  apply step_of_out
  rw [fetch_of_sched hs]
  simp [runMove, fetchEngine, hh, hp, hc, fetchInterrupt, ht, invokeToken, hd, State.setToken]

/-- Settles O14: the token decodes to no body and lists no command, so only the return is left. -/
theorem externalCallbackReturns : Obligations.ExternalCallbackReturns := by
  unfold Obligations.ExternalCallbackReturns
  intro k w s r hh hp hc hs ht hd h0 h1 hext
  refine (step_external hh hp hs hc ht (decodeToken_external hd h0 h1)).trans ?_
  exact congrArg _ (invokeExternal_of_unlisted hext)

end Sys2Proof.Machine
end

section
/-! `CAN.RXISR` with a frame pending (R214, R242), and the whole service of a receive interrupt (R127, R267, R270). -/

namespace Sys2Proof.Machine

/-! ## What the receive registers show of the head (R35 to R37, R99, R100) -/

/-- `IdOf` ignores bits 1 and 0 (R99). -/
theorem idOf_and_idUsed (w : Word) : idOf (w &&& idUsed) = idOf w := by
  have used : ∀ i : Fin 32, 2 ≤ i.val → idUsed.getLsbD i = true := by decide
  have bit {i : Nat} (h2 : 2 ≤ i) (hi : i < 32) : (w &&& idUsed).getLsbD i = w.getLsbD i := by
    rw [BitVec.getLsbD_and, used ⟨i, hi⟩ h2, Bool.and_true]
  have ext : (w &&& idUsed).extractLsb' 3 29 = w.extractLsb' 3 29 := by
    refine BitVec.eq_of_getLsbD_eq fun i hi => ?_
    simp only [BitVec.getLsbD_extractLsb', bit (show 2 ≤ 3 + i by omega) (show 3 + i < 32 by omega)]
  have std : (w &&& idUsed).extractLsb' 21 11 = w.extractLsb' 21 11 := by
    refine BitVec.eq_of_getLsbD_eq fun i hi => ?_
    simp only [BitVec.getLsbD_extractLsb', bit (show 2 ≤ 21 + i by omega) (show 21 + i < 32 by omega)]
  rw [idOf, idOf, bit (Nat.le_refl 2) (by decide), ext, std]

theorem dlcWord_and_seenRdtr : ∀ dlc : BitVec 4, dlcWord dlc &&& seenRdtr = dlcWord dlc := by decide

/-- The received length is the length code, clamped (R100). -/
theorem toNat_lenOf_dlcWord (dlc : BitVec 4) : (lenOf (dlcWord dlc)).toNat = min dlc.toNat 8 := by
  rw [lenOf_toNat, extractLsb'_dlcWord]

/-- The high word is read exactly for length codes above 4 (R214). -/
theorem four_lt_lenOf_dlcWord : ∀ dlc : BitVec 4, 4#4 < lenOf (dlcWord dlc) ↔ 4#4 < dlc := by decide

/-- Byte `i` under its mask. -/
theorem extractLsb'_and_byteMask (w : Word) {i : Nat} (hi : i < 4) :
    (w &&& 0xFF#32 <<< (8 * i)).extractLsb' (8 * i) 8 = w.extractLsb' (8 * i) 8 := by
  refine BitVec.eq_of_getLsbD_eq fun j hj => ?_
  have hmask : (0xFF#32 <<< (8 * i)).getLsbD (8 * i + j) = true := by
    simp [getLsbD_ones8, hj]
    omega
  simp only [BitVec.getLsbD_extractLsb', BitVec.getLsbD_and, hmask, Bool.and_true]

/-- A payload byte below the length is given (R37). -/
theorem byte_of_below {dlc : BitVec 4} {half i : Nat} (hh : half < 2) (hi : i < 4) (hlen : 4 * half + i < dlc.toNat)
    (w d : Word) : (BusWord.mk w (beyond dlc (4 * half)) d).byte i = w.extractLsb' (8 * i) 8 := by
  have given : ∀ (dlc : BitVec 4) (h : Fin 2) (j : Fin 4), 4 * h.val + j.val < dlc.toNat →
      beyond dlc (4 * h) &&& 0xFF#32 <<< (8 * j.val) = 0#32 := by decide
  rw [BusWord.byte, BusWord.on_known (given dlc ⟨half, hh⟩ ⟨i, hi⟩ hlen), extractLsb'_and_byteMask w hi]

/-- The frame handed to the Handler when `m` is the head and `d` reads were made before that of its low word: bytes 4 to
7 are 0 where the high word is not read (R214). -/
def RxMsg.delivered (m : RxMsg) (d : Nat) : Frame where
  id := idOf m.idword
  len := lenOf (dlcWord m.dlc)
  data :=
    { lo := bytesOfBus ⟨m.lo, beyond m.dlc 0, Config.freeWord d⟩
      hi := if 4#4 < m.dlc then bytesOfBus ⟨m.hi, beyond m.dlc 4, Config.freeWord (d + 1)⟩ else Payload.zero.hi }

/-- Below its length the frame has the bytes of the message. -/
theorem delivered_byte (m : RxMsg) (d : Nat) {i : Nat} (h : i < (m.delivered d).len.toNat) :
    (m.delivered d).data.byte i = m.byte i := by
  have hlen : i < min m.dlc.toNat 8 := toNat_lenOf_dlcWord m.dlc ▸ h
  obtain ⟨hdlc, h8⟩ := Nat.lt_min.1 hlen
  by_cases h4 : i < 4
  · have low : ∀ j < 4, j < m.dlc.toNat →
        (BusWord.mk m.lo (beyond m.dlc 0) (Config.freeWord d)).byte j = m.lo.extractLsb' (8 * j) 8 :=
      fun j hj hd => byte_of_below (half := 0) (by decide) hj (by omega) _ _
    have cases4 : i = 0 ∨ i = 1 ∨ i = 2 ∨ i = 3 := by omega
    rcases cases4 with rfl | rfl | rfl | rfl <;> exact low _ (by decide) hdlc
  · have high : ∀ j < 4, 4 + j < m.dlc.toNat →
        (BusWord.mk m.hi (beyond m.dlc 4) (Config.freeWord (d + 1))).byte j = m.hi.extractLsb' (8 * j) 8 :=
      fun j hj hd => byte_of_below (half := 1) (by decide) hj hd _ _
    have hdata : (m.delivered d).data = ⟨bytesOfBus ⟨m.lo, beyond m.dlc 0, Config.freeWord d⟩,
        bytesOfBus ⟨m.hi, beyond m.dlc 4, Config.freeWord (d + 1)⟩⟩ := by
      rw [RxMsg.delivered, if_pos (BitVec.lt_def.2 (Nat.lt_of_le_of_lt (Nat.not_lt.1 h4) hdlc))]
    rw [hdata]
    have cases4 : i = 4 ∨ i = 5 ∨ i = 6 ∨ i = 7 := by omega
    rcases cases4 with rfl | rfl | rfl | rfl <;> exact high _ (by decide) hdlc

/-! ## The bus steps of `CAN.RXISR` (R214) -/

@[simp] theorem busStep_rxId (f : FifoIdx) (rest : List Op) (s : State) :
    busStep (.rxId f) rest s = .next (readStep (.rir f) rest
      (s.setFrameRx { s.frameRx with id := idOf ((s.regRead (.rir f)).on idUsed) })) := rfl

@[simp] theorem busStep_rxLen (f : FifoIdx) (rest : List Op) (s : State) :
    busStep (.rxLen f) rest s = .next (readStep (.rdtr f) rest
      (s.setFrameRx { s.frameRx with len := lenOf ((s.regRead (.rdtr f)).on seenRdtr) })) := rfl

theorem busStep_rxLo_short {f : FifoIdx} {rest : List Op} {s : State} (h : ¬4#4 < s.frameRx.len) :
    busStep (.rxLo f) rest s = .next (readStep (.rdlr f) rest
      (s.setFrameRx { s.frameRx with data := ⟨bytesOfBus (s.regRead (.rdlr f)), Payload.zero.hi⟩ })) :=
  congrArg Host.Outcome.next (if_neg h)

theorem busStep_rxLo_long {f : FifoIdx} {rest : List Op} {s : State} (h : 4#4 < s.frameRx.len) :
    busStep (.rxLo f) rest s = .next (readStep (.rdlr f) (.bus (.rxHi f) :: rest)
      (s.setFrameRx { s.frameRx with data := { s.frameRx.data with lo := bytesOfBus (s.regRead (.rdlr f)) } })) :=
  congrArg Host.Outcome.next (if_pos h)

@[simp] theorem busStep_rxHi (f : FifoIdx) (rest : List Op) (s : State) :
    busStep (.rxHi f) rest s = .next (readStep (.rdhr f) rest
      (s.setFrameRx { s.frameRx with data := { s.frameRx.data with hi := bytesOfBus (s.regRead (.rdhr f)) } })) := rfl

section
variable {n : Nat} {s T : State} {c : Can} {d : Nat} {t : List BusEvent} {r : List Move} {v : BusWord} {rest : List Op}

@[simp] theorem busy_setRxlog (k : Task) (x : List RxEvent) :
    (s.busy c d t r k).setRxlog x = (s.setRxlog x).busy c d t r k := by
  apply State.ext <;> simp [State.busy, State.setTask_thread, State.setTask_isr]

@[simp] theorem busy_regRead_frame (f : Frame) (k : Task) (q : Reg) :
    ((s.setFrameRx f).busy s.can d t r k).regRead q = s.view (Config.freeWord d) q := by
  rw [busy_regRead]
  exact view_congr rfl rfl rfl rfl rfl _ q

/-- A read that changes `FRAME_RX` from `f` to `f'`. -/
theorem reaches_frameRead {b : BusOp} {q : Reg} {f f' : Frame} {ops : List Op}
    (h : s.halted = false ∧ s.port = none ∧ s.token = none)
    (hb : busStep b rest ((s.setFrameRx f).busy s.can d t r ⟨.bus b :: rest, v⟩)
      = .next (readStep q ops ((s.setFrameRx f').busy s.can d t r ⟨.bus b :: rest, v⟩)))
    (h' : Reaches n (proceed ops ((s.setFrameRx f').busy s.can (d + 1)
      (t ++ [s.reads q (s.view (Config.freeWord d) q)]) r ⟨ops, s.view (Config.freeWord d) q⟩)) T) :
    Reaches (n + 1) ((s.setFrameRx f).busy s.can d t (.engine :: r) ⟨.bus b :: rest, v⟩) T := by
  refine reaches_busy h hb ?_
  have hview : ((s.setFrameRx f').setCan s.can).view (Config.freeWord d) q = s.view (Config.freeWord d) q :=
    view_congr rfl rfl rfl rfl rfl _ q
  rw [← proceed_setOps ops] at h'
  rw [readStep, ← proceed_setOps ops]
  simpa [hview, State.reads] using h'

end

/-! ## The run of `CAN.RXISR` with a frame pending (R214, R242) -/

/-- The controller after the release of the head of FIFO `g`, `q` being the frames behind it. -/
def Can.released (c : Can) (g : FifoIdx) (q : List RxMsg) : Can :=
  { c with fifo := c.fifo.set g { c.fifo.get g with queue := q, full := false } }

/-- The release write clears `FULL` and takes the head, and nothing else (R242). -/
theorem write_release {c : Can} {g : FifoIdx} {m : RxMsg} {q : List RxMsg} (h : (c.fifo.get g).queue = m :: q) :
    c.write (.lit mRfom) (.rfr g) = c.released g q := by
  have h4 : (BusWord.lit mRfom).bit 4 = false := by decide
  have h5 : (BusWord.lit mRfom).bit 5 = true := by decide
  simp [Can.write, Fifo.writeRfr, Fifo.release, h, h4, h5, Can.released]

/-- What follows the reads in `CAN.RXISR` (R214), `rest` being what is left of the caller. -/
def handOverOps (g : FifoIdx) (rest : List Op) : List Op :=
  .quiet (.deliver g) :: .bus (.wr (.rfr g) mRfom) :: rest

/-- How many reads `CAN.RXISR` makes for the head `m`. -/
def RxMsg.reads (m : RxMsg) : Nat := if 4#4 < m.dlc then 4 else 3

/-- The bus steps of `CAN.RXISR` on FIFO `g`, whose head is `m`. -/
def State.rxEvents (s : State) (g : FifoIdx) (m : RxMsg) : List BusEvent :=
  [s.readEvent 0 (.rir g), s.readEvent 1 (.rdtr g), s.readEvent 2 (.rdlr g)]
    ++ (if 4#4 < m.dlc then [s.readEvent 3 (.rdhr g)] else []) ++ [s.writeEvent (.rfr g) mRfom]

/-- `s` after the head `m` of FIFO `g` has been handed over and released, `q` being the frames behind it, `v` the word
read last and `r` the moves still to come. -/
def State.received (s : State) (g : FifoIdx) (m : RxMsg) (q : List RxMsg) (v : BusWord) (r : List Move) : State :=
  { s with
    sched := r, frameRx := m.delivered (s.draws + 2), rxlog := s.rxlog ++ [⟨g, m.delivered (s.draws + 2)⟩]
    isr := ⟨s.isr.ops, v⟩, draws := s.draws + m.reads, can := s.can.released g q, trace := s.trace ++ s.rxEvents g m }

theorem exec_canRxisr {f : Byte} {g : FifoIdx} {k : Irq} {s : State} (hf : f.toNat = g.toNat)
    (hc : s.ctx = .interrupt k) (hi : s.issuer = .callback) : exec (.canRxisr f) s = .next (startOp (rxOps g) s) := by
  refine (inContext_of_holds (by simp [Admit.holds, hi, hc])).trans ?_
  rw [withFifo, fifoOfIdx_of hf]

section
variable {s T : State} {c : Can} {d : Nat} {t : List BusEvent} {r : List Move} {v : BusWord} {ops rest : List Op}
variable {g : FifoIdx} {m : RxMsg} {q : List RxMsg}

/-- The end of `CAN.RXISR`, when the frame has been read: the Handler call, then the release write (R214). -/
theorem reaches_handOver {k : Irq} (h : s.halted = false ∧ s.port = none ∧ s.token = none)
    (hc : s.ctx = .interrupt k) (hq : (s.can.fifo.get g).queue = m :: q)
    (hd : d = s.draws + m.reads) (ht : t ++ [s.writeEvent (.rfr g) mRfom] = s.trace ++ s.rxEvents g m) :
    Reaches 1 (proceed (handOverOps g rest)
        ((s.setFrameRx (m.delivered (s.draws + 2))).busy s.can d t (.engine :: r) ⟨ops, v⟩))
      (proceed rest (s.received g m q v r)) := by
  subst hd
  have hquiet : runQuiet (.deliver g)
        ((s.setFrameRx (m.delivered (s.draws + 2))).busy s.can (s.draws + m.reads) t (.engine :: r) ⟨ops, v⟩)
      = ((s.setFrameRx (m.delivered (s.draws + 2))).setRxlog (s.rxlog ++ [⟨g, m.delivered (s.draws + 2)⟩])).busy
          s.can (s.draws + m.reads) t (.engine :: r) ⟨ops, v⟩ := by
    rw [← busy_setRxlog]
    apply State.ext <;> simp [runQuiet, State.setRxlog, State.busy]
  rw [handOverOps, proceed_quiet, hquiet, proceed_bus, busy_setOps]
  refine reaches_wr h ?_
  rw [write_release hq]
  refine proceed_congr rest ?_
  have ht' : t ++ [(⟨.write, Reg.addr s.cfg (.rfr g), .lit mRfom⟩ : BusEvent)] = s.trace ++ s.rxEvents g m := ht
  apply State.ext <;> simp [State.received, State.busy, State.putCore, State.setTask_isr, State.setTask_thread, hc, ht']

theorem view_rir (hq : (s.can.fifo.get g).queue = m :: q) (w : Word) :
    s.view w (.rir g) = ⟨m.idword, ~~~seenRir, w⟩ := by
  simp [State.view, Fifo.output, hq]

theorem view_rdtr (hq : (s.can.fifo.get g).queue = m :: q) (w : Word) :
    s.view w (.rdtr g) = ⟨dlcWord m.dlc, ~~~seenRdtr, w⟩ := by
  simp [State.view, Fifo.output, hq]

theorem view_rdlr (hq : (s.can.fifo.get g).queue = m :: q) (w : Word) :
    s.view w (.rdlr g) = ⟨m.lo, beyond m.dlc 0, w⟩ := by
  simp [State.view, Fifo.output, hq]

theorem view_rdhr (hq : (s.can.fifo.get g).queue = m :: q) (w : Word) :
    s.view w (.rdhr g) = ⟨m.hi, beyond m.dlc 4, w⟩ := by
  simp [State.view, Fifo.output, hq]

theorem idOf_view_rir (hq : (s.can.fifo.get g).queue = m :: q) (w : Word) :
    idOf ((s.view w (.rir g)).on idUsed) = idOf m.idword := by
  rw [view_rir hq, BusWord.on_known (show ~~~seenRir &&& idUsed = 0#32 by decide), idOf_and_idUsed]

theorem lenOf_view_rdtr (hq : (s.can.fifo.get g).queue = m :: q) (w : Word) :
    lenOf ((s.view w (.rdtr g)).on seenRdtr) = lenOf (dlcWord m.dlc) := by
  rw [view_rdtr hq, BusWord.on_known (show ~~~seenRdtr &&& seenRdtr = 0#32 by decide), dlcWord_and_seenRdtr]

/-- The first two reads of `CAN.RXISR`: identifier and length. -/
theorem reaches_rxHeader {n : Nat} {b : BusOp} (h : s.halted = false ∧ s.port = none ∧ s.token = none)
    (hq : (s.can.fifo.get g).queue = m :: q)
    (h' : Reaches n ((s.setFrameRx ⟨idOf m.idword, lenOf (dlcWord m.dlc), s.frameRx.data⟩).busy s.can (s.draws + 2)
      (s.trace ++ [s.readEvent 0 (.rir g), s.readEvent 1 (.rdtr g)]) r
      ⟨.bus b :: rest, s.view (Config.freeWord (s.draws + 1)) (.rdtr g)⟩) T) :
    Reaches (n + 2) (s.busy s.can s.draws s.trace (engineMoves 2 r)
      ⟨.bus (.rxId g) :: .bus (.rxLen g) :: .bus b :: rest, v⟩) T := by
  refine reaches_frameRead (q := .rir g) (f := s.frameRx) (f' := { s.frameRx with id := idOf m.idword })
    (ops := .bus (.rxLen g) :: .bus b :: rest) h ?_ ?_
  · rw [busStep_rxId, busy_regRead_frame, idOf_view_rir hq, busy_frameRx, busy_setFrameRx]
    rfl
  rw [proceed_bus, busy_setOps]
  refine reaches_frameRead (q := .rdtr g) (f' := ⟨idOf m.idword, lenOf (dlcWord m.dlc), s.frameRx.data⟩)
    (ops := .bus b :: rest) h ?_ ?_
  · rw [busStep_rxLen, busy_regRead_frame, lenOf_view_rdtr hq, busy_frameRx, busy_setFrameRx]
    rfl
  rw [proceed_bus, busy_setOps, List.append_assoc]
  exact h'

/-- The reads of the payload words, the high one above length 4 only, then the Handler call and the release. -/
theorem reaches_rxPayload {k : Irq} (h : s.halted = false ∧ s.port = none ∧ s.token = none) (hc : s.ctx = .interrupt k)
    (hq : (s.can.fifo.get g).queue = m :: q) :
    ∃ w, Reaches (m.reads - 1) ((s.setFrameRx ⟨idOf m.idword, lenOf (dlcWord m.dlc), s.frameRx.data⟩).busy s.can
        (s.draws + 2) (s.trace ++ [s.readEvent 0 (.rir g), s.readEvent 1 (.rdtr g)]) (engineMoves (m.reads - 1) r)
        ⟨.bus (.rxLo g) :: handOverOps g rest, v⟩)
      (proceed rest (s.received g m q w r)) := by
  by_cases hlong : 4#4 < m.dlc
  · have hn : m.reads = 4 := if_pos hlong
    have hframe : m.delivered (s.draws + 2) = ⟨idOf m.idword, lenOf (dlcWord m.dlc),
        ⟨bytesOfBus (s.view (Config.freeWord (s.draws + 2)) (.rdlr g)),
          bytesOfBus (s.view (Config.freeWord (s.draws + 3)) (.rdhr g))⟩⟩ := by
      rw [RxMsg.delivered, if_pos hlong, view_rdlr hq, view_rdhr hq]
    rw [hn]
    refine ⟨s.view (Config.freeWord (s.draws + 3)) (.rdhr g), ?_⟩
    refine reaches_frameRead (q := .rdlr g) (f' := ⟨idOf m.idword, lenOf (dlcWord m.dlc),
        { s.frameRx.data with lo := bytesOfBus (s.view (Config.freeWord (s.draws + 2)) (.rdlr g)) }⟩)
      (ops := .bus (.rxHi g) :: handOverOps g rest) h ?_ ?_
    · rw [busStep_rxLo_long (by rw [busy_frameRx]; exact (four_lt_lenOf_dlcWord m.dlc).2 hlong), busy_regRead_frame,
        busy_frameRx, busy_setFrameRx]
      rfl
    rw [proceed_bus, busy_setOps]
    refine reaches_frameRead (q := .rdhr g) (f' := m.delivered (s.draws + 2)) (ops := handOverOps g rest) h ?_ ?_
    · rw [busStep_rxHi, busy_regRead_frame, busy_frameRx, busy_setFrameRx, hframe]
      rfl
    refine reaches_handOver h hc hq (by rw [hn]) ?_
    rw [State.rxEvents, if_pos hlong]
    simp only [List.append_assoc]
    rfl
  · have hn : m.reads = 3 := if_neg hlong
    have hframe : m.delivered (s.draws + 2) = ⟨idOf m.idword, lenOf (dlcWord m.dlc),
        ⟨bytesOfBus (s.view (Config.freeWord (s.draws + 2)) (.rdlr g)), Payload.zero.hi⟩⟩ := by
      rw [RxMsg.delivered, if_neg hlong, view_rdlr hq]
    rw [hn]
    refine ⟨s.view (Config.freeWord (s.draws + 2)) (.rdlr g), ?_⟩
    refine reaches_frameRead (q := .rdlr g) (f' := m.delivered (s.draws + 2)) (ops := handOverOps g rest) h ?_ ?_
    · rw [busStep_rxLo_short (by rw [busy_frameRx]; exact mt (four_lt_lenOf_dlcWord m.dlc).1 hlong), busy_regRead_frame,
        busy_frameRx, busy_setFrameRx, hframe]
      rfl
    refine reaches_handOver h hc hq (by rw [hn]) ?_
    rw [State.rxEvents, if_neg hlong]
    simp only [List.append_assoc]
    rfl

/-- `CAN.RXISR` on FIFO `g` in interrupt context, a frame pending (R214). -/
theorem rxOps_run {k : Irq} (hc : s.ctx = .interrupt k) (hq : (s.can.fifo.get g).queue = m :: q)
    (hp : s.plays (engineMoves (m.reads + 1) r)) :
    ∃ w, Reaches (m.reads + 1) (startOp (rxOps g) s) (proceed s.task.ops (s.received g m q w r)) := by
  obtain ⟨hh, hport, htok, hs⟩ := hp
  have hn : m.reads + 1 = (m.reads - 1) + 2 := by
    have : 1 ≤ m.reads := by unfold RxMsg.reads; split <;> decide
    omega
  obtain ⟨w, hrun⟩ := reaches_rxPayload (v := s.view (Config.freeWord (s.draws + 1)) (.rdtr g)) (r := r)
    (rest := s.task.ops) ⟨hh, hport, htok⟩ hc hq
  refine ⟨w, ?_⟩
  rw [rxOps, startOp_busy, hs, hn]
  exact reaches_rxHeader ⟨hh, hport, htok⟩ hq hrun

end

/-! ## The whole service (R127, R266, R267, R270) -/

/-- Taking an interrupt needs a running machine in thread context with a free port (R266). -/
theorem of_takeable {s : State} {k : Irq} (h : s.takeable = some k) :
    s.halted = false ∧ s.ctx = .thread ∧ s.port = none := by
  unfold State.takeable at h
  split at h
  · cases h
  · next hn => simpa [and_assoc] using hn

@[simp] theorem mostUrgent_setSched (s : State) (r : List Move) (l : List Irq) :
    (s.setSched r).mostUrgent l = s.mostUrgent l := by
  have hu (a b : Irq) : (s.setSched r).moreUrgent a b = s.moreUrgent a b := rfl
  induction l with
  | nil => rfl
  | cons k l ih => simp only [State.mostUrgent, ih, hu]

/-- The schedule plays no part in which interrupt may be taken. -/
@[simp] theorem takeable_setSched (s : State) (r : List Move) : (s.setSched r).takeable = s.takeable := by
  unfold State.takeable
  rw [mostUrgent_setSched]
  rfl

/-- The trampoline takes an interrupt: it writes `VT.DISPATCH` to the port (R266). -/
theorem step_trampoline {s : State} {k : Irq} {r : List Move} (ht : s.takeable = some k)
    (hs : s.sched = .trampoline :: r) :
    step s = .next ((s.setSched r).setPort (some ⟨.trampoline, commandWord 0x03#8 k⟩)) := by
  apply step_of_out
  rw [fetch_of_sched hs]
  change Fetch.out (.next (trampolineAct (s.setSched r))) = _
  rw [trampolineAct, takeable_setSched, ht]
  rfl

theorem setPort_none {s : State} (h : s.port = none) : s.setPort none = s := by
  rw [← h]
  rfl

/-- From the trampoline's move to the token: the port is written and taken, and the slot is read (R122, R266, R267). -/
theorem interrupt_run {s : State} {k : Irq} {r : List Move} (ht : s.takeable = some k) (htok : s.token = none)
    (hk : k.toNat < s.cfg.nVec) (hl : s.vtor = s.cfg.vtBase) (hs : s.sched = .trampoline :: engineMoves 2 r) :
    Reaches 3 s ((s.setIssuer .trampoline).dispatched k r) := by
  obtain ⟨hh, hc, hp⟩ := of_takeable ht
  have hdec : decodeCommand (commandWord 0x03#8 k) = .ok (.vtDispatch k) := by
    rw [decodeCommand_commandWord]
    rfl
  have htaken : ((s.setSched (engineMoves 1 r)).setPort none).setIssuer .trampoline
      = (s.setSched (engineMoves 1 r)).setIssuer .trampoline := by
    rw [setPort_none (s := s.setSched (engineMoves 1 r)) hp]
  have htake : step ((s.setSched (engineMoves 2 r)).setPort (some ⟨.trampoline, commandWord 0x03#8 k⟩))
      = .next (enterInterrupt k ((s.setSched (engineMoves 1 r)).setIssuer .trampoline)) :=
    (step_port (s := (s.setSched (engineMoves 2 r)).setPort (some ⟨.trampoline, commandWord 0x03#8 k⟩))
      (pw := ⟨.trampoline, commandWord 0x03#8 k⟩) (r := engineMoves 1 r) hh rfl rfl hdec).trans
      ((congrArg (exec (.vtDispatch k)) htaken).trans (exec_vtDispatch_live hc rfl hk hl))
  refine reaches_succ (step_trampoline ht hs) (reaches_succ htake ?_)
  exact reaches_succ (step_enterInterrupt hc ⟨hh, hp, htok, rfl⟩) rfl

theorem engineMoves_add (a b : Nat) (r : List Move) : engineMoves (a + b) r = engineMoves a (engineMoves b r) := by
  rw [engineMoves, ← List.replicate_append_replicate, List.append_assoc]
  rfl

/-- `s` in the callback of interrupt `k`, its command `CAN.RXISR` taken from the port, its return still to come; the
slot has been read. -/
def State.servicing (s : State) (k : Irq) (r : List Move) : State :=
  { (s.setIssuer .trampoline).dispatched k r with
    token := none, issuer := .callback, isr := ⟨[.ret], s.regRead (.slot k.toNat)⟩ }

section
variable (s : State) (k : Irq) (r : List Move)

@[simp] theorem dispatched_cfg : (s.dispatched k r).cfg = s.cfg := rfl
@[simp] theorem dispatched_ctx : (s.dispatched k r).ctx = .interrupt k := rfl
@[simp] theorem dispatched_halted : (s.dispatched k r).halted = s.halted := rfl
@[simp] theorem dispatched_port : (s.dispatched k r).port = s.port := rfl
@[simp] theorem dispatched_sched : (s.dispatched k r).sched = r := rfl

end

theorem readEvent_servicing (s : State) (k : Irq) (r : List Move) (i : Nat) (q : Reg) :
    (s.servicing k r).readEvent i q = s.readEvent (i + 1) q := by
  have hview (w : Word) : (s.servicing k r).view w q = s.view w q := view_congr rfl rfl rfl rfl rfl w q
  have hdraws : (s.servicing k r).draws + i = s.draws + (i + 1) := by
    rw [← Nat.add_assoc, Nat.add_right_comm]
    rfl
  rw [State.readEvent, State.readEvent, hview, hdraws]
  rfl

/-- From the token of FIFO 0's closure to its command (R127). -/
theorem closure_servicing {s : State} {k : Irq} {r : List Move} (hh : s.halted = false) (hp : s.port = none)
    (hwf : s.cfg.wf = true) (hslot : (s.regRead (.slot k.toNat)).word = s.cfg.cbRx0) :
    ∃ t u : State, step ((s.setIssuer .trampoline).dispatched k (engineMoves 3 r)) = .next t ∧ step t = .next u
      ∧ step u = exec (.canRxisr 0#8) (s.servicing k r) := by
  obtain ⟨hd0, -, -⟩ := Params.wf_tokens hwf
  have hdec : decodeToken s.cfg s.cfg.cbRx0 = some .cbRx0 := by rw [decodeToken, if_neg hd0.symm, if_pos rfl]
  have htoken : ((s.setIssuer .trampoline).dispatched k (engineMoves 3 r)).token = some s.cfg.cbRx0 := by
    rw [← hslot]
    rfl
  have hinvoke : step ((s.setIssuer .trampoline).dispatched k (engineMoves 3 r))
      = exec .cbRx0 (((((s.setIssuer .trampoline).dispatched k (engineMoves 3 r)).setSched (engineMoves 2 r)).setToken
          none).setIssuer .trampoline) :=
    step_token hh hp rfl rfl htoken hdec
  obtain ⟨t, u, hexec, hissue, htake⟩ := rxClosure_run (f := .f0) (k := k) (r := r)
    (s := ((((s.setIssuer .trampoline).dispatched k (engineMoves 3 r)).setSched (engineMoves 2 r)).setToken
      none).setIssuer .trampoline) rfl ⟨by simpa using hh, by simpa using hp, by simp, by simp⟩
  exact ⟨t, u, hinvoke.trans hexec, hissue, htake⟩

/-- The run of the whole service, up to the return of the callback. -/
theorem rxService_run {s : State} {k : Irq} {m : RxMsg} {q : List RxMsg} {r : List Move} (ht : s.takeable = some k)
    (htok : s.token = none) (hwf : s.cfg.wf = true) (hk : k.toNat < s.cfg.nVec) (hl : s.vtor = s.cfg.vtBase)
    (hslot : (s.regRead (.slot k.toNat)).word = s.cfg.cbRx0) (hq : s.can.fifo.f0.queue = m :: q)
    (hs : s.sched = .trampoline :: engineMoves (m.reads + 6) r) :
    ∃ w, Reaches (m.reads + 7) s
      (proceed [.ret] ((s.servicing k (engineMoves (m.reads + 1) r)).received .f0 m q w r)) := by
  obtain ⟨hh, -, hp⟩ := of_takeable ht
  have hmoves : engineMoves (m.reads + 6) r = engineMoves 2 (engineMoves 3 (engineMoves (m.reads + 1) r)) := by
    rw [← engineMoves_add, ← engineMoves_add]
    congr 1
    omega
  have hentry := interrupt_run ht htok hk hl (hs.trans (congrArg _ hmoves))
  obtain ⟨t, u, hinvoke, hissue, htake⟩ := closure_servicing (r := engineMoves (m.reads + 1) r) hh hp hwf hslot
  obtain ⟨w, hrun⟩ := rxOps_run (s := s.servicing k (engineMoves (m.reads + 1) r)) (g := .f0) (r := r) rfl hq
    ⟨hh, hp, rfl, rfl⟩
  have hrx := htake.trans (exec_canRxisr (g := .f0) rfl rfl rfl)
  have hn : m.reads + 7 = 3 + (m.reads + 1 + 1 + 1 + 1) := by omega
  rw [hn]
  exact ⟨w, hentry.trans (reaches_succ hinvoke (reaches_succ hissue (reaches_succ hrx hrun)))⟩

/-- The return of a callback that has run to its end (R270). -/
theorem proceed_ret_interrupt {s : State} {k : Irq} (hc : s.ctx = .interrupt k) :
    proceed [.ret] s = { s with isr := ⟨[], s.isr.v⟩, ctx := s.savedCtx } := by
  rw [proceed_ret, State.setOps, State.setTask_eq_isr hc, State.task_eq_isr hc]
  rfl

/-- Settles O49: the interrupt is taken and dispatched, the closure issues its command, `CAN.RXISR` runs, and the
callback returns. -/
theorem receiveInterruptService : Obligations.ReceiveInterruptService := by
  unfold Obligations.ReceiveInterruptService
  intro s m q n r ht htok hwf hl hslot hq hn hs
  obtain ⟨-, hk, -⟩ := Params.wf_table hwf
  obtain ⟨hh, hc, hp⟩ := of_takeable ht
  have hn : n = m.reads + 6 := by
    rw [hn, RxMsg.reads]
    split <;> rfl
  have hword : (s.regRead (.slot s.cfg.irqRx0.toNat)).word = s.cfg.cbRx0 := by
    rw [State.regRead, hslot, BusWord.word_given]
  subst hn
  obtain ⟨w, hrun⟩ := rxService_run ht htok hwf hk hl hword hq hs
  refine ⟨_, hrun, ?_, rfl, toNat_lenOf_dlcWord m.dlc, fun i hi => delivered_byte m _ hi⟩
  have htrace : s.trace ++ [s.readEvent 0 (.slot s.cfg.irqRx0.toNat)]
        ++ (s.servicing s.cfg.irqRx0 (engineMoves (m.reads + 1) r)).rxEvents .f0 m
      = s.trace ++ [s.readEvent 0 (.slot s.cfg.irqRx0.toNat), s.readEvent 1 (.rir .f0), s.readEvent 2 (.rdtr .f0),
          s.readEvent 3 (.rdlr .f0)]
        ++ (if 4#4 < m.dlc then [s.readEvent 4 (.rdhr .f0)] else []) ++ [s.writeEvent (.rfr .f0) 0x00000020#32] := by
    simp only [State.rxEvents, readEvent_servicing, List.append_assoc]
    rfl
  have hdraws : s.draws + 1 + m.reads = s.draws + (m.reads + 6 - 5) := by omega
  rw [proceed_ret_interrupt (k := s.cfg.irqRx0) rfl, ← htrace, ← hdraws]
  apply State.ext
  case ctx => exact hc.symm
  case token => exact htok.symm
  all_goals rfl

end Sys2Proof.Machine
end

section
/-! The bit-timing solver (R140 to R143): what `Solve` returns, and what `BT.SOLVE` writes. -/

namespace Sys2Proof.Machine

/-! ## The result by how the scan ends (R141, R143) -/

section
variable {clock target : Word} {p : Nat}

/-- A match is returned whatever the fallback. -/
theorem solve_of_hit (fb : Fallback) (h : scan clock.toNat target.toNat prescBound 1 none = (p, true)) :
    solve fb clock target = (⟨BitVec.ofNat 32 p, 3#32, 1#32⟩, true) := by
  simp only [solve, h, if_true]

theorem solve_nearest_of_miss (h : scan clock.toNat target.toNat prescBound 1 none = (p, false)) :
    solve .nearest clock target = (⟨BitVec.ofNat 32 p, 3#32, 1#32⟩, false) := by
  rw [solve, h]
  rfl

theorem solve_zero_of_miss (h : scan clock.toNat target.toNat prescBound 1 none = (p, false)) :
    solve .zero clock target = (⟨0#32, 3#32, 1#32⟩, false) := by
  rw [solve, h]
  rfl

end

/-! ## The best candidate in the terms of R141: `clock / q / 5` and the absolute difference to the target -/

section
variable {clock target p : Nat} {b : Nat × Nat}

theorem IsBest.natAbs_le (h : IsBest clock target p b) {q : Nat} (h1 : 1 ≤ q) (h2 : q < p) :
    ((clock / b.1 / 5 : Nat) - (target : Int)).natAbs ≤ ((clock / q / 5 : Nat) - (target : Int)).natAbs := by
  have hle := h.least q h1 h2
  rwa [h.dist_eq, dist_eq_natAbs, dist_eq_natAbs] at hle

/-- On ties the smallest candidate is kept. -/
theorem IsBest.natAbs_lt (h : IsBest clock target p b) {q : Nat} (h1 : 1 ≤ q) (h2 : q < b.1) :
    ((clock / b.1 / 5 : Nat) - (target : Int)).natAbs < ((clock / q / 5 : Nat) - (target : Int)).natAbs := by
  have hlt := h.first q h1 h2
  rwa [h.dist_eq, dist_eq_natAbs, dist_eq_natAbs] at hlt

end

/-- Settles O6: the scan stops at the first match, and without one it ends with the best candidate. -/
theorem solverTakesFirstMatch : Obligations.SolverTakesFirstMatch := by
  unfold Obligations.SolverTakesFirstMatch
  refine ⟨?hit, ?miss⟩
  case hit =>
    intro fb clock target p h1 hbound hp hfirst
    exact solve_of_hit fb (scan_hit h1 (Nat.lt_one_add_iff.mpr hbound) hp hfirst)
  case miss =>
    intro clock target hne
    obtain ⟨c, hscan, hbest⟩ := scan_from_one (clock := clock.toNat) (target := target.toNat) (n := 1022)
      fun j h1 hj => hne j h1 (Nat.lt_one_add_iff.mp hj)
    have hbound : c.1 ≤ 1023 := Nat.lt_one_add_iff.mp hbest.lt
    exact ⟨⟨c.1, hbest.pos, hbound, fun q h1 hq => hbest.natAbs_le h1 (Nat.lt_one_add_iff.mpr hq),
      fun q h1 hq => hbest.natAbs_lt h1 hq, solve_nearest_of_miss hscan⟩, solve_zero_of_miss hscan⟩

/-! ## The operation (R140) -/

theorem exec_btSolve (s : State) :
    exec .btSolve s = .next (proceed s.task.ops (solveInto s.args.clk s.args.rate s)) := by
  have hops : (solveInto s.args.clk s.args.rate s).task = s.task := rfl
  change execBtSolve s = _
  rw [execBtSolve, inContext_of_holds rfl, startOp, List.nil_append, hops]

theorem solveInto_eq {clock rate : Word} {s : State} {bt : BitTiming} {exact : Bool}
    (h : solve s.cfg.solverFallback clock rate = (bt, exact)) :
    solveInto clock rate s = { s with
      bt := bt
      diag := s.diag ++ if exact then [] else [.timingInexact clock rate bt.prescaler] } := by
  rw [solveInto, h]
  cases exact with
  | true => simp
  | false => simp

/-- Settles O7: the operation starts no bus step, so only what `solveInto` writes is left. -/
theorem btSolveWrites : Obligations.BtSolveWrites := by
  unfold Obligations.BtSolveWrites
  intro s bt exact h
  rw [exec_btSolve, solveInto_eq h]

end Sys2Proof.Machine
end

section
/-! The mailbox operations (R150, R152, R154): `MB.SEND`, `MB.UPDATE`, `MB.ABORT` and `CAN.GETMB`. -/

namespace Sys2Proof.Machine

/-! ## Starting the operations (R92, R97, R260) -/

theorem withMailbox_of {n : Byte} {m : MbIdx} (h : n.toNat = m.toNat) (f : MbIdx → Host.Outcome State Fault Refusal) :
    withMailbox n f = f m := by
  rw [withMailbox, mbOfIdx_of h]

theorem withFrame_of_legal {s : State} {o : Host.Outcome State Fault Refusal} (hl : s.args.len ≤ 8#4)
    (hi : s.args.id ≤ 0x1FFFFFFF#32) : withFrame s o = o := by
  rw [withFrame, if_neg (BitVec.not_lt.2 hl), if_neg (BitVec.not_lt.2 hi)]

section
variable {n : Byte} {m : MbIdx} {s : State}

theorem exec_mbSend (hn : n.toNat = m.toNat) (hc : s.ctx = .thread) (hl : s.args.len ≤ 8#4)
    (hi : s.args.id ≤ 0x1FFFFFFF#32) : exec (.mbSend n) s = .next (startOp (sendOps m s.args) s) := by
  change execMbSend n s = _
  rw [execMbSend, inContext_thread hc, withMailbox_of hn, withFrame_of_legal hl hi]

theorem exec_mbUpdate (hn : n.toNat = m.toNat) : exec (.mbUpdate n) s = .next (startOp (updateOps m) s) := by
  change execMbUpdate n s = _
  rw [execMbUpdate, inContext_of_holds rfl, withMailbox_of hn]

theorem exec_mbAbort (hn : n.toNat = m.toNat) (hc : s.ctx = .thread) :
    exec (.mbAbort n) s = .next (startOp (abortOps m) s) := by
  change execMbAbort n s = _
  rw [execMbAbort, inContext_thread hc, withMailbox_of hn]

theorem exec_canGetmb (hn : n.toNat = m.toNat) :
    exec (.canGetmb n) s = .next (startOp (updateOps m ++ [.quiet (.resMb m)]) s) := by
  change execCanGetmb n s = _
  rw [execCanGetmb, inContext_of_holds rfl, withMailbox_of hn]

end

/-- The way back from an operation whose last bus step left `v` in the local. -/
theorem proceed_busy_local (s : State) (c : Can) (d : Nat) (t : List BusEvent) (r : List Move) (v : BusWord)
    (ops rest : List Op) :
    proceed rest (s.busy c d t r ⟨ops, v⟩)
      = proceed rest ({ s with can := c, draws := d, trace := t, sched := r }.setLocal v) := by
  refine proceed_congr rest ?_
  simp [State.busy, State.setLocal, State.setOps]

/-! ## The flags of a mailbox (R103) -/

/-- Under `TXRQ`'s mask a read of `TIR` finds the bit as it stands, where it is given (R50). -/
theorem bitOf_tir_on_mTxrq {u : UReg} (h : bitOf u.unk 0 = false) (d : Word) :
    bitOf ((u.shown 0xFFFFFFFF#32 d).on mTxrq) 0 = bitOf u.val 0 := by
  have hopn : (u.shown 0xFFFFFFFF#32 d).opn &&& mTxrq = 0#32 := by
    have hgiven : (u.shown 0xFFFFFFFF#32 d).opn.getLsbD 0 = false := by simpa [UReg.shown, bitOf] using h
    have hmask : mTxrq = BitVec.twoPow 32 0 := rfl
    rw [hmask, BitVec.and_twoPow, hgiven, if_neg Bool.false_ne_true]
  rw [BusWord.on_known hopn]
  simp [UReg.shown, bitOf, mTxrq]

/-- What `MB.UPDATE` makes of its two reads is what the registers held. -/
theorem mbFlags_shown (m : MbIdx) {u : UReg} (h : bitOf u.unk 0 = false) (tsr d d' : Word) :
    mbFlags m ((u.shown 0xFFFFFFFF#32 d).on mTxrq) ((shown tsr seenTsr d').on seenTsr) = mbFlags m u.val tsr := by
  have hseen : ∀ b : Nat, seenTsr.getLsbD b = true → bitOf (tsr &&& seenTsr) b = bitOf tsr b := fun b hb => by
    simp [bitOf, hb]
  rw [on_shown (by decide), mbFlags, bitOf_tir_on_mTxrq h, hseen (bitRqcp m) (by cases m <;> rfl),
    hseen (bitTxok m) (by cases m <;> rfl), hseen (bitAlst m) (by cases m <;> rfl),
    hseen (bitTerr m) (by cases m <;> rfl), mbFlags]

/-- The bits of `RES_MB` (R12, R218). -/
theorem Mirror.getLsbD_bits (x : Mirror) :
    x.bits.getLsbD 0 = x.requested ∧ x.bits.getLsbD 1 = x.requestComplete ∧ x.bits.getLsbD 2 = x.transmitOk
      ∧ x.bits.getLsbD 3 = x.arbitrationLost ∧ x.bits.getLsbD 4 = x.transmitError := by
  obtain ⟨a, b, c, d, e⟩ := x
  revert a b c d e
  decide

/-! ## `MB.UPDATE` and `CAN.GETMB` (R152, R218) -/

section
variable {n d : Nat} {s T : State} {c c' : Can} {t : List BusEvent} {r : List Move} {v : BusWord} {rest : List Op}
variable {m : MbIdx}

/-- The two reads of `MB.UPDATE`, with the moves `hs` of CANHW between them. -/
theorem reaches_update (hs : List HwMove) (h : s.halted = false ∧ s.port = none ∧ s.token = none)
    (hu : bitOf (c.mbx.get m).tir.unk 0 = false) (hc : c' = hs.foldl (fun c h => c.move s.cfg h) c)
    (h' : Reaches n (proceed rest ((s.setMb (s.mb.set m (mbFlags m (c.mbx.get m).tir.val c'.tsr))).busy c' (d + 2)
      (t ++ [s.reads (.tir m) ((s.setCan c).view (Config.freeWord d) (.tir m)),
        s.reads .tsr (shown c'.tsr seenTsr (Config.freeWord (d + 1)))]) r
      ⟨rest, shown c'.tsr seenTsr (Config.freeWord (d + 1))⟩)) T) :
    Reaches (n + 1 + hs.length + 1)
      (s.busy c d t (.engine :: (hs.map .hw ++ .engine :: r)) ⟨updateOps m ++ rest, v⟩) T := by
  subst hc
  refine reaches_rd h rfl ?_
  change Reaches _ (proceed (.bus (.flags m) :: rest) _) T
  rw [proceed_bus, busy_setOps]
  refine reaches_busy_hws hs (reaches_flags h rfl ?_)
  have hflags := mbFlags_shown m hu (hs.foldl (fun c h => c.move s.cfg h) c).tsr (Config.freeWord d)
    (Config.freeWord (d + 1))
  change Reaches _ (proceed rest ((s.setMb (s.mb.set m (mbFlags m
    (((c.mbx.get m).tir.shown 0xFFFFFFFF#32 (Config.freeWord d)).on mTxrq)
    ((shown (hs.foldl (fun c h => c.move s.cfg h) c).tsr seenTsr (Config.freeWord (d + 1))).on seenTsr)))).busy
      _ _ _ _ _)) T
  rw [hflags, List.append_assoc]
  exact h'

end

/-- The run of `MB.UPDATE` from its start, with what follows it in the operation. -/
theorem reaches_startUpdate {n : Nat} {m : MbIdx} {s T : State} {c : Can} {r : List Move} (hs : List HwMove)
    (ops : List Op) (hp : s.plays (.engine :: hs.map .hw ++ .engine :: r))
    (hu : bitOf (s.can.mbx.get m).tir.unk 0 = false) (hc : c = hs.foldl (fun c h => c.move s.cfg h) s.can)
    (h' : Reaches n (proceed (ops ++ s.task.ops) ({ s with
        sched := r, can := c, draws := s.draws + 2
        mb := s.mb.set m (mbFlags m (s.can.mbx.get m).tir.val c.tsr)
        trace := s.trace ++ [s.readEvent 0 (.tir m),
          s.reads .tsr (shown c.tsr seenTsr (Config.freeWord (s.draws + 1)))] }.setLocal
      (shown c.tsr seenTsr (Config.freeWord (s.draws + 1))))) T) :
    Reaches (n + 1 + hs.length + 1) (startOp (updateOps m ++ ops) s) T := by
  obtain ⟨hh, hport, htok, hsched⟩ := hp
  have hstart : startOp (updateOps m ++ ops) s = s.busy s.can s.draws s.trace s.sched
      ⟨updateOps m ++ (ops ++ s.task.ops), s.task.v⟩ := startOp_busy _ _ _
  rw [hstart, hsched]
  refine reaches_update hs ⟨hh, hport, htok⟩ hu hc ?_
  rw [proceed_busy_local]
  exact h'

/-- The mirror goes to `RES_MB` (R218), whatever the local. -/
theorem runQuiet_resMb_setLocal (m : MbIdx) (s : State) (v : BusWord) :
    runQuiet (.resMb m) (s.setLocal v) = { s with res := { s.res with mb := (s.mb.get m).bits } }.setLocal v := by
  apply State.ext <;> simp [runQuiet]

/-- Settles O17: `CAN.GETMB` is the run of `MB.UPDATE` and then the copy of the mirror, which shows the five flags in
the order of R218. -/
theorem mailboxSnapshots : Obligations.MailboxSnapshots := by
  unfold Obligations.MailboxSnapshots
  refine ⟨?update, ?getmb⟩
  case update =>
    intro n m s hs r c hn hu hp hc
    refine ⟨_, exec_mbUpdate hn, ?_⟩
    rw [show 2 + hs.length = 0 + 1 + hs.length + 1 by omega]
    exact reaches_startUpdate hs [] hp hu hc rfl
  case getmb =>
    intro n m s hs r c hn hu hp hc
    refine ⟨_, (mbFlags m (s.can.mbx.get m).tir.val c.tsr).bits, exec_canGetmb hn, ?_, Mirror.getLsbD_bits _⟩
    rw [show 2 + hs.length = 0 + 1 + hs.length + 1 by omega]
    refine reaches_startUpdate hs [.quiet (.resMb m)] hp hu hc ?_
    rw [List.singleton_append, proceed_quiet, runQuiet_resMb_setLocal, PerMb.get_set]
    rfl

end Sys2Proof.Machine
end

section
/-! `MB.SEND` (R150): loading an empty mailbox and requesting its transmission (R234, R236), and the fault on a busy one
(U6). -/

namespace Sys2Proof.Machine

/-! ## A busy mailbox (R150 corner (c), U6) -/

/-- The load of a busy mailbox. -/
theorem step_load_busy {s : State} {m : MbIdx} {w : Word} {rest : List Op} {r : List Move}
    (hp : s.plays (.engine :: r)) (ho : s.task.ops = .bus (.load m w) :: rest) (h : s.can.empty m = false) :
    step s = .fault (.busyMailbox m) := by
  rw [step_bus hp ho]
  simp [busStep, h]

/-- Settles O16: the operation starts, and its first bus step finds `TMEn = 0`. -/
theorem mbSendBusyFaults : Obligations.MbSendBusyFaults := by
  unfold Obligations.MbSendBusyFaults
  intro n m s r hn hc hl hi hbusy ⟨hh, hport, htok, hs⟩
  refine ⟨_, exec_mbSend hn hc hl hi, ?_⟩
  rw [sendOps, List.cons_append, startOp_bus]
  refine step_load_busy (r := r) ?_ (congrArg Task.ops (State.setOps_task ..)) ?_
  · simpa [State.plays] using And.intro hh ⟨hport, htok, hs⟩
  · rw [State.setOps_can]
    exact hbusy

/-! ## Storing a mailbox register (R24, R32 to R34) -/

/-- A write of a whole register that is all `rw`. -/
theorem store_full (u : UReg) (w : Word) : u.store 0xFFFFFFFF#32 (.lit w) = ⟨w, 0#32⟩ := by
  simp [UReg.store, clearBits, and_ones]

/-- A word whose bit 0 is 0 has no bit outside the `rw` bits of `TIR` (R32). -/
theorem clearBits_rwTir {w : Word} (h : bitOf w 0 = false) : clearBits w rwTir = 0#32 := by
  have hmask : ~~~rwTir = BitVec.twoPow 32 0 := by decide
  rw [clearBits, hmask, BitVec.and_twoPow, if_neg]
  simpa [bitOf] using h

theorem and_rwTir {w : Word} (h : bitOf w 0 = false) : w &&& rwTir = w := by
  have hsplit : w &&& rwTir ||| clearBits w rwTir = w := by
    rw [clearBits, ← BitVec.and_or_distrib_left, BitVec.or_not_self, BitVec.and_allOnes]
  rwa [clearBits_rwTir h, BitVec.or_zero] at hsplit

/-- A write of `TIR` while `TXRQ` is given and 0: the other bits are those written (R32). -/
theorem store_tir {u : UReg} {v : BusWord} {w : Word} (hu : bitOf u.unk 0 = false) (hv : bitOf u.val 0 = false)
    (ho : v.opn = 0#32) (hw : v.known &&& rwTir = w) : u.store rwTir v = ⟨w, 0#32⟩ := by
  have hon : v.on rwTir = w := (BusWord.on_known (by rw [ho, BitVec.zero_and])).trans hw
  rw [UReg.store, clearBits_rwTir hu, clearBits_rwTir hv, hon, BitVec.zero_or]

/-- The request bit is no part of what a write of `TIR` stores (R32, R98). -/
theorem idWord_request_and_rwTir (id : Word) : (idWord id ||| 1#32) &&& rwTir = idWord id := by
  have hone : 1#32 &&& rwTir = 0#32 := by decide
  rw [BitVec.and_or_distrib_right, and_rwTir (idWord_bit0 id), hone, BitVec.or_zero]

theorem dlcWord_and_seenTdtr : ∀ len : BitVec 4, dlcWord len &&& seenTdtr = dlcWord len := by decide

/-! ## Loading an empty mailbox (R234, R236) -/

/-- The registers of a mailbox that holds the frame operand, not yet requested. -/
def MbRegs.filled (x : MbRegs) (a : Args) : MbRegs := { x.loaded a with tir := ⟨idWord a.id, 0#32⟩ }

section
variable {c : Can} {m : MbIdx}

@[simp] theorem setMbx_empty (c : Can) (m n : MbIdx) (x : MbRegs) : (c.setMbx m x).empty n = c.empty n := rfl

@[simp] theorem setMbx_get (c : Can) (m : MbIdx) (x : MbRegs) : (c.setMbx m x).mbx.get m = x := by simp [Can.setMbx]

@[simp] theorem setMbx_setMbx (c : Can) (m : MbIdx) (x y : MbRegs) : (c.setMbx m x).setMbx m y = c.setMbx m y := by
  simp [Can.setMbx]

theorem writeContent_of_empty (h : c.empty m = true) (f : MbRegs → MbRegs) :
    c.writeContent m f = c.setMbx m (f (c.mbx.get m)) := by
  rw [Can.writeContent, if_pos h]

/-- A write of `TIR` without the request bit. -/
theorem writeTir_of_no_request {v : BusWord} (h : c.empty m = true) (hv : v.bit 0 = false) :
    c.writeTir m v = c.setMbx m { c.mbx.get m with tir := (c.mbx.get m).tir.store rwTir v } := by
  simp [Can.writeTir, h, hv]

/-- A write of `TIR` with the request bit. -/
theorem writeTir_of_request {v : BusWord} (h : c.empty m = true) (hv : v.bit 0 = true)
    (hr : bitOf (c.mbx.get m).tir.val 0 = false) :
    c.writeTir m v = (c.setMbx m { c.mbx.get m with tir := (c.mbx.get m).tir.store rwTir v }).requestTx m := by
  simp [Can.writeTir, h, hv, hr]

/-- The four writes of `MB.SEND` before the request, on an empty mailbox (R150). -/
theorem write_frame (h : c.empty m = true) (hu : bitOf (c.mbx.get m).tir.unk 0 = false)
    (hv : bitOf (c.mbx.get m).tir.val 0 = false) (a : Args) :
    (((c.write (.lit (idWord a.id)) (.tir m)).write (.lit (dlcWord a.len)) (.tdtr m)).write
      (.lit (loWord a.data)) (.tdlr m)).write (.lit (hiWord a.data)) (.tdhr m)
      = c.setMbx m ((c.mbx.get m).filled a) := by
  have hid : (c.mbx.get m).tir.store rwTir (.lit (idWord a.id)) = ⟨idWord a.id, 0#32⟩ :=
    store_tir hu hv rfl (and_rwTir (idWord_bit0 a.id))
  have hlen : (c.mbx.get m).tdtr.store seenTdtr (.lit (dlcWord a.len)) = ((c.mbx.get m).loaded a).tdtr := by
    rw [UReg.store, BusWord.on_lit, dlcWord_and_seenTdtr]
    rfl
  have hbit : (BusWord.lit (idWord a.id)).bit 0 = false := (BusWord.bit_lit _ 0).trans (idWord_bit0 a.id)
  simp only [Can.write, writeTir_of_no_request h hbit, writeContent_of_empty, setMbx_empty, setMbx_get, setMbx_setMbx,
    h, hid, hlen, store_full]
  rfl

/-- `TMEn` and the four flags are what a request clears (R236). -/
theorem clearBits_requestClears (m : MbIdx) (tsr : Word) : clearBits tsr (requestClears m) = requestedTsr m tsr := by
  have hmask : requestClears m = (1#32 <<< (26 + m.toNat)) ||| (0xF#32 <<< (8 * m.toNat)) := by cases m <;> rfl
  rw [clearBits, hmask, requestedTsr]

/-- The request write of `MB.SEND`, after the four (R150, R236). -/
theorem write_request (h : c.empty m = true) (a : Args) (d : Nat) :
    (c.setMbx m ((c.mbx.get m).filled a)).write (.given (idWord a.id ||| 1#32) d) (.tir m) = c.loaded m a := by
  have hbit : (BusWord.given (idWord a.id ||| 1#32) d).bit 0 = true := by
    rw [BusWord.bit_known (by simp [BusWord.given])]
    simp [BusWord.given]
  have hreq : bitOf ((c.mbx.get m).filled a).tir.val 0 = false := idWord_bit0 a.id
  have hgiven : bitOf ((c.mbx.get m).filled a).tir.unk 0 = false := by simp [MbRegs.filled, bitOf]
  have htir : ((c.mbx.get m).filled a).tir.store rwTir (.given (idWord a.id ||| 1#32) d) = ⟨idWord a.id, 0#32⟩ :=
    store_tir hgiven hreq rfl (idWord_request_and_rwTir a.id)
  have he : (c.setMbx m ((c.mbx.get m).filled a)).empty m = true := h
  rw [Can.write, writeTir_of_request he hbit (by rw [setMbx_get]; exact hreq), setMbx_get, htir, setMbx_setMbx,
    Can.requestTx, setMbx_get]
  simp [Can.setMbx, clearBits_requestClears, setBits, Can.loaded, MbRegs.filled, MbRegs.loaded, mTxrq]

/-- The flags `MB.SEND`'s update finds: the request alone (R103, R236). -/
theorem mbFlags_loaded (c : Can) (m : MbIdx) (a : Args) :
    mbFlags m ((c.loaded m a).mbx.get m).tir.val (c.loaded m a).tsr = .pending := by
  have htir : bitOf ((c.loaded m a).mbx.get m).tir.val 0 = true := by simp [Can.loaded, MbRegs.loaded, bitOf]
  have hclear : ∀ b, bitOf (requestClears m) b = true → bitOf (c.loaded m a).tsr b = false := fun b hb => by
    rw [Can.loaded, ← clearBits_requestClears, bitOf_clearBits, hb, Bool.not_true, Bool.and_false]
  rw [mbFlags, htir, hclear (bitRqcp m) (by cases m <;> rfl), hclear (bitTxok m) (by cases m <;> rfl),
    hclear (bitAlst m) (by cases m <;> rfl), hclear (bitTerr m) (by cases m <;> rfl), Mirror.pending]

end

/-! ## The run of `MB.SEND` (R150) -/

section
variable {n d : Nat} {s T : State} {c : Can} {t : List BusEvent} {r : List Move} {v : BusWord} {rest : List Op}
variable {m : MbIdx}

/-- The four writes that load the frame. -/
theorem reaches_loadFrame {b : BusOp} (h : s.halted = false ∧ s.port = none ∧ s.token = none) (he : c.empty m = true)
    (hu : bitOf (c.mbx.get m).tir.unk 0 = false) (hv : bitOf (c.mbx.get m).tir.val 0 = false)
    (h' : Reaches n (s.busy (c.setMbx m ((c.mbx.get m).filled s.args)) d
      (t ++ [s.writeEvent (.tir m) (idWord s.args.id), s.writeEvent (.tdtr m) (dlcWord s.args.len),
        s.writeEvent (.tdlr m) (loWord s.args.data), s.writeEvent (.tdhr m) (hiWord s.args.data)]) r
      ⟨.bus b :: rest, v⟩) T) :
    Reaches (n + 4) (s.busy c d t (engineMoves 4 r)
      ⟨.bus (.load m (idWord s.args.id)) :: .bus (.wr (.tdtr m) (dlcWord s.args.len))
        :: .bus (.wr (.tdlr m) (loWord s.args.data)) :: .bus (.wr (.tdhr m) (hiWord s.args.data)) :: .bus b :: rest,
        v⟩) T := by
  refine reaches_load h he ?_
  rw [proceed_bus, busy_setOps]
  refine reaches_wr h ?_
  rw [proceed_bus, busy_setOps]
  refine reaches_wr h ?_
  rw [proceed_bus, busy_setOps]
  refine reaches_wr h ?_
  rw [proceed_bus, busy_setOps, write_frame he hu hv]
  simpa [State.writeEvent, State.putCore] using h'

/-- The read-modify-write of `TIR` that requests the transmission of a loaded frame. -/
theorem reaches_request {b : BusOp} (h : s.halted = false ∧ s.port = none ∧ s.token = none) (he : c.empty m = true)
    (h' : Reaches n (s.busy (c.loaded m s.args) (d + 1)
      (t ++ [s.reads (.tir m) (.given (idWord s.args.id) d), s.writes (.tir m) (.given (idWord s.args.id ||| 1#32) d)]) r
      ⟨.bus b :: rest, .given (idWord s.args.id) d⟩) T) :
    Reaches (n + 2) (s.busy (c.setMbx m ((c.mbx.get m).filled s.args)) d t (engineMoves 2 r)
      ⟨.bus (.rd (.tir m)) :: .bus (.wrOr (.tir m) mTxrq) :: .bus b :: rest, v⟩) T := by
  have hread : BusWord.given (idWord s.args.id) d
      = (s.setCan (c.setMbx m ((c.mbx.get m).filled s.args))).view (Config.freeWord d) (.tir m) := by
    simp [State.view, MbRegs.filled, UReg.shown, BusWord.given]
  have hor : BusWord.given (idWord s.args.id ||| 1#32) d = (BusWord.given (idWord s.args.id) d).orMask mTxrq := by
    simp [BusWord.given, BusWord.orMask, mTxrq]
  refine reaches_rd h hread ?_
  rw [proceed_bus, busy_setOps]
  refine reaches_wrOr h hor ?_
  rw [proceed_bus, busy_setOps, write_request he, List.append_assoc]
  exact h'

/-- The eight bus steps of `MB.SEND` on an empty mailbox. -/
theorem reaches_send (h : s.halted = false ∧ s.port = none ∧ s.token = none) (he : s.can.empty m = true)
    (hu : bitOf (s.can.mbx.get m).tir.unk 0 = false) (hv : bitOf (s.can.mbx.get m).tir.val 0 = false)
    (h' : Reaches n (proceed rest ((s.setMb (s.mb.set m .pending)).busy (s.can.loaded m s.args) (d + 3)
      (t ++ s.sendEvents m d) r ⟨rest, shown (requestedTsr m s.can.tsr) seenTsr (Config.freeWord (d + 2))⟩)) T) :
    Reaches (n + 8) (s.busy s.can d t (engineMoves 8 r) ⟨sendOps m s.args ++ rest, v⟩) T := by
  have hgiven : bitOf ((s.can.loaded m s.args).mbx.get m).tir.unk 0 = false := by
    simp [Can.loaded, MbRegs.loaded, bitOf]
  have hread : (s.setCan (s.can.loaded m s.args)).view (Config.freeWord (d + 1)) (.tir m)
      = .given (idWord s.args.id ||| 1#32) (d + 1) := by
    simp [State.view, Can.loaded, MbRegs.loaded, UReg.shown, BusWord.given]
  refine reaches_loadFrame h he hu hv (reaches_request h he (reaches_update (c' := s.can.loaded m s.args) [] h hgiven rfl ?_))
  rw [mbFlags_loaded, hread, List.append_assoc, List.append_assoc]
  exact h'

end

/-- Settles O15: on a free mailbox `TXRQ` is 0, so the run of the eight bus steps applies from the operation's start. -/
theorem mbSendLoadsAndRequests : Obligations.MbSendLoadsAndRequests := by
  unfold Obligations.MbSendLoadsAndRequests
  intro n m s r hn hc hl hi ⟨hu, hv, _, _⟩ hfree ⟨hh, hport, htok, hs⟩
  have he : s.can.empty m = true := hfree
  refine ⟨_, exec_mbSend hn hc hl hi, ?_⟩
  have hstart : startOp (sendOps m s.args) s = s.busy s.can s.draws s.trace s.sched
      ⟨sendOps m s.args ++ s.task.ops, s.task.v⟩ := startOp_busy _ _ _
  rw [hstart, hs]
  refine reaches_send ⟨hh, hport, htok⟩ he hu (by rw [hv, he]; rfl) ?_
  rw [proceed_busy_local]
  rfl

end Sys2Proof.Machine
end

section
/-! `MB.ABORT` (R154): the request bit alone is written (R239), and the wait ends once CANHW has freed the mailbox. -/

namespace Sys2Proof.Machine

/-! ## The write of the abort bit (R239) -/

/-- The abort bit is no flag that a 1 clears (R27). -/
theorem abortBit_and_rcTsr (m : MbIdx) : abortBit m &&& rcTsr = 0#32 := by cases m <;> decide

/-- It requests the abort of its own mailbox, if that is pending. -/
theorem abortBits_abortBit (tsr : Word) (m j : MbIdx) :
    abortBits tsr (.lit (abortBit m)) j = if j = m ∧ free m tsr = false then abortBit m else 0#32 := by
  have hbit : (BusWord.lit (abortBit m)).bit (bitAbrq j) = decide (j = m) := by
    rw [BusWord.bit_lit]
    cases m <;> cases j <;> rfl
  rw [abortBits, hbit]
  by_cases h : j = m
  · subst h
    simp
  · simp [h]

theorem write_abortBit (c : Can) (m : MbIdx) :
    c.write (.lit (abortBit m)) .tsr
      = { c with tsr := c.tsr ||| if c.empty m then 0#32 else abortBit m } := by
  have hreq : abortBits c.tsr (.lit (abortBit m)) .mb0 ||| abortBits c.tsr (.lit (abortBit m)) .mb1
      ||| abortBits c.tsr (.lit (abortBit m)) .mb2 = if c.empty m then 0#32 else abortBit m := by
    rw [abortBits_abortBit, abortBits_abortBit, abortBits_abortBit, Can.empty]
    cases free m c.tsr <;> cases m <;> decide
  rw [Can.write, Can.writeTsr, hreq, BusWord.on_lit, abortBit_and_rcTsr, clearBits, BitVec.not_zero, BitVec.and_allOnes,
    setBits]

/-- On an empty mailbox nothing is stored. -/
theorem write_abortBit_of_empty {c : Can} {m : MbIdx} (h : c.empty m = true) : c.write (.lit (abortBit m)) .tsr = c := by
  rw [write_abortBit, if_pos h, BitVec.or_zero]

/-- The controller once the abort of mailbox `m` has been requested. -/
def Can.abortRequested (c : Can) (m : MbIdx) : Can := { c with tsr := c.tsr ||| abortBit m }

theorem write_abortBit_of_pending {c : Can} {m : MbIdx} (h : c.empty m = false) :
    c.write (.lit (abortBit m)) .tsr = c.abortRequested m := by
  rw [write_abortBit, h, if_neg Bool.false_ne_true, Can.abortRequested]

theorem bitOf_abortRequested (c : Can) (m : MbIdx) : bitOf (c.abortRequested m).tsr (bitAbrq m) = true := by
  have hbit : bitOf (abortBit m) (bitAbrq m) = true := by cases m <;> rfl
  rw [Can.abortRequested, ← setBits, bitOf_setBits, hbit, Bool.or_true]

/-! ## The wait (R310) -/

section
variable {n d : Nat} {s T : State} {c : Can} {t : List BusEvent} {r : List Move} {v : BusWord} {rest : List Op}

/-- A read of `TSR` finds `ABRQn` as it stands (R27). -/
theorem view_tsr_abrq (s : State) (w : Word) (m : MbIdx) : (s.view w .tsr).bit (bitAbrq m) = bitOf s.can.tsr (bitAbrq m) :=
  bit_shown (by cases m <;> rfl)

theorem pollEvents_succ (s : State) (q : Reg) (d k : Nat) :
    s.pollEvents q d (k + 1) = s.reads q (s.view (Config.freeWord d) q) :: s.pollEvents q (d + 1) k := by
  simp only [State.pollEvents, List.range_succ_eq_map, List.map_cons, List.map_map]
  refine congrArg (_ :: ·) (List.map_congr_left fun i _ => ?_)
  rw [Function.comp_apply, Nat.succ_eq_add_one, Nat.add_right_comm, Nat.add_assoc]

/-- `k` reads of a wait that do not find the bit, whatever they leave in the local. -/
theorem reaches_polls {q : Reg} {b : Nat} {val : Bool} (h : s.halted = false ∧ s.port = none ∧ s.token = none)
    (hb : ∀ w, ((s.setCan c).view w q).bit b ≠ val) (k : Nat)
    (h' : ∀ v, Reaches n (s.busy c (d + k) (t ++ (s.setCan c).pollEvents q d k) r ⟨.bus (.wait q b val) :: rest, v⟩) T) :
    Reaches (n + k) (s.busy c d t (engineMoves k r) ⟨.bus (.wait q b val) :: rest, v⟩) T := by
  induction k generalizing d t v with
  | zero => simpa [State.pollEvents] using h' v
  | succ k ih =>
    rw [engineMoves_succ]
    refine reaches_poll h rfl (hb _) (ih fun v => ?_)
    have hd : d + 1 + k = d + (k + 1) := by omega
    have hrest := h' v
    rw [pollEvents_succ] at hrest
    rw [hd, List.append_assoc]
    exact hrest

end

/-! ## CANHW's abort-done move (R239) -/

/-- What it leaves of a pending mailbox that is not being sent, once the abort has been requested. -/
theorem abortDone_of_pending {c : Can} {m : MbIdx} (hm : m ∈ c.txOrder) (ha : c.onAir ≠ some m) :
    (c.abortRequested m).abortDone m = (c.abortRequested m).finishTx m false := by
  rw [Can.abortDone, bitOf_abortRequested, if_pos]
  simp [Can.abortRequested, hm, ha]

/-- `TSR` after it: `ABRQn` and `TXOKn` are 0, `TMEn` and `RQCPn` are 1. -/
theorem finishTx_tsr_of_aborted (c : Can) (m : MbIdx) :
    ((c.abortRequested m).finishTx m false).tsr
      = (c.tsr &&& ~~~(0b10000010#32 <<< (8 * m.toNat))) ||| 1#32 <<< (26 + m.toNat) ||| 1#32 <<< (8 * m.toNat) := by
  have hmask : abortBit m ||| oneBit (bitTxok m) = 0b10000010#32 <<< (8 * m.toNat) := by cases m <;> rfl
  have hgone : abortBit m &&& ~~~(0b10000010#32 <<< (8 * m.toNat)) = 0#32 := by cases m <;> rfl
  change setBits (clearBits (c.tsr ||| abortBit m) (abortBit m ||| oneBit (bitTxok m)))
    (oneBit (bitTme m) ||| oneBit (bitRqcp m) ||| 0#32) = _
  rw [hmask, clearBits, BitVec.and_or_distrib_right, hgone, BitVec.or_zero, BitVec.or_zero, setBits, ← BitVec.or_assoc]
  rfl

/-! ## The run of `MB.ABORT` (R154) -/

/-- Settles O18: on an empty mailbox the write stores nothing and `ABRQn` is 0 (R50); on a pending one the reads find
`ABRQn` until the abort-done move has cleared it. -/
theorem mbAbortWaitsForHardware : Obligations.MbAbortWaitsForHardware := by
  unfold Obligations.MbAbortWaitsForHardware
  refine ⟨?empty, ?pending⟩
  case empty =>
    intro n m s r hn hc ⟨_, _, _, habort⟩ hfree ⟨hh, hport, htok, hs⟩
    have he : s.can.empty m = true := hfree
    have hclear : bitOf s.can.tsr (bitAbrq m) = false :=
      Bool.eq_false_iff.2 fun hb => Bool.false_ne_true ((habort hb).symm.trans he)
    refine ⟨_, exec_mbAbort hn hc, ?_⟩
    rw [abortOps, startOp_busy, hs]
    refine reaches_wr ⟨hh, hport, htok⟩ ?_
    rw [List.singleton_append, proceed_bus, busy_setOps, write_abortBit_of_empty he]
    refine reaches_wait ⟨hh, hport, htok⟩ rfl ((view_tsr_abrq _ _ m).trans hclear) ?_
    rw [proceed_busy_local, List.append_assoc]
    rfl
  case pending =>
    intro n m s k r b hn hc hbusy hm ha ⟨hh, hport, htok, hs⟩ hb
    subst hb
    have hcleared : bitOf ((s.can.abortRequested m).finishTx m false).tsr (bitAbrq m) = false := by
      rw [finishTx_abrq, decide_eq_true rfl, Bool.not_true, Bool.and_false]
    refine ⟨_, (s.can.abortRequested m).finishTx m false, exec_mbAbort hn hc, ?_, ?_⟩
    · rw [← finishTx_tsr_of_aborted]
      rfl
    rw [abortOps, startOp_busy, hs, show k + 3 = 2 + k + 1 by omega]
    refine reaches_wr ⟨hh, hport, htok⟩ ?_
    rw [List.singleton_append, proceed_bus, busy_setOps, write_abortBit_of_pending hbusy]
    refine reaches_polls ⟨hh, hport, htok⟩ (fun w => ?_) k fun v => reaches_busy_hw ?_
    · rw [view_tsr_abrq, State.setCan_can, bitOf_abortRequested]
      exact Bool.false_ne_true.symm
    rw [Can.move, abortDone_of_pending hm ha]
    refine reaches_wait ⟨hh, hport, htok⟩ rfl ((view_tsr_abrq _ _ m).trans hcleared) ?_
    rw [proceed_busy_local]
    rfl

end Sys2Proof.Machine
end

section
/-! The Error Statistic operations (R170, R172) and `CAN.GETERR` (R217). -/

namespace Sys2Proof.Machine

/-! ## Starting the operations (R274) -/

theorem exec_esUpdate (s : State) : exec .esUpdate s = .next (startOp esUpdateOps s) := by
  change execEsUpdate s = _
  rw [execEsUpdate, inContext_of_holds rfl]

theorem exec_canGeterr (s : State) : exec .canGeterr s = .next (startOp (esUpdateOps ++ [.quiet .resEs]) s) := by
  change execCanGeterr s = _
  rw [execCanGeterr, inContext_of_holds rfl]

/-! ## The error fields (R104) -/

/-- The six fields lie in the bits of `ESR` that a read finds specified (R30). -/
theorem esFields_and_seenEsr (e : Word) : esFields (e &&& seenEsr) = esFields e := by
  have hrec : seenEsr.extractLsb' 24 8 = BitVec.allOnes 8 := by decide
  have htec : seenEsr.extractLsb' 16 8 = BitVec.allOnes 8 := by decide
  have hlec : seenEsr.extractLsb' 4 3 = BitVec.allOnes 3 := by decide
  have hbit : ∀ b, bitOf seenEsr b = true → bitOf (e &&& seenEsr) b = bitOf e b := fun b hb => by
    rw [bitOf, BitVec.getLsbD_and, ← bitOf, ← bitOf, hb, Bool.and_true]
  rw [esFields, BitVec.extractLsb'_and, hrec, BitVec.and_allOnes, BitVec.extractLsb'_and, htec, BitVec.and_allOnes,
    BitVec.extractLsb'_and, hlec, BitVec.and_allOnes, hbit bitBoff rfl, hbit bitEpvf rfl, hbit bitEwgf rfl, esFields]

/-- What `ES.UPDATE` makes of its read is what the register held. -/
theorem esFields_shown (e d : Word) : esFields ((shown e seenEsr d).on seenEsr) = esFields e := by
  rw [on_shown (by decide), esFields_and_seenEsr]

/-! ## `ES.UPDATE` and `CAN.GETERR` (R170, R217) -/

/-- `s` after the read of `ES.UPDATE`, `r` being the moves still to come. -/
def State.esUpdated (s : State) (r : List Move) : State :=
  { s with
    sched := r, draws := s.draws + 1, trace := s.trace ++ [s.readEvent 0 .esr]
    es := esFields s.can.esr }.setLocal (s.readEvent 0 .esr).word

/-- The read of `ESR`, at the head of a task. -/
theorem busStep_esr_busy (s : State) (c : Can) (d : Nat) (t : List BusEvent) (r : List Move) (k : Task) (rest : List Op) :
    busStep .esr rest (s.busy c d t r k)
      = .next (proceed rest ((s.setEs (esFields c.esr)).busy c (d + 1)
          (t ++ [s.reads .esr (shown c.esr seenEsr (Config.freeWord d))]) r
          ⟨k.ops, shown c.esr seenEsr (Config.freeWord d)⟩)) := by
  have hword : ((s.busy c d t r k).readEvent 0 .esr).word = shown c.esr seenEsr (Config.freeWord d) := by
    rw [← State.regRead_eq, busy_regRead]
    rfl
  rw [busStep_esr, hword, esFields_shown, readStep, busy_setEs, busy_afterRead, busy_setLocal, busy_regRead]
  rfl

/-- The run of `ES.UPDATE` from its start, with what follows it in the operation. -/
theorem reaches_startEsUpdate {n : Nat} {s T : State} {r : List Move} (ops : List Op) (hp : s.plays (engineMoves 1 r))
    (h' : Reaches n (proceed (ops ++ s.task.ops) (s.esUpdated r)) T) :
    Reaches (n + 1) (startOp (esUpdateOps ++ ops) s) T := by
  obtain ⟨hh, hport, htok, hs⟩ := hp
  rw [esUpdateOps, List.singleton_append, startOp_busy, hs]
  refine reaches_busy ⟨hh, hport, htok⟩ (busStep_esr_busy ..) ?_
  rw [proceed_busy_local]
  exact h'

/-- `ES` goes to `RES_ES` (R217), whatever the local. -/
theorem runQuiet_resEs_setLocal (s : State) (v : BusWord) :
    runQuiet .resEs (s.setLocal v) = { s with res := { s.res with es := s.es } }.setLocal v := by
  apply State.ext <;> simp [runQuiet]

/-- Settles O19: `CAN.GETERR` is the run of `ES.UPDATE` and then the copy of `ES`. -/
theorem errorSnapshots : Obligations.ErrorSnapshots := by
  unfold Obligations.ErrorSnapshots
  refine ⟨?update, ?geterr⟩
  case update =>
    intro s r hp
    exact ⟨_, exec_esUpdate s, reaches_startEsUpdate [] hp rfl⟩
  case geterr =>
    intro s r e hp he
    subst he
    refine ⟨_, exec_canGeterr s, reaches_startEsUpdate [.quiet .resEs] hp ?_⟩
    rw [List.singleton_append, proceed_quiet, State.esUpdated, runQuiet_resEs_setLocal]
    rfl

/-! ## `ES.LABEL` (R172) -/

/-- Settles O20: a code up to 7 passes the operand check and the operation starts no bus step; above 7 the check
fails. -/
theorem labelOfErrorCode : Obligations.LabelOfErrorCode := by
  unfold Obligations.LabelOfErrorCode
  refine ⟨?inRange, ?above, ?table⟩
  case inRange =>
    intro c s hc
    change execEsLabel c s = _
    rw [execEsLabel, inContext_of_holds rfl, if_neg (BitVec.not_lt.2 hc)]
    rfl
  case above =>
    intro c s hc
    exact if_pos hc
  case table => decide

end Sys2Proof.Machine
end

section
/-! The steps of `CAN.INIT` that ask CANHW for something and wait for its answer (R181 to R183, R187), with `CAN.START`
(R190); the options (R184) and the bit timing (R185). -/

namespace Sys2Proof.Machine

/-- Settles O21: `CAN.INIT` is admitted in thread context, and only starts the sequencer. -/
theorem initStartsAtStepOne : Obligations.InitStartsAtStepOne := by
  unfold Obligations.InitStartsAtStepOne
  intro s hc
  exact inContext_thread hc

/-! ## Starting and ending a step (R180) -/

/-- The engine's own bookkeeping leaves the local alone. -/
theorem runQuiet_setLocal (q : Quiet) (s : State) (v : BusWord) :
    runQuiet q (s.setLocal v) = (runQuiet q s).setLocal v := by
  cases q <;> apply State.ext <;> simp [runQuiet]

/-- The end of a step: `SEQ` names the next one, and the caller goes on. -/
theorem proceed_setSeq_setLocal (x : BitVec 4) (rest : List Op) (s : State) (v : BusWord) :
    proceed ([.quiet (.setSeq x)] ++ rest) (s.setLocal v) = proceed rest ((s.setSeq x).setLocal v) := by
  rw [List.singleton_append, proceed_quiet, runQuiet_setLocal]
  rfl

/-! ## Read-modify-writes (R64) -/

/-- A read-modify-write of `q`: `b` writes back `f` of the word read. -/
theorem reaches_rmw {n d : Nat} {s T : State} {c : Can} {t : List BusEvent} {r : List Move} {v w : BusWord}
    {rest : List Op} {q : Reg} {b : BusOp} {f : BusWord → BusWord}
    (hb : ∀ ops u, busStep b ops u = .next (writeStep q (f u.task.v) ops u))
    (h : s.halted = false ∧ s.port = none ∧ s.token = none) (hw : w = (s.setCan c).view (Config.freeWord d) q)
    (h' : Reaches n (proceed rest ((s.putCore q (f w)).busy (c.write (f w) q) (d + 1)
      (t ++ [s.reads q w, s.writes q (f w)]) r ⟨rest, w⟩)) T) :
    Reaches (n + 2) (s.busy c d t (engineMoves 2 r) ⟨.bus (.rd q) :: .bus b :: rest, v⟩) T := by
  refine reaches_rd h hw ?_
  rw [proceed_bus, busy_setOps]
  refine reaches_busy h (hb rest _) ?_
  rw [← proceed_setOps rest] at h'
  rw [writeStep, ← proceed_setOps rest]
  simpa [State.reads, State.writes] using h'

/-- One of `MCR` at the start of an operation, whose write makes the register file `c`. -/
theorem reaches_startMcr {n : Nat} {s T : State} {c : Can} {r : List Move} {ops : List Op} {b : BusOp}
    {f : BusWord → BusWord} (hb : ∀ ops u, busStep b ops u = .next (writeStep .mcr (f u.task.v) ops u))
    (hp : s.plays (engineMoves 2 r)) (hc : s.can.write (f (s.readEvent 0 .mcr).word) .mcr = c)
    (h' : Reaches n (proceed (ops ++ s.task.ops) (s.busy c (s.draws + 1)
      (s.trace ++ [s.readEvent 0 .mcr, s.writes .mcr (f (s.readEvent 0 .mcr).word)]) r
      ⟨ops ++ s.task.ops, (s.readEvent 0 .mcr).word⟩)) T) :
    Reaches (n + 2) (startOp (.bus (.rd .mcr) :: .bus b :: ops) s) T := by
  subst hc
  obtain ⟨hh, hport, htok, hs⟩ := hp
  rw [startOp_busy, hs]
  exact reaches_rmw hb ⟨hh, hport, htok⟩ rfl h'

theorem write_mcr_or (s : State) {m : Word} (hm : m &&& ~~~seenMcr = 0#32) :
    s.can.write ((s.readEvent 0 .mcr).word.orMask m) .mcr = { s.can with mcr := s.can.mcr ||| m } :=
  congrArg (fun x => { s.can with mcr := x }) (mcr_or_write_back hm)

theorem write_mcr_andNot (s : State) {m : Word} (hm : m &&& ~~~rwMcr = 0#32) :
    s.can.write ((s.readEvent 0 .mcr).word.andNotMask m) .mcr = { s.can with mcr := s.can.mcr &&& ~~~m } :=
  congrArg (fun x => { s.can with mcr := x }) (mcr_and_write_back hm)

/-! ## Request and answer (R310) -/

theorem bitOf_or {m : Word} {b : Nat} (w : Word) (h : bitOf m b = true) : bitOf (w ||| m) b = true := by
  rw [← setBits, bitOf_setBits, h, Bool.or_true]

theorem bitOf_andNot {m : Word} {b : Nat} (w : Word) (h : bitOf m b = true) : bitOf (w &&& ~~~m) b = false := by
  rw [← clearBits, bitOf_clearBits, h, Bool.not_true, Bool.and_false]

/-- `s` after the controller was asked by a write of `x` to `MCR`, leaving the register file `c`, and has answered, leaving
`c'`: `k` reads of `q` were in vain, the next found `w`; `r` are the moves still to come. -/
def State.answered (s : State) (x : BusWord) (c c' : Can) (q : Reg) (k : Nat) (w : BusWord) (r : List Move) : State :=
  { s with
    sched := r, can := c', draws := s.draws + (k + 2)
    trace := s.trace ++ [s.readEvent 0 .mcr, s.writes .mcr x] ++ (s.setCan c).pollEvents q (s.draws + 1) k
      ++ [s.reads q w] }.setLocal w

/-- The request by a read-modify-write of `MCR`, `k` reads in vain, the moves `hs` of CANHW, and the read that finds bit
`a`. -/
theorem reaches_answered {s : State} {c c' : Can} {q : Reg} {a k : Nat} {val : Bool} {hs : List HwMove} {w : BusWord}
    {r : List Move} {ops : List Op} {b : BusOp} {f : BusWord → BusWord}
    (hb : ∀ ops u, busStep b ops u = .next (writeStep .mcr (f u.task.v) ops u))
    (hp : s.plays (engineMoves (k + 2) (hs.map .hw ++ .engine :: r)))
    (hc : s.can.write (f (s.readEvent 0 .mcr).word) .mcr = c) (hmove : hs.foldl (fun c m => c.move s.cfg m) c = c')
    (hpoll : k = 0 ∨ ∀ d, ((s.setCan c).view d q).bit a ≠ val)
    (hw : w = (s.setCan c').view (Config.freeWord (s.draws + (k + 1))) q) (hval : w.bit a = val) :
    Reaches (k + hs.length + 3) (startOp (.bus (.rd .mcr) :: .bus b :: .bus (.wait q a val) :: ops) s)
      (proceed (ops ++ s.task.ops) (s.answered (f (s.readEvent 0 .mcr).word) c c' q k w r)) := by
  subst hmove
  obtain ⟨hh, hport, htok, hsched⟩ := hp
  have hlast : ∀ t v, t = s.trace ++ [s.readEvent 0 .mcr, s.writes .mcr (f (s.readEvent 0 .mcr).word)]
        ++ (s.setCan c).pollEvents q (s.draws + 1) k →
      Reaches (1 + hs.length) (s.busy c (s.draws + 1 + k) t (hs.map .hw ++ .engine :: r)
        ⟨.bus (.wait q a val) :: (ops ++ s.task.ops), v⟩)
      (proceed (ops ++ s.task.ops) (s.answered (f (s.readEvent 0 .mcr).word) c
        (hs.foldl (fun c m => c.move s.cfg m) c) q k w r)) := by
    rintro t v rfl
    rw [Nat.add_right_comm, Nat.add_assoc]
    refine reaches_busy_hws hs (reaches_wait ⟨hh, hport, htok⟩ hw hval ?_)
    rw [proceed_busy_local]
    rfl
  rw [show k + hs.length + 3 = 1 + hs.length + k + 2 by omega]
  refine reaches_startMcr (r := engineMoves k (hs.map Move.hw ++ .engine :: r)) hb ⟨hh, hport, htok, hsched⟩ hc ?_
  rw [List.cons_append, proceed_bus, busy_setOps]
  rcases hpoll with rfl | hpoll
  · exact hlast _ _ (List.append_nil _).symm
  · exact reaches_polls ⟨hh, hport, htok⟩ hpoll k fun v => hlast _ v rfl

/-- The same as a step of `CAN.INIT`, which sets `SEQ` at its start and at its end (R180). -/
theorem reaches_answered_step {s : State} {c c' : Can} {q : Reg} {a k : Nat} {val : Bool} {hs : List HwMove}
    {w : BusWord} {r : List Move} {b : BusOp} {f : BusWord → BusWord} (x : BitVec 4)
    (hb : ∀ ops u, busStep b ops u = .next (writeStep .mcr (f u.task.v) ops u))
    (hp : s.plays (engineMoves (k + 2) (hs.map .hw ++ .engine :: r)))
    (hc : s.can.write (f (s.readEvent 0 .mcr).word) .mcr = c) (hmove : hs.foldl (fun c m => c.move s.cfg m) c = c')
    (hpoll : k = 0 ∨ ∀ d, ((s.setCan c).view d q).bit a ≠ val)
    (hw : w = (s.setCan c').view (Config.freeWord (s.draws + (k + 1))) q) (hval : w.bit a = val) :
    Reaches (k + hs.length + 3) (startStep x [.bus (.rd .mcr), .bus b, .bus (.wait q a val)] s)
      (proceed s.task.ops ((s.setSeq (x + 1#4)).answered (f (s.readEvent 0 .mcr).word) c c' q k w r)) := by
  have hrun := reaches_answered (s := s.setSeq x) (ops := [.quiet (.setSeq (x + 1#4))]) hb hp hc hmove hpoll hw hval
  rw [State.answered, proceed_setSeq_setLocal] at hrun
  exact hrun

/-- What is left of `s` when the answer stood already, and so CANHW had no move to make. -/
theorem answered_frame {s : State} (hc : s.ctx = .thread) (x : BusWord) (c : Can) (q : Reg) (w : BusWord)
    (r : List Move) :
    s.answered x c c q 0 w r = { s with
      sched := r, can := c, draws := s.draws + 2, thread := (s.answered x c c q 0 w r).thread
      trace := (s.answered x c c q 0 w r).trace } := by
  apply State.ext <;> simp [State.answered, hc]

/-- A read of `MSR` finds `INAK` and `SLAK` as they stand (R26). -/
theorem view_msr_bit (s : State) (d : Word) {a : Nat} (ha : seenMsr.getLsbD a = true) :
    (s.view d .msr).bit a = bitOf s.can.msr a :=
  bit_shown ha

/-- Settles O22: `MCR` shows `RESET` until CANHW's reset move has given the register file its reset values. -/
theorem stepResetRuns : Obligations.StepResetRuns := by
  unfold Obligations.StepResetRuns
  intro s k fr r b hc hp hb
  subst hb
  have hreset : bitOf (s.can.mcr ||| mReset) bitReset = true := bitOf_or _ rfl
  refine ⟨_, _, rfl, rfl, ?_⟩
  refine reaches_answered_step (f := (·.orMask mReset)) (c := { s.can with mcr := s.can.mcr ||| mReset }) 1#4
    (hs := [_]) (fun _ _ => rfl) hp (write_mcr_or s (by decide)) ?_ (.inr fun d => ?_) ?_ ?_
  · exact if_pos hreset
  · rw [State.view, bit_shown (by decide)]
    exact fun h => Bool.false_ne_true (h.symm.trans hreset)
  · cases fr <;> rfl
  · rw [bit_shown (by decide)]
    decide

/-- Settles O23: `SLAK` stands until the wake move, which `SLEEP = 0` enables, has cleared it. -/
theorem stepExitSleepRuns : Obligations.StepExitSleepRuns := by
  unfold Obligations.StepExitSleepRuns
  intro s k r b hc hasleep hp hb
  subst hb
  have hsleep : bitOf (s.can.mcr &&& ~~~mSleep) bitSleep = false := bitOf_andNot _ rfl
  have hawake : bitOf (s.can.msr &&& ~~~oneBit bitSlak) bitSlak = false := bitOf_andNot _ rfl
  refine ⟨_, _, rfl, rfl, ?_⟩
  refine reaches_answered_step (f := (·.andNotMask mSleep)) (c := { s.can with mcr := s.can.mcr &&& ~~~mSleep }) 2#4
    (hs := [_]) (fun _ _ => rfl) hp (write_mcr_andNot s (by decide)) ?_ (.inr fun d => ?_) rfl ?_
  · refine if_pos ?_
    simp [Can.asleep, bitSlak, hasleep, hsleep]
  · rw [view_msr_bit _ _ (by decide)]
    exact fun h => Bool.false_ne_true (h.symm.trans hasleep)
  · exact (bit_shown (by decide)).trans hawake

/-- Settles O24: `INAK` is 0 until the move that enters init mode, which `INRQ = 1` and a silent bus enable, has set it. -/
theorem stepEnterConfigRuns : Obligations.StepEnterConfigRuns := by
  unfold Obligations.StepEnterConfigRuns
  intro s k r b hc hout hair hp hb
  subst hb
  have hinrq : bitOf (s.can.mcr ||| mInrq) bitInrq = true := bitOf_or _ rfl
  have hin : bitOf (s.can.msr ||| oneBit bitInak) bitInak = true := bitOf_or _ rfl
  refine ⟨_, _, rfl, rfl, ?_⟩
  refine reaches_answered_step (f := (·.orMask mInrq)) (c := { s.can with mcr := s.can.mcr ||| mInrq }) 3#4
    (hs := [_]) (fun _ _ => rfl) hp (write_mcr_or s (by decide)) ?_ (.inr fun d => ?_) rfl ?_
  · refine if_pos ?_
    simp [Can.inInit, bitInak, hout, hinrq, hair]
  · rw [view_msr_bit _ _ (by decide)]
    exact fun h => Bool.false_ne_true (hout.symm.trans h)
  · exact (bit_shown (by decide)).trans hin

/-- The controller once `INRQ` has been cleared and init mode left (R233), and in bus-off its recovery begun (R245). -/
def Can.leftInit (c : Can) : Can :=
  { c with
    mcr := c.mcr &&& ~~~mInrq, msr := c.msr &&& ~~~oneBit bitInak, recovering := c.recovering || bitOf c.esr bitBoff }

/-- Settles O28: `INAK` stands until the move that leaves init mode, which `INRQ = 0` enables, has cleared it; the step and
`CAN.START` differ in `SEQ` only. -/
theorem leaveConfigRuns : Obligations.LeaveConfigRuns := by
  unfold Obligations.LeaveConfigRuns
  intro i s k r b hi hc hin hp hb
  subst hb
  have hinrq : bitOf (s.can.mcr &&& ~~~mInrq) bitInrq = false := bitOf_andNot _ rfl
  have hout : bitOf s.can.leftInit.msr bitInak = false := bitOf_andNot _ rfl
  have hmove : ({ s.can with mcr := s.can.mcr &&& ~~~mInrq } : Can).move s.cfg .initLeave = s.can.leftInit := by
    refine if_pos ?_
    simp [Can.inInit, bitInak, hin, hinrq]
  have hpoll (d : Word) : ((s.setCan { s.can with mcr := s.can.mcr &&& ~~~mInrq }).view d .msr).bit bitInak ≠ false := by
    rw [view_msr_bit _ _ (by decide)]
    exact fun h => Bool.false_ne_true (h.symm.trans hin)
  have hval (d : Word) : (shown s.can.leftInit.msr seenMsr d).bit bitInak = false := (bit_shown (by decide)).trans hout
  rcases hi with rfl | rfl
  · refine ⟨_, _, rfl, rfl, ?_⟩
    exact reaches_answered_step (f := (·.andNotMask mInrq)) (hs := [_]) 7#4 (fun _ _ => rfl) hp
      (write_mcr_andNot s (by decide)) hmove (.inr hpoll) rfl (hval _)
  · refine ⟨_, _, inContext_thread hc, rfl, ?_⟩
    exact reaches_answered (f := (·.andNotMask mInrq)) (hs := [_]) (ops := []) (fun _ _ => rfl) hp
      (write_mcr_andNot s (by decide)) hmove (.inr hpoll) rfl (hval _)

/-- Settles O30: CANHW makes no move, and the first read finds the answer. -/
theorem waitsEndAtFirstRead : Obligations.WaitsEndAtFirstRead := by
  unfold Obligations.WaitsEndAtFirstRead
  intro i m c s r hc hp h
  have hmsr : ∀ (x d : Word) (a : Nat), seenMsr.getLsbD a = true →
      ((s.setCan { s.can with mcr := x }).view d .msr).bit a = bitOf s.can.msr a := fun x d a => view_msr_bit _ d
  rcases h with ⟨rfl, rfl, rfl, hbit⟩ | ⟨rfl, rfl, rfl, hbit⟩ | ⟨rfl, rfl, rfl, hbit⟩ | ⟨rfl, rfl, rfl, hbit⟩
  · exact ⟨_, _, rfl, reaches_answered_step (f := (·.andNotMask mSleep)) (k := 0) (hs := []) 2#4 (fun _ _ => rfl) hp
      (write_mcr_andNot s (by decide)) rfl (.inl rfl) rfl ((hmsr _ _ 1 (by decide)).trans hbit),
      answered_frame (s := s.setSeq 3#4) hc ..⟩
  · exact ⟨_, _, rfl, reaches_answered_step (f := (·.orMask mInrq)) (k := 0) (hs := []) 3#4 (fun _ _ => rfl) hp
      (write_mcr_or s (by decide)) rfl (.inl rfl) rfl ((hmsr _ _ 0 (by decide)).trans hbit),
      answered_frame (s := s.setSeq 4#4) hc ..⟩
  · exact ⟨_, _, rfl, reaches_answered_step (f := (·.andNotMask mInrq)) (k := 0) (hs := []) 7#4 (fun _ _ => rfl) hp
      (write_mcr_andNot s (by decide)) rfl (.inl rfl) rfl ((hmsr _ _ 0 (by decide)).trans hbit),
      answered_frame (s := s.setSeq 8#4) hc ..⟩
  · exact ⟨_, _, inContext_thread hc, reaches_answered (f := (·.andNotMask mInrq)) (k := 0) (hs := []) (ops := [])
      (fun _ _ => rfl) hp (write_mcr_andNot s (by decide)) rfl (.inl rfl) rfl ((hmsr _ _ 0 (by decide)).trans hbit),
      answered_frame hc ..⟩

/-! ## The options (R184) -/

/-- Settles O25: one read-modify-write, and the step ends. -/
theorem stepOptionsRuns : Obligations.StepOptionsRuns := by
  unfold Obligations.StepOptionsRuns
  intro s r hc hp
  refine ⟨_, rfl, ?_⟩
  refine reaches_startMcr (n := 0) (s := s.setSeq 4#4) (f := (·.andNotMask mOptions)) (fun _ _ => rfl) hp
    (write_mcr_andNot s (by decide)) ?_
  rw [proceed_busy_local]
  exact proceed_setSeq_setLocal ..

/-! ## The bit timing (R185) -/

/-- Every field of the image of a bit timing lies in the bits `BTR` has, and the jump width is 0 (R102). -/
theorem btrWord_eq (bt : BitTiming) :
    btrWord bt = ((bt.prescaler - 1#32) &&& 0x3FF#32) ||| ((bt.ts1 - 1#32) &&& 0xF#32) <<< 16
      ||| ((bt.ts2 - 1#32) &&& 0x7#32) <<< 20 := by
  have hjump : ((sjw - 1#32) &&& 0x3#32) <<< 24 = 0#32 := by decide
  rw [btrWord, hjump, BitVec.or_zero]

theorem btrWord_and_seenBtr (bt : BitTiming) : btrWord bt &&& seenBtr = btrWord bt := by
  have hpresc : 0x3FF#32 &&& seenBtr = 0x3FF#32 := by decide
  have hts1 : 0xF#32 <<< 16 &&& seenBtr = 0xF#32 <<< 16 := by decide
  have hts2 : 0x7#32 <<< 20 &&& seenBtr = 0x7#32 <<< 20 := by decide
  simp only [btrWord_eq, BitVec.and_or_distrib_right, BitVec.shiftLeft_and_distrib, BitVec.and_assoc, hpresc, hts1, hts2]

/-- `BTR` is written in init mode only, and then whole (R234). -/
theorem write_btrWord (c : Can) (bt : BitTiming) :
    c.write (.lit (btrWord bt)) .btr
      = if bitOf c.msr 0 then { c with btr := (c.btr &&& ~~~seenBtr) ||| btrWord bt } else c := by
  rw [Can.write, BusWord.on_lit, btrWord_and_seenBtr, mergeBits, btrWord_and_seenBtr]
  rfl

/-- `s` after the clock has been sampled and `BT` solved, with the record of an inexact result. -/
def State.timed (s : State) (bt : BitTiming) (exact : Bool) : State :=
  { s with
    fClk := s.clkHz, bt := bt
    diag := s.diag ++ if exact then [] else [.timingInexact s.clkHz s.args.rate bt.prescaler] }

theorem timingSolved_eq {s : State} {bt : BitTiming} {exact : Bool}
    (h : solve s.cfg.solverFallback s.clkHz s.args.rate = (bt, exact)) : timingSolved s = s.timed bt exact :=
  solveInto_eq (s := { s with fClk := s.clkHz }) h

/-- Settles O26: the clock is sampled and `BT` solved as the step starts; its one bus step is the write of `BTR`. -/
theorem stepTimingRuns : Obligations.StepTimingRuns := by
  unfold Obligations.StepTimingRuns
  intro s r bt exact hc hsolve ⟨hh, hport, htok, hs⟩
  refine ⟨_, btrWord bt, rfl, btrWord_eq bt, ?_⟩
  rw [timingSolved_eq hsolve, startStep, timingOps, List.singleton_append, startOp_busy]
  change Reaches 1 (State.busy _ _ _ _ s.sched _) _
  rw [hs]
  refine reaches_wr ⟨hh, hport, htok⟩ ?_
  change Reaches 0 (proceed ([.quiet (.setSeq 6#4)] ++ s.task.ops) (State.busy _ _ _ _ _ ⟨_, s.task.v⟩)) _
  rw [write_btrWord]
  exact proceed_busy ..

end Sys2Proof.Machine
end

section
/-! `STEP.FILTER` (R186): bank 0 passes every frame to FIFO 0, and no given bit of another bank changes. -/

namespace Sys2Proof.Machine

/-! ## Writing the filter registers (R38 to R43, R234) -/

/-- A write of all bits leaves the word written. -/
theorem store_word (u : UReg) (v : BusWord) : u.store 0xFFFFFFFF#32 v = ⟨v.word, 0#32⟩ := by
  have hnone : ∀ w : Word, clearBits w 0xFFFFFFFF#32 = 0#32 := fun w => by simp [clearBits]
  rw [UReg.store, hnone, hnone, BitVec.zero_or, BusWord.word]

theorem write_fmr (c : Can) (v : BusWord) : c.write v .fmr = { c with fmr := ⟨v.word, 0#32⟩ } := by
  rw [Can.write, store_word]

theorem write_fa1r (c : Can) (v : BusWord) : c.write v .fa1r = { c with fa1r := ⟨v.word, 0#32⟩ } := by
  rw [Can.write, store_word]

section
variable {c : Can} (h : c.finit = true)
include h

theorem write_fs1r (v : BusWord) : c.write v .fs1r = { c with fs1r := ⟨v.word, 0#32⟩ } := by
  rw [Can.write, if_pos h, store_word]

theorem write_fm1r (v : BusWord) : c.write v .fm1r = { c with fm1r := ⟨v.word, 0#32⟩ } := by
  rw [Can.write, if_pos h, store_word]

theorem write_ffa1r (v : BusWord) : c.write v .ffa1r = { c with ffa1r := ⟨v.word, 0#32⟩ } := by
  rw [Can.write, if_pos h, store_word]

theorem write_f0r1 (w : Word) : c.write (.lit w) .f0r1 = { c with f0r1 := ⟨w, 0#32⟩ } := by
  rw [Can.write, h, Bool.true_or, if_pos rfl, store_full]

theorem write_f0r2 (w : Word) : c.write (.lit w) .f0r2 = { c with f0r2 := ⟨w, 0#32⟩ } := by
  rw [Can.write, h, Bool.true_or, if_pos rfl, store_full]

end

/-! ## Read-modify-writes of bit 0 -/

/-- Register `u` after a read-modify-write that sets bit 0, its read being the `d`-th. -/
def UReg.bit0Set (u : UReg) (d : Nat) : UReg :=
  ⟨((u.shown 0xFFFFFFFF#32 (Config.freeWord d)).orMask 1#32).word, 0#32⟩

/-- The same for one that clears bit 0. -/
def UReg.bit0Cleared (u : UReg) (d : Nat) : UReg :=
  ⟨((u.shown 0xFFFFFFFF#32 (Config.freeWord d)).andNotMask 1#32).word, 0#32⟩

/-- A given bit of a word is the known one. -/
theorem bitOf_word {v : BusWord} {i : Nat} (hi : i < 32) (h : bitOf v.opn i = false) :
    bitOf v.word i = bitOf v.known i := by
  rw [bitOf] at h
  have hones : (0xFFFFFFFF#32)[i] = true := by
    have hall : ∀ j : Fin 32, (0xFFFFFFFF#32).getLsbD j = true := by decide
    exact (BitVec.getLsbD_eq_getElem hi).symm.trans (hall ⟨i, hi⟩)
  rw [BusWord.word, BusWord.on]
  split
  · simp [bitOf, hi, hones]
  · rw [BitVec.getLsbD_eq_getElem hi] at h
    simp [bitOf, h, hi, hones]

theorem shown_ones (u : UReg) (d : Word) : u.shown 0xFFFFFFFF#32 d = ⟨u.val, u.unk, d⟩ := by
  rw [UReg.shown, show ~~~0xFFFFFFFF#32 = 0#32 by decide, BitVec.or_zero]

theorem bitOf_one {i : Nat} (h : 1 ≤ i) : bitOf 1#32 i = false := by
  rw [bitOf, BitVec.getLsbD_one, decide_eq_false (Nat.ne_of_gt h), Bool.and_false]

/-- A register that holds a bus word whose given bits are those of `u`, but for bit 0. -/
theorem onlyBit0_of_word {u : UReg} {v : BusWord} {b : Bool} (hopn : bitOf v.opn 0 = false) (hb : bitOf v.known 0 = b)
    (hkept : ∀ i, 1 ≤ i → bitOf u.unk i = false → bitOf v.opn i = false ∧ bitOf v.known i = bitOf u.val i) :
    u.onlyBit0 ⟨v.word, 0#32⟩ b := by
  refine ⟨rfl, (bitOf_word (by decide) hopn).trans hb, fun i h1 hi hgiven => ?_⟩
  obtain ⟨hgiven', hsame⟩ := hkept i h1 hgiven
  exact (bitOf_word hi hgiven').trans hsame

theorem bit0Set_onlyBit0 (u : UReg) (d : Nat) : u.onlyBit0 (u.bit0Set d) true := by
  have hknown (i : Nat) : bitOf (u.val ||| 1#32) i = (bitOf u.val i || bitOf 1#32 i) := bitOf_setBits ..
  have hopn (i : Nat) : bitOf (u.unk &&& ~~~1#32) i = (bitOf u.unk i && !bitOf 1#32 i) := bitOf_clearBits ..
  rw [UReg.bit0Set, shown_ones]
  refine onlyBit0_of_word ((hopn 0).trans (Bool.and_false _)) ((hknown 0).trans (Bool.or_true _)) fun i h1 hgiven => ⟨?_, ?_⟩
  · exact (hopn i).trans (by rw [hgiven, Bool.false_and])
  · exact (hknown i).trans (by rw [bitOf_one h1, Bool.or_false])

theorem bit0Cleared_onlyBit0 (u : UReg) (d : Nat) : u.onlyBit0 (u.bit0Cleared d) false := by
  have hcleared (w : Word) (i : Nat) : bitOf (w &&& ~~~1#32) i = (bitOf w i && !bitOf 1#32 i) := bitOf_clearBits ..
  rw [UReg.bit0Cleared, shown_ones]
  refine onlyBit0_of_word ((hcleared _ 0).trans (Bool.and_false _)) ((hcleared _ 0).trans (Bool.and_false _))
    fun i h1 hgiven => ⟨?_, ?_⟩
  · exact (hcleared _ i).trans (by rw [hgiven, Bool.false_and])
  · exact (hcleared _ i).trans (by rw [bitOf_one h1, Bool.not_false, Bool.and_true])

/-- Of two changes of bit 0 the later one counts. -/
theorem onlyBit0_trans {u v w : UReg} {a b : Bool} (h : u.onlyBit0 v a) (h' : v.onlyBit0 w b) : u.onlyBit0 w b := by
  obtain ⟨hunk, -, hkept⟩ := h
  obtain ⟨hunk', hbit, hkept'⟩ := h'
  refine ⟨hunk', hbit, fun i h1 hi hgiven => ?_⟩
  rw [hkept' i h1 hi (by simp [hunk, bitOf]), hkept i h1 hi hgiven]

/-! ## The run (R186) -/

/-- The controller after step 6, whose reads were the `d`-th to the `d + 5`-th. -/
def Can.filtered (c : Can) (d : Nat) : Can :=
  { c with
    fmr := (c.fmr.bit0Set d).bit0Cleared (d + 5), fs1r := c.fs1r.bit0Set (d + 1), fm1r := c.fm1r.bit0Cleared (d + 2)
    f0r1 := ⟨0#32, 0#32⟩, f0r2 := ⟨0#32, 0#32⟩, ffa1r := c.ffa1r.bit0Cleared (d + 3), fa1r := c.fa1r.bit0Set (d + 4) }

/-- The two accesses of a read-modify-write of `q` that sets bit 0, the read being the `i`-th since `s`. -/
def State.setEvents (s : State) (i : Nat) (q : Reg) : List BusEvent :=
  [s.readEvent i q, s.writes q ((s.readEvent i q).word.orMask 1#32)]

/-- The same for one that clears bit 0. -/
def State.clearEvents (s : State) (i : Nat) (q : Reg) : List BusEvent :=
  [s.readEvent i q, s.writes q ((s.readEvent i q).word.andNotMask 1#32)]

/-- The fourteen bus steps of step 6. -/
def State.filterEvents (s : State) : List BusEvent :=
  s.setEvents 0 .fmr ++ s.setEvents 1 .fs1r ++ s.clearEvents 2 .fm1r
    ++ [s.writeEvent .f0r1 0#32, s.writeEvent .f0r2 0#32]
    ++ s.clearEvents 3 .ffa1r ++ s.setEvents 4 .fa1r
    ++ (s.setCan { s.can with fmr := s.can.fmr.bit0Set s.draws }).clearEvents 5 .fmr

/-- A read-modify-write of a controller register. -/
theorem reaches_rmwCan {n d : Nat} {s T : State} {c c' : Can} {t : List BusEvent} {r : List Move} {v w : BusWord}
    {b' : BusOp} {rest : List Op} {q : Reg} {b : BusOp} {f : BusWord → BusWord}
    (hb : ∀ ops u, busStep b ops u = .next (writeStep q (f u.task.v) ops u))
    (h : s.halted = false ∧ s.port = none ∧ s.token = none) (hw : w = (s.setCan c).view (Config.freeWord d) q)
    (hcore : s.putCore q (f w) = s) (hc : c.write (f w) q = c')
    (h' : Reaches n (s.busy c' (d + 1) (t ++ [s.reads q w, s.writes q (f w)]) r ⟨.bus b' :: rest, w⟩) T) :
    Reaches (n + 2) (s.busy c d t (engineMoves 2 r) ⟨.bus (.rd q) :: .bus b :: .bus b' :: rest, v⟩) T := by
  refine reaches_rmw hb h hw ?_
  rw [hcore, hc, proceed_bus, busy_setOps]
  exact h'

/-- The bus steps of step 6: every write is honoured, since `FINIT` is 1 from the first one on. -/
theorem stepFilter_run {s : State} {r : List Move} (hp : s.plays (engineMoves 14 r)) :
    Reaches 14 (startStep 6#4 filterOps s) (proceed s.task.ops ({ s with
      sched := r, seq := 7#4, can := s.can.filtered s.draws, draws := s.draws + 6, trace := s.trace ++ s.filterEvents
      }.setLocal (((s.can.fmr.bit0Set s.draws).shown 0xFFFFFFFF#32 (Config.freeWord (s.draws + 5)))))) := by
  obtain ⟨hh, hport, htok, hs⟩ := hp
  have hidle : (s.setSeq 6#4).halted = false ∧ (s.setSeq 6#4).port = none ∧ (s.setSeq 6#4).token = none :=
    ⟨hh, hport, htok⟩
  have hfinit {c : Can} (h : c.fmr = s.can.fmr.bit0Set s.draws) : c.finit = true := by
    obtain ⟨-, hbit, -⟩ := bit0Set_onlyBit0 s.can.fmr s.draws
    rw [Can.finit, h, hbit]
  have hstart : startStep 6#4 filterOps s = (s.setSeq 6#4).busy s.can s.draws s.trace (engineMoves 14 r)
      ⟨filterOps ++ ([.quiet (.setSeq 7#4)] ++ s.task.ops), s.task.v⟩ := by
    rw [← hs]
    exact startOp_busy ..
  rw [hstart]
  simp only [filterOps, rmwSet, rmwClear, List.cons_append, List.nil_append]
  refine reaches_rmwCan (f := (·.orMask mFinit)) (w := s.can.fmr.shown 0xFFFFFFFF#32 (Config.freeWord s.draws))
    (r := engineMoves 12 r) (fun _ _ => rfl) hidle rfl rfl (write_fmr _ _) ?_
  refine reaches_rmwCan (f := (·.orMask mBank0)) (w := s.can.fs1r.shown 0xFFFFFFFF#32 (Config.freeWord (s.draws + 1)))
    (r := engineMoves 10 r) (fun _ _ => rfl) hidle rfl rfl (write_fs1r (hfinit rfl) _) ?_
  refine reaches_rmwCan (f := (·.andNotMask mBank0))
    (w := s.can.fm1r.shown 0xFFFFFFFF#32 (Config.freeWord (s.draws + 2))) (r := engineMoves 8 r) (fun _ _ => rfl) hidle rfl rfl (write_fm1r (hfinit rfl) _) ?_
  refine reaches_wr (r := engineMoves 7 r) hidle ?_
  rw [write_f0r1 (hfinit rfl), proceed_bus, busy_setOps]
  refine reaches_wr (r := engineMoves 6 r) hidle ?_
  rw [write_f0r2 (hfinit rfl), proceed_bus, busy_setOps]
  refine reaches_rmwCan (f := (·.andNotMask mBank0))
    (w := s.can.ffa1r.shown 0xFFFFFFFF#32 (Config.freeWord (s.draws + 3))) (r := engineMoves 4 r) (fun _ _ => rfl) hidle rfl rfl (write_ffa1r (hfinit rfl) _) ?_
  refine reaches_rmwCan (f := (·.orMask mBank0)) (w := s.can.fa1r.shown 0xFFFFFFFF#32 (Config.freeWord (s.draws + 4)))
    (r := engineMoves 2 r) (fun _ _ => rfl) hidle rfl rfl (write_fa1r _ _) ?_
  refine reaches_rmw (f := (·.andNotMask mFinit))
    (w := (s.can.fmr.bit0Set s.draws).shown 0xFFFFFFFF#32 (Config.freeWord (s.draws + 5)))
    (r := r) (fun _ _ => rfl) hidle rfl ?_
  rw [write_fmr, proceed_busy_local, proceed_quiet, runQuiet_setLocal]
  simp only [List.append_assoc]
  rfl

/-- Settles O27: what the run leaves of each register is a change of its bit 0 at most. -/
theorem stepFilterRuns : Obligations.StepFilterRuns := by
  unfold Obligations.StepFilterRuns
  intro s r hc hp
  refine ⟨_, _, rfl, stepFilter_run hp, ?_, ?_, ?_, ?_, ?_, ?_, s.filterEvents, State.setLocal_trace .., rfl⟩
  · apply State.ext <;> simp [Can.filtered, hc]
  all_goals rw [State.setLocal_can]
  · exact onlyBit0_trans (bit0Set_onlyBit0 _ _) (bit0Cleared_onlyBit0 _ _)
  · exact bit0Set_onlyBit0 _ _
  · exact bit0Cleared_onlyBit0 _ _
  · exact bit0Cleared_onlyBit0 _ _
  · exact bit0Set_onlyBit0 _ _

end Sys2Proof.Machine
end

section
/-! `STEP.ENABLEIRQ` (R188): the enables in the peripheral and at the core, the priorities, and the two installs. -/

namespace Sys2Proof.Machine

/-! ## Enables and priorities (R44, R45) -/

/-- The interrupt controller with line `k` enabled. -/
def Nvic.enable (n : Nvic) (k : Irq) : Nvic := n.setEn k (setBits (n.enOf k) (oneBit (k.toNat % 32)))

/-- The interrupt controller with priority `p` for line `k`. -/
def Nvic.prioritise (n : Nvic) (k : Irq) (p : Byte) : Nvic := n.setPrio k (n.withPrio k p)

/-- A priority keeps within its byte of the word. -/
theorem prio_and_mask (p : Byte) (i : Nat) : (p.setWidth 32 <<< i) &&& (0xFF#32 <<< i) = p.setWidth 32 <<< i := by
  have hbyte : p.setWidth 32 &&& 0xFF#32 = p.setWidth 32 := by
    apply BitVec.eq_of_getLsbD_eq
    intro j hj
    rw [BitVec.getLsbD_and, BitVec.getLsbD_setWidth, getLsbD_ones8]
    by_cases h : j < 8
    · simp [h]
    · simp [BitVec.getLsbD_of_ge p j (by omega)]
  rw [← BitVec.shiftLeft_and_distrib, hbyte]

/-- The word that the write of `SetPrio` makes of the word read (R188). -/
def prioWritten (k : Irq) (p : Byte) (v : BusWord) : BusWord :=
  (v.andNotMask (0xFF#32 <<< (8 * (k.toNat % 4)))).orMask (p.setWidth 32 <<< (8 * (k.toNat % 4)))

/-- A word of priorities is given whole, and its write-back changes one byte of it. -/
theorem word_prioWritten (n : Nvic) (k : Irq) (p : Byte) (d : Word) :
    (prioWritten k p (shown (n.prioOf k) 0xFFFFFFFF#32 d)).word = n.withPrio k p := by
  have hgiven : ~~~0xFFFFFFFF#32 = 0#32 := by decide
  have hopn : (prioWritten k p (shown (n.prioOf k) 0xFFFFFFFF#32 d)).opn &&& 0xFFFFFFFF#32 = 0#32 := by
    simp [prioWritten, shown, BusWord.andNotMask, BusWord.orMask, hgiven]
  rw [BusWord.word, BusWord.on_known hopn, and_ones, Nvic.withPrio, mergeBits, prio_and_mask]
  rfl

theorem putCore_ipr (s : State) (k : Irq) (p : Byte) (d : Word) :
    s.putCore (.ipr k) (prioWritten k p (shown (s.nvic.prioOf k) 0xFFFFFFFF#32 d))
      = { s with nvic := s.nvic.prioritise k p } := by
  rw [State.putCore, word_prioWritten]
  rfl

theorem putCore_iser (s : State) (k : Irq) :
    s.putCore (.iser k) (.lit (oneBit (k.toNat % 32))) = { s with nvic := s.nvic.enable k } := by
  rw [State.putCore, BusWord.word_lit]
  rfl

/-! ## The enables in the peripheral (R29) -/

/-- The write of a read-modify-write of `IER` that sets bits. -/
theorem write_ier_or (c : Can) (d : Word) {m : Word} (hm : m &&& ~~~seenIer = 0#32) :
    c.write ((shown c.ier seenIer d).orMask m) .ier = { c with ier := c.ier ||| m } := by
  have hopn : ((shown c.ier seenIer d).orMask m).opn &&& seenIer = 0#32 := by
    change ~~~seenIer &&& ~~~m &&& seenIer = 0#32
    rw [BitVec.and_comm, ← BitVec.and_assoc, BitVec.and_not_self]
    exact BitVec.zero_and
  have hseen : m &&& seenIer = m := by
    have hsplit : m &&& seenIer ||| m &&& ~~~seenIer = m := by
      rw [← BitVec.and_or_distrib_left, BitVec.or_not_self, BitVec.and_allOnes]
    rwa [hm, BitVec.or_zero] at hsplit
  have hword : mergeBits c.ier seenIer (((shown c.ier seenIer d).orMask m).on seenIer) = c.ier ||| m := by
    rw [BusWord.on_known hopn, mergeBits, BitVec.and_assoc, BitVec.and_self]
    change c.ier &&& ~~~seenIer ||| (c.ier ||| m) &&& seenIer = c.ier ||| m
    rw [BitVec.and_or_distrib_right, hseen, ← BitVec.or_assoc, ← BitVec.and_or_distrib_left,
      BitVec.or_comm (~~~seenIer), BitVec.or_not_self, BitVec.and_allOnes]
  rw [Can.write, hword]

/-! ## The run (R188) -/

/-- The interrupt controller after step 8. -/
def Nvic.rxEnabled (n : Nvic) (p : Params) : Nvic :=
  (((n.prioritise p.irqRx0 p.prioRx).prioritise p.irqRx1 p.prioRx).enable p.irqRx0).enable p.irqRx1

/-- The table RAM after step 8. -/
def Memory.rxInstalled (m : Memory) (p : Params) : Memory :=
  (m.putWord (slotAddr p p.irqRx0.toNat).toNat p.cbRx0).putWord (slotAddr p p.irqRx1.toNat).toNat p.cbRx1

/-- The two accesses of `SetPrio k, p`, the read being the `d`-th. -/
def State.prioEvents (s : State) (k : Irq) (p : Byte) (d : Nat) : List BusEvent :=
  [s.reads (.ipr k) (shown (s.nvic.prioOf k) 0xFFFFFFFF#32 (Config.freeWord d)),
    s.writes (.ipr k) (prioWritten k p (shown (s.nvic.prioOf k) 0xFFFFFFFF#32 (Config.freeWord d)))]

section
variable {n d : Nat} {s T : State} {c : Can} {t : List BusEvent} {r : List Move} {v : BusWord} {rest : List Op}
variable {b : BusOp}
variable (h : s.halted = false ∧ s.port = none ∧ s.token = none)
include h

theorem reaches_setPrio {k : Irq} {p : Byte}
    (h' : Reaches n ({ s with nvic := s.nvic.prioritise k p }.busy c (d + 1) (t ++ s.prioEvents k p d) r
      ⟨.bus b :: rest, shown (s.nvic.prioOf k) 0xFFFFFFFF#32 (Config.freeWord d)⟩) T) :
    Reaches (n + 2) (s.busy c d t (.engine :: .engine :: r)
      ⟨.bus (.rd (.ipr k)) :: .bus (.wrPrio k p) :: .bus b :: rest, v⟩) T := by
  refine reaches_rmw (f := prioWritten k p) (w := shown (s.nvic.prioOf k) 0xFFFFFFFF#32 (Config.freeWord d))
    (fun _ _ => rfl) h rfl ?_
  rw [putCore_ipr, proceed_bus, busy_setOps]
  exact h'

theorem reaches_enable {k : Irq}
    (h' : Reaches n ({ s with nvic := s.nvic.enable k }.busy c d
      (t ++ [s.writeEvent (.iser k) (oneBit (k.toNat % 32))]) r ⟨.bus b :: rest, v⟩) T) :
    Reaches (n + 1) (s.busy c d t (.engine :: r) ⟨.bus (.wr (.iser k) (oneBit (k.toNat % 32))) :: .bus b :: rest, v⟩) T := by
  refine reaches_wr h ?_
  rw [putCore_iser, proceed_bus, busy_setOps]
  exact h'

theorem reaches_install {k : Nat} {w : Word}
    (h' : Reaches n (proceed rest ({ s with mem := s.mem.putWord (slotAddr s.cfg k).toNat w }.busy c d
      (t ++ [s.writeEvent (.slot k) w]) r ⟨rest, v⟩)) T) :
    Reaches (n + 1) (s.busy c d t (.engine :: r) ⟨.bus (.wr (.slot k) w) :: rest, v⟩) T := by
  refine reaches_wr h ?_
  rw [putCore_slot]
  exact h'

end

/-- The ten bus steps of step 8. -/
def State.enableEvents (s : State) : List BusEvent :=
  [s.readEvent 0 .ier, s.writes .ier ((s.readEvent 0 .ier).word.orMask mFmpie)]
    ++ s.prioEvents s.cfg.irqRx0 s.cfg.prioRx (s.draws + 1)
    ++ { s with nvic := s.nvic.prioritise s.cfg.irqRx0 s.cfg.prioRx }.prioEvents s.cfg.irqRx1 s.cfg.prioRx (s.draws + 2)
    ++ [s.writeEvent (.iser s.cfg.irqRx0) (oneBit (s.cfg.irqRx0.toNat % 32)),
      s.writeEvent (.iser s.cfg.irqRx1) (oneBit (s.cfg.irqRx1.toNat % 32)),
      s.writeEvent (.slot s.cfg.irqRx0.toNat) s.cfg.cbRx0, s.writeEvent (.slot s.cfg.irqRx1.toNat) s.cfg.cbRx1]

/-- `s` after step 8, `r` being the moves still to come. -/
def State.rxEnabled (s : State) (r : List Move) : State :=
  { s with
    sched := r, seq := 9#4, initRun := false, draws := s.draws + 3, trace := s.trace ++ s.enableEvents
    can := { s.can with ier := s.can.ier ||| mFmpie }
    nvic := s.nvic.rxEnabled s.cfg, mem := s.mem.rxInstalled s.cfg }.setLocal
      (shown ((s.nvic.prioritise s.cfg.irqRx0 s.cfg.prioRx).prioOf s.cfg.irqRx1) 0xFFFFFFFF#32
        (Config.freeWord (s.draws + 2)))

theorem stepEnableIrq_run {s : State} {r : List Move} (hp : s.plays (engineMoves 10 r)) :
    Reaches 10 (startOp (enableIrqOps s.cfg ++ [.quiet .initDone]) (s.setSeq 8#4))
      (proceed s.task.ops (s.rxEnabled r)) := by
  obtain ⟨hh, hport, htok, hs⟩ := hp
  have hstart : startOp (enableIrqOps s.cfg ++ [.quiet .initDone]) (s.setSeq 8#4)
      = (s.setSeq 8#4).busy s.can s.draws s.trace (engineMoves 10 r)
        ⟨enableIrqOps s.cfg ++ (.quiet .initDone :: s.task.ops), s.task.v⟩ := by
    rw [← hs]
    exact startOp_busy ..
  rw [hstart]
  simp only [enableIrqOps, rmwSet, setPrioOps, enableOps, installOps, List.cons_append, List.nil_append]
  refine reaches_rmwCan (f := (·.orMask mFmpie)) (w := shown s.can.ier seenIer (Config.freeWord s.draws))
    (r := engineMoves 8 r) (fun _ _ => rfl) ⟨hh, hport, htok⟩ rfl rfl (write_ier_or _ _ (by decide)) ?_
  refine reaches_setPrio (by exact ⟨hh, hport, htok⟩) ?_
  refine reaches_setPrio (by exact ⟨hh, hport, htok⟩) ?_
  refine reaches_enable (by exact ⟨hh, hport, htok⟩) ?_
  refine reaches_enable (by exact ⟨hh, hport, htok⟩) ?_
  refine reaches_install (by exact ⟨hh, hport, htok⟩) ?_
  rw [proceed_bus, busy_setOps]
  refine reaches_install (by exact ⟨hh, hport, htok⟩) ?_
  rw [proceed_busy_local, proceed_quiet, runQuiet_setLocal]
  simp only [List.append_assoc]
  rfl

/-! ## What the run leaves (R44, R45, R47) -/

theorem bitOf_rxEnabled (n : Nvic) (p : Params) (k : Irq) :
    bitOf ((n.rxEnabled p).enOf k) (k.toNat % 32)
      = (bitOf (n.enOf k) (k.toNat % 32) || decide (k = p.irqRx0) || decide (k = p.irqRx1)) := by
  rw [Nvic.rxEnabled, Nvic.enable, enOf_enable_bit, Nvic.enable, enOf_enable_bit]
  rfl

theorem prio_rxEnabled (n : Nvic) (p : Params) (k : Irq) :
    ((n.rxEnabled p).prioOf k).extractLsb' (8 * (k.toNat % 4)) 8
      = if k = p.irqRx0 ∨ k = p.irqRx1 then p.prioRx else (n.prioOf k).extractLsb' (8 * (k.toNat % 4)) 8 := by
  have hlast := prioOf_withPrio (n.prioritise p.irqRx0 p.prioRx) p.irqRx1 k p.prioRx
  have hfirst := prioOf_withPrio n p.irqRx0 k p.prioRx
  refine hlast.trans ?_
  rw [Nvic.prioritise, hfirst]
  by_cases h0 : k = p.irqRx0 <;> by_cases h1 : k = p.irqRx1 <;> simp [h0, h1]

theorem readWord_rxInstalled (m : Memory) {p : Params} (hwf : p.wf = true) (d : Word) {k : Nat} (hk : k < p.nVec) :
    (m.rxInstalled p).readWord (slotAddr p k).toNat d
      = if k = p.irqRx1.toNat then ⟨p.cbRx1, 0#32, d⟩
        else if k = p.irqRx0.toNat then ⟨p.cbRx0, 0#32, d⟩ else m.readWord (slotAddr p k).toNat d := by
  obtain ⟨-, h0, h1, -, ht, -⟩ := Params.wf_table hwf
  rw [Memory.rxInstalled, readWord_putSlot ht _ _ d hk h1, readWord_putSlot ht _ _ d hk h0]

theorem rxEnabled_frame {s : State} (hc : s.ctx = .thread) (r : List Move) :
    s.rxEnabled r = { s with
      sched := r, seq := 9#4, initRun := false, draws := s.draws + 3, thread := (s.rxEnabled r).thread
      trace := (s.rxEnabled r).trace, can := { s.can with ier := s.can.ier ||| mFmpie }
      nvic := s.nvic.rxEnabled s.cfg, mem := s.mem.rxInstalled s.cfg } := by
  apply State.ext <;> simp [State.rxEnabled, hc]

/-- Settles O29: enables and priorities are written bit by bit and byte by byte of their words, and the two slots are
disjoint. -/
theorem stepEnableIrqRuns : Obligations.StepEnableIrqRuns := by
  unfold Obligations.StepEnableIrqRuns
  intro s r hwf hc hp
  obtain ⟨hne, h0, h1, -, ht, -⟩ := Params.wf_table hwf
  have hne' : s.cfg.irqRx0.toNat ≠ s.cfg.irqRx1.toNat := fun h => hne (BitVec.eq_of_toNat_eq h)
  have hnvic : (s.rxEnabled r).nvic = s.nvic.rxEnabled s.cfg := State.setLocal_nvic ..
  have hmem : (s.rxEnabled r).mem = s.mem.rxInstalled s.cfg := State.setLocal_mem ..
  have hcfg : (s.rxEnabled r).cfg = s.cfg := State.setLocal_cfg ..
  have hslot (d : Nat) (k : Nat) : (s.rxEnabled r).view (Config.freeWord d) (.slot k)
      = (s.mem.rxInstalled s.cfg).readWord (slotAddr s.cfg k).toNat (Config.freeWord d) := by
    rw [State.view, hmem, hcfg]
  refine ⟨_, s.rxEnabled r, rfl, stepEnableIrq_run hp, ?frame, ?prio, ?en, ?slot0, ?slot1, ?bytes, s.enableEvents,
    State.setLocal_trace .., rfl⟩
  case frame =>
    rw [hnvic, hmem]
    exact rxEnabled_frame hc r
  case prio =>
    intro k
    rw [State.prio, hnvic, prio_rxEnabled, State.prio]
  case en =>
    intro k
    rw [State.en, hnvic, bitOf_rxEnabled, State.en]
  case slot0 =>
    intro d
    rw [hslot, readWord_rxInstalled _ hwf _ h0, if_neg hne', if_pos rfl, BusWord.given]
  case slot1 =>
    intro d
    rw [hslot, readWord_rxInstalled _ hwf _ h1, if_pos rfl, BusWord.given]
  case bytes =>
    intro a ha0 ha1
    rw [hmem, Memory.rxInstalled, Memory.byteAt_putWord_other _ ha1, Memory.byteAt_putWord_other _ ha0]

end Sys2Proof.Machine
end

section
/-! The whole of `CAN.INIT` from power-on reset (R192): the runs of the eight steps, one after another. -/

namespace Sys2Proof.Machine

/-! ## Between two steps (R180) -/

/-- `s` while `CAN.INIT` runs, at a point where the engine fetches the step `x` next. -/
def State.initAt (s : State) (x : BitVec 4) (c : Can) (r : List Move) (d : Nat) (t : List BusEvent) (v : BusWord)
    (i : Issuer) : State :=
  { s with
    seq := x, initRun := true, can := c, sched := r, draws := d, trace := t, thread := ⟨[], v⟩, issuer := i }

/-- `u` is such a point, with the register file `c`, the moves `r` still to come and `n` bus steps made. -/
def State.AtStep (s : State) (x : BitVec 4) (c : Can) (r : List Move) (n : Nat) (u : State) : Prop :=
  ∃ d t v i, t.length = n ∧ u = s.initAt x c r d t v i

/-- Nothing in `s` keeps the engine from going on in thread context. -/
structure State.Goes (s : State) : Prop where
  idle : s.halted = false ∧ s.port = none ∧ s.token = none
  ctx : s.ctx = .thread

/-- The way back from an operation of the thread with nothing to go back to. -/
theorem proceed_nil_setLocal {s : State} (hc : s.ctx = .thread) (v : BusWord) :
    proceed [] (s.setLocal v) = { s with thread := ⟨[], v⟩ } := by
  apply State.ext <;> simp [hc]

section
variable {s : State} {c c' : Can} {r : List Move} {n : Nat} {u : State} (hs : s.Goes)
include hs

theorem initAt_ops (x : BitVec 4) (d : Nat) (t : List BusEvent) (v : BusWord) (i : Issuer) :
    (s.initAt x c r d t v i).task.ops = [] :=
  congrArg Task.ops (State.task_eq_thread (s := s.initAt x c r d t v i) hs.ctx)

theorem initAt_plays (x : BitVec 4) (d : Nat) (t : List BusEvent) (v : BusWord) (i : Issuer) :
    (s.initAt x c r d t v i).plays r := by
  obtain ⟨hh, hport, htok⟩ := hs.idle
  exact ⟨hh, hport, htok, rfl⟩

/-- The engine fetches step `x`, the operation `i`; it makes `m` bus steps and leads to the next such point, where `s'` may
differ from `s` in what the step has written elsewhere. -/
theorem atStep_of_run {s' : State} {x x' : BitVec 4} {i : Instr} {r' : List Move} {k m : Nat}
    (h : s.AtStep x c (.engine :: r) n u) (hd : decodeSeq x = some i)
    (hrun : ∀ d t v, ∃ t' Y, exec i (s.initAt x c r d t v .engine) = .next t'
      ∧ Reaches k t' (proceed (s.initAt x c r d t v .engine).task.ops Y)
      ∧ ∃ d' tr v', proceed [] Y = s'.initAt x' c' r' d' tr v' .engine ∧ tr.length = t.length + m) :
    ∃ u', Reaches (k + 1) u u' ∧ s'.AtStep x' c' r' (n + m) u' := by
  obtain ⟨d, t, v, j, rfl, rfl⟩ := h
  obtain ⟨t', Y, he, hY, d', tr, v', hback, hlen⟩ := hrun d t v
  have hstep : step (s.initAt x c (.engine :: r) d t v j) = exec i (s.initAt x c r d t v .engine) :=
    step_seq (initAt_plays hs ..) hs.ctx rfl rfl hd
  rw [initAt_ops hs, hback] at hY
  exact ⟨_, reaches_succ (hstep.trans he) hY, d', tr, v', .engine, hlen, rfl⟩

theorem atStep_reset {fr : FilterReset}
    (h : s.AtStep 1#4 c (engineMoves 3 (.hw (.resetDone fr) :: .engine :: r)) n u)
    (hnext : c' = ({ Can.reset with
      fmr := c.fmr, fm1r := c.fm1r, fs1r := c.fs1r, ffa1r := c.ffa1r, fa1r := c.fa1r
      f0r1 := c.f0r1, f0r2 := c.f0r2 } : Can).resetFilters fr) :
    ∃ u', Reaches 5 u u' ∧ s.AtStep 2#4 c' r (n + 3) u' := by
  subst hnext
  refine atStep_of_run hs h rfl fun d t v => ?_
  obtain ⟨_, _, he, rfl, hrun⟩ := stepResetRuns
    (s.initAt 1#4 c (engineMoves 2 (.hw (.resetDone fr) :: .engine :: r)) d t v .engine) 0 fr r _ hs.ctx
    (initAt_plays hs ..) rfl
  exact ⟨_, _, he, hrun, _, _, _, proceed_nil_setLocal (by exact hs.ctx) _, by simp [State.initAt, State.pollEvents]⟩

theorem atStep_exitSleep (hasleep : bitOf c.msr 1 = true)
    (h : s.AtStep 2#4 c (engineMoves 3 (.hw .wake :: .engine :: r)) n u)
    (hnext : c' = { c with mcr := c.mcr &&& ~~~0x00000002#32, msr := c.msr &&& ~~~0x00000002#32 }) :
    ∃ u', Reaches 5 u u' ∧ s.AtStep 3#4 c' r (n + 3) u' := by
  subst hnext
  refine atStep_of_run hs h rfl fun d t v => ?_
  obtain ⟨_, _, he, rfl, hrun⟩ := stepExitSleepRuns
    (s.initAt 2#4 c (engineMoves 2 (.hw .wake :: .engine :: r)) d t v .engine) 0 r _ hs.ctx hasleep
    (initAt_plays hs ..) rfl
  exact ⟨_, _, he, hrun, _, _, _, proceed_nil_setLocal (by exact hs.ctx) _, by simp [State.initAt, State.pollEvents]⟩

theorem atStep_enterConfig (hout : bitOf c.msr 0 = false) (hair : c.onAir = none)
    (h : s.AtStep 3#4 c (engineMoves 3 (.hw .initEnter :: .engine :: r)) n u)
    (hnext : c' = { c with mcr := c.mcr ||| 0x00000001#32, msr := c.msr ||| 0x00000001#32 }) :
    ∃ u', Reaches 5 u u' ∧ s.AtStep 4#4 c' r (n + 3) u' := by
  subst hnext
  refine atStep_of_run hs h rfl fun d t v => ?_
  obtain ⟨_, _, he, rfl, hrun⟩ := stepEnterConfigRuns
    (s.initAt 3#4 c (engineMoves 2 (.hw .initEnter :: .engine :: r)) d t v .engine) 0 r _ hs.ctx hout hair
    (initAt_plays hs ..) rfl
  exact ⟨_, _, he, hrun, _, _, _, proceed_nil_setLocal (by exact hs.ctx) _, by simp [State.initAt, State.pollEvents]⟩

theorem atStep_options (h : s.AtStep 4#4 c (engineMoves 3 r) n u)
    (hnext : c' = { c with mcr := c.mcr &&& ~~~0x000000FC#32 }) :
    ∃ u', Reaches 3 u u' ∧ s.AtStep 5#4 c' r (n + 2) u' := by
  subst hnext
  refine atStep_of_run hs h rfl fun d t v => ?_
  obtain ⟨_, he, hrun⟩ :=
    stepOptionsRuns (s.initAt 4#4 c (engineMoves 2 r) d t v .engine) r hs.ctx (initAt_plays hs ..)
  exact ⟨_, _, he, hrun, _, _, _, proceed_nil_setLocal (by exact hs.ctx) _, by simp [State.initAt]⟩

theorem atStep_timing {bt : BitTiming} {exact : Bool}
    (hsolve : solve s.cfg.solverFallback s.clkHz s.args.rate = (bt, exact)) (hin : bitOf c.msr 0 = true)
    (h : s.AtStep 5#4 c (engineMoves 2 r) n u)
    (hnext : c' = { c with btr := (c.btr &&& ~~~seenBtr) ||| btrWord bt }) :
    ∃ u', Reaches 2 u u' ∧ (s.timed bt exact).AtStep 6#4 c' r (n + 1) u' := by
  subst hnext
  have hs' : (s.timed bt exact).Goes := ⟨hs.idle, hs.ctx⟩
  refine atStep_of_run hs h rfl fun d t v => ?_
  obtain ⟨_, w, he, hw, hrun⟩ := stepTimingRuns (s.initAt 5#4 c (engineMoves 1 r) d t v .engine) r bt exact hs.ctx
    hsolve (initAt_plays hs ..)
  have hin' : bitOf (s.initAt 5#4 c (engineMoves 1 r) d t v .engine).can.msr 0 = true := hin
  rw [if_pos hin', hw.trans (btrWord_eq bt).symm] at hrun
  exact ⟨_, _, he, hrun, _, _, _, proceed_idle (initAt_ops hs' ..), by simp [State.initAt]⟩

theorem atStep_filter (h : s.AtStep 6#4 c (engineMoves 15 r) n u) :
    ∃ u' d, Reaches 15 u u' ∧ s.AtStep 7#4 (c.filtered d) r (n + 14) u' := by
  obtain ⟨d, t, v, i, rfl, rfl⟩ := h
  have hrun := stepFilter_run (initAt_plays (c := c) (r := engineMoves 14 r) hs 6#4 d t v .engine)
  rw [initAt_ops hs, proceed_nil_setLocal (by exact hs.ctx)] at hrun
  have hstep : step (s.initAt 6#4 c (engineMoves 15 r) d t v i)
      = exec .stepFilter (s.initAt 6#4 c (engineMoves 14 r) d t v .engine) :=
    step_seq (initAt_plays hs ..) hs.ctx rfl rfl rfl
  exact ⟨_, d, reaches_succ hstep hrun, d + 6, _, _, .engine, List.length_append .., rfl⟩

theorem atStep_leaveConfig (hin : bitOf c.msr 0 = true)
    (h : s.AtStep 7#4 c (engineMoves 3 (.hw .initLeave :: .engine :: r)) n u)
    (hnext : c' = { c with
      mcr := c.mcr &&& ~~~0x00000001#32, msr := c.msr &&& ~~~0x00000001#32
      recovering := c.recovering || bitOf c.esr 2 }) :
    ∃ u', Reaches 5 u u' ∧ s.AtStep 8#4 c' r (n + 3) u' := by
  subst hnext
  refine atStep_of_run hs h rfl fun d t v => ?_
  obtain ⟨_, _, he, rfl, hrun⟩ := leaveConfigRuns .stepLeaveconfig
    (s.initAt 7#4 c (engineMoves 2 (.hw .initLeave :: .engine :: r)) d t v .engine) 0 r _ (.inl rfl) hs.ctx hin
    (initAt_plays hs ..) rfl
  exact ⟨_, _, he, hrun, _, _, _, proceed_nil_setLocal (by exact hs.ctx) _, by simp [State.initAt, State.pollEvents]⟩

/-- The last step, which ends `CAN.INIT` (R180). -/
theorem atStep_enableIrq (h : s.AtStep 8#4 c (engineMoves 11 r) n u) :
    ∃ d t v, t.length = n
      ∧ Reaches 11 u (proceed [] ((s.initAt 8#4 c (engineMoves 10 r) d t v .engine).rxEnabled r)) := by
  obtain ⟨d, t, v, i, rfl, rfl⟩ := h
  have hrun := stepEnableIrq_run (initAt_plays (c := c) (r := engineMoves 10 r) hs 8#4 d t v .engine)
  rw [initAt_ops hs] at hrun
  have hstep : step (s.initAt 8#4 c (engineMoves 11 r) d t v i)
      = exec .stepEnableirq (s.initAt 8#4 c (engineMoves 10 r) d t v .engine) :=
    step_seq (initAt_plays hs ..) hs.ctx rfl rfl rfl
  exact ⟨d, t, v, rfl, reaches_succ hstep hrun⟩

end

/-! ## The host's two actions (R10, R90) -/

/-- The engine is idle, and the host acts. -/
theorem step_host {s : State} {r : List Move} {a : HostAct} {l : List HostAct} (h : s.plays (.engine :: r))
    (hc : s.ctx = .thread) (ho : s.thread.ops = []) (hi : s.initRun = false) (hl : s.host = a :: l) :
    step s = .next (hostAct a { s with sched := r, host := l }) := by
  obtain ⟨hh, hport, htok, hs⟩ := h
  apply step_of_out
  rw [fetch_of_sched hs]
  simp [runMove, fetchEngine, hh, hport, hc, fetchThread, ho, hi, hostStep, hl, State.setSched]

/-- Power-on reset, the clock at `clk` and the rate loaded. -/
def State.rateLoaded (p : Params) (clk rate : Word) : State :=
  { State.resetWith p with clkHz := clk, args := { (State.resetWith p).args with rate := rate } }

/-- The host loads the rate and issues `CAN.INIT`, and the engine takes it. -/
theorem reaches_canInit (p : Params) (clk rate : Word) (r : List Move) :
    ∃ u, Reaches 3 { State.resetWith p with
        clkHz := clk, host := [.loadRate rate, .issue 0x00000040#32], sched := engineMoves 3 r } u
      ∧ (State.rateLoaded p clk rate).AtStep 1#4 Can.reset r 0 u := by
  refine ⟨_, ?_, 0, [], BusWord.lit 0#32, .host, rfl, rfl⟩
  refine reaches_succ (step_host ⟨rfl, rfl, rfl, rfl⟩ rfl rfl rfl rfl) ?_
  refine reaches_succ (step_host ⟨rfl, rfl, rfl, rfl⟩ rfl rfl rfl rfl) ?_
  refine reaches_succ ((step_port (pw := ⟨.host, 0x00000040#32⟩) (i := .canInit) rfl rfl rfl rfl).trans ?_) rfl
  exact initStartsAtStepOne _ rfl

/-! ## The end state (R192) -/

/-- Bit 0 of a register that is given whole. -/
theorem bit0Set_lit (w : Word) (d : Nat) : (UReg.lit w).bit0Set d = ⟨w ||| 1#32, 0#32⟩ := by
  rw [UReg.bit0Set, shown_ones, UReg.lit, BusWord.word, BusWord.on_known (by simp [BusWord.orMask]), and_ones]
  rfl

theorem bit0Cleared_lit (w : Word) (d : Nat) : (UReg.lit w).bit0Cleared d = ⟨w &&& ~~~1#32, 0#32⟩ := by
  rw [UReg.bit0Cleared, shown_ones, UReg.lit, BusWord.word, BusWord.on_known (by simp [BusWord.andNotMask]), and_ones]
  rfl

/-- The reset values but for `MCR` and `MSR`. -/
def Can.resetIn (mcr msr : Word) : Can := { Can.reset with mcr := mcr, msr := msr }

/-- The controller in init mode, after step 5. -/
def Can.timed (bt : BitTiming) : Can := { Can.resetIn 0x00010001#32 0x00000C01#32 with btr := btrWord bt }

/-- The controller after step 7, the reads of step 6 having begun with the `d`-th. -/
def Can.started (bt : BitTiming) (d : Nat) : Can :=
  { (Can.timed bt).filtered d with mcr := 0x00010000#32, msr := 0x00000C00#32, recovering := false }

/-- The reset value of `BTR` has no bit that step 5 leaves. -/
theorem timed_eq (bt : BitTiming) :
    Can.timed bt = { Can.resetIn 0x00010001#32 0x00000C01#32 with
      btr := ((Can.resetIn 0x00010001#32 0x00000C01#32).btr &&& ~~~seenBtr) ||| btrWord bt } := by
  have hnone : (Can.resetIn 0x00010001#32 0x00000C01#32).btr &&& ~~~seenBtr = 0#32 := by decide
  rw [hnone, BitVec.zero_or, Can.timed]

theorem started_eq (bt : BitTiming) (d : Nat) :
    Can.started bt d = { (Can.timed bt).filtered d with
      mcr := ((Can.timed bt).filtered d).mcr &&& ~~~0x00000001#32
      msr := ((Can.timed bt).filtered d).msr &&& ~~~0x00000001#32
      recovering := ((Can.timed bt).filtered d).recovering || bitOf ((Can.timed bt).filtered d).esr 2 } := by
  have hmcr : 0x00010001#32 &&& ~~~0x00000001#32 = 0x00010000#32 := by decide
  have hmsr : 0x00000C01#32 &&& ~~~0x00000001#32 = 0x00000C00#32 := by decide
  have hrec : (false || bitOf Can.reset.esr 2) = false := by decide
  rw [Can.started, ← hmcr, ← hmsr, ← hrec]
  rfl

/-- From the reset state on, a reset that keeps the filter registers and one that clears them are the same. -/
theorem resetFilters_reset {fr : FilterReset} (hfr : ∀ v, fr ≠ .unknown v) : Can.reset = Can.reset.resetFilters fr := by
  cases fr with
  | kept => rfl
  | cleared => rfl
  | unknown v => exact absurd rfl (hfr v)

/-- The run up to the end of the last step. -/
theorem reaches_rxEnabled {p : Params} {clk rate : Word} {fr : FilterReset} {r : List Move} {bt : BitTiming}
    {exact : Bool} (hfr : ∀ v, fr ≠ .unknown v) (hsolve : solve p.solverFallback clk rate = (bt, exact)) :
    ∃ d d' t v, t.length = 29 ∧ Reaches 54 { State.resetWith p with
        clkHz := clk, host := [.loadRate rate, .issue 0x00000040#32]
        sched := engineMoves 6 (.hw (.resetDone fr) :: engineMoves 4 (.hw .wake :: engineMoves 4 (.hw .initEnter ::
          engineMoves 24 (.hw .initLeave :: engineMoves 12 r)))) }
      (proceed [] ((((State.rateLoaded p clk rate).timed bt exact).initAt 8#4 (Can.started bt d') (engineMoves 10 r) d t v
        .engine).rxEnabled r)) := by
  have hgoes : (State.rateLoaded p clk rate).Goes := ⟨⟨rfl, rfl, rfl⟩, rfl⟩
  have hgoes' : ((State.rateLoaded p clk rate).timed bt exact).Goes := ⟨⟨rfl, rfl, rfl⟩, rfl⟩
  obtain ⟨u0, h0, a0⟩ := reaches_canInit p clk rate (engineMoves 3 (.hw (.resetDone fr) :: .engine :: engineMoves 3
    (.hw .wake :: .engine :: engineMoves 3 (.hw .initEnter :: .engine :: engineMoves 3 (engineMoves 2 (engineMoves 15
      (engineMoves 3 (.hw .initLeave :: .engine :: engineMoves 11 r))))))))
  obtain ⟨u1, h1, a1⟩ := atStep_reset hgoes a0 (resetFilters_reset hfr)
  obtain ⟨u2, h2, a2⟩ := atStep_exitSleep (c' := Can.resetIn 0x00010000#32 0x00000C00#32) hgoes rfl a1 rfl
  obtain ⟨u3, h3, a3⟩ := atStep_enterConfig (c' := Can.resetIn 0x00010001#32 0x00000C01#32) hgoes rfl rfl a2 rfl
  obtain ⟨u4, h4, a4⟩ := atStep_options (c' := Can.resetIn 0x00010001#32 0x00000C01#32) hgoes a3 rfl
  obtain ⟨u5, h5, a5⟩ := atStep_timing hgoes hsolve rfl a4 (timed_eq bt)
  obtain ⟨u6, d', h6, a6⟩ := atStep_filter hgoes' a5
  have hin : bitOf 0x00000C01#32 0 = true := by decide
  obtain ⟨u7, h7, a7⟩ := atStep_leaveConfig hgoes' hin a6 (started_eq bt d')
  obtain ⟨d, t, v, ht, h8⟩ := atStep_enableIrq hgoes' a7
  exact ⟨d, d', t, v, ht, h0.trans (h1.trans (h2.trans (h3.trans (h4.trans (h5.trans (h6.trans (h7.trans h8)))))))⟩

/-- Settles O59: the register file is the one after step 7 with `IER` written; enables, priorities and slots are what
step 8 makes of the reset values. -/
theorem initFromReset : Obligations.InitFromReset := by
  unfold Obligations.InitFromReset
  intro p clk rate fr r s bt exact hwf hfr hsolve hs
  subst hs
  obtain ⟨hne, h0, h1, -, ht, -⟩ := Params.wf_table hwf
  have hne' : p.irqRx0.toNat ≠ p.irqRx1.toNat := fun h => hne (BitVec.eq_of_toNat_eq h)
  obtain ⟨d, d', t, v, hlen, hrun⟩ := reaches_rxEnabled (r := r) hfr hsolve
  have hfifo : ∀ f, (Can.reset.fifo.get f).rfr = 0#32 := fun f => by cases f <;> decide
  have hier : Can.reset.ier ||| mFmpie = 0x00000012#32 := by decide
  refine ⟨_, hrun, rfl, rfl, rfl, rfl, rfl, rfl, rfl, rfl, ?diag, rfl, rfl, rfl, ?fifo, hier, rfl, ?fmr, ?fs1r, ?fm1r,
    ?ffa1r, ?fa1r, rfl, rfl, ?en0, ?en1, ?prio0, ?prio1, ?slot0, ?slot1, ?others, rfl, rfl, rfl, rfl, rfl, ?steps⟩
  case diag => exact List.nil_append _
  case fifo => exact hfifo
  case fmr =>
    obtain ⟨-, hbit, -⟩ := bit0Cleared_onlyBit0 (Can.reset.fmr.bit0Set d') (d' + 5)
    exact hbit
  case fs1r => exact bit0Set_lit ..
  case fm1r => exact bit0Cleared_lit ..
  case ffa1r => exact bit0Cleared_lit ..
  case fa1r => exact bit0Set_lit ..
  case en0 =>
    refine (bitOf_rxEnabled Nvic.reset p p.irqRx0).trans ?_
    rw [decide_eq_true rfl, Bool.or_true, Bool.true_or]
  case en1 =>
    refine (bitOf_rxEnabled Nvic.reset p p.irqRx1).trans ?_
    rw [decide_eq_true rfl, Bool.or_true]
  case prio0 => exact (prio_rxEnabled Nvic.reset p p.irqRx0).trans (if_pos (.inl rfl))
  case prio1 => exact (prio_rxEnabled Nvic.reset p p.irqRx1).trans (if_pos (.inr rfl))
  case slot0 => exact fun d => (readWord_rxInstalled [] hwf _ h0).trans ((if_neg hne').trans (if_pos rfl))
  case slot1 => exact fun d => (readWord_rxInstalled [] hwf _ h1).trans (if_pos rfl)
  case others =>
    intro k hk0 hk1 hk d
    exact (readWord_rxInstalled [] hwf d hk).trans ((if_neg hk1).trans (if_neg hk0))
  case steps =>
    refine (List.length_append ..).trans ?_
    change t.length + 10 = 39
    rw [hlen]

end Sys2Proof.Machine
end

section
/-! Another driver enables its line and sets its priority (R180, R265, R266). -/

namespace Sys2Proof.Machine

/-- Settles O48: the move writes the words of enables and priorities that hold the line, and no other bit of them. -/
theorem otherDriversEnableTheirLines : Obligations.OtherDriversEnableTheirLines := by
  unfold Obligations.OtherDriversEnableTheirLines
  intro s k p r hs
  have hstep : step s = .next (enableLine k p (s.setSched r)) := step_of_out (fetch_of_sched hs)
  refine ⟨_, hstep, enableLine_frame k p (s.setSched r), fun hh h0 h1 j => ?_, fun hoff => ?_⟩
  · have hon : (s.halted || decide (k = s.cfg.irqRx0) || decide (k = s.cfg.irqRx1)) = false := by simp [hh, h0, h1]
    rw [enableLine_eq, State.setSched_halted, State.setSched_cfg, hon, if_neg Bool.false_ne_true]
    exact ⟨enOf_enable_bit _ k j, prioOf_withPrio s.nvic k j p⟩
  · rw [enableLine_eq, if_pos]
    · rfl
    · rcases hoff with h | h | h <;> simp [h]

end Sys2Proof.Machine
end

section
/-! `CAN.SEND` (R210): the queries of the mailboxes 0, 1, 2, then the run of `MB.SEND` on the first free one. -/

namespace Sys2Proof.Machine

/-- Starting `CAN.SEND` (R92, R97, R260). -/
theorem exec_canSend {s : State} (hc : s.ctx = .thread) (hl : s.args.len ≤ 8#4) (hi : s.args.id ≤ 0x1FFFFFFF#32) :
    exec .canSend s = .next (startOp canSendOps s) := by
  change execCanSend s = _
  rw [execCanSend, inContext_thread hc, withFrame_of_legal hl hi]

/-! ## One query (R103, R210) -/

/-- A query finds `TMEn` as it stands. -/
theorem free_regRead_tsr (s : State) (m : MbIdx) :
    free m ((s.regRead .tsr).on seenTsr) = bitOf s.can.tsr (26 + m.toNat) := by
  have hseen : seenTsr.getLsbD (26 + m.toNat) = true := by cases m <;> rfl
  have hread : (s.regRead .tsr).on seenTsr = s.can.tsr &&& seenTsr := on_shown (by decide)
  rw [hread, free, bitTme, bitOf, BitVec.getLsbD_and, hseen, Bool.and_true, bitOf]

section
variable {m j : MbIdx} {l : List MbIdx} {rest : List Op} {s : State}

/-- The queried mailbox is free. -/
theorem busStep_query_free (h : bitOf s.can.tsr (26 + m.toNat) = true) :
    busStep (.query m l) rest s
      = .next (readStep .tsr (sendOps m s.args ++ .quiet (.resOk true) :: rest) s) :=
  congrArg Host.Outcome.next (if_pos ((free_regRead_tsr s m).trans h))

/-- The queried mailbox is busy, and another is queried after it. -/
theorem busStep_query_next (h : bitOf s.can.tsr (26 + m.toNat) = false) :
    busStep (.query m (j :: l)) rest s = .next (readStep .tsr (.bus (.query j l) :: rest) s) := by
  rw [busStep, queryStep, free_regRead_tsr, h, if_neg Bool.false_ne_true]

/-- The last mailbox is busy too. -/
theorem busStep_query_fail (h : bitOf s.can.tsr (26 + m.toNat) = false) :
    busStep (.query m []) rest s = .next (readStep .tsr (.quiet (.resOk false) :: rest) s) := by
  rw [busStep, queryStep, free_regRead_tsr, h, if_neg Bool.false_ne_true]

end

section
variable {n d : Nat} {s T : State} {c : Can} {t : List BusEvent} {r : List Move} {v : BusWord} {rest : List Op}
variable {m : MbIdx} {l : List MbIdx}

/-- A query, after which the operation goes on with `ops`. -/
theorem reaches_query {ops : List Op} (h : s.halted = false ∧ s.port = none ∧ s.token = none)
    (hb : busStep (.query m l) rest (s.busy c d t r ⟨.bus (.query m l) :: rest, v⟩)
      = .next (readStep .tsr ops (s.busy c d t r ⟨.bus (.query m l) :: rest, v⟩)))
    (h' : Reaches n (proceed ops (s.busy c (d + 1) (t ++ (s.setCan c).pollEvents .tsr d 1) r
      ⟨ops, shown c.tsr seenTsr (Config.freeWord d)⟩)) T) :
    Reaches (n + 1) (s.busy c d t (.engine :: r) ⟨.bus (.query m l) :: rest, v⟩) T := by
  refine reaches_busy h hb ?_
  rw [← proceed_setOps ops, busy_setOps] at h'
  rw [readStep, ← proceed_setOps ops, busy_afterRead, busy_setLocal, busy_regRead, busy_setOps]
  exact h'

/-- The queries of the busy mailboxes `bs`, up to that of `m`, after which `l` are left to query. -/
theorem reaches_busyQueries (h : s.halted = false ∧ s.port = none ∧ s.token = none) {bs : List MbIdx}
    (hbusy : ∀ j ∈ bs, bitOf c.tsr (26 + j.toNat) = false) {a : MbIdx} {as : List MbIdx} (hl : bs ++ m :: l = a :: as)
    (h' : ∀ w, Reaches n (s.busy c (d + bs.length) (t ++ (s.setCan c).pollEvents .tsr d bs.length) r
      ⟨.bus (.query m l) :: rest, w⟩) T) :
    Reaches (n + bs.length) (s.busy c d t (engineMoves bs.length r) ⟨.bus (.query a as) :: rest, v⟩) T := by
  induction bs generalizing d t v a as with
  | nil =>
    obtain ⟨rfl, rfl⟩ := List.cons.inj hl
    simpa [State.pollEvents] using h' v
  | cons b bs ih =>
    rw [List.cons_append] at hl
    obtain ⟨rfl, rfl⟩ := List.cons.inj hl
    obtain ⟨hb, hbs⟩ := List.forall_mem_cons.1 hbusy
    obtain ⟨a, as, has⟩ : ∃ a as, bs ++ m :: l = a :: as := List.exists_cons_of_ne_nil (by simp)
    rw [List.length_cons, engineMoves_succ, has]
    refine reaches_query h (busStep_query_next (by rw [busy_can]; exact hb)) ?_
    rw [proceed_bus, busy_setOps]
    refine ih hbs has fun w => ?_
    have hd : d + 1 + bs.length = d + (bs.length + 1) := by omega
    have hrest := h' w
    rw [List.length_cons, pollEvents_succ] at hrest
    rw [hd, List.append_assoc]
    exact hrest

end

/-! ## The result (R210, R220) -/

theorem runQuiet_resOk_busy (b : Bool) (s : State) (c : Can) (d : Nat) (t : List BusEvent) (r : List Move) (k : Task) :
    runQuiet (.resOk b) (s.busy c d t r k) = (s.setRes { s.res with ok := b }).busy c d t r k := by
  rw [← busy_setRes]
  apply State.ext <;> simp [runQuiet, State.busy]

/-! ## The run (R210, R220) -/

theorem pollEvents_add (s : State) (q : Reg) (d a b : Nat) :
    s.pollEvents q d (a + b) = s.pollEvents q d a ++ s.pollEvents q (d + a) b := by
  simp [State.pollEvents, List.range_add, Nat.add_assoc]

/-- `MB.SEND` begins with a bus step. -/
theorem proceed_sendOps (m : MbIdx) (a : Args) (rest : List Op) (s : State) :
    proceed (sendOps m a ++ rest) s = s.setOps (sendOps m a ++ rest) := rfl

/-- The mailboxes queried before `m` are those with a smaller number. -/
theorem queried_before (m : MbIdx) :
    ∃ bs l, bs ++ m :: l = [.mb0, .mb1, .mb2] ∧ bs.length = m.toNat ∧ ∀ j ∈ bs, j.toNat < m.toNat := by
  cases m with
  | mb0 => exact ⟨[], [.mb1, .mb2], rfl, rfl, by decide⟩
  | mb1 => exact ⟨[.mb0], [.mb2], rfl, rfl, by decide⟩
  | mb2 => exact ⟨[.mb0, .mb1], [], rfl, rfl, by decide⟩

/-- Settles O32: the busy mailboxes are queried one after another; the query that finds `TMEm` set is followed by the
run of `MB.SEND`, and after three that do not the operation fails. -/
theorem canSendTakesFirstFreeMailbox : Obligations.CanSendTakesFirstFreeMailbox := by
  unfold Obligations.CanSendTakesFirstFreeMailbox
  refine ⟨?free, ?busy⟩
  case free =>
    intro m s r hc hl hi ⟨hu, hv, _, _⟩ hfree hfirst ⟨hh, hport, htok, hs⟩
    have he : s.can.empty m = true := hfree
    obtain ⟨bs, l, hall, hlen, hbefore⟩ := queried_before m
    refine ⟨_, exec_canSend hc hl hi, ?_⟩
    have hmoves : engineMoves (m.toNat + 9) r = engineMoves bs.length (.engine :: engineMoves 8 r) := by
      rw [engineMoves_add, hlen]
      rfl
    have hn : m.toNat + 9 = (0 + 8 + 1) + bs.length := by omega
    rw [canSendOps, startOp_busy, hs, hmoves, hn]
    refine reaches_busyQueries ⟨hh, hport, htok⟩ (fun j hj => hfirst j (hbefore j hj)) hall fun w => ?_
    refine reaches_query ⟨hh, hport, htok⟩ (busStep_query_free (by rw [busy_can]; exact hfree)) ?_
    rw [List.append_assoc, hlen, ← pollEvents_add, busy_args]
    change Reaches _ (proceed (sendOps m s.args ++ .quiet (.resOk true) :: s.task.ops) _) _
    rw [proceed_sendOps, busy_setOps]
    refine reaches_send ⟨hh, hport, htok⟩ he hu (by rw [hv, he]; rfl) ?_
    rw [proceed_quiet, runQuiet_resOk_busy, proceed_busy_local]
    rfl
  case busy =>
    intro s r hc hl hi hbusy ⟨hh, hport, htok, hs⟩
    refine ⟨_, exec_canSend hc hl hi, ?_⟩
    rw [canSendOps, startOp_busy, hs]
    refine reaches_busyQueries (n := 1) (bs := [.mb0, .mb1]) ⟨hh, hport, htok⟩ (fun j _ => hbusy j) rfl fun w => ?_
    refine reaches_query ⟨hh, hport, htok⟩ (busStep_query_fail (by rw [busy_can]; exact hbusy .mb2)) ?_
    rw [proceed_quiet, runQuiet_resOk_busy, proceed_busy_local, List.append_assoc]
    rfl

end Sys2Proof.Machine
end

section
/-! `CAN.RXISR` (R214, R242) by itself: with a frame pending, and on an empty FIFO (U7). -/

namespace Sys2Proof.Machine

/-! ## A frame pending -/

/-- Where the high word is not read, its bytes are 0 (R214). -/
theorem delivered_hi_of_short {m : RxMsg} {d : Nat} (h : (m.delivered d).len ≤ 4#4) :
    (m.delivered d).data.hi = Payload.zero.hi :=
  if_neg (mt (four_lt_lenOf_dlcWord m.dlc).2 (BitVec.not_lt.2 h))

/-- Settles O33: the run of `CAN.RXISR` hands over `RxMsg.delivered` of the head, whose fields are the message's. -/
theorem rxIsrDeliversHead : Obligations.RxIsrDeliversHead := by
  unfold Obligations.RxIsrDeliversHead
  intro f g k m q n s r hf hc hi hq hn hp
  have hn : n = m.reads + 1 := by
    rw [hn, RxMsg.reads]
    split <;> rfl
  subst hn
  obtain ⟨w, hrun⟩ := rxOps_run hc hq hp
  refine ⟨_, s.received g m q w r, exec_canRxisr hf hc hi, hrun, ?_, rfl, toNat_lenOf_dlcWord m.dlc,
    fun i h => delivered_byte m _ h, delivered_hi_of_short⟩
  have htrace : s.trace ++ s.rxEvents g m = s.trace
      ++ [s.readEvent 0 (.rir g), s.readEvent 1 (.rdtr g), s.readEvent 2 (.rdlr g)]
      ++ (if 4#4 < m.dlc then [s.readEvent 3 (.rdhr g)] else []) ++ [s.writeEvent (.rfr g) 0x00000020#32] := by
    rw [State.rxEvents, ← List.append_assoc, ← List.append_assoc]
    rfl
  rw [← htrace]
  rfl

/-! ## An empty FIFO -/

/-- The release of an empty FIFO has no effect (R242). -/
theorem writeRfr_release_empty {q : Fifo} (h : q.queue = []) : q.writeRfr (.lit mRfom) = q := by
  have h3 : (BusWord.lit mRfom).bit 3 = false := by decide
  have h4 : (BusWord.lit mRfom).bit 4 = false := by decide
  obtain ⟨queue, full, fovr⟩ := q
  cases h
  simp [Fifo.writeRfr, Fifo.release, h3, h4]

theorem write_release_empty {c : Can} {g : FifoIdx} (h : (c.fifo.get g).queue = []) :
    c.write (.lit mRfom) (.rfr g) = c := by
  rw [Can.write, writeRfr_release_empty h, PerFifo.set_get]

theorem setFrameRx_setFrameRx (s : State) (f f' : Frame) : (s.setFrameRx f).setFrameRx f' = s.setFrameRx f' := rfl

theorem runQuiet_deliver_busy (g : FifoIdx) (s : State) (c : Can) (d : Nat) (t : List BusEvent) (r : List Move)
    (k : Task) : runQuiet (.deliver g) (s.busy c d t r k) = (s.setRxlog (s.rxlog ++ [⟨g, s.frameRx⟩])).busy c d t r k := by
  rw [← busy_setRxlog]
  apply State.ext <;> simp [runQuiet, State.busy]

section
variable {s : State} {c : Can} {d : Nat} {t : List BusEvent} {r : List Move} {v : BusWord} {ops rest : List Op}
variable {g : FifoIdx}

/-- `s` after frame `f` of FIFO `g` has been handed over, `d` reads made, `t` being the record, `v` the word read last
and `r` the moves still to come. -/
def State.handedOver (s : State) (g : FifoIdx) (f : Frame) (d : Nat) (t : List BusEvent) (r : List Move) (v : BusWord) :
    State :=
  { s with
    sched := r, frameRx := f, rxlog := s.rxlog ++ [⟨g, f⟩], isr := ⟨s.isr.ops, v⟩, draws := d, trace := t }

/-- With `f` in `FRAME_RX`, the bus step `b`, before `rest`, is a read that changes `FRAME_RX` alone, and the operation
goes on with `ops`. -/
def State.FrameReads (s : State) (f : Frame) (b : BusOp) (rest ops : List Op) : Prop :=
  ∀ d t r k, ∃ f' q, busStep b rest ((s.setFrameRx f).busy s.can d t r k)
    = .next (readStep q ops ((s.setFrameRx f').busy s.can d t r k))

theorem frameReads_rxId (s : State) (f : Frame) (g : FifoIdx) (rest : List Op) :
    s.FrameReads f (.rxId g) rest rest :=
  fun _ _ _ _ => ⟨_, _, by rw [busStep_rxId, busy_setFrameRx, setFrameRx_setFrameRx]⟩

theorem frameReads_rxLen (s : State) (f : Frame) (g : FifoIdx) (rest : List Op) :
    s.FrameReads f (.rxLen g) rest rest :=
  fun _ _ _ _ => ⟨_, _, by rw [busStep_rxLen, busy_setFrameRx, setFrameRx_setFrameRx]⟩

theorem frameReads_rxLo_long (s : State) {f : Frame} (h : 4#4 < f.len) (g : FifoIdx) (rest : List Op) :
    s.FrameReads f (.rxLo g) rest (.bus (.rxHi g) :: rest) :=
  fun _ _ _ _ => ⟨_, _, by
    rw [busStep_rxLo_long (by rw [busy_frameRx]; exact h), busy_setFrameRx, setFrameRx_setFrameRx]⟩

theorem frameReads_rxLo_short (s : State) {f : Frame} (h : ¬4#4 < f.len) (g : FifoIdx) (rest : List Op) :
    s.FrameReads f (.rxLo g) rest rest :=
  fun _ _ _ _ => ⟨_, _, by
    rw [busStep_rxLo_short (by rw [busy_frameRx]; exact h), busy_setFrameRx, setFrameRx_setFrameRx]⟩

theorem frameReads_rxHi (s : State) (f : Frame) (g : FifoIdx) (rest : List Op) :
    s.FrameReads f (.rxHi g) rest rest :=
  fun _ _ _ _ => ⟨_, _, by rw [busStep_rxHi, busy_setFrameRx, setFrameRx_setFrameRx]⟩

/-- The step of such a read. -/
theorem State.FrameReads.reaches_one {f : Frame} {b : BusOp} (hb : s.FrameReads f b rest ops)
    (h : s.halted = false ∧ s.port = none ∧ s.token = none) :
    ∃ f' t' v', Reaches 1 ((s.setFrameRx f).busy s.can d t (.engine :: r) ⟨.bus b :: rest, v⟩)
      (proceed ops ((s.setFrameRx f').busy s.can (d + 1) t' r ⟨ops, v'⟩)) := by
  obtain ⟨f', q, hstep⟩ := hb d t r ⟨.bus b :: rest, v⟩
  exact ⟨f', _, _, reaches_frameRead h hstep rfl⟩

/-- The same, where another bus step follows. -/
theorem State.FrameReads.reaches_bus {f : Frame} {b b' : BusOp} (hb : s.FrameReads f b rest (.bus b' :: ops))
    (h : s.halted = false ∧ s.port = none ∧ s.token = none) :
    ∃ f' t' v', Reaches 1 ((s.setFrameRx f).busy s.can d t (.engine :: r) ⟨.bus b :: rest, v⟩)
      ((s.setFrameRx f').busy s.can (d + 1) t' r ⟨.bus b' :: ops, v'⟩) := by
  obtain ⟨f', t', v', hrun⟩ := hb.reaches_one h
  rw [proceed_bus, busy_setOps] at hrun
  exact ⟨f', t', v', hrun⟩

/-- The reads of `CAN.RXISR`, whatever they find: three, or four where the length found is above 4. -/
theorem reaches_rxReads (h : s.halted = false ∧ s.port = none ∧ s.token = none) :
    ∃ n f t' v', (n = 3 ∨ n = 4) ∧ Reaches n
      (s.busy s.can d t (engineMoves 5 r) ⟨.bus (.rxId g) :: .bus (.rxLen g) :: .bus (.rxLo g) :: rest, v⟩)
      (proceed rest ((s.setFrameRx f).busy s.can (d + n) t' (engineMoves (5 - n) r) ⟨rest, v'⟩)) := by
  obtain ⟨f1, t1, v1, hid⟩ := (frameReads_rxId s s.frameRx g (.bus (.rxLen g) :: .bus (.rxLo g) :: rest)).reaches_bus
    (d := d) (t := t) (r := engineMoves 4 r) (v := v) h
  obtain ⟨f2, t2, v2, hlen⟩ := (frameReads_rxLen s f1 g (.bus (.rxLo g) :: rest)).reaches_bus
    (d := d + 1) (t := t1) (r := engineMoves 3 r) (v := v1) h
  by_cases hlong : 4#4 < f2.len
  · obtain ⟨f3, t3, v3, hlo⟩ := (frameReads_rxLo_long s hlong g rest).reaches_bus
      (d := d + 2) (t := t2) (r := engineMoves 2 r) (v := v2) h
    obtain ⟨f4, t4, v4, hhi⟩ := (frameReads_rxHi s f3 g rest).reaches_one
      (d := d + 3) (t := t3) (r := engineMoves 1 r) (v := v3) h
    exact ⟨4, f4, t4, v4, .inr rfl, ((hid.trans hlen).trans hlo).trans hhi⟩
  · obtain ⟨f3, t3, v3, hlo⟩ := (frameReads_rxLo_short s hlong g rest).reaches_one
      (d := d + 2) (t := t2) (r := engineMoves 2 r) (v := v2) h
    exact ⟨3, f3, t3, v3, .inl rfl, (hid.trans hlen).trans hlo⟩

/-- The end of `CAN.RXISR` on an empty FIFO: the Handler call, then the release write. -/
theorem reaches_handOver_empty {k : Irq} (h : s.halted = false ∧ s.port = none ∧ s.token = none)
    (hc : s.ctx = .interrupt k) (hq : (s.can.fifo.get g).queue = []) (f : Frame) :
    Reaches 1 (proceed (handOverOps g rest) ((s.setFrameRx f).busy s.can d t (.engine :: r) ⟨ops, v⟩))
      (proceed rest (s.handedOver g f d (t ++ [s.writeEvent (.rfr g) mRfom]) r v)) := by
  rw [handOverOps, proceed_quiet, runQuiet_deliver_busy, proceed_bus, busy_setOps]
  refine reaches_wr h ?_
  rw [write_release_empty hq, proceed_busy_local, State.setLocal, State.setTask_eq_isr (by exact hc),
    State.task_eq_isr (by exact hc)]
  rfl

end

/-- Settles O34: the reads come to an end whatever they find, the Handler is called, and the release finds nothing to
release. -/
theorem rxIsrOnEmptyFifo : Obligations.RxIsrOnEmptyFifo := by
  unfold Obligations.RxIsrOnEmptyFifo
  intro f g k s r hf hc hi hq ⟨hh, hport, htok, hs⟩
  obtain ⟨n, frame, t, v, hn, hreads⟩ := reaches_rxReads (d := s.draws) (t := s.trace) (r := r) (v := s.task.v)
    (g := g) (rest := handOverOps g s.task.ops) ⟨hh, hport, htok⟩
  have hmoves : engineMoves (5 - n) r = .engine :: engineMoves (5 - (n + 1)) r := by
    rw [← engineMoves_succ]
    congr 1
    omega
  rw [hmoves] at hreads
  refine ⟨n + 1, _, s.handedOver g frame (s.draws + n) (t ++ [s.writeEvent (.rfr g) mRfom])
    (engineMoves (5 - (n + 1)) r) v, by omega, exec_canRxisr hf hc hi, ?_, rfl⟩
  rw [rxOps, startOp_busy, hs]
  exact hreads.trans (reaches_handOver_empty ⟨hh, hport, htok⟩ hc hq frame)

end Sys2Proof.Machine
end

section
/-! What single moves of CANHW do (R232 to R245): the mode acknowledges, how an attempt begins and ends, the error state. -/

namespace Sys2Proof.Machine

/-! ## Modes (R232, R233) -/

/-- Settles O38: the guard and the effect of each of the four moves, written out. -/
theorem modeAcknowledges : Obligations.ModeAcknowledges := by
  unfold Obligations.ModeAcknowledges
  intro p c
  refine ⟨?wake, ?sleep, ?initEnter, ?initLeave⟩
  case wake =>
    simp only [Can.move, Can.wake, Can.asleep, Bool.and_eq_true, Bool.or_eq_true, Bool.not_eq_true']
    rfl
  case sleep =>
    simp only [Can.move, Can.sleep, Can.asleep, Bool.and_eq_true, Bool.not_eq_true', Option.isNone_iff_eq_none, and_assoc]
    rfl
  case initEnter =>
    simp only [Can.move, Can.initEnter, Can.inInit, Bool.and_eq_true, Bool.not_eq_true',
      Option.isNone_iff_eq_none, and_assoc]
    rfl
  case initLeave =>
    simp only [Can.move, Can.initLeave, Can.inInit, Bool.and_eq_true, Bool.not_eq_true']
    rfl

/-! ## The beginning of an attempt (R237, R238) -/

/-- With nothing on the bus an attempt begins exactly if the controller takes part in bus traffic and the mailbox may be
attempted. -/
theorem txStart_onAir_iff {c : Can} (h : c.onAir = none) (o : TxOrder) (n : MbIdx) :
    (c.txStart o n).onAir = some n ↔ c.onBus = true ∧ c.mayAttempt o n = true := by
  unfold Can.txStart
  split
  · rename_i hc
    simp only [h, Option.isNone_none, Bool.and_true, Bool.and_eq_true] at hc
    simp [hc]
  · rename_i hc
    simpa [h] using hc

/-- Settles O39: what `txStart` asks for, and the mailboxes that may be attempted under each order. -/
theorem attemptOrder : Obligations.AttemptOrder := by
  unfold Obligations.AttemptOrder
  intro p c n ha
  change (c.txStart p.txOrder n).onAir = some n ↔ _
  rw [txStart_onAir_iff ha, ← takesPart_iff_onBus, Can.takesPart, and_assoc, and_assoc]
  unfold Can.mayAttempt
  cases p.txOrder with
  | requestOrder => cases hpid : bitOf c.mcr 2 <;> simp [bitTxpid, hpid]
  | anyOrder => simp

/-! ## The end of an attempt (R238, R239) -/

/-- The controller after mailbox `n` has become empty at an attempt's end, with `flags` the lower flags of `n` that are
set in `TSR` (R238, R239). -/
def Can.freed (c : Can) (n : MbIdx) (flags : Word) : Can :=
  { c with
    onAir := none
    mbx := c.mbx.set n { c.mbx.get n with tir :=
      { (c.mbx.get n).tir with val := (c.mbx.get n).tir.val &&& ~~~1#32 } }
    tsr := (c.tsr &&& ~~~(0b10000010#32 <<< (8 * n.toNat))) ||| flags <<< (8 * n.toNat) ||| 1#32 <<< (26 + n.toNat)
    txOrder := c.txOrder.filter (fun j => decide (j ≠ n)) }

/-- Mailbox `n` becomes empty: its request, its abort request and its `TXOKn` are cleared, `TMEn`, `RQCPn` and, at success,
`TXOKn` are set, and it leaves `TXORDER`. -/
theorem finishTx_eq (c : Can) (n : MbIdx) (ok : Bool) :
    c.finishTx n ok = { c.freed n (if ok then 0b0011#32 else 0b0001#32) with onAir := c.onAir } := by
  have hcleared : abortBit n ||| oneBit (bitTxok n) = 0b10000010#32 <<< (8 * n.toNat) := by cases n <;> rfl
  have hset : oneBit (bitTme n) ||| oneBit (bitRqcp n) ||| (if ok then oneBit (bitTxok n) else 0#32)
      = (if ok then 0b0011#32 else 0b0001#32) <<< (8 * n.toNat) ||| 1#32 <<< (26 + n.toNat) := by
    cases n <;> cases ok <;> rfl
  rw [Can.finishTx, hcleared, hset, setBits, clearBits, ← BitVec.or_assoc]
  rfl

/-- An attempt of mailbox `n` that fails with the flag `ALSTn` or `TERRn` frees the mailbox where its abort is requested or
retransmission is disabled, and leaves it pending elsewhere; the flag stays. -/
theorem attemptFailed_eq (c : Can) (n : MbIdx) {flag : Word} (h : flag = 0b0100#32 ∨ flag = 0b1000#32) :
    c.attemptFailed n (flag <<< (8 * n.toNat)) =
      if bitOf c.tsr (8 * n.toNat + 7) || bitOf c.mcr 4 then c.freed n (flag ||| 0b0001#32)
      else { c with onAir := none, tsr := c.tsr ||| flag <<< (8 * n.toNat) } := by
  have hstays : flag <<< (8 * n.toNat) &&& ~~~(0b10000010#32 <<< (8 * n.toNat)) = flag <<< (8 * n.toNat) := by
    rcases h with rfl | rfl <;> cases n <;> rfl
  have hflags : (c.tsr ||| flag <<< (8 * n.toNat)) &&& ~~~(0b10000010#32 <<< (8 * n.toNat)) ||| 0b0001#32 <<< (8 * n.toNat)
      = (c.tsr &&& ~~~(0b10000010#32 <<< (8 * n.toNat))) ||| (flag ||| 0b0001#32) <<< (8 * n.toNat) := by
    rw [BitVec.and_or_distrib_right, hstays, BitVec.or_assoc, BitVec.shiftLeft_or_distrib]
  have hfreed : Can.finishTx n false { c with tsr := c.tsr ||| flag <<< (8 * n.toNat), onAir := none }
      = c.freed n (flag ||| 0b0001#32) := by
    rw [finishTx_eq, Can.freed, Can.freed, ← hflags]
    rfl
  rw [← hfreed]
  rfl

/-- The end of the attempt in progress, where it is enabled (R238). -/
theorem txSuccess_of {c : Can} {n : MbIdx} (ha : c.onAir = some n) (hb : c.onBus = true) (k : Counters) :
    c.txSuccess k = (c.freed n 0b0011#32).setErrors 0#3 k := by
  rw [Can.txSuccess, endAttempt_of ha hb, finishTx_eq]
  rfl

theorem txArbLost_of {c : Can} {n : MbIdx} (ha : c.onAir = some n) (hb : c.onBus = true) :
    c.txArbLost = c.attemptFailed n (0b0100#32 <<< (8 * n.toNat)) := by
  have hflag : oneBit (bitAlst n) = 0b0100#32 <<< (8 * n.toNat) := by cases n <;> rfl
  rw [Can.txArbLost, endAttempt_of ha hb, hflag]

theorem txError_of {c : Can} {n : MbIdx} {code : BitVec 3} (ha : c.onAir = some n) (hb : c.onBus = true)
    (hcode : errorCode code = true) (k : Counters) :
    c.txError code k = (c.attemptFailed n (0b1000#32 <<< (8 * n.toNat))).setErrors code k := by
  have hflag : oneBit (bitTerr n) = 0b1000#32 <<< (8 * n.toNat) := by cases n <;> rfl
  rw [Can.txError, endAttempt_of ha hb, if_pos hcode, hflag]

/-- Settles O40: the three ends where they are enabled, each with what becomes of the mailbox; elsewhere they are idle. -/
theorem attemptEnds : Obligations.AttemptEnds := by
  unfold Obligations.AttemptEnds
  constructor
  · intro p c n k code freed ha ht h1 h6 hfreed
    obtain rfl : freed = c.freed n := funext hfreed
    have hb := takesPart_iff_onBus.1 ht
    have hoff : c.busOff = false := ht.2.2
    have hsuccess : c.move p (.txSuccess k) = _ := txSuccess_of ha hb k
    have hlost : c.move p .txArbLost = _ := txArbLost_of ha hb
    have herror : c.move p (.txError code k) = _ := txError_of ha hb (errorCode_of h1 h6) k
    rw [hsuccess, hlost, herror]
    refine ⟨rfl, (esrShows_setErrors hoff).1, attemptFailed_eq c n (.inl rfl), ?_, ?_⟩
    · rw [attemptFailed_eq c n (.inr rfl)]
      rfl
    · exact (esrShows_setErrors (by simpa [Can.busOff] using hoff)).1
  · intro p c k code h
    have hidle : c.onAir = none ∨ c.onBus = false := h.imp_right fun ht => by simpa [takesPart_iff_onBus] using ht
    exact ⟨endAttempt_off hidle, endAttempt_off hidle, endAttempt_off hidle⟩

/-! ## The error state (R245) -/

/-- Settles O41: every event that is counted leaves `esrWord`, from a controller that is not in bus-off. -/
theorem errorStateFollowsCounters : Obligations.ErrorStateFollowsCounters := by
  unfold Obligations.ErrorStateFollowsCounters
  refine ⟨?outside, ?attempt, ?reception⟩
  case outside =>
    intro p c k code ht ha h1 h6
    have hmove : c.move p (.busError code k) = c.setErrors code k := by
      change c.busError code k = _
      simp [Can.busError, takesPart_iff_onBus.1 ht, ha, errorCode_of h1 h6]
    rw [hmove]
    exact ⟨esrShows_setErrors ht.2.2, rfl⟩
  case attempt =>
    intro p c n k code ht ha h1 h6
    have hb := takesPart_iff_onBus.1 ht
    have hoff : c.busOff = false := ht.2.2
    have hsuccess : c.move p (.txSuccess k) = _ := txSuccess_of ha hb k
    have hlost : c.move p .txArbLost = _ := txArbLost_of ha hb
    have herror : c.move p (.txError code k) = _ := txError_of ha hb (errorCode_of h1 h6) k
    rw [hsuccess, hlost, herror]
    exact ⟨esrShows_setErrors (by simpa [Can.busOff] using hoff), esrShows_setErrors hoff, attemptFailed_esr _ _ _⟩
  case reception =>
    intro p c b m k ht ha hf hp
    have hmove : c.move p (.receive b m k) = _ := receive_of_passes p.fifoDepth k (takesPart_iff_onBus.1 ht) ha hf hp
    rw [hmove]
    exact esrShows_setErrors ht.2.2

end Sys2Proof.Machine
end

section
/-! What any move of CANHW can come to, and what follows for bus-off, a pending frame and the fields of software (R230, R245,
R247). -/

namespace Sys2Proof.Machine

/-! ## What a move can come to -/

/-- What a move `m` of CANHW can make of the register file `c`: the fields it may change, and the guards that later proofs
need. -/
inductive HwEffect (c : Can) : HwMove → Can → Prop
  | idle (m : HwMove) : HwEffect c m c
  | reset (fr : FilterReset) : HwEffect c (.resetDone fr) (c.resetCore.resetFilters fr)
  /-- sleep mode entered or left, init mode entered -/
  | mode (m : HwMove) (msr : Word) : HwEffect c m { c with msr := msr }
  | initLeave (msr : Word) : HwEffect c .initLeave { c with msr := msr, recovering := c.recovering || c.busOff }
  | txStart (n : MbIdx) : HwEffect c (.txStart n) { c with onAir := some n }
  /-- a mailbox becomes empty: the attempt ends, in normal mode, or the abort is done -/
  | freed (m : HwMove) (n : MbIdx) (tsr esr : Word) (onAir : Option MbIdx)
      (htsr : ∀ b, bitOf c.tsr b = true → bitOf tsr b = true) (hesr : c.onBus = true ∨ esr = c.esr) (ok : Bool) :
      HwEffect c m { ({ c with tsr := tsr, onAir := onAir } : Can).finishTx n ok with esr := esr }
  /-- an attempt ends and its mailbox stays pending -/
  | retry (m : HwMove) (tsr esr : Word) (hb : c.onBus = true) (htsr : ∀ b, bitOf c.tsr b = true → bitOf tsr b = true) :
      HwEffect c m { c with tsr := tsr, onAir := none, esr := esr }
  | receive (b : BitVec 5) (m : RxMsg) (k : Counters) (f : FifoIdx) (depth : Nat) (rflm : Bool) (esr : Word)
      (hb : c.onBus = true) :
      HwEffect c (.receive b m k) { c with esr := esr, fifo := c.fifo.set f ((c.fifo.get f).accept depth rflm m) }
  | busError (code : BitVec 3) (k : Counters) (esr : Word) (hb : c.onBus = true) :
      HwEffect c (.busError code k) { c with esr := esr }
  | recovered (k : Counters) (esr : Word) : HwEffect c (.busOffRecovered k) { c with esr := esr, recovering := false }

theorem bitOf_setBits_of {w : Word} (m : Word) (b : Nat) (h : bitOf w b = true) : bitOf (setBits w m) b = true := by
  rw [bitOf_setBits, h, Bool.true_or]

/-- A failed attempt, whatever it leaves in `ESR`. -/
theorem hwEffect_attemptFailed {c : Can} (m : HwMove) (n : MbIdx) (flag esr : Word) (hb : c.onBus = true) :
    HwEffect c m { c.attemptFailed n flag with esr := esr } := by
  unfold Can.attemptFailed
  simp only
  split
  · exact .freed m n _ esr none (bitOf_setBits_of flag) (.inl hb) false
  · exact .retry m _ esr hb (bitOf_setBits_of flag)

/-- What the end of an attempt can make of the register file. -/
theorem hwEffect_endAttempt {c : Can} {m : HwMove} {f : MbIdx → Can} (h : c.onBus = true → ∀ n, HwEffect c m (f n)) :
    HwEffect c m (c.endAttempt f) := by
  unfold Can.endAttempt
  split
  · split
    · exact h ‹_› _
    · exact .idle m
  · exact .idle m

/-- Every move of CANHW. -/
theorem move_effect (p : Params) (m : HwMove) (c : Can) : HwEffect c m (c.move p m) := by
  have guarded {g : Bool} {u : Can} (h : g = true → HwEffect c m u) : HwEffect c m (if g then u else c) := by
    split
    · exact h ‹_›
    · exact .idle m
  cases m with
  | resetDone fr => exact guarded fun _ => .reset fr
  | wake => exact guarded fun _ => .mode _ _
  | sleep => exact guarded fun _ => .mode _ _
  | initEnter => exact guarded fun _ => .mode _ _
  | initLeave => exact guarded fun _ => .initLeave _
  | txStart n => exact guarded fun _ => .txStart n
  | txSuccess k => exact hwEffect_endAttempt fun hb n => .freed _ n c.tsr _ none (fun _ => id) (.inl hb) true
  | txArbLost =>
    exact hwEffect_endAttempt fun hb n => hwEffect_attemptFailed _ n _ (c.attemptFailed n (oneBit (bitAlst n))).esr hb
  | txError code k =>
    refine hwEffect_endAttempt fun hb n => guarded fun _ => ?_
    exact hwEffect_attemptFailed _ n _ _ hb
  | abortDone n => exact guarded fun _ => .freed _ n c.tsr c.esr c.onAir (fun _ => id) (.inr rfl) false
  | receive b x k =>
    refine guarded fun h => .receive b x k _ _ _ _ ?_
    simp only [Bool.and_eq_true] at h
    obtain ⟨⟨⟨hb, -⟩, -⟩, -⟩ := h
    exact hb
  | busError code k =>
    refine guarded fun h => .busError code k _ ?_
    simp only [Bool.and_eq_true] at h
    obtain ⟨⟨hb, -⟩, -⟩ := h
    exact hb
  | busOffRecovered k => exact guarded fun _ => .recovered k _

/-! ## Bus-off (R245) -/

theorem onBus_of_busOff {c : Can} (h : bitOf c.esr 2 = true) : c.onBus = false := by
  simp [Can.onBus, Can.busOff, bitBoff, h]

/-- In bus-off `ESR` changes by a controller reset and by the recovery only. -/
theorem HwEffect.esr_of_busOff {c u : Can} {m : HwMove} (h : HwEffect c m u) (hoff : bitOf c.esr 2 = true)
    (hr : ∀ fr, m ≠ .resetDone fr) (hrec : ∀ k, m ≠ .busOffRecovered k) : u.esr = c.esr := by
  have hb : c.onBus ≠ true := by simp [onBus_of_busOff hoff]
  cases h with
  | idle | mode | initLeave | txStart => rfl
  | reset fr => exact absurd rfl (hr fr)
  | recovered k esr => exact absurd rfl (hrec k)
  | freed _ n tsr esr onAir htsr hesr ok => exact hesr.resolve_left hb
  | retry _ tsr esr hbus htsr => exact absurd hbus hb
  | receive b x k f depth rflm esr hbus => exact absurd hbus hb
  | busError code k esr hbus => exact absurd hbus hb

/-- The flag of a recovery is set by leaving init mode in bus-off only. -/
theorem HwEffect.recovering {c u : Can} {m : HwMove} (h : HwEffect c m u) (h0 : c.recovering = false)
    (h1 : u.recovering = true) : m = .initLeave ∧ c.busOff = true := by
  cases h with
  | initLeave msr => exact ⟨rfl, by simpa [h0] using h1⟩
  | reset fr => cases fr <;> cases h1
  | recovered k esr => cases h1
  | idle | mode | txStart | freed | retry | receive | busError => exact absurd (h0.symm.trans h1) Bool.false_ne_true

/-- Settles O42: each move that takes part in bus traffic is idle in bus-off; the rest by what a move can come to. -/
theorem busOffEndsByRecoveryOnly : Obligations.BusOffEndsByRecoveryOnly := by
  unfold Obligations.BusOffEndsByRecoveryOnly
  refine ⟨fun p c hoff => ?off, fun p c k => ?recovery, fun p c m => (move_effect p m c).recovering⟩
  case off =>
    have hb := onBus_of_busOff hoff
    have hreceive (b : BitVec 5) (x : RxMsg) (k : Counters) : c.move p (.receive b x k) = c := by
      simp [Can.move, Can.receive, hb]
    refine ⟨fun n b m k code => ⟨?_, endAttempt_off (.inr hb), endAttempt_off (.inr hb), endAttempt_off (.inr hb),
      hreceive b m k, ?_⟩, fun m hr hrec => ⟨(move_effect p m c).esr_of_busOff hoff hr hrec, ?_⟩⟩
    · simp [Can.move, Can.txStart, hb]
    · simp [Can.move, Can.busError, hb]
    · by_cases hm : ∃ b x k, m = .receive b x k
      · obtain ⟨b, x, k, rfl⟩ := hm
        rw [hreceive]
      · exact move_fifo c hr fun b x k e => hm ⟨b, x, k, e⟩
  case recovery =>
    have hmove : c.move p (.busOffRecovered k) =
        if bitOf c.esr 2 ∧ bitOf c.msr 0 = false ∧ (bitOf c.mcr 6 ∨ c.recovering) ∧ k.tecCount ≤ 255 then
          { c with esr := esrWord (c.esr.extractLsb' 4 3) k false, recovering := false } else c := by
      simp only [Can.move, Can.busOffRecovered, Bool.and_eq_true, Bool.or_eq_true, Bool.not_eq_true', decide_eq_true_eq,
        and_assoc]
      rfl
    by_cases hk : k.tecCount ≤ 255
    · exact ⟨_, esrShows_esrWord _ k (by simpa using hk), hmove⟩
    · refine ⟨esrWord (c.esr.extractLsb' 4 3) k true, esrShows_esrWord _ k (by simpa using hk), ?_⟩
      have hno : ¬(bitOf c.esr 2 ∧ bitOf c.msr 0 = false ∧ (bitOf c.mcr 6 ∨ c.recovering) ∧ k.tecCount ≤ 255) :=
        fun ⟨_, _, _, hle⟩ => hk hle
      rw [hmove, if_neg hno, if_neg hno]

/-! ## A pending frame (R230, R241) -/

/-- The head of a FIFO that is not empty is changed by a controller reset only. -/
theorem HwEffect.head {c u : Can} {m : HwMove} (h : HwEffect c m u) (hr : ∀ fr, m ≠ .resetDone fr) {g : FifoIdx}
    (hq : (c.fifo.get g).queue ≠ []) : (u.fifo.get g).queue.head? = (c.fifo.get g).queue.head? := by
  cases h with
  | reset fr => exact absurd rfl (hr fr)
  | receive b x k f depth rflm esr hbus =>
    by_cases hg : g = f
    · subst hg
      simpa using accept_head hq
    · simp [PerFifo.get_set_ne hg]
  | idle | mode | initLeave | txStart | freed | retry | busError | recovered => rfl

/-- The output registers show the head only. -/
theorem output_of_head {q q' : Fifo} (h : q.queue.head? = q'.queue.head?) (f hidden : RxMsg → Word) (d : Word) :
    q.output f hidden d = q'.output f hidden d := by
  unfold Fifo.output
  cases hq : q.queue <;> cases hq' : q'.queue <;> simp_all

theorem view_output_of_head {s t : State} {f : FifoIdx}
    (h : (t.can.fifo.get f).queue.head? = (s.can.fifo.get f).queue.head?) (d : Word) {q : Reg}
    (hq : q ∈ [Reg.rir f, Reg.rdtr f, Reg.rdlr f, Reg.rdhr f]) : t.view d q = s.view d q := by
  simp only [List.mem_cons, List.not_mem_nil, or_false] at hq
  rcases hq with rfl | rfl | rfl | rfl <;> exact output_of_head h _ _ d

/-- Settles O44: the head stays, and the four registers show the head only. -/
theorem pendingFrameStays : Obligations.PendingFrameStays := by
  unfold Obligations.PendingFrameStays
  intro s m r f hs hr hq
  have hhead := (move_effect s.cfg m s.can).head hr hq
  refine ⟨_, step_hw hs, fun hempty => hq ?_, fun d q => view_output_of_head hhead d⟩
  change ((s.can.move s.cfg m).fifo.get f).queue = [] at hempty
  rwa [hempty, List.head?_nil, eq_comm, List.head?_eq_none_iff] at hhead

/-! ## What no move touches (R24, R238, R247) -/

/-- Freeing a mailbox changes no bit of the mailboxes but `TXRQ`. -/
theorem finishTx_mbx (c : Can) (n j : MbIdx) (ok : Bool) :
    (c.finishTx n ok).mbx.get j = { c.mbx.get j with tir := ((c.finishTx n ok).mbx.get j).tir }
      ∧ ((c.finishTx n ok).mbx.get j).tir.unk = (c.mbx.get j).tir.unk
      ∧ ((c.finishTx n ok).mbx.get j).tir.val &&& ~~~1#32 = (c.mbx.get j).tir.val &&& ~~~1#32 := by
  by_cases h : j = n
  · subst h
    simp [Can.finishTx, clearBits, mTxrq, BitVec.and_assoc]
  · simp [Can.finishTx, PerMb.get_set_ne h]

/-- Software's fields change by a controller reset only. -/
theorem HwEffect.softwareFields {c u : Can} {m : HwMove} (h : HwEffect c m u) (hr : ∀ fr, m ≠ .resetDone fr) :
    u = { c with
        msr := u.msr, tsr := u.tsr, esr := u.esr, mbx := u.mbx, fifo := u.fifo
        txOrder := u.txOrder, onAir := u.onAir, recovering := u.recovering }
      ∧ ∀ n : MbIdx,
          u.mbx.get n = { c.mbx.get n with tir := (u.mbx.get n).tir }
            ∧ (u.mbx.get n).tir.unk = (c.mbx.get n).tir.unk
            ∧ (u.mbx.get n).tir.val &&& ~~~1#32 = (c.mbx.get n).tir.val &&& ~~~1#32 := by
  cases h with
  | reset fr => exact absurd rfl (hr fr)
  | freed _ j tsr esr onAir htsr hesr ok => exact ⟨rfl, fun n => finishTx_mbx _ j n ok⟩
  | idle | mode | initLeave | txStart | retry | receive | busError | recovered =>
    exact ⟨rfl, fun n => ⟨rfl, rfl, rfl⟩⟩

/-- A free mailbox stays free. -/
theorem HwEffect.stays_free {c u : Can} {m : HwMove} (h : HwEffect c m u) (n : MbIdx) (hn : c.empty n = true) :
    u.empty n = true := by
  cases h with
  | reset fr =>
    have htsr : (c.resetCore.resetFilters fr).tsr = Can.reset.tsr := by cases fr <;> rfl
    rw [Can.empty, htsr]
    cases n <;> decide
  | freed _ j tsr esr onAir htsr hesr ok =>
    have hfree : Can.empty { c with tsr := tsr, onAir := onAir } n = true := htsr _ hn
    change (Can.finishTx j ok { c with tsr := tsr, onAir := onAir }).empty n = true
    rw [finishTx_empty, hfree, Bool.true_or]
  | retry _ tsr esr hb htsr => exact htsr _ hn
  | idle | mode | initLeave | txStart | receive | busError | recovered => exact hn

/-- Settles O46: by what a move can come to. -/
theorem canhwKeepsSoftwareFields : Obligations.CanhwKeepsSoftwareFields := by
  unfold Obligations.CanhwKeepsSoftwareFields
  intro s m r hs
  have heffect := move_effect s.cfg m s.can
  exact ⟨_, step_hw hs, rfl, heffect.softwareFields, heffect.stays_free⟩

end Sys2Proof.Machine
end

section
/-! Register writes: those that are ignored, and what a read finds after one that is honoured (R24, R67, R71, R234). -/

namespace Sys2Proof.Machine

/-! ## Writes that are ignored (R234, R313) -/

section
variable {c : Can} (v : BusWord) {n : MbIdx}

theorem write_btr_ignored (h : bitOf c.msr 0 = false) : c.write v .btr = c := by
  simp [Can.write, Can.inInit, bitInak, h]

theorem write_filter_ignored (h : bitOf c.fmr.val 0 = false) :
    c.write v .fm1r = c ∧ c.write v .fs1r = c ∧ c.write v .ffa1r = c := by
  simp [Can.write, Can.finit, h]

theorem write_bank0_ignored (h : bitOf c.fmr.val 0 = false) (ha : bitOf c.fa1r.val 0 = true) :
    c.write v .f0r1 = c ∧ c.write v .f0r2 = c := by
  simp [Can.write, Can.finit, Can.bank0Active, h, ha]

theorem write_mailbox_ignored (h : c.empty n = false) :
    c.write v (.tir n) = c ∧ c.write v (.tdtr n) = c ∧ c.write v (.tdlr n) = c ∧ c.write v (.tdhr n) = c := by
  simp [Can.write, Can.writeTir, Can.writeContent, h]

end

/-! ## Writes that are honoured (R24, R67, R71) -/

/-- Under the mask of the merge only the merged bits are left. -/
theorem mergeBits_and_mask (w m x : Word) : mergeBits w m (x &&& m) &&& m = x &&& m := by
  rw [mergeBits, BitVec.and_or_distrib_right, BitVec.and_assoc w, BitVec.and_comm (~~~m), BitVec.and_not_self,
    BitVec.and_assoc x, BitVec.and_self, BitVec.and_assoc x, BitVec.and_self]
  simp

/-- A register all of whose bits are seen. -/
theorem shown_given (w : Word) (d : Nat) : shown w 0xFFFFFFFF#32 (Config.freeWord d) = .given w d := rfl

/-- A register that has been written in full. -/
theorem uregShown_given (w : Word) (d : Nat) :
    UReg.shown ⟨w, 0#32⟩ 0xFFFFFFFF#32 (Config.freeWord d) = .given w d := shown_ones _ _

section
variable (s : State) (w : Word) (d : Nat)

theorem read_written_mcr : ((s.regWrite .mcr (.lit w)).view (Config.freeWord d) .mcr).on rwMcr = w &&& rwMcr := by
  have hreset : w &&& mReset &&& rwMcr = 0#32 := by
    rw [BitVec.and_assoc, show mReset &&& rwMcr = 0#32 from rfl, BitVec.and_zero]
  rw [State.view, on_shown rfl, regWrite_can, Can.write, BusWord.on_lit, BusWord.on_lit]
  change (mergeBits s.can.mcr rwMcr (w &&& rwMcr) ||| w &&& mReset) &&& rwMcr = _
  rw [BitVec.and_or_distrib_right, mergeBits_and_mask, hreset, BitVec.or_zero]

theorem read_written_ier : ((s.regWrite .ier (.lit w)).view (Config.freeWord d) .ier).on seenIer = w &&& seenIer := by
  rw [State.view, on_shown rfl, regWrite_can, Can.write, BusWord.on_lit]
  exact mergeBits_and_mask _ _ _

theorem read_written_btr (h : bitOf s.can.msr 0 = true) :
    ((s.regWrite .btr (.lit w)).view (Config.freeWord d) .btr).on seenBtr = w &&& seenBtr := by
  have hinit : s.can.inInit = true := h
  rw [State.view, on_shown rfl, regWrite_can, Can.write, if_pos hinit, BusWord.on_lit]
  exact mergeBits_and_mask _ _ _

theorem read_written_tdlr {n : MbIdx} (h : s.can.empty n = true) :
    (s.regWrite (.tdlr n) (.lit w)).view (Config.freeWord d) (.tdlr n) = .given w d := by
  rw [State.view, regWrite_can, Can.write, writeContent_of_empty h, setMbx_get, store_full, uregShown_given]

theorem read_written_tdhr {n : MbIdx} (h : s.can.empty n = true) :
    (s.regWrite (.tdhr n) (.lit w)).view (Config.freeWord d) (.tdhr n) = .given w d := by
  rw [State.view, regWrite_can, Can.write, writeContent_of_empty h, setMbx_get, store_full, uregShown_given]

theorem read_written_fmr : (s.regWrite .fmr (.lit w)).view (Config.freeWord d) .fmr = .given w d := by
  rw [State.view, regWrite_can, write_fmr, BusWord.word_lit, uregShown_given]

theorem read_written_fa1r : (s.regWrite .fa1r (.lit w)).view (Config.freeWord d) .fa1r = .given w d := by
  rw [State.view, regWrite_can, write_fa1r, BusWord.word_lit, uregShown_given]

theorem read_written_ipr (k : Irq) :
    (s.regWrite (.ipr k) (.lit w)).view (Config.freeWord d) (.ipr k) = .given w d := by
  simp only [State.view, regWrite_nvic, Nvic.prioOf_setPrio, BusWord.word_lit, shown_given]

/-- A write of `ISER` sets enables and clears none (R44). -/
theorem read_written_iser (k : Irq) :
    (s.regWrite (.iser k) (.lit w)).view (Config.freeWord d) (.iser k) = .given (s.nvic.enOf k ||| w) d := by
  simp only [State.view, regWrite_nvic, Nvic.enOf_setEn, BusWord.word_lit, setBits, shown_given]

theorem read_written_vtor : (s.regWrite .vtor (.lit w)).view (Config.freeWord d) .vtor = .given w d := by
  simp only [State.view, regWrite_vtor, if_pos, BusWord.word_lit, shown_given]

theorem read_written_slot (k : Nat) :
    (s.regWrite (.slot k) (.lit w)).view (Config.freeWord d) (.slot k) = .given w d := by
  simp only [State.view, regWrite_mem, State.regWrite_cfg, BusWord.word_lit, Memory.readWord_putWord, BusWord.given]

end

/-- Settles O37: the writes that are ignored, then a read after a write of each register. -/
theorem registerWrites : Obligations.RegisterWrites :=
  ⟨fun _ v _ =>
    ⟨write_btr_ignored v,
      fun h =>
        let ⟨hm, hs, hf⟩ := write_filter_ignored v h
        ⟨hm, hs, hf, write_bank0_ignored v h⟩,
      write_mailbox_ignored v⟩,
    fun s w d k _ _ =>
      ⟨read_written_mcr s w d, read_written_ier s w d, read_written_btr s w d,
        fun h => ⟨read_written_tdlr s w d h, read_written_tdhr s w d h⟩, read_written_fmr s w d,
        read_written_fa1r s w d, read_written_ipr s w d k, read_written_iser s w d k, read_written_vtor s w d,
        fun _ => read_written_slot s w d k.toNat⟩⟩

end Sys2Proof.Machine
end

section
/-! The two interrupt lines of the receive FIFOs (R51, R52, R243). -/

namespace Sys2Proof.Machine

theorem rxLine_iff (s : State) (f : FifoIdx) :
    s.rxLine f = true ↔ bitOf s.can.ier (bitFmpie f) = true ∧ (s.can.fifo.get f).queue ≠ [] := by
  simp [State.rxLine]

/-- The asserted lines, one by one. -/
theorem mem_asserted (s : State) (k : Irq) :
    k ∈ s.asserted ↔ (s.rxLine .f0 = true ∧ k = s.cfg.irqRx0) ∨ (s.rxLine .f1 = true ∧ k = s.cfg.irqRx1)
      ∨ (k ∈ s.lines ∧ k ≠ s.cfg.irqRx0 ∧ k ≠ s.cfg.irqRx1) := by
  have hline (b : Bool) (j : Irq) : k ∈ (if b then [j] else []) ↔ b = true ∧ k = j := by cases b <;> simp
  simp only [State.asserted, List.mem_append, hline, List.mem_filter, Bool.and_eq_true, decide_eq_true_eq, or_assoc]

/-- `FMP`, the two lowest bits of `RFfR`, is the length of the queue (R28, R51). -/
theorem rfr_fmp {q : Fifo} (h : q.queue.length ≤ 3) : (q.rfr &&& 3#32).toNat = q.queue.length := by
  have hmask : ∀ (x : BitVec 2) (full fovr : Bool),
      (x.setWidth 32 ||| (if full then oneBit 3 else 0#32) ||| (if fovr then oneBit 4 else 0#32)) &&& 3#32
        = x.setWidth 32 := by decide
  rw [Fifo.rfr, hmask, BitVec.toNat_setWidth, BitVec.toNat_ofNat]
  omega

/-- Settles O45: which lines are asserted, and what `RFfR` shows under the mask of `FMP`. -/
theorem linesFollowFifos : Obligations.LinesFollowFifos := by
  unfold Obligations.LinesFollowFifos
  intro s hne
  refine ⟨?_, ?_, fun f d hlen => ?_⟩
  · have hline : s.rxLine .f0 = true ↔ bitOf s.can.ier 1 = true ∧ s.can.fifo.f0.queue ≠ [] := rxLine_iff s .f0
    rw [mem_asserted, ← hline]
    simp [hne]
  · have hline : s.rxLine .f1 = true ↔ bitOf s.can.ier 4 = true ∧ s.can.fifo.f1.queue ≠ [] := rxLine_iff s .f1
    rw [mem_asserted, ← hline]
    simp [hne.symm]
  · rw [State.view, on_shown rfl, rfr_fmp hlen]

end Sys2Proof.Machine
end

section
/-! The context check: which operations end in `ContextFault`, and when (R92, R260, R274). -/

namespace Sys2Proof.Machine

section
variable {i : Instr} {s : State} {o : Host.Outcome State Fault Refusal}

/-- An outcome that any operation could answer is no `ContextFault`: that fault names the operation it is for. -/
theorem ne_contextFault_of_guarded (h : ∀ j, Guarded j o) : o ≠ .fault (.contextFault i) := by
  intro ho
  cases h .cbRx0 _ ho
  cases h .cbRx1 _ ho

theorem inContext_contextFault_iff {a : Admit} (h : ∀ j, Guarded j o) :
    inContext a i s o = .fault (.contextFault i) ↔ a.holds s = false := by
  unfold inContext
  split
  · next ha => simp [ha, ne_contextFault_of_guarded h]
  · next ha => simpa using ha

theorem threadOnly_contextFault_iff (h : ∀ j, Guarded j o) :
    inContext .threadOnly i s o = .fault (.contextFault i) ↔ s.ctx ≠ .thread :=
  (inContext_contextFault_iff h).trans (by simp [Admit.holds])

theorem anyContext_contextFault_iff (h : ∀ j, Guarded j o) :
    inContext .anyContext i s o = .fault (.contextFault i) ↔ False :=
  (inContext_contextFault_iff h).trans (by simp [Admit.holds])

theorem trampolineOnly_contextFault_iff (h : ∀ j, Guarded j o) :
    inContext .trampolineOnly i s o = .fault (.contextFault i) ↔ s.ctx ≠ .thread ∨ s.issuer ≠ .trampoline :=
  (inContext_contextFault_iff h).trans (by
    rw [Admit.holds, Bool.and_eq_false_iff, decide_eq_false_iff_not, decide_eq_false_iff_not, or_comm])

theorem callbackOnly_contextFault_iff (h : ∀ j, Guarded j o) :
    inContext .callbackOnly i s o = .fault (.contextFault i) ↔ s.ctx = .thread ∨ s.issuer ≠ .callback :=
  (inContext_contextFault_iff h).trans (by
    rw [Admit.holds, Bool.and_eq_false_iff, decide_eq_false_iff_not, decide_eq_false_iff_not, Decidable.not_not,
      or_comm])

end

/-- Settles O35: the row of R274 for each operation, its body raising no `ContextFault`; the steps and the callback
bodies have no command word. -/
theorem wrongContextRefused : Obligations.WrongContextRefused := by
  unfold Obligations.WrongContextRefused
  intro w i s hd
  have hw : encode Params.default i = .command w := decodeCommand_ok hd
  cases i with
  | vtRelocate | canInit | canStart => exact threadOnly_contextFault_iff fun _ => guarded_next _
  | vtInstall k => exact threadOnly_contextFault_iff fun _ => guarded_withIrq _ _ (guarded_next _)
  | mbSend n =>
    exact threadOnly_contextFault_iff fun _ => guarded_withMailbox fun _ => guarded_withFrame _ (guarded_next _)
  | mbAbort n => exact threadOnly_contextFault_iff fun _ => guarded_withMailbox fun _ => guarded_next _
  | canSend => exact threadOnly_contextFault_iff fun _ => guarded_withFrame _ (guarded_next _)
  | vtDispatch k =>
    exact trampolineOnly_contextFault_iff fun _ =>
      guarded_withIrq _ _ (guarded_ite (guarded_next _) (guarded_fault (.notLive k)))
  | canRxisr f => exact callbackOnly_contextFault_iff fun _ => guarded_withFifo fun _ => guarded_next _
  | btSolve | esUpdate | canGeterr =>
    exact anyContext_contextFault_iff (s := s) fun _ => guarded_next _
  | esLabel c =>
    change execEsLabel c s = _ ↔ _
    unfold execEsLabel
    exact anyContext_contextFault_iff fun _ => guarded_ite (guarded_fault (.range c)) (guarded_next _)
  | mbUpdate n | canGetmb n =>
    exact anyContext_contextFault_iff (s := s) fun _ => guarded_withMailbox fun _ => guarded_next _
  | stepReset | stepExitsleep | stepEnterconfig | stepOptions | stepTiming | stepFilter | stepLeaveconfig
  | stepEnableirq | cbDefault | cbRx0 | cbRx1 => cases hw

end Sys2Proof.Machine
end

section
/-! The interrupt the trampoline takes: the order of urgency (R268), the pending lines (R266), the move. -/

namespace Sys2Proof.Machine

/-- The rank of a line: its priority value above its number. The smallest is the most urgent (R268, log 28). -/
def State.urgencyRank (s : State) (k : Irq) : Nat := (s.prio k).toNat * 256 + k.toNat

section
variable {s : State} {k : Irq} {l : List Irq}

theorem urgencyRank_le_iff {j : Irq} :
    s.urgencyRank k ≤ s.urgencyRank j ↔ s.prio k < s.prio j ∨ s.prio k = s.prio j ∧ k ≤ j := by
  have hk := k.isLt
  have hj := j.isLt
  simp only [State.urgencyRank, BitVec.lt_def, BitVec.le_def, ← BitVec.toNat_inj]
  omega

/-- The model's comparison is the order of the ranks. -/
theorem moreUrgent_iff {j : Irq} : s.moreUrgent j k = true ↔ s.urgencyRank j < s.urgencyRank k := by
  have hk := k.isLt
  have hj := j.isLt
  simp only [State.moreUrgent, State.urgencyRank, BitVec.lt_def, ← BitVec.toNat_inj, Bool.or_eq_true,
    Bool.and_eq_true, decide_eq_true_eq]
  omega

theorem mostUrgent_eq_none_iff : s.mostUrgent l = none ↔ l = [] := by
  cases l with
  | nil => simp [State.mostUrgent]
  | cons k l =>
    simp only [State.mostUrgent, reduceCtorEq, iff_false]
    split
    · simp
    · split <;> simp

theorem exists_mostUrgent_iff : (∃ k, s.mostUrgent l = some k) ↔ ∃ k, k ∈ l := by
  rw [← Option.ne_none_iff_exists', ne_eq, mostUrgent_eq_none_iff, List.eq_nil_iff_forall_not_mem,
    Classical.not_forall_not]

/-- The most urgent line of a list is one of it, and none of the list has a smaller rank. -/
theorem mostUrgent_spec (h : s.mostUrgent l = some k) : k ∈ l ∧ ∀ j ∈ l, s.urgencyRank k ≤ s.urgencyRank j := by
  induction l generalizing k with
  | nil => cases h
  | cons i l ih =>
    rw [State.mostUrgent] at h
    cases hl : s.mostUrgent l with
    | none =>
      rw [hl] at h
      cases h
      simp [mostUrgent_eq_none_iff.1 hl]
    | some m =>
      obtain ⟨hm, hmin⟩ := ih hl
      simp only [hl] at h
      split at h
      · next hu =>
        cases h
        have hlt := moreUrgent_iff.1 hu
        exact ⟨List.mem_cons_of_mem _ hm, List.forall_mem_cons.2 ⟨Nat.le_of_lt hlt, hmin⟩⟩
      · next hu =>
        cases h
        have hle : s.urgencyRank i ≤ s.urgencyRank m := Nat.not_lt.1 (mt moreUrgent_iff.2 hu)
        exact ⟨List.mem_cons_self, List.forall_mem_cons.2 ⟨Nat.le_refl _, fun j hj => Nat.le_trans hle (hmin j hj)⟩⟩

theorem mem_pending : k ∈ s.pending ↔ k ∈ s.asserted ∧ s.en k = true ∧ k.toNat < s.cfg.nVec := by
  simp [State.pending]

theorem takeable_of_admitted (h : s.halted = false ∧ s.ctx = .thread ∧ s.port = none) :
    s.takeable = s.mostUrgent s.pending := by
  obtain ⟨hh, hc, hp⟩ := h
  simp [State.takeable, hh, hc, hp]

/-- What may be taken is the most urgent pending line, of a running machine in thread context with a free port. -/
theorem takeable_eq_some_iff :
    s.takeable = some k ↔
      (s.halted = false ∧ s.ctx = .thread ∧ s.port = none) ∧ s.mostUrgent s.pending = some k :=
  ⟨fun h => ⟨of_takeable h, (takeable_of_admitted (of_takeable h)).symm.trans h⟩,
    fun ⟨h, hm⟩ => (takeable_of_admitted h).trans hm⟩

/-- Some line may be taken exactly when the machine admits it and a line is pending (R266). -/
theorem takeable_isSome_iff :
    s.takeable.isSome = true ↔
      (s.halted = false ∧ s.ctx = .thread ∧ s.port = none) ∧ ∃ k, k ∈ s.pending := by
  simp only [Option.isSome_iff_exists, takeable_eq_some_iff, exists_and_left, exists_mostUrgent_iff]

/-- With nothing scheduled the trampoline takes its interrupt (log 1). -/
theorem step_trampoline_nil (ht : s.takeable = some k) (hs : s.sched = []) :
    step s = .next (s.setPort (some ⟨.trampoline, commandWord 0x03#8 k⟩)) := by
  have hact : trampolineAct s = s.setPort (some ⟨.trampoline, commandWord 0x03#8 k⟩) := by
    rw [trampolineAct, ht]
    rfl
  apply step_of_out
  rw [fetch, hs]
  simp [ht, hact]

end

/-- Settles O47: the order of the ranks is that of R268, and the trampoline's move writes the port. -/
theorem trampolineTakesMostUrgentLine : Obligations.TrampolineTakesMostUrgentLine := by
  unfold Obligations.TrampolineTakesMostUrgentLine
  refine ⟨fun s => ⟨?_, fun k hk => ?_⟩, fun s k r ht hs => ?_⟩
  · simp only [takeable_isSome_iff, mem_pending, and_assoc]
  · obtain ⟨-, hmost⟩ := takeable_eq_some_iff.1 hk
    obtain ⟨hmem, hmin⟩ := mostUrgent_spec hmost
    obtain ⟨ha, he, hlt⟩ := mem_pending.1 hmem
    exact ⟨ha, he, hlt, fun j hj hje hjlt => urgencyRank_le_iff.1 (hmin j (mem_pending.2 ⟨hj, hje, hjlt⟩))⟩
  · refine ⟨commandWord 0x03#8 k, ?_, decodeCommand_commandWord 0x03#8 k⟩
    rcases hs with hs | ⟨hs, rfl⟩
    · exact step_trampoline ht hs
    · rw [step_trampoline_nil ht hs, ← hs]
      rfl

end Sys2Proof.Machine
end

section
/-! Power-on reset (R300, R54), and a wait that does not find its bit (R310). -/

namespace Sys2Proof.Machine

/-! ## The wait (R310) -/

/-- `n` reads of a wait that do not find the bit leave the state they began in, but for the schedule, the reads made, the
record and the local. -/
theorem polls_run {s : State} {q : Reg} {b : Nat} {val : Bool} {rest : List Op} {r : List Move}
    (h : s.halted = false ∧ s.port = none ∧ s.token = none)
    (hb : ∀ d, (s.view (Config.freeWord d) q).bit b ≠ val) (n d : Nat) (t : List BusEvent) (v : BusWord) :
    ∃ w, Reaches n (s.busy s.can d t (engineMoves n r) ⟨.bus (.wait q b val) :: rest, v⟩)
      (s.busy s.can (d + n) (t ++ s.pollEvents q d n) r ⟨.bus (.wait q b val) :: rest, w⟩) := by
  induction n generalizing d t v with
  | zero => exact ⟨v, by simp [State.pollEvents]⟩
  | succ n ih =>
    obtain ⟨w, hrun⟩ := ih (d + 1) (t ++ [s.reads q (s.view (Config.freeWord d) q)]) (s.view (Config.freeWord d) q)
    have hd : d + 1 + n = d + (n + 1) := by omega
    rw [hd, List.append_assoc, List.singleton_append, ← pollEvents_succ] at hrun
    rw [engineMoves_succ]
    exact ⟨w, reaches_poll h rfl (hb d) hrun⟩

/-- Settles O31, by induction on the number of reads. -/
theorem waitsAreUnbounded : Obligations.WaitsAreUnbounded := by
  unfold Obligations.WaitsAreUnbounded
  intro reg b val rest n s r hops ⟨hh, hport, htok, hsched⟩ hb
  obtain ⟨w, hrun⟩ := polls_run (rest := rest) (r := r) ⟨hh, hport, htok⟩ hb n s.draws s.trace s.task.v
  rw [← hops, ← hsched, ← busy_self] at hrun
  exact ⟨w, hrun⟩

/-! ## The values after power-on reset (R54) -/

theorem rfr_fifo_reset (f : FifoIdx) : (Can.reset.fifo.get f).rfr = 0#32 := by
  cases f <;> decide

theorem queue_fifo_reset (f : FifoIdx) : (Can.reset.fifo.get f).queue = [] := by
  cases f <;> rfl

/-- No line is enabled at reset (R44). -/
theorem en_resetWith (p : Params) (k : Irq) : (State.resetWith p).en k = false := by
  have hword : Nvic.reset.enOf k = 0#32 := Vector.getElem_replicate _
  change bitOf (Nvic.reset.enOf k) _ = false
  rw [hword, bitOf, BitVec.getLsbD_zero]

/-- Every line has priority 0 at reset (R45). -/
theorem prio_resetWith (p : Params) (k : Irq) : (State.resetWith p).prio k = 0#8 := by
  have hword : Nvic.reset.prioOf k = 0#32 := Vector.getElem_replicate _
  change (Nvic.reset.prioOf k).extractLsb' _ 8 = 0#8
  rw [hword, BitVec.extractLsb'_zero]

/-- A given bit of a register all of whose bits are implemented is read as it stands. -/
theorem bit_shown_ones {u : UReg} {b : Nat} (h : bitOf u.unk b = false) (d : Word) :
    (u.shown 0xFFFFFFFF#32 d).bit b = bitOf u.val b := by
  rw [shown_ones]
  exact BusWord.bit_known h

/-- A word of the table RAM in which no byte is written is the free value of the read (R47). -/
theorem word_readWord_nil (a : Nat) (d : Word) : (Memory.readWord [] a d).word = d := by
  have hbyte : ∀ a, Memory.byteAt [] a = none := fun _ => rfl
  have hread : Memory.readWord [] a d = ⟨0#32, 0xFFFFFFFF#32, d⟩ := by
    simp [Memory.readWord, hbyte, knownByte, openByte]
  have hopen : ¬(0xFFFFFFFF#32 : Word) &&& 0xFFFFFFFF#32 = 0#32 := by decide
  rw [hread, BusWord.word, BusWord.on, if_neg hopen, BitVec.zero_and, BitVec.zero_or, and_ones, and_ones]

/-- Settles O51: the step is `powerOn`, and the values are those of `State.resetWith`. -/
theorem powerOnReset : Obligations.PowerOnReset := by
  unfold Obligations.PowerOnReset
  refine ⟨fun s r hs => step_powerOn hs, ?values⟩
  case values =>
    intro p s hs hflash
    subst hs
    refine ⟨rfl, rfl, rfl, rfl, rfl, rfl, decide_eq_false hflash, rfl, en_resetWith p, prio_resetWith p, rfl, rfl, rfl,
      ?fifo, rfl, rfl, rfl, ?txrq, ?finit, rfl, rfl, rfl, rfl, rfl, ?slots⟩
    case fifo => exact fun f => ⟨rfr_fifo_reset f, queue_fifo_reset f⟩
    case txrq =>
      intro n d
      have htir : (Can.reset.mbx.get n).tir = MbRegs.reset.tir := by cases n <;> rfl
      change ((Can.reset.mbx.get n).tir.shown 0xFFFFFFFF#32 d).bit 0 = false
      rw [htir]
      exact bit_shown_ones (by decide) d
    case finit => exact bit_shown_ones (u := Can.reset.fmr) (by decide)
    case slots => exact fun k d => word_readWord_nil _ d

end Sys2Proof.Machine
end
